-- ==== Sys2Proof/Word.lean ====
section
/-! DEFINITION. The word types of the pi_play link core (00_scope.md R12: every register value is an
unsigned integer of its register's width, bit 0 least significant). -/

namespace Sys2Proof

/-- One byte: a symbol (R11), or one byte of a table or buffer. -/
abbrev Byte := BitVec 8

/-- One 32-bit word: a register, a bus access, a command word (R22's register region, R58, R78). -/
abbrev Word := BitVec 32

/-- The four bytes of a word in the order of their offsets: little-endian (20_memory.md R61). -/
def Word.bytes (w : Word) : List Byte :=
  [w.extractLsb' 0 8, w.extractLsb' 8 8, w.extractLsb' 16 8, w.extractLsb' 24 8]

/-- The word whose byte at offset +k is the k-th argument (20_memory.md R61). -/
def Word.ofBytes (b0 b1 b2 b3 : Byte) : Word := b3 ++ b2 ++ b1 ++ b0

end Sys2Proof
end

