-- ==== Sys2Proof/Config.lean ====
section
/-! DEFINITION. What an implementation fixes (the parameters of 00_scope.md section 4), what the
outside world does (the inputs of R14's agents), and the free values (R13 `unspecified`). A free value
is an opaque constant with no body, so nothing in Lean can know it. -/

namespace Sys2Proof

/-- The two capacities a model takes as arguments (R8, R9). They are held in the machine's state,
where no step changes them, so a theorem about every state is a theorem about every choice. -/
structure Params where
  /-- MSG_MAX: the capacity of MSG, DMSG and RMSG, in symbols (R8). -/
  msgMax : Nat
  /-- BITS_MAX: the capacity of FBUF and RBUF, in bits (R9). -/
  bitsMax : Nat
deriving DecidableEq, Repr

/-- The default capacities of R8 and R9. -/
def Params.default : Params := { msgMax := 4096, bitsMax := 65536 }

/-- One turn of one agent (00_scope.md R14). The environment's agent has no turn of its own: the
level of line_in comes with the tick (R14 (f), R116). -/
inductive Input where
  /-- The host reads the word at a byte offset, with these byte strobes (R19, R58). -/
  | hostRead (addr : BitVec 20) (strb : BitVec 4)
  /-- The host writes the word at a byte offset, with these byte strobes (R19, R58). -/
  | hostWrite (addr : BitVec 20) (strb : BitVec 4) (data : Word)
  /-- The command engine completes the pending command (R85). -/
  | complete
  /-- The timebase ticks, and line_in has this level for the tick (R116). -/
  | tick (lineIn : Bool)
  /-- The RX frame parser completes a frame (R128). -/
  | parseFrame
  /-- rst_n is asserted and released (R151). -/
  | reset
deriving DecidableEq, Repr, Inhabited

/-- FREE VALUE (R151, U1): the byte that storage nobody has written returns. The arguments are the
number of the step that reads (so each step takes a fresh draw), the pass of the reading command over
its operands, and the byte's offset within the core. Log entry 1. -/
opaque Config.freeByte : Nat → Nat → Nat → Byte

/-- FREE VALUE (R71, U2): the word a host read of a pending command's destination returns, by the
number of the step that reads. Log entry 2. -/
opaque Config.freeWord : Nat → Word

/-- A free stretch of a run: any turns at all, before, between and after one completion, one parse step and
one tick. Every run in which these three recur (00_scope.md R15) is a sequence of such rounds. -/
structure Round where
  /-- The turns before the completion. -/
  beforeComplete : List Input
  /-- The turns between the completion and the parse step. -/
  beforeParse : List Input
  /-- The turns between the parse step and the tick. -/
  beforeTick : List Input
  /-- The level of line_in at the tick. -/
  lineIn : Bool
deriving DecidableEq, Repr, Inhabited

/-- FREE VALUE (R14, R15, R86, U3, U4, U5): the turns taken when the agenda lists none, by the number of
the step that takes the first of them: any agent may move next, the host may make any access, line_in may
have any level, and every latency is finite and unbounded. Log entry 3. -/
opaque Config.freeRound : Nat → Round

/-- PARAMETER (R10, U7): clk cycles per tick. No rule reads it, and no definition of the model does. -/
opaque Config.clkPerTick : Nat

/-- PARAMETER (R59, U8): where the core sits in a system's address space. Every offset of the model
is relative to it, and no definition of the model reads it. -/
opaque Config.coreBase : Nat

end Sys2Proof
end

