-- ==== Sys2Proof/Syntax.lean ====
section
/-! DEFINITION. The command set: one constructor per row of spec/opcode_table.json, and the one
format CMD32 of a command word (30_encoding.md R78, R80). -/

namespace Sys2Proof

/-- The fields of a command word (R78): OP = bits [7:0], P = bit [8], reserved = bits [31:9]. -/
structure Cmd32 where
  op : BitVec 8
  p : BitVec 1
  reserved : BitVec 23
deriving DecidableEq, Repr

/-- The 15 commands of 30_encoding.md R80, the core's instruction set. CLASSIFY has the one
operand of the set, its phase selector P (R79); every other command is its mnemonic alone (R82). -/
inductive Instr where
  | nop
  | freq
  | build
  | codes
  | encode
  | decode
  | addck
  | validate
  | parse
  /-- `CLASSIFY.A` is P = 0 (awaiting), `CLASSIFY.R` is P = 1 (receiving). -/
  | classify (p : BitVec 1)
  | txStart
  | txStop
  | rxStart
  | rxStop
  | sreset
deriving DecidableEq, Repr

end Sys2Proof
end

