-- ==== Sys2Proof/WellFormed.lean ====
section
/-! DEFINITION. Well-formedness: the three checks a command word's fields must pass (30_encoding.md
R81), and the legal values of the parameters (00_scope.md R8, R9). A term of `Instr` has no field that
could be ill-formed (its one operand is one bit, R79), so the checks are those of the words. -/

namespace Sys2Proof

/-- The 15 opcodes of R80. -/
def assignedOps : List (BitVec 8) :=
  [0x00, 0x01, 0x02, 0x03, 0x04, 0x05, 0x06, 0x07, 0x08, 0x09, 0x10, 0x11, 0x12, 0x13, 0x1F]

/-- R81 (a): OP is in the table of R80. -/
def Cmd32.opAssigned (c : Cmd32) : Bool := assignedOps.contains c.op

/-- R81 (b): none of bits [31:9] is 1. -/
def Cmd32.reservedZero (c : Cmd32) : Bool := c.reserved == 0

/-- R81 (c): P = 1 only with OP = 0x09. -/
def Cmd32.phaseAllowed (c : Cmd32) : Bool := c.p == 0 || c.op == 0x09

/-- A word is one of the 15 commands exactly when it passes the three checks of R81. -/
def Cmd32.wellFormed (c : Cmd32) : Bool := c.opAssigned && c.reservedZero && c.phaseAllowed

/-- Why a word is illegal: one name for each clause of R81. -/
inductive Illegal where
  /-- R81 (a): no command has this OP. -/
  | unassignedOp
  /-- R81 (b): one of bits [31:9] is 1. -/
  | reservedBits
  /-- R81 (c): P = 1 and OP is not 0x09. -/
  | phaseBit
deriving DecidableEq, Repr

/-- R8: MSG_MAX is a multiple of 4 from 4 to 65536. -/
def Params.msgMaxLegal (p : Params) : Bool :=
  p.msgMax % 4 == 0 && decide (4 ≤ p.msgMax) && decide (p.msgMax ≤ 65536)

/-- R9: BITS_MAX is a multiple of 32 from 64 to 524288. -/
def Params.bitsMaxLegal (p : Params) : Bool :=
  p.bitsMax % 32 == 0 && decide (64 ≤ p.bitsMax) && decide (p.bitsMax ≤ 524288)

/-- Both capacities are legal. -/
def Params.legal (p : Params) : Bool := p.msgMaxLegal && p.bitsMaxLegal

end Sys2Proof
end

