-- ==== Sys2Proof/Decode.lean ====
section
/-! DEFINITION. The decoder of command words, total and refusing by name (30_encoding.md R78, R80,
R81), and after it the encoder, written from the opcode map of R80. -/

namespace Sys2Proof

/-- The fields of a word (R78). -/
def Cmd32.ofWord (w : Word) : Cmd32 :=
  { op := w.extractLsb' 0 8, p := w.extractLsb' 8 1, reserved := w.extractLsb' 9 23 }

/-- The command an assigned opcode selects (R80); P is an operand of CLASSIFY only. -/
def commandOf (op : BitVec 8) (p : BitVec 1) : Option Instr :=
  if op = 0x00 then some .nop
  else if op = 0x01 then some .freq
  else if op = 0x02 then some .build
  else if op = 0x03 then some .codes
  else if op = 0x04 then some .encode
  else if op = 0x05 then some .decode
  else if op = 0x06 then some .addck
  else if op = 0x07 then some .validate
  else if op = 0x08 then some .parse
  else if op = 0x09 then some (.classify p)
  else if op = 0x10 then some .txStart
  else if op = 0x11 then some .txStop
  else if op = 0x12 then some .rxStart
  else if op = 0x13 then some .rxStop
  else if op = 0x1F then some .sreset
  else none

/-- The command a word is, or the clause of R81 that makes it illegal. -/
def decode (w : Word) : Except Illegal Instr :=
  let c := Cmd32.ofWord w
  match commandOf c.op c.p with
  | none => .error .unassignedOp
  | some i =>
    if !c.reservedZero then .error .reservedBits
    else if !c.phaseAllowed then .error .phaseBit
    else .ok i

/-- The decoder on the bytes of a command word as a bus write carries them, the first at the lowest
offset (20_memory.md R61). A command is exactly four bytes (R78). -/
def decodeBytes : List Byte → Option Instr
  | [b0, b1, b2, b3] => (decode (Word.ofBytes b0 b1 b2 b3)).toOption
  | _ => none

/-- The fields of each command's word (R80). -/
def Instr.fields : Instr → Cmd32
  | .nop => { op := 0x00, p := 0, reserved := 0 }
  | .freq => { op := 0x01, p := 0, reserved := 0 }
  | .build => { op := 0x02, p := 0, reserved := 0 }
  | .codes => { op := 0x03, p := 0, reserved := 0 }
  | .encode => { op := 0x04, p := 0, reserved := 0 }
  | .decode => { op := 0x05, p := 0, reserved := 0 }
  | .addck => { op := 0x06, p := 0, reserved := 0 }
  | .validate => { op := 0x07, p := 0, reserved := 0 }
  | .parse => { op := 0x08, p := 0, reserved := 0 }
  | .classify p => { op := 0x09, p := p, reserved := 0 }
  | .txStart => { op := 0x10, p := 0, reserved := 0 }
  | .txStop => { op := 0x11, p := 0, reserved := 0 }
  | .rxStart => { op := 0x12, p := 0, reserved := 0 }
  | .rxStop => { op := 0x13, p := 0, reserved := 0 }
  | .sreset => { op := 0x1F, p := 0, reserved := 0 }

/-- The word of a command: its fields in CMD32's places (R78). -/
def encode (i : Instr) : Word := i.fields.reserved ++ i.fields.p ++ i.fields.op

/-- The command read from the word `w` of `nbits` bits, numbered as spec/opcode_table.json numbers
them: the low `nbits` bits of `w`, the bits above them zero, as the four bytes a write to CMD carries.
A command is 32 bits (R78), so a wider row is none. -/
def decodeTableWord (nbits w : Nat) : Option Instr :=
  if nbits ≤ 32 then decodeBytes (Word.bytes (BitVec.ofNat 32 (w % 2 ^ nbits))) else none

end Sys2Proof
end

