-- ==== Sys2Proof/Machine/State.lean ====
section
/-! DEFINITION. The state of the pi_play link core (10_state.md), every register, table, buffer and
piece of hidden state the spec names, as plain data, and the state right after reset
(70_reset_and_hazards.md R151). Registers are grouped as the spec groups them; a register of several
fields is held as its fields, its reserved bits being no state at all (they read 0 and ignore
writes, 10_state.md section 3). -/

namespace Sys2Proof.Machine

/-- The command error codes of 60_exceptions.md R135 (codes 8 to 15 are never produced). -/
inductive CmdError where
  | ok | illegal | busy | range | empty | stale | overflow | notree
deriving DecidableEq, Repr

/-- The frame result codes of 10_state.md R30 (codes 7 to 15 are never produced). -/
inductive FrameResult where
  | unset | good | short | corrupt | rxovf | notree | decovf
deriving DecidableEq, Repr

/-- The pulse classes of 10_state.md R33 (codes 5 to 7 are never produced). -/
inductive PulseClass where
  | noise | bit0 | bit1 | init | term
deriving DecidableEq, Repr

/-- The TX phases of 42_pulse.md R118. -/
inductive TxPhase where
  | idle | pre | init | gapi | bith | bitl | term | delay
deriving DecidableEq, Repr

/-- The RX states of 10_state.md R39 (codes 5 to 7 are never produced). -/
inductive RxPhase where
  | idle | await | recv | parse | delay
deriving DecidableEq, Repr

/-- The edge detector's states of 10_state.md R39 (code 3 is never produced). -/
inductive Detector where
  | needLow | low | high
deriving DecidableEq, Repr

/-- The command engine: PENDING (R55), CMD_STATUS.ERR and LAST_OP (R24) and ERR_INFO (R25).
CMD_STATUS.BUSY is 1 exactly when PENDING is not none (R55), so it is no field. -/
structure CmdRegs where
  pending : Option Word
  err : CmdError
  lastOp : BitVec 8
  errInfo : Word
deriving DecidableEq, Repr

/-- CFG (R26). -/
structure CfgRegs where
  pad : BitVec 3
  loop : Bool
  txRepeat : Bool
  rxCont : Bool
deriving DecidableEq, Repr

/-- The lengths and results of the codec commands (R27, R28, R29). -/
structure CodecRegs where
  msgLen : Word
  fbufLen : Word
  dmsgLen : Word
  decTrail : Word
  padLen : BitVec 3
  cksum : Word
deriving DecidableEq, Repr

/-- The frame results of the command path (R31): VAL_RESULT, VAL_SUM, VAL_CK and VAL_FID. -/
structure ValRegs where
  result : FrameResult
  sum : Word
  ck : Word
  fid : Word
deriving DecidableEq, Repr

/-- TREE_STATUS (R32). -/
structure TreeRegs where
  tv : Bool
  cv : Bool
  root : BitVec 9
  nleaf : BitVec 9
deriving DecidableEq, Repr

/-- CLS_IN and CLS_OUT (R33). -/
structure ClsRegs where
  input : Word
  output : PulseClass
deriving DecidableEq, Repr

/-- Bits [7:0] of IRQ_STATUS and IRQ_EN (R34). -/
structure IrqRegs where
  status : BitVec 8
  enable : BitVec 8
deriving DecidableEq, Repr

/-- TIME and the hidden TIME_SHADOW (R36). -/
structure ClockRegs where
  time : BitVec 64
  shadow : Word
deriving DecidableEq, Repr

/-- The TX engine's status (R37): TX_STATUS.PHASE, TX_BITIDX, TX_LEN, TX_COUNT and TX_REM.
TX_STATUS.LEVEL is a function of the phase (R37, R118), so it is no field. -/
structure TxRegs where
  phase : TxPhase
  bitIdx : Word
  len : Word
  count : Word
  rem : Word
deriving DecidableEq, Repr

/-- The TX timing registers (R38). -/
structure TxTiming where
  pre : Word
  init : Word
  gap : Word
  bit0 : Word
  bit1 : Word
  term : Word
  delay : Word
deriving DecidableEq, Repr

/-- A frame that waits for the frame parser: its bit count and its overflow flag (R56). -/
structure Snapshot where
  len : Word
  ovf : Bool
deriving DecidableEq, Repr

/-- The RX engine's status (R39) and hidden state (R56): RX_STATUS.STATE, DET, LEVEL and OVF,
RBUF_LEN, RX_HCNT, RX_DCNT and RX_PARSE_PENDING. -/
structure RxRegs where
  phase : RxPhase
  det : Detector
  level : Bool
  ovf : Bool
  rbufLen : Word
  hcnt : Word
  dcnt : Word
  parsePending : Option Snapshot
deriving DecidableEq, Repr

/-- The RX engine's results (R40). -/
structure RxResults where
  result : FrameResult
  sum : Word
  ck : Word
  fid : Word
  rmsgLen : Word
  trail : Word
  count : Word
deriving DecidableEq, Repr

/-- The band registers (R42). -/
structure Bands where
  shortMin : Word
  shortMax : Word
  longMin : Word
  longMax : Word
  initMin : Word
  initMax : Word
  termMin : Word
deriving DecidableEq, Repr

/-- The acceptance threshold ACC_NUM / ACC_DEN (R43). -/
structure AccRegs where
  num : BitVec 16
  den : BitVec 16
deriving DecidableEq, Repr

/-- A sparse map from the byte offsets of the core's address space (20_memory.md R59) to bytes. An
offset that is not listed maps to 0. -/
abbrev Memory := List Host.Cell

/-- The canonical form: offsets strictly rising, and no entry equal to what an unlisted offset maps
to. -/
def Memory.wf (m : Memory) : Bool :=
  decide (m.Pairwise (fun c d => c.1 < d.1)) && m.all (fun c => c.2 != 0)

/-- The storage of 10_state.md sections 4 and 5 (FREQ, CODE_LEN, CODE_BITS, TREE, MSG, DMSG, RMSG,
FBUF and RBUF), by byte offset within the core. -/
structure Storage where
  /-- The bits that have been written, at the value written. -/
  bits : Memory
  /-- Which bits of FREQ and the five buffers have been written since reset (R151: until then each
  read takes a fresh draw). BitWrite writes one bit of a byte, so the record is a mask for each byte.
  TREE, CODE_LEN and CODE_BITS need no entry: BUILD writes all of them at once, and TV says whether it
  has (R32, R46 to R48). -/
  written : Memory
deriving DecidableEq, Repr

/-- The response to the last bus access: prdata and pslverr (R19). -/
structure BusPort where
  prdata : Word
  pslverr : Bool
deriving DecidableEq, Repr

/-- The whole machine. The last two fields are the model's own: the turns of the agents that are
already chosen (00_scope.md R14), and the number of the step, which indexes the free values. -/
structure State where
  params : Params
  cmd : CmdRegs
  cfg : CfgRegs
  codec : CodecRegs
  val : ValRegs
  tree : TreeRegs
  cls : ClsRegs
  irq : IrqRegs
  clock : ClockRegs
  tx : TxRegs
  txTiming : TxTiming
  rx : RxRegs
  rxOut : RxResults
  rxDelay : Word
  bands : Bands
  acc : AccRegs
  store : Storage
  bus : BusPort
  agenda : List Input
  draws : Nat
deriving DecidableEq, Repr

/-- Nothing stops this machine: an error never transfers control and the core never halts
(60_exceptions.md R138, R139), and a refused bus access is an effect (20_memory.md R60). So there is
no fault to name, and no step can answer one. -/
inductive Fault where
deriving DecidableEq, Repr

/-- The refusals of the model. -/
inductive Refusal where
  /-- Raised by `exec`'s arm of an instruction that has no meaning in the model yet, and by nothing
  else. Safe: the run stops. Every command has its meaning, so no arm raises it. -/
  | notModelled (mnemonic : String)
deriving DecidableEq, Repr

/-- A result record of `Validate` (41_frame.md R106). -/
structure Verdict where
  result : FrameResult
  sum : Word
  ck : Word
  fid : Word
deriving DecidableEq, Repr

/-- A result record of `FrameParse` (41_frame.md R108). -/
structure Parsed where
  verdict : Verdict
  out : List Byte
  trail : Nat
deriving DecidableEq, Repr

/-- A node of the Huffman tree (10_state.md R48, R49). Children are named by their index. -/
inductive Node where
  | leaf (sym : Byte) (weight : Nat)
  | inner (left right : Nat) (weight : Nat)
deriving DecidableEq, Repr

/-- The state right after reset (70_reset_and_hazards.md R151, 10_state.md section 3), at the
capacities of R8 and R9's defaults. The response of a read that has not happened (prdata) is given no
reset value: 0, log entry 4. -/
def State.reset : State where
  params := Params.default
  cmd := { pending := none, err := .ok, lastOp := 0, errInfo := 0 }
  cfg := { pad := 0, loop := false, txRepeat := false, rxCont := false }
  codec := { msgLen := 0, fbufLen := 0, dmsgLen := 0, decTrail := 0, padLen := 0, cksum := 0 }
  val := { result := .unset, sum := 0, ck := 0, fid := 0 }
  tree := { tv := false, cv := false, root := 0, nleaf := 0 }
  cls := { input := 0, output := .noise }
  irq := { status := 0, enable := 0 }
  clock := { time := 0, shadow := 0 }
  tx := { phase := .idle, bitIdx := 0, len := 0, count := 0, rem := 0 }
  txTiming :=
    { pre := 100, init := 650, gap := 100, bit0 := 50, bit1 := 150, term := 1200, delay := 100000 }
  rx :=
    { phase := .idle, det := .needLow, level := false, ovf := false, rbufLen := 0, hcnt := 0,
      dcnt := 0, parsePending := none }
  rxOut := { result := .unset, sum := 0, ck := 0, fid := 0, rmsgLen := 0, trail := 0, count := 0 }
  rxDelay := 0
  bands :=
    { shortMin := 0, shortMax := 95, longMin := 96, longMax := 200, initMin := 401, initMax := 900,
      termMin := 1000 }
  acc := { num := 995, den := 1000 }
  store := { bits := [], written := [] }
  bus := { prdata := 0, pslverr := false }
  agenda := []
  draws := 0

end Sys2Proof.Machine
end

