-- ==== Sys2Proof/Machine/Ops.lean ====
section
/-! DEFINITION. The named operations over storage, the interrupt bits and the completion of a command,
which every command's meaning and every engine shares. Recording an error (the core's only exception,
60_exceptions.md R139) is one operation here, `fail`, beside the completion without one, `succeed`. -/

namespace Sys2Proof.Machine

/-! ### Sparse memory -/

/-- The byte at an offset; 0 where none is listed. -/
def Memory.get : Memory → Nat → Byte
  | [], _ => 0
  | c :: m, a => if c.1 = a then c.2 else Memory.get m a

/-- The entries that list these bytes from an offset on, less the zeros, which need none. -/
def Memory.cells : Nat → List Byte → Memory
  | _, [] => []
  | a, b :: bs => if b = 0 then Memory.cells (a + 1) bs else (a, b) :: Memory.cells (a + 1) bs

/-- Replaces the bytes from offset `lo` on by these. Every write of the model is a splice. -/
def Memory.splice (m : Memory) (lo : Nat) (bs : List Byte) : Memory :=
  m.filter (fun c => decide (c.1 < lo)) ++
    (Memory.cells lo bs ++ m.filter (fun c => decide (lo + bs.length ≤ c.1)))

/-! ### The address map (20_memory.md R59) -/

/-- FREQ, 256 words (R45). -/
def freqBase : Nat := 0x01000
/-- CODE_LEN, 256 words (R46). -/
def codeLenBase : Nat := 0x01400
/-- The end of CODE_LEN. -/
def codeLenEnd : Nat := 0x01800
/-- CODE_BITS, 256 entries of 32 bytes (R47). -/
def codeBitsBase : Nat := 0x02000
/-- TREE, 512 entries of 8 bytes (R48). -/
def treeBase : Nat := 0x04000
/-- The end of TREE. -/
def treeEnd : Nat := 0x05000
/-- Entry 511 of TREE, which always reads 0 (R48). -/
def treeFixed : Nat := 0x04FF8
/-- MSG (R50). -/
def msgBase : Nat := 0x10000
/-- DMSG (R51). -/
def dmsgBase : Nat := 0x20000
/-- RMSG (R52). -/
def rmsgBase : Nat := 0x30000
/-- FBUF (R53). -/
def fbufBase : Nat := 0x40000
/-- RBUF (R54). -/
def rbufBase : Nat := 0x50000

/-! ### Reading storage -/

/-- The offsets of the tables that BUILD writes whole: CODE_LEN, CODE_BITS and TREE (R95). -/
def inTables (a : Nat) : Bool :=
  decide (codeLenBase ≤ a ∧ a < codeLenEnd) || decide (codeBitsBase ≤ a ∧ a < treeEnd)

/-- The fixed parts of those tables, which read 0 always: bits [31:8] of CODE_LEN (R46) and entry 511 of
TREE (R48, R151). -/
def isFixed (a : Nat) : Bool :=
  decide (codeLenBase ≤ a ∧ a < codeLenEnd ∧ a % 4 ≠ 0) || decide (treeFixed ≤ a ∧ a < treeEnd)

/-- Which bits of the byte at an offset have a value. TREE, CODE_LEN and CODE_BITS have one when BUILD
has run since reset, which TV tells (R32, R95). Everything else has one where it has been written. -/
def State.mask (s : State) (a : Nat) : Byte :=
  if inTables a then (if s.tree.tv then 0xFF else 0) else s.store.written.get a

/-- The byte at an offset: 0 in a fixed part, else the written bits, and a draw for the others (R151).
`pass` numbers the passes that one command makes over its operands, each with a draw of its own. -/
def State.readByte (s : State) (pass a : Nat) : Byte :=
  if isFixed a then 0
  else (s.store.bits.get a &&& s.mask a) ||| (Config.freeByte s.draws pass a &&& ~~~(s.mask a))

/-- The word at an offset, little-endian (R61). -/
def State.readWord (s : State) (pass a : Nat) : Word :=
  Word.ofBytes (s.readByte pass a) (s.readByte pass (a + 1)) (s.readByte pass (a + 2))
    (s.readByte pass (a + 3))

/-- BitRead (R62): bit k of the bit buffer at `base`. CODE_BITS entries use the same packing (R47). -/
def State.readBit (s : State) (pass base k : Nat) : Bool :=
  (s.readByte pass (base + k / 8)).getLsbD (7 - k % 8)

/-! ### Writing storage -/

/-- Writes whole bytes from an offset on. -/
def Storage.put (st : Storage) (lo : Nat) (bs : List Byte) : Storage where
  bits := st.bits.splice lo bs
  written := st.written.splice lo (List.replicate bs.length 0xFF)

/-- Writes whole bytes of TREE, CODE_LEN or CODE_BITS, for which `written` has no entry. -/
def Storage.putTable (st : Storage) (lo : Nat) (bs : List Byte) : Storage :=
  { st with bits := st.bits.splice lo bs }

/-- The mask of bit k in its byte: bit 7 - (k mod 8) (R62). -/
def bitMask (k : Nat) : Byte := 1 <<< (7 - k % 8)

/-- A byte with the bits of a mask set or cleared, the others unchanged. -/
def setBits (b mask : Byte) (v : Bool) : Byte := if v then b ||| mask else b &&& ~~~mask

/-- BitWrite (R62): bit k of the bit buffer at `base`; the byte's other bits are unchanged, and stay
unwritten where they were. -/
def Storage.putBit (st : Storage) (base k : Nat) (v : Bool) : Storage where
  bits := st.bits.splice (base + k / 8) [setBits (st.bits.get (base + k / 8)) (bitMask k) v]
  written :=
    st.written.splice (base + k / 8) [st.written.get (base + k / 8) ||| bitMask k]

/-- BitWrite into CODE_BITS (R47), for which `written` has no entry. -/
def Storage.putTableBit (st : Storage) (base k : Nat) (v : Bool) : Storage :=
  st.putTable (base + k / 8) [setBits (st.bits.get (base + k / 8)) (bitMask k) v]

/-- BitWrite of bits k, k+1, ... of the bit buffer at `base`. -/
def Storage.putBits (st : Storage) (base k : Nat) : List Bool → Storage
  | [] => st
  | v :: vs => Storage.putBits (st.putBit base k v) base (k + 1) vs

/-- BitWrite of bits k, k+1, ... of the CODE_BITS entry at `base`. -/
def Storage.putTableBits (st : Storage) (base k : Nat) : List Bool → Storage
  | [] => st
  | v :: vs => Storage.putTableBits (st.putTableBit base k v) base (k + 1) vs

/-! ### Interrupt bits (10_state.md R34) -/

/-- The sources of IRQ_STATUS by bit number. -/
def irqCmdDone : Nat := 0
def irqCmdErr : Nat := 1
def irqCmdOvr : Nat := 2
def irqTxFrame : Nat := 3
def irqRxFrame : Nat := 4
def irqRxOvr : Nat := 5
def irqFault : Nat := 6
def irqBusErr : Nat := 7

/-- set_irq (60_exceptions.md R142): one bit of IRQ_STATUS becomes 1, whatever IRQ_EN holds. -/
def State.setIrq (s : State) (bit : Nat) : State :=
  { s with irq := { s.irq with status := s.irq.status ||| (1 <<< bit) } }

/-! ### The completion of a command (30_encoding.md R85) -/

/-- Completion with OK: ERR and ERR_INFO are 0, LAST_OP is the command's OP, CMD_DONE is set, and no
command is pending any more. -/
def State.succeed (s : State) (op : BitVec 8) : State :=
  { s with cmd := { pending := none, err := .ok, lastOp := op, errInfo := 0 } }.setIrq irqCmdDone

/-- Completion with an error, which is all that an error does (R85, R137, R139): the code and the info
are recorded, CMD_DONE and CMD_ERR are set, NOTREE also sets FAULT, and nothing else changes. -/
def State.fail (s : State) (op : BitVec 8) (code : CmdError) (info : Word) : State :=
  let t :=
    ({ s with cmd := { pending := none, err := code, lastOp := op, errInfo := info } }.setIrq
      irqCmdDone).setIrq irqCmdErr
  if code = .notree then t.setIrq irqFault else t

/-- A command's completion (R85): the first check that fails is reported and the effect does not
happen; with none, the effect happens whole. -/
def State.run (s : State) (op : BitVec 8) (check : Option (CmdError × Word))
    (effect : State → State) : State :=
  match check with
  | none => (effect s).succeed op
  | some e => s.fail op e.1 e.2

/-! ### Reset -/

/-- Reset (70_reset_and_hazards.md R151), of rst_n and of SRESET (43_control.md R134) alike: every piece
of state takes its reset value. The parameters are no state of the core, and the turns that other agents
still take and the number of the step are the model's. -/
def State.performReset (s : State) : State :=
  { State.reset with params := s.params, agenda := s.agenda, draws := s.draws }

end Sys2Proof.Machine
end

