-- ==== Sys2Proof/Machine/Operands.lean ====
section
/-! DEFINITION. The operands of commands and engines (30_encoding.md R79): the message, the tables and
the frame buffers, read from storage. Every operand but CLASSIFY's P is taken from registers and storage
at the completion step. -/

namespace Sys2Proof.Machine

/-- The operands of BUILD: FREQ[s] for s = 0 .. 255 (R45). -/
def State.freqAt (s : State) (sym : Nat) : Word := s.readWord 0 (freqBase + 4 * sym)

/-- FREQ as a list of 256 counts. -/
def State.freqTable (s : State) : List Nat :=
  (List.range 256).map (fun sym => (s.freqAt sym).toNat)

/-- MSG[i] (R50). -/
def State.msgAt (s : State) (i : Nat) : Byte := s.readByte 0 (msgBase + i)

/-- The first n symbols of MSG. -/
def State.message (s : State) (n : Nat) : List Byte := (List.range n).map s.msgAt

/-- CODE_LEN[s] (R46). -/
def State.codeLenAt (s : State) (sym : Byte) : Nat :=
  (s.readByte 0 (codeLenBase + 4 * sym.toNat)).toNat

/-- CODE_BIT(s, j) (R47). -/
def State.codeBitAt (s : State) (sym : Byte) (j : Nat) : Bool :=
  s.readBit 0 (codeBitsBase + 32 * sym.toNat) j

/-- The code of a symbol: its first CODE_LEN bits. -/
def State.codeOf (s : State) (sym : Byte) : List Bool :=
  (List.range (s.codeLenAt sym)).map (s.codeBitAt sym)

/-- Word 0 of node N[i] (R48). -/
def State.nodeWord (s : State) (pass i : Nat) : Word := s.readWord pass (treeBase + 8 * i)

/-- N[i] read from TREE (R48): LEAF is bit [31], SYM bits [7:0], LEFT bits [8:0], RIGHT bits [24:16],
and WEIGHT is word 1. -/
def State.nodeAt (s : State) (pass i : Nat) : Node :=
  let w := s.nodeWord pass i
  let weight := (s.readWord pass (treeBase + 8 * i + 4)).toNat
  if w.getLsbD 31 then .leaf (w.extractLsb' 0 8) weight
  else .inner (w.extractLsb' 0 9).toNat (w.extractLsb' 16 9).toNat weight

/-- FBUF bit k. -/
def State.fbufBit (s : State) (pass k : Nat) : Bool := s.readBit pass fbufBase k

/-- RBUF bit k. -/
def State.rbufBit (s : State) (pass k : Nat) : Bool := s.readBit pass rbufBase k

/-- The first n bits of a bit sequence. -/
def takeBits (bit : Nat → Bool) (n : Nat) : List Bool := (List.range n).map bit

/-- ceil8(n) = 8 * ceil(n / 8) (00_scope.md R12). -/
def ceil8 (n : Nat) : Nat := (n + 7) / 8 * 8

/-! ### The checks that commands share (60_exceptions.md R135) -/

/-- BUSY for a command that would disturb the TX engine: info 0x080. -/
def State.txBusy (s : State) : Option (CmdError × Word) :=
  if s.tx.phase ≠ .idle then some (.busy, 0x080) else none

/-- BUSY for a command that would disturb the RX engine: info 0x0C0. -/
def State.rxBusy (s : State) : Option (CmdError × Word) :=
  if s.rx.phase ≠ .idle then some (.busy, 0x0C0) else none

/-- RANGE for a command that reads MSG_LEN symbols: info 0x010. -/
def State.msgRange (s : State) : Option (CmdError × Word) :=
  if s.params.msgMax < s.codec.msgLen.toNat then some (.range, 0x010) else none

/-- RANGE for a command that reads FBUF_LEN bits: info 0x014. -/
def State.fbufRange (s : State) : Option (CmdError × Word) :=
  if s.params.bitsMax < s.codec.fbufLen.toNat then some (.range, 0x014) else none

end Sys2Proof.Machine
end

