-- ==== Sys2Proof/Machine/Flags.lean ====
section
/-! DEFINITION. The numeric codes of the named states and results, the status words made of fields, and
the two output lines. -/

namespace Sys2Proof.Machine

/-- The error codes of 60_exceptions.md R135. -/
def CmdError.code : CmdError → BitVec 4
  | .ok => 0
  | .illegal => 1
  | .busy => 2
  | .range => 3
  | .empty => 4
  | .stale => 5
  | .overflow => 6
  | .notree => 7

/-- The frame result codes of 10_state.md R30. -/
def FrameResult.code : FrameResult → BitVec 4
  | .unset => 0
  | .good => 1
  | .short => 2
  | .corrupt => 3
  | .rxovf => 4
  | .notree => 5
  | .decovf => 6

/-- The class codes of 10_state.md R33. -/
def PulseClass.code : PulseClass → BitVec 3
  | .noise => 0
  | .bit0 => 1
  | .bit1 => 2
  | .init => 3
  | .term => 4

/-- The PHASE codes of 10_state.md R37. -/
def TxPhase.code : TxPhase → BitVec 3
  | .idle => 0
  | .pre => 1
  | .init => 2
  | .gapi => 3
  | .bith => 4
  | .bitl => 5
  | .term => 6
  | .delay => 7

/-- The STATE codes of 10_state.md R39. -/
def RxPhase.code : RxPhase → BitVec 3
  | .idle => 0
  | .await => 1
  | .recv => 2
  | .parse => 3
  | .delay => 4

/-- The DET codes of 10_state.md R39. -/
def Detector.code : Detector → BitVec 2
  | .needLow => 0
  | .low => 1
  | .high => 2

/-- One bit. -/
def flag (b : Bool) : BitVec 1 := BitVec.ofBool b

/-- Level(PHASE) (42_pulse.md R118). -/
def TxPhase.level : TxPhase → Bool
  | .init | .bith | .term => true
  | .idle | .pre | .gapi | .bitl | .delay => false

/-- CMD_STATUS.BUSY (R55). -/
def State.cmdBusy (s : State) : Bool := s.cmd.pending.isSome

/-- CMD_STATUS (R24): LAST_OP [15:8], ERR [7:4], BUSY [0]. -/
def State.cmdStatus (s : State) : Word :=
  (0 : BitVec 16) ++ s.cmd.lastOp ++ s.cmd.err.code ++ (0 : BitVec 3) ++ flag s.cmdBusy

/-- CFG (R26): RX_CONT [17], TX_REPEAT [16], LOOP [8], PAD [2:0]. -/
def CfgRegs.word (c : CfgRegs) : Word :=
  (0 : BitVec 14) ++ flag c.rxCont ++ flag c.txRepeat ++ (0 : BitVec 7) ++ flag c.loop ++
    (0 : BitVec 5) ++ c.pad

/-- The fields of CFG that a word written to it holds (R26). -/
def CfgRegs.ofWord (w : Word) : CfgRegs where
  pad := w.extractLsb' 0 3
  loop := w.getLsbD 8
  txRepeat := w.getLsbD 16
  rxCont := w.getLsbD 17

/-- TREE_STATUS (R32): NLEAF [28:20], ROOT [16:8], CV [1], TV [0]. -/
def TreeRegs.word (t : TreeRegs) : Word :=
  (0 : BitVec 3) ++ t.nleaf ++ (0 : BitVec 3) ++ t.root ++ (0 : BitVec 6) ++ flag t.cv ++ flag t.tv

/-- TX_STATUS (R37): LEVEL [8], PHASE [2:0]. -/
def TxRegs.word (t : TxRegs) : Word :=
  (0 : BitVec 23) ++ flag t.phase.level ++ (0 : BitVec 5) ++ t.phase.code

/-- RX_STATUS (R39): OVF [9], LEVEL [8], DET [5:4], STATE [2:0]. -/
def RxRegs.word (r : RxRegs) : Word :=
  (0 : BitVec 22) ++ flag r.ovf ++ flag r.level ++ (0 : BitVec 2) ++ r.det.code ++ (0 : BitVec 1) ++
    r.phase.code

/-- The irq output (60_exceptions.md R143). -/
def State.irqLine (s : State) : Bool := s.irq.status &&& s.irq.enable != 0

/-- The line_out output (42_pulse.md R118). -/
def State.lineOut (s : State) : Bool := s.tx.phase.level

end Sys2Proof.Machine
end

