-- ==== Sys2Proof/Machine/Control.lean ====
section
/-! DEFINITION. The control commands NOP and SRESET (43_control.md). -/

namespace Sys2Proof.Machine

/-- NOP (R133): the completion and nothing else. -/
def execNop (s : State) : Host.Outcome State Fault Refusal := .next (s.run 0x00 none id)

/-- SRESET (R134): the reset itself, with no completion. -/
def execSreset (s : State) : Host.Outcome State Fault Refusal := .next s.performReset

end Sys2Proof.Machine
end

