-- ==== Sys2Proof/Machine/Huffman.lean ====
section
/-! DEFINITION. The Huffman codec commands FREQ, BUILD, CODES, ENCODE and DECODE (40_huffman.md) and the
functions they share. -/

namespace Sys2Proof.Machine

/-! ### Shared functions -/

/-- FrequencyTable (R88): the count of each of the 256 symbols in a message. -/
def frequencyTable (msg : List Byte) : List Nat :=
  (List.range 256).map (fun sym => msg.count (BitVec.ofNat 8 sym))

/-- The key of a node in the working set, (weight, index), compared lexicographically (R89). -/
def keyLt (x y : Nat × Nat) : Bool := x.1 < y.1 || (x.1 == y.1 && x.2 < y.2)

/-- The member of a working set with the least key, and the others. -/
def takeLeast : Nat × Nat → List (Nat × Nat) → (Nat × Nat) × List (Nat × Nat)
  | x, [] => (x, [])
  | x, y :: ys =>
    if keyLt y x then
      let r := takeLeast y ys
      (r.1, x :: r.2)
    else
      let r := takeLeast x ys
      (r.1, y :: r.2)

/-- The merges of BuildTree (R89): while two nodes are left, the least becomes the left child and the
next least the right child of a new node, which takes the next index. Answers the new nodes in the order
of their indices. Each merge leaves one node fewer, so `fuel` = the number of nodes is enough. -/
def mergeNodes : (fuel next : Nat) → List (Nat × Nat) → List Node
  | 0, _, _ => []
  | _ + 1, _, [] => []
  | fuel + 1, next, w :: ws =>
    match takeLeast w ws with
    | (_, []) => []
    | (x, v :: vs) =>
      let r := takeLeast v vs
      let y := r.1
      .inner x.2 y.2 (x.1 + y.1) :: mergeNodes fuel (next + 1) ((x.1 + y.1, next) :: r.2)

/-- The symbols of a frequency table, ascending (R89's Lv). -/
def leafSymbols (freq : List Nat) : List Nat :=
  (List.range 256).filter (fun sym => 0 < freq.getD sym 0)

/-- The leaves, in ascending symbol order (R89). -/
def leafNodes (freq : List Nat) : List Node :=
  (leafSymbols freq).map (fun sym => .leaf (BitVec.ofNat 8 sym) (freq.getD sym 0))

/-- A node's weight (R48). -/
def Node.weight : Node → Nat
  | .leaf _ w => w
  | .inner _ _ w => w

/-- BuildTree (R89): the nodes in the order of their indices; the last one is the root. -/
def buildTree (freq : List Nat) : List Node :=
  let leaves := leafNodes freq
  leaves ++ mergeNodes leaves.length leaves.length ((leaves.map Node.weight).zipIdx)

/-- Word 0 of a node (10_state.md R48): LEAF [31], VALID [30], and SYM or RIGHT and LEFT. -/
def Node.word : Node → Word
  | .leaf sym _ => 0xC0000000#32 ||| sym.zeroExtend 32
  | .inner left right _ =>
    0x40000000#32 ||| ((BitVec.ofNat 9 right).zeroExtend 32 <<< 16) |||
      (BitVec.ofNat 9 left).zeroExtend 32

/-- The eight bytes of a node (R48): word 0, then WEIGHT. -/
def Node.bytes (n : Node) : List Byte := Word.bytes n.word ++ Word.bytes (BitVec.ofNat 32 n.weight)

/-- The whole node store (R48): the nodes, and zeros for every other entry. -/
def treeBytes (nodes : List Node) : List Byte :=
  let used := nodes.flatMap Node.bytes
  used ++ List.replicate (4096 - used.length) 0

/-- Clears the code table: every CODE_LEN and every CODE_BITS entry is 0 (R89, R91). -/
def Storage.clearCodes (st : Storage) : Storage :=
  (st.putTable codeLenBase (List.replicate 1024 0)).putTable codeBitsBase (List.replicate 8192 0)

/-- Walk (R91) over a list of subtrees still to visit, each with its path: the symbols and paths of the
leaves, left before right. A tree has at most 511 nodes, so `fuel` = 511 visits all of them. -/
def walkCodes (node : Nat → Node) : (fuel : Nat) → List (Nat × List Bool) → List (Byte × List Bool)
  | 0, _ => []
  | _ + 1, [] => []
  | fuel + 1, (i, path) :: rest =>
    match node i with
    | .leaf sym _ => (sym, path) :: walkCodes node fuel rest
    | .inner l r _ =>
      walkCodes node fuel ((l, path ++ [false]) :: (r, path ++ [true]) :: rest)

/-- CodeTable (R91): the code of each leaf of the tree with this root; a tree of one leaf has the code
"0" (R90). -/
def codeTable (node : Nat → Node) (root : Nat) : List (Byte × List Bool) :=
  match node root with
  | .leaf sym _ => [(sym, [false])]
  | .inner _ _ _ => walkCodes node 511 [(root, [])]

/-- Writes one symbol's entries of CODE_LEN and CODE_BITS (R91). -/
def Storage.putCode (st : Storage) (c : Byte × List Bool) : Storage :=
  (st.putTable (codeLenBase + 4 * c.1.toNat) [BitVec.ofNat 8 c.2.length]).putTableBits
    (codeBitsBase + 32 * c.1.toNat) 0 c.2

/-- Decode (R93) from node `cur`, `t` bits below the root: the symbols, and the number of trailing bits
that reached no leaf. -/
def decodeFrom (node : Nat → Node) (root : Nat) : (cur t : Nat) → List Bool → List Byte × Nat
  | _, t, [] => ([], t)
  | cur, t, b :: bs =>
    match node root with
    | .leaf sym _ =>
      let r := decodeFrom node root cur t bs
      (sym :: r.1, r.2)
    | .inner _ _ _ =>
      let next :=
        match node cur with
        | .leaf _ _ => cur
        | .inner l r _ => if b then r else l
      match node next with
      | .leaf sym _ =>
        let r := decodeFrom node root root 0 bs
        (sym :: r.1, r.2)
      | .inner _ _ _ => decodeFrom node root next (t + 1) bs

/-- Decode(B, P) (R93) over the tree the machine holds. -/
def State.decodeBits (s : State) (pass : Nat) (bits : List Bool) : List Byte × Nat :=
  decodeFrom (s.nodeAt pass) s.tree.root.toNat s.tree.root.toNat 0 bits

/-! ### FREQ (R94) -/

def State.freqEffect (s : State) : State :=
  let counts := frequencyTable (s.message s.codec.msgLen.toNat)
  { s with
    store := s.store.put freqBase (counts.flatMap (fun c => Word.bytes (BitVec.ofNat 32 c))) }

def execFreq (s : State) : Host.Outcome State Fault Refusal :=
  .next (s.run 0x01 s.msgRange State.freqEffect)

/-! ### BUILD (R95) -/

/-- The checks of BUILD, in order: BUSY, RANGE (the exact total, info 0x1000), EMPTY. -/
def State.buildCheck (s : State) : Option (CmdError × Word) :=
  s.rxBusy.orElse fun _ =>
    if 2 ^ 32 - 1 < s.freqTable.sum then some (.range, 0x1000)
    else if s.freqTable.all (· == 0) then some (.empty, 0)
    else none

/-- The effect of BUILD (R89, R95). With n >= 1 leaves the root is node 2n-2, the last one made. -/
def State.buildEffect (s : State) : State :=
  let nodes := buildTree s.freqTable
  { s with
    tree :=
      { tv := true, cv := false, root := BitVec.ofNat 9 (nodes.length - 1),
        nleaf := BitVec.ofNat 9 (leafSymbols s.freqTable).length }
    store := (s.store.putTable treeBase (treeBytes nodes)).clearCodes }

def execBuild (s : State) : Host.Outcome State Fault Refusal :=
  .next (s.run 0x02 s.buildCheck State.buildEffect)

/-! ### CODES (R96) -/

def State.codesCheck (s : State) : Option (CmdError × Word) :=
  if s.tree.tv then none else some (.empty, 0)

def State.codesEffect (s : State) : State :=
  { s with
    tree := { s.tree with cv := true }
    store := (codeTable (s.nodeAt 0) s.tree.root.toNat).foldl Storage.putCode s.store.clearCodes }

def execCodes (s : State) : Host.Outcome State Fault Refusal :=
  .next (s.run 0x03 s.codesCheck State.codesEffect)

/-! ### ENCODE (R97) -/

/-- A symbol is absent from the code table: STALE's condition (R97). -/
def State.absent (s : State) (sym : Byte) : Bool := !s.tree.cv || s.codeLenAt sym == 0

/-- T, the total code length of a message (R97). -/
def State.encodedLen (s : State) (msg : List Byte) : Nat := (msg.map s.codeLenAt).sum

/-- The checks of ENCODE, in order: BUSY, RANGE, STALE (info: the least index of an absent symbol),
OVERFLOW (info: T). -/
def State.encodeCheck (s : State) : Option (CmdError × Word) :=
  s.txBusy.orElse fun _ => s.msgRange.orElse fun _ =>
    let msg := s.message s.codec.msgLen.toNat
    match msg.findIdx? s.absent with
    | some i => some (.stale, BitVec.ofNat 32 i)
    | none =>
      if s.params.bitsMax < s.encodedLen msg then
        some (.overflow, BitVec.ofNat 32 (s.encodedLen msg))
      else none

/-- The effect of ENCODE (R97): the codes in message order from FBUF bit 0 on; bits T and above are
unchanged. -/
def State.encodeEffect (s : State) : State :=
  let msg := s.message s.codec.msgLen.toNat
  { s with
    codec := { s.codec with fbufLen := BitVec.ofNat 32 (s.encodedLen msg) }
    store := s.store.putBits fbufBase 0 (msg.flatMap s.codeOf) }

def execEncode (s : State) : Host.Outcome State Fault Refusal :=
  .next (s.run 0x04 s.encodeCheck State.encodeEffect)

/-! ### DECODE (R98) -/

/-- Decode(FBUF, FBUF_LEN). -/
def State.decodeFbuf (s : State) : List Byte × Nat :=
  s.decodeBits 0 (takeBits (s.fbufBit 0) s.codec.fbufLen.toNat)

/-- The checks of DECODE, in order: RANGE, NOTREE, OVERFLOW (info: the symbol count). -/
def State.decodeCheck (s : State) : Option (CmdError × Word) :=
  s.fbufRange.orElse fun _ =>
    if !s.tree.tv then some (.notree, 0)
    else if s.params.msgMax < s.decodeFbuf.1.length then
      some (.overflow, BitVec.ofNat 32 s.decodeFbuf.1.length)
    else none

/-- Delivers a decoded message to DMSG with its length and its trailing bits (R98, R111); DMSG bytes
beyond it are unchanged. -/
def State.deliverDmsg (s : State) (out : List Byte) (trail : Nat) : State :=
  { s with
    codec :=
      { s.codec with dmsgLen := BitVec.ofNat 32 out.length, decTrail := BitVec.ofNat 32 trail }
    store := s.store.put dmsgBase out }

def State.decodeEffect (s : State) : State := s.deliverDmsg s.decodeFbuf.1 s.decodeFbuf.2

def execDecode (s : State) : Host.Outcome State Fault Refusal :=
  .next (s.run 0x05 s.decodeCheck State.decodeEffect)

end Sys2Proof.Machine
end

