-- ==== Sys2Proof/Machine/Bus.lean ====
section
/-! DEFINITION. The host's bus accesses (20_memory.md): the register map of 10_state.md section 3, the
address map (R59), the refusals (R60), reads (R66, R71) and writes (R67), and the acceptance of a command
(30_encoding.md R84). -/

namespace Sys2Proof.Machine

/-! ### The register map -/

/-- The registers of 10_state.md section 3. -/
inductive Csr where
  | cmd | cmdStatus | errInfo | cfg | msgLen | fbufLen | dmsgLen | decTrail | padLen | cksum
  | valResult | valSum | valCk | valFid | treeStatus | clsIn | clsOut | irqStatus | irqEn
  | ident | msgMaxR | bitsMaxR | timeLo | timeHi
  | txStatus | txBitIdx | txLen | txCount | txPre | txInit | txGap | txBit0 | txBit1 | txTerm
  | txDelay | txRem
  | rxStatus | rbufLen | rxResult | rxSum | rxCk | rxFid | rmsgLen | rxTrail | rxCount | rxDelay
  | rxHcnt
  | shortMin | shortMax | longMin | longMax | initMin | initMax | termMin | accNum | accDen
deriving DecidableEq, Repr

/-- The access kinds of 10_state.md section 3. -/
inductive Access where
  | rw | ro | wo | w1c
deriving DecidableEq, Repr

/-- Offsets 0x000 to 0x05C: the command path (10_state.md section 3). -/
def csrTableHost : List (Nat × Csr × Access) :=
  [(0x000, .cmd, .wo), (0x004, .cmdStatus, .ro), (0x008, .errInfo, .ro), (0x00C, .cfg, .rw),
   (0x010, .msgLen, .rw), (0x014, .fbufLen, .rw), (0x018, .dmsgLen, .ro), (0x01C, .decTrail, .ro),
   (0x020, .padLen, .ro), (0x024, .cksum, .ro), (0x028, .valResult, .ro), (0x02C, .valSum, .ro),
   (0x030, .valCk, .ro), (0x034, .valFid, .ro), (0x038, .treeStatus, .ro), (0x03C, .clsIn, .rw),
   (0x040, .clsOut, .ro), (0x044, .irqStatus, .w1c), (0x048, .irqEn, .rw), (0x04C, .ident, .ro),
   (0x050, .msgMaxR, .ro), (0x054, .bitsMaxR, .ro), (0x058, .timeLo, .ro), (0x05C, .timeHi, .ro)]

/-- Offsets 0x080 to 0x0B0: the TX engine (10_state.md section 3). -/
def csrTableTx : List (Nat × Csr × Access) :=
  [(0x080, .txStatus, .ro), (0x084, .txBitIdx, .ro), (0x088, .txLen, .ro), (0x08C, .txCount, .ro),
   (0x090, .txPre, .rw), (0x094, .txInit, .rw), (0x098, .txGap, .rw), (0x09C, .txBit0, .rw),
   (0x0A0, .txBit1, .rw), (0x0A4, .txTerm, .rw), (0x0A8, .txDelay, .rw), (0x0B0, .txRem, .ro)]

/-- Offsets 0x0C0 to 0x0E8: the RX engine (10_state.md section 3). -/
def csrTableRx : List (Nat × Csr × Access) :=
  [(0x0C0, .rxStatus, .ro), (0x0C4, .rbufLen, .ro), (0x0C8, .rxResult, .ro), (0x0CC, .rxSum, .ro),
   (0x0D0, .rxCk, .ro), (0x0D4, .rxFid, .ro), (0x0D8, .rmsgLen, .ro), (0x0DC, .rxTrail, .ro),
   (0x0E0, .rxCount, .ro), (0x0E4, .rxDelay, .rw), (0x0E8, .rxHcnt, .ro)]

/-- Offsets 0x100 to 0x124: the bands and the threshold (10_state.md section 3). -/
def csrTableBands : List (Nat × Csr × Access) :=
  [(0x100, .shortMin, .rw), (0x104, .shortMax, .rw), (0x108, .longMin, .rw), (0x10C, .longMax, .rw),
   (0x110, .initMin, .rw), (0x114, .initMax, .rw), (0x118, .termMin, .rw), (0x120, .accNum, .rw),
   (0x124, .accDen, .rw)]

/-- The register table of 10_state.md section 3: offset, register, access. -/
def csrTable : List (Nat × Csr × Access) :=
  csrTableHost ++ csrTableTx ++ csrTableRx ++ csrTableBands

/-- The value a register reads (R66): its fields, reserved bits 0; CMD reads 0 (R23). -/
def Csr.read (s : State) : Csr → Word
  | .cmd => 0
  | .cmdStatus => s.cmdStatus
  | .errInfo => s.cmd.errInfo
  | .cfg => s.cfg.word
  | .msgLen => s.codec.msgLen
  | .fbufLen => s.codec.fbufLen
  | .dmsgLen => s.codec.dmsgLen
  | .decTrail => s.codec.decTrail
  | .padLen => s.codec.padLen.zeroExtend 32
  | .cksum => s.codec.cksum
  | .valResult => s.val.result.code.zeroExtend 32
  | .valSum => s.val.sum
  | .valCk => s.val.ck
  | .valFid => s.val.fid
  | .treeStatus => s.tree.word
  | .clsIn => s.cls.input
  | .clsOut => s.cls.output.code.zeroExtend 32
  | .irqStatus => s.irq.status.zeroExtend 32
  | .irqEn => s.irq.enable.zeroExtend 32
  | .ident => 0x50504C31
  | .msgMaxR => BitVec.ofNat 32 s.params.msgMax
  | .bitsMaxR => BitVec.ofNat 32 s.params.bitsMax
  | .timeLo => s.clock.time.extractLsb' 0 32
  | .timeHi => s.clock.shadow
  | .txStatus => s.tx.word
  | .txBitIdx => s.tx.bitIdx
  | .txLen => s.tx.len
  | .txCount => s.tx.count
  | .txPre => s.txTiming.pre
  | .txInit => s.txTiming.init
  | .txGap => s.txTiming.gap
  | .txBit0 => s.txTiming.bit0
  | .txBit1 => s.txTiming.bit1
  | .txTerm => s.txTiming.term
  | .txDelay => s.txTiming.delay
  | .txRem => s.tx.rem
  | .rxStatus => s.rx.word
  | .rbufLen => s.rx.rbufLen
  | .rxResult => s.rxOut.result.code.zeroExtend 32
  | .rxSum => s.rxOut.sum
  | .rxCk => s.rxOut.ck
  | .rxFid => s.rxOut.fid
  | .rmsgLen => s.rxOut.rmsgLen
  | .rxTrail => s.rxOut.trail
  | .rxCount => s.rxOut.count
  | .rxDelay => s.rxDelay
  | .rxHcnt => s.rx.hcnt
  | .shortMin => s.bands.shortMin
  | .shortMax => s.bands.shortMax
  | .longMin => s.bands.longMin
  | .longMax => s.bands.longMax
  | .initMin => s.bands.initMin
  | .initMax => s.bands.initMax
  | .termMin => s.bands.termMin
  | .accNum => s.acc.num.zeroExtend 32
  | .accDen => s.acc.den.zeroExtend 32

/-- A TX timing register stores 1 for a written 0 (R38). -/
def atLeastOne (v : Word) : Word := if v = 0 then 1 else v

/-- A write to an RW or W1C register (R67): the fields take the written value, reserved bits are
ignored. CMD is not here (R84), and a write to an RO register is refused before it gets here (R60). -/
def Csr.write (s : State) (v : Word) : Csr → State
  | .cfg => { s with cfg := CfgRegs.ofWord v }
  | .msgLen => { s with codec := { s.codec with msgLen := v } }
  | .fbufLen => { s with codec := { s.codec with fbufLen := v } }
  | .clsIn => { s with cls := { s.cls with input := v } }
  | .irqStatus => { s with irq := { s.irq with status := s.irq.status &&& ~~~(v.extractLsb' 0 8) } }
  | .irqEn => { s with irq := { s.irq with enable := v.extractLsb' 0 8 } }
  | .txPre => { s with txTiming := { s.txTiming with pre := atLeastOne v } }
  | .txInit => { s with txTiming := { s.txTiming with init := atLeastOne v } }
  | .txGap => { s with txTiming := { s.txTiming with gap := atLeastOne v } }
  | .txBit0 => { s with txTiming := { s.txTiming with bit0 := atLeastOne v } }
  | .txBit1 => { s with txTiming := { s.txTiming with bit1 := atLeastOne v } }
  | .txTerm => { s with txTiming := { s.txTiming with term := atLeastOne v } }
  | .txDelay => { s with txTiming := { s.txTiming with delay := atLeastOne v } }
  | .rxDelay => { s with rxDelay := v }
  | .shortMin => { s with bands := { s.bands with shortMin := v } }
  | .shortMax => { s with bands := { s.bands with shortMax := v } }
  | .longMin => { s with bands := { s.bands with longMin := v } }
  | .longMax => { s with bands := { s.bands with longMax := v } }
  | .initMin => { s with bands := { s.bands with initMin := v } }
  | .initMax => { s with bands := { s.bands with initMax := v } }
  | .termMin => { s with bands := { s.bands with termMin := v } }
  | .accNum => { s with acc := { s.acc with num := v.extractLsb' 0 16 } }
  | .accDen => { s with acc := { s.acc with den := v.extractLsb' 0 16 } }
  | .cmd | .cmdStatus | .errInfo | .dmsgLen | .decTrail | .padLen | .cksum | .valResult | .valSum
  | .valCk | .valFid | .treeStatus | .clsOut | .ident | .msgMaxR | .bitsMaxR | .timeLo | .timeHi
  | .txStatus | .txBitIdx | .txLen | .txCount | .txRem | .rxStatus | .rbufLen | .rxResult | .rxSum
  | .rxCk | .rxFid | .rmsgLen | .rxTrail | .rxCount | .rxHcnt => s

/-! ### The address map (R59) -/

/-- What a mapped offset belongs to. -/
inductive Region where
  | csr (r : Csr) (kind : Access)
  | freq | codeLen | codeBits | tree | msg | dmsg | rmsg | fbuf | rbuf
deriving DecidableEq, Repr

/-- What an offset belongs to; none where it is unmapped (R59, R60 (3), R44). -/
def locate (p : Params) (a : Nat) : Option Region :=
  if a < freqBase then (csrTable.lookup a).map (fun e => .csr e.1 e.2)
  else if a < codeLenBase then some .freq
  else if a < codeLenEnd then some .codeLen
  else if a < codeBitsBase then none
  else if a < treeBase then some .codeBits
  else if a < treeEnd then some .tree
  else if a < msgBase then none
  else if a < dmsgBase then if a - msgBase < p.msgMax then some .msg else none
  else if a < rmsgBase then if a - dmsgBase < p.msgMax then some .dmsg else none
  else if a < fbufBase then if a - rmsgBase < p.msgMax then some .rmsg else none
  else if a < rbufBase then if a - fbufBase < p.bitsMax / 8 then some .fbuf else none
  else if a < 0x60000 then if a - rbufBase < p.bitsMax / 8 then some .rbuf else none
  else none

/-- The host may write here at some time (R59, 10_state.md section 3). -/
def Region.writable : Region → Bool
  | .csr _ .ro => false
  | .csr _ .rw | .csr _ .wo | .csr _ .w1c => true
  | .freq | .msg | .fbuf => true
  | .codeLen | .codeBits | .tree | .dmsg | .rmsg | .rbuf => false

/-- The registers the host may write while a command is pending (R69). -/
def Region.writableBusy : Region → Bool
  | .csr r _ => r == .cmd || r == .irqStatus || r == .irqEn
  | _ => false

/-- An access that R60 (1), (2) or (3) does not refuse, and the region it is for. -/
def reach (p : Params) (addr : BitVec 20) (strb : BitVec 4) : Option Region :=
  if addr.toNat % 4 = 0 ∧ strb = 0b1111 then locate p addr.toNat else none

/-- A write that R60 (4), (5) or (6) refuses: to an RO location, while a command is pending (R69), or to
FBUF while the TX engine sends (R70). -/
def State.refusesWrite (s : State) (r : Region) : Bool :=
  !r.writable || (s.cmdBusy && !r.writableBusy) || (r == .fbuf && s.tx.phase != .idle)

/-! ### Reads of a pending command's destinations (R71) -/

/-- The bits of the word at `a` of a bit buffer at `base` that are bits lo .. hi-1 of the buffer
(R62). -/
def bufferMask (base lo hi a : Nat) : Word :=
  BitVec.ofNat 32
    ((List.range 32).map (fun b =>
      let k := 8 * (a - base + b / 8) + (7 - b % 8)
      if lo ≤ k ∧ k < hi then 2 ^ b else 0)).sum

/-- The bits of the word at `a` of TREE that can change: none of entry 511 (R48). -/
def treeMask (a : Nat) : Word := if a < treeFixed then BitVec.allOnes 32 else 0

/-- The registers among a command's destinations, with the bits of each, by the destination lists of
40_huffman.md, 41_frame.md and 42_pulse.md. Reserved bits are no part of a location (log entry 7), and
R71 does not name the commands that have no entry. -/
def csrDestinations : Instr → List (Csr × Word)
  | .build => [(.treeStatus, 0x1FF1FF03)]
  | .codes => [(.treeStatus, 0x2)]
  | .encode => [(.fbufLen, BitVec.allOnes 32)]
  | .decode => [(.dmsgLen, BitVec.allOnes 32), (.decTrail, BitVec.allOnes 32)]
  | .addck => [(.fbufLen, BitVec.allOnes 32), (.padLen, 0x7), (.cksum, BitVec.allOnes 32)]
  | .validate =>
    [(.valResult, 0xF), (.valSum, BitVec.allOnes 32), (.valCk, BitVec.allOnes 32),
     (.valFid, BitVec.allOnes 32)]
  | .parse =>
    [(.valResult, 0xF), (.valSum, BitVec.allOnes 32), (.valCk, BitVec.allOnes 32),
     (.valFid, BitVec.allOnes 32), (.dmsgLen, BitVec.allOnes 32), (.decTrail, BitVec.allOnes 32)]
  | .classify _ => [(.clsOut, 0x7)]
  | .nop | .freq | .txStart | .txStop | .rxStart | .rxStop | .sreset => []

/-- The bits of FBUF among a command's destinations, first and end (R97, R109). ENCODE's T is that of the
state the host reads in. -/
def State.fbufDestination (s : State) (i : Instr) : Nat × Nat :=
  if i = .encode then
    (0, s.encodedLen (s.message (min s.codec.msgLen.toNat s.params.msgMax)))
  else if i = .addck then (s.codec.fbufLen.toNat, ceil8 s.codec.fbufLen.toNat + 32)
  else (0, 0)

/-- All bits of a word when the condition holds, else none. -/
def maskIf (b : Bool) (m : Word) : Word := if b then m else 0

/-- The bits of the word at an offset that are destinations of a pending command (R71). -/
def State.destination (s : State) (i : Instr) (r : Region) (a : Nat) : Word :=
  match r with
  | .csr c _ => ((csrDestinations i).lookup c).getD 0
  | .freq => maskIf (i == .freq) (BitVec.allOnes 32)
  | .codeLen => maskIf (i == .build || i == .codes) 0xFF
  | .codeBits => maskIf (i == .build || i == .codes) (BitVec.allOnes 32)
  | .tree => maskIf (i == .build) (treeMask a)
  | .dmsg => maskIf (i == .decode || i == .parse) (BitVec.allOnes 32)
  | .fbuf => bufferMask fbufBase (s.fbufDestination i).1 (s.fbufDestination i).2 a
  | .msg | .rmsg | .rbuf => 0

/-- The bits of a word that a host read may return at any value now (R71). -/
def State.unsettled (s : State) (r : Region) (a : Nat) : Word :=
  match s.cmd.pending with
  | none => 0
  | some w =>
    match decode w with
    | .error _ => 0
    | .ok i => s.destination i r a

/-! ### The accesses -/

/-- A refused access (R60): pslverr is 1, a refused read returns 0, and BUS_ERR is set. -/
def State.refuse (s : State) (prdata : Word) : State :=
  { s with bus := { prdata := prdata, pslverr := true } }.setIrq irqBusErr

/-- The value a location has now (R66). -/
def State.stored (s : State) (r : Region) (a : Nat) : Word :=
  match r with
  | .csr c _ => c.read s
  | _ => s.readWord 0 a

/-- A host read (R60, R66, R71). A read of TIME_LO also copies TIME[63:32] to TIME_SHADOW (R36,
R68). -/
def State.busRead (s : State) (addr : BitVec 20) (strb : BitVec 4) : State :=
  match reach s.params addr strb with
  | none => s.refuse 0
  | some r =>
    let m := s.unsettled r addr.toNat
    let v := (s.stored r addr.toNat &&& ~~~m) ||| (Config.freeWord s.draws &&& m)
    let t := { s with bus := { prdata := v, pslverr := false } }
    match r with
    | .csr .timeLo _ =>
      { t with clock := { t.clock with shadow := t.clock.time.extractLsb' 32 32 } }
    | _ => t

/-- A command other than SRESET reaches CMD (R84): it becomes pending, or is dropped with CMD_OVR. -/
def State.acceptCmd (s : State) (w : Word) : State :=
  match s.cmd.pending with
  | none => { s with cmd := { s.cmd with pending := some w } }
  | some _ => s.setIrq irqCmdOvr

/-- A host write (R60, R67, R84). SRESET acts at the write itself. -/
def State.busWrite (s : State) (addr : BitVec 20) (strb : BitVec 4) (v : Word) :
    Host.Outcome State Fault Refusal :=
  match reach s.params addr strb with
  | none => .next (s.refuse s.bus.prdata)
  | some r =>
    if s.refusesWrite r then .next (s.refuse s.bus.prdata)
    else
      let t := { s with bus := { s.bus with pslverr := false } }
      match r with
      | .csr .cmd _ => if v = 0x0000001F then execSreset t else .next (t.acceptCmd v)
      | .csr c _ => .next (c.write t v)
      | _ => .next { t with store := t.store.put addr.toNat (Word.bytes v) }

end Sys2Proof.Machine
end

