-- ==== Sys2Proof/Machine/Frame.lean ====
section
/-! DEFINITION. The checksum and frame commands ADDCK, VALIDATE and PARSE (41_frame.md) and the frame
parser, which the RX engine uses too. -/

namespace Sys2Proof.Machine

/-! ### Shared functions. A frame is given as its bits by number, and its length. -/

/-- Group(B, n, g) (R102): the g-th 8-bit group of n bits, its first bit the most significant, its
missing bits 0. -/
def groupValue (bit : Nat → Bool) (n g : Nat) : Nat :=
  ((List.range 8).map (fun j =>
    if 8 * g + j < n ∧ bit (8 * g + j) then 2 ^ (7 - j) else 0)).sum

/-- ByteGroupSum (R103), modulo 2^32. -/
def byteGroupSum (bit : Nat → Bool) (n : Nat) : Word :=
  BitVec.ofNat 32 ((List.range (ceil8 n / 8)).map (groupValue bit n)).sum

/-- Checksum32 (R104): the last 32 bits of a frame of L bits, least-significant bit first. -/
def checksum32 (bit : Nat → Bool) (L : Nat) : Word :=
  BitVec.ofNat 32
    ((List.range 32).map (fun k => if bit (L - 32 + k) then 2 ^ k else 0)).sum

/-- FidRatio (R105): the fidelity as an exact ratio; 0 / 0 is 1. -/
def fidRatio (sum ck : Nat) : Nat × Nat :=
  if max sum ck = 0 then (1, 1) else (min sum ck, max sum ck)

/-- FidQ16 (R105): the fidelity in unsigned Q16.16, rounded toward zero. -/
def fidQ16 (sum ck : Nat) : Word :=
  if max sum ck = 0 then 0x00010000 else BitVec.ofNat 32 (min sum ck * 65536 / max sum ck)

/-- The validity decision (R106): strictly above the threshold ACC_NUM / ACC_DEN, on the exact ratio. -/
def accepted (acc : AccRegs) (sum ck : Nat) : Bool :=
  acc.num.toNat * (fidRatio sum ck).2 < (fidRatio sum ck).1 * acc.den.toNat

/-- Validate (R106). -/
def validate (acc : AccRegs) (bit : Nat → Bool) (L : Nat) : Verdict :=
  if L < 40 then { result := .short, sum := 0, ck := 0, fid := 0 }
  else
    let sum := byteGroupSum bit (L - 32)
    let ck := checksum32 bit L
    { result := if accepted acc sum.toNat ck.toNat then .good else .corrupt
      sum := sum
      ck := ck
      fid := fidQ16 sum.toNat ck.toNat }

/-- FrameParse (R108) over the bits `bit` of a frame of L bits, `ovf` where bits were dropped. The
argument of `bit` before the bit's number is the pass: validation reads the frame in pass 0, the decode
reads it again in pass 1. -/
def State.frameParse (s : State) (bit : Nat → Nat → Bool) (L : Nat) (ovf : Bool) : Parsed :=
  let silent (v : Verdict) : Parsed := { verdict := v, out := [], trail := 0 }
  if ovf then silent { result := .rxovf, sum := 0, ck := 0, fid := 0 }
  else
    let v := validate s.acc (bit 0) L
    if v.result ≠ .good then silent v
    else if !s.tree.tv then silent { v with result := .notree }
    else
      let r := s.decodeBits 1 (takeBits (bit 1) (L - 32 - s.cfg.pad.toNat))
      if s.params.msgMax < r.1.length then silent { v with result := .decovf }
      else { verdict := v, out := r.1, trail := r.2 }

/-- Publishes a verdict in VAL_RESULT, VAL_SUM, VAL_CK and VAL_FID (R31). -/
def State.putVerdict (s : State) (v : Verdict) : State :=
  { s with val := { result := v.result, sum := v.sum, ck := v.ck, fid := v.fid } }

/-! ### ADDCK (R109) -/

/-- The checks of ADDCK, in order: BUSY, RANGE, OVERFLOW (info: ceil8(P) + 32). -/
def State.addckCheck (s : State) : Option (CmdError × Word) :=
  s.txBusy.orElse fun _ => s.fbufRange.orElse fun _ =>
    let need := ceil8 s.codec.fbufLen.toNat + 32
    if s.params.bitsMax < need then some (.overflow, BitVec.ofNat 32 need) else none

/-- FBUF with the pad bits written: zeros at P .. ceil8(P) - 1. -/
def State.padded (s : State) : State :=
  let len := s.codec.fbufLen.toNat
  { s with store := s.store.putBits fbufBase len (List.replicate (ceil8 len - len) false) }

/-- The effect of ADDCK (R109): the pad, then the sum of the padded payload, least-significant bit
first. -/
def State.addckEffect (s : State) : State :=
  let len := s.codec.fbufLen.toNat
  let t := s.padded
  let sum := byteGroupSum (t.fbufBit 0) (ceil8 len)
  { t with
    codec :=
      { t.codec with
        fbufLen := BitVec.ofNat 32 (ceil8 len + 32), padLen := BitVec.ofNat 3 (ceil8 len - len),
        cksum := sum }
    store := t.store.putBits fbufBase (ceil8 len) (takeBits (fun k => sum.getLsbD k) 32) }

def execAddck (s : State) : Host.Outcome State Fault Refusal :=
  .next (s.run 0x06 s.addckCheck State.addckEffect)

/-! ### VALIDATE (R110) -/

def State.validateEffect (s : State) : State :=
  s.putVerdict (Sys2Proof.Machine.validate s.acc (s.fbufBit 0) s.codec.fbufLen.toNat)

def execValidate (s : State) : Host.Outcome State Fault Refusal :=
  .next (s.run 0x07 s.fbufRange State.validateEffect)

/-! ### PARSE (R111) -/

def State.parseEffect (s : State) : State :=
  let p := s.frameParse s.fbufBit s.codec.fbufLen.toNat false
  let t := (s.putVerdict p.verdict).deliverDmsg p.out p.trail
  if p.verdict.result = .notree then t.setIrq irqFault else t

def execParse (s : State) : Host.Outcome State Fault Refusal :=
  .next (s.run 0x08 s.fbufRange State.parseEffect)

end Sys2Proof.Machine
end

