-- ==== Sys2Proof/Machine/Pulse.lean ====
section
/-! DEFINITION. The duration classifier and the pulse commands CLASSIFY, TX_START, TX_STOP, RX_START and
RX_STOP (42_pulse.md). The engines themselves are in Engines.lean. -/

namespace Sys2Proof.Machine

/-! ### The classifier (R126) -/

/-- Classify(d, RECV): the tests in order, the first that matches wins. -/
def classifyRecv (b : Bands) (d : Word) : PulseClass :=
  if b.termMin ≤ d then .term
  else if b.shortMin ≤ d ∧ d ≤ b.shortMax then .bit0
  else if b.longMin ≤ d ∧ d ≤ b.longMax then .bit1
  else .noise

/-- Classify(d, AWAIT): only the initiation band is looked at. -/
def classifyAwait (b : Bands) (d : Word) : PulseClass :=
  if b.initMin ≤ d ∧ d ≤ b.initMax then .init else .noise

/-! ### CLASSIFY (R127) -/

def State.classifyEffect (p : BitVec 1) (s : State) : State :=
  { s with
    cls :=
      { s.cls with
        output :=
          if p = 1 then classifyRecv s.bands s.cls.input else classifyAwait s.bands s.cls.input } }

def execClassify (p : BitVec 1) (s : State) : Host.Outcome State Fault Refusal :=
  .next (s.run 0x09 none (State.classifyEffect p))

/-! ### TX_START (R117) -/

/-- The checks of TX_START, in order: BUSY, RANGE. -/
def State.txStartCheck (s : State) : Option (CmdError × Word) := s.txBusy.orElse fun _ => s.fbufRange

def State.txStartEffect (s : State) : State :=
  { s with
    tx :=
      { s.tx with
        phase := .pre, bitIdx := 0, len := s.codec.fbufLen, rem := s.txTiming.pre } }

def execTxStart (s : State) : Host.Outcome State Fault Refusal :=
  .next (s.run 0x10 s.txStartCheck State.txStartEffect)

/-! ### TX_STOP (R122) -/

def State.txStopEffect (s : State) : State :=
  { s with tx := { s.tx with phase := .idle, bitIdx := 0, rem := 0 } }

def execTxStop (s : State) : Host.Outcome State Fault Refusal :=
  .next (s.run 0x11 none State.txStopEffect)

/-! ### RX_START (R123) -/

def State.rxStartEffect (s : State) : State :=
  { s with rx := { s.rx with phase := .await, det := .needLow, hcnt := 0, ovf := false } }

def execRxStart (s : State) : Host.Outcome State Fault Refusal :=
  .next (s.run 0x12 s.rxBusy State.rxStartEffect)

/-! ### RX_STOP (R129) -/

def State.rxStopEffect (s : State) : State :=
  { s with
    rx :=
      { s.rx with phase := .idle, det := .needLow, hcnt := 0, dcnt := 0, parsePending := none } }

def execRxStop (s : State) : Host.Outcome State Fault Refusal :=
  .next (s.run 0x13 none State.rxStopEffect)

end Sys2Proof.Machine
end

