-- ==== Sys2Proof/Machine/Dispatch.lean ====
section
/-! DEFINITION. The meaning of each command of 30_encoding.md R80: its checks, its effect and its
completion, as the command engine's step applies them (R85). -/

namespace Sys2Proof.Machine

def exec (i : Instr) (s : State) : Host.Outcome State Fault Refusal :=
  match i with
  | .nop => Sys2Proof.Machine.execNop s
  | .freq => Sys2Proof.Machine.execFreq s
  | .build => Sys2Proof.Machine.execBuild s
  | .codes => Sys2Proof.Machine.execCodes s
  | .encode => Sys2Proof.Machine.execEncode s
  | .decode => Sys2Proof.Machine.execDecode s
  | .addck => Sys2Proof.Machine.execAddck s
  | .validate => Sys2Proof.Machine.execValidate s
  | .parse => Sys2Proof.Machine.execParse s
  | .classify p => Sys2Proof.Machine.execClassify p s
  | .txStart => Sys2Proof.Machine.execTxStart s
  | .txStop => Sys2Proof.Machine.execTxStop s
  | .rxStart => Sys2Proof.Machine.execRxStart s
  | .rxStop => Sys2Proof.Machine.execRxStop s
  | .sreset => Sys2Proof.Machine.execSreset s

end Sys2Proof.Machine
end

