-- ==== Sys2Proof/Machine/Engines.lean ====
section
/-! DEFINITION. What runs beside the command engine: the tick with the TX engine and the RX engine
(42_pulse.md R116, R119, R125), and the RX frame parser's step (R128). -/

namespace Sys2Proof.Machine

/-! ### The TX engine -/

/-- Enter(ph, R) (R119): the phase, and the value its timing register has now. -/
def State.txEnter (s : State) (ph : TxPhase) (len : Word) : State :=
  { s with tx := { s.tx with phase := ph, rem := len } }

/-- EnterBit (R119): frame bit TX_BITIDX is read from FBUF now. -/
def State.txEnterBit (s : State) : State :=
  s.txEnter .bith
    (if s.fbufBit 0 s.tx.bitIdx.toNat then s.txTiming.bit1 else s.txTiming.bit0)

/-- The bit index moves. -/
def State.txAtBit (s : State) (i : Word) : State := { s with tx := { s.tx with bitIdx := i } }

/-- The end of TERM (R119, R120): the frame is counted and reported, and the engine repeats it after
TX_DELAY or stops. -/
def State.txFrameDone (s : State) : State :=
  let t := ({ s with tx := { s.tx with count := s.tx.count + 1 } }).setIrq irqTxFrame
  if s.cfg.txRepeat then t.txEnter .delay s.txTiming.delay else t.txEnter .idle 0

/-- TxNext (R119): the current phase has run its length. -/
def State.txNext (s : State) : State :=
  match s.tx.phase with
  | .idle => s
  | .pre => s.txEnter .init s.txTiming.init
  | .init => s.txEnter .gapi s.txTiming.gap
  | .gapi =>
    if s.tx.len = 0 then s.txEnter .term s.txTiming.term else (s.txAtBit 0).txEnterBit
  | .bith => s.txEnter .bitl s.txTiming.gap
  | .bitl =>
    if s.tx.bitIdx.toNat + 1 < s.tx.len.toNat then (s.txAtBit (s.tx.bitIdx + 1)).txEnterBit
    else (s.txAtBit 0).txEnter .term s.txTiming.term
  | .term => s.txFrameDone
  | .delay => s.txEnter .pre s.txTiming.pre

/-- TxTick (R119), less the level it returns, which is `lineOut` before it. -/
def State.txTick (s : State) : State :=
  if s.tx.phase = .idle then s
  else
    let t := { s with tx := { s.tx with rem := s.tx.rem - 1 } }
    if t.tx.rem = 0 then t.txNext else t

/-! ### The RX engine -/

/-- A data bit arrives (R125): it is appended to RBUF, or dropped and recorded in OVF when RBUF is
full. -/
def State.rxAppend (s : State) (b : Bool) : State :=
  if s.rx.rbufLen.toNat < s.params.bitsMax then
    { s with
      store := s.store.putBit rbufBase s.rx.rbufLen.toNat b
      rx := { s.rx with rbufLen := s.rx.rbufLen + 1 } }
  else { s with rx := { s.rx with ovf := true } }

/-- Pulse(d) (R125): a pulse of d ticks ended. -/
def State.rxPulse (s : State) (d : Word) : State :=
  if s.rx.phase = .await then
    if classifyAwait s.bands d = .init then
      { s with rx := { s.rx with phase := .recv, rbufLen := 0, ovf := false } }
    else s
  else
    match classifyRecv s.bands d with
    | .bit0 => s.rxAppend false
    | .bit1 => s.rxAppend true
    | .term =>
      { s with
        rx :=
          { s.rx with
            phase := .parse, parsePending := some { len := s.rx.rbufLen, ovf := s.rx.ovf } } }
    | .noise | .init => s

/-- Detect(s) (R125): the edge detector, whose high-run count stops at 2^32 - 1. -/
def State.rxDetect (s : State) (sample : Bool) : State :=
  match s.rx.det with
  | .needLow => if sample then s else { s with rx := { s.rx with det := .low } }
  | .low => if sample then { s with rx := { s.rx with det := .high, hcnt := 1 } } else s
  | .high =>
    if sample then
      if s.rx.hcnt = BitVec.allOnes 32 then s
      else { s with rx := { s.rx with hcnt := s.rx.hcnt + 1 } }
    else
      { s with rx := { s.rx with det := .low, hcnt := 0 } }.rxPulse s.rx.hcnt

/-- RxDelayTick (R130). -/
def State.rxDelayTick (s : State) : State :=
  let t := { s with rx := { s.rx with dcnt := s.rx.dcnt - 1 } }
  if t.rx.dcnt = 0 then { t with rx := { t.rx with phase := .await, det := .needLow } } else t

/-- RxTick (R125): every tick records the level, and what else happens depends on the state. -/
def State.rxTick (s : State) (sample : Bool) : State :=
  let t := { s with rx := { s.rx with level := sample } }
  match s.rx.phase with
  | .idle | .parse => t
  | .delay => t.rxDelayTick
  | .await | .recv => t.rxDetect sample

/-! ### The tick -/

/-- TickStep (R116): TIME counts, the TX engine moves, and the RX engine takes line_in or, in loopback,
the level the TX engine drove during this tick (R124). -/
def State.tickStep (s : State) (lineIn : Bool) : State :=
  let t := { s with clock := { s.clock with time := s.clock.time + 1 } }
  t.txTick.rxTick (if s.cfg.loop then s.lineOut else lineIn)

/-! ### The RX frame parser (R128) -/

/-- A frame's results are published together: RX_RESULT .. RX_TRAIL, RMSG, and one more in RX_COUNT. -/
def State.rxPublish (s : State) (p : Parsed) : State :=
  { s with
    rxOut :=
      { result := p.verdict.result, sum := p.verdict.sum, ck := p.verdict.ck, fid := p.verdict.fid
        rmsgLen := BitVec.ofNat 32 p.out.length, trail := BitVec.ofNat 32 p.trail
        count := s.rxOut.count + 1 }
    store := s.store.put rmsgBase p.out }

/-- The interrupt bits a publication sets: RX_OVR if RX_FRAME was 1, RX_FRAME, and FAULT for NOTREE. -/
def State.rxReport (s : State) (result : FrameResult) : State :=
  let t := if s.irq.status.getLsbD irqRxFrame then s.setIrq irqRxOvr else s
  let u := t.setIrq irqRxFrame
  if result = .notree then u.setIrq irqFault else u

/-- Where the RX engine goes after a publication: it stops, or re-arms at once or after RX_DELAY. -/
def State.rxRearm (s : State) : State :=
  let r := { s.rx with parsePending := none }
  if s.cfg.rxCont then
    if s.rxDelay = 0 then { s with rx := { r with phase := .await, det := .needLow } }
    else { s with rx := { r with phase := .delay, dcnt := s.rxDelay } }
  else { s with rx := { r with phase := .idle, det := .needLow } }

/-- The frame parser's step (R128), enabled while STATE = PARSE; RX_PARSE_PENDING is set exactly then
(R56). -/
def State.parseStep (s : State) : State :=
  match s.rx.phase, s.rx.parsePending with
  | .parse, some snap =>
    let p := s.frameParse s.rbufBit snap.len.toNat snap.ovf
    ((s.rxPublish p).rxReport p.verdict.result).rxRearm
  | _, _ => s

end Sys2Proof.Machine
end

