-- ==== Sys2Proof/Machine/Agents.lean ====
section
/-! DEFINITION. One turn of each agent (00_scope.md R14). A turn that is not enabled changes nothing. -/

namespace Sys2Proof.Machine

/-- The command engine's step (30_encoding.md R85): the pending word is decoded and run; an illegal word
completes with ILLEGAL, info = the word (R81). -/
def State.completeStep (s : State) : Host.Outcome State Fault Refusal :=
  match s.cmd.pending with
  | none => .next s
  | some w =>
    match decode w with
    | .ok i => exec i s
    | .error _ => .next (s.fail (w.extractLsb' 0 8) .illegal w)

/-- One turn of one agent. -/
def State.act (s : State) : Input → Host.Outcome State Fault Refusal
  | .hostRead addr strb => .next (s.busRead addr strb)
  | .hostWrite addr strb data => s.busWrite addr strb data
  | .complete => s.completeStep
  | .tick lineIn => .next (s.tickStep lineIn)
  | .parseFrame => .next s.parseStep
  | .reset => .next s.performReset

/-- The turns of a free stretch, in order: a completion, a parse step and a tick, each after finitely many
other turns (R15). -/
def roundTurns (r : Round) : List Input :=
  r.beforeComplete ++
    .complete :: (r.beforeParse ++ .parseFrame :: (r.beforeTick ++ [.tick r.lineIn]))

/-- The turns already chosen: the agenda, or a free round when the agenda lists none (R14: steps interleave
in any order; R15: fairly). -/
def State.upcoming (s : State) : List Input :=
  match s.agenda with
  | [] => roundTurns (Config.freeRound s.draws)
  | turn :: rest => turn :: rest

/-- The turn taken next. There always is one. -/
def State.turn (s : State) : Input := s.upcoming.headD .complete

/-- The state in which the next turn is taken: the turn is off the agenda, and the step has a number, and
so draws, of its own. -/
def State.advance (s : State) : State := { s with agenda := s.upcoming.tail, draws := s.draws + 1 }

/-- The agenda and the PENDING word that make the next turn run a command word: SRESET is written to CMD
(R84: it is never pending), and any other word completes. -/
def State.offer (s : State) (w : Word) : State :=
  if w = 0x0000001F then
    { s with agenda := .hostWrite 0x00000 0b1111 w :: s.agenda }
  else
    { s with cmd := { s.cmd with pending := some w }, agenda := .complete :: s.agenda }

end Sys2Proof.Machine
end

