-- ==== Sys2Proof/Machine/Step.lean ====
section
/-! DEFINITION. One step of the machine: one turn of one agent (00_scope.md R14), and how a given command
word comes to be run by the next one. -/

namespace Sys2Proof.Machine

/-- One atomic step. -/
def step (s : State) : Host.Outcome State Fault Refusal := s.advance.act s.turn

/-- The state whose next step runs the command word `w` of `nbits` bits, the bits above them zero. -/
def State.withFetchWord (s : State) (nbits w : Nat) : State :=
  s.offer (BitVec.ofNat 32 (w % 2 ^ nbits))

end Sys2Proof.Machine
end

