-- ==== Sys2Proof/Safety.lean ====
section
/-! DEFINITION. The terms the statements use: how a command completes or fails, what is left unchanged,
what a legal state of each part of the machine is, and what a path in a tree spells. -/

namespace Sys2Proof.Machine

/-! ### Completions and frames -/

/-- `t` records the completion of a command of opcode `op` with OK (30_encoding.md R85). -/
def Completed (s t : State) (op : BitVec 8) : Prop :=
  t.cmd = { pending := none, err := .ok, lastOp := op, errInfo := 0 } ∧
    t.irq = { s.irq with status := s.irq.status ||| 0x01 }

/-- `t` is `s` with the completion of a command of opcode `op` with an error recorded, and nothing else
changed (60_exceptions.md R137): CMD_DONE and CMD_ERR, and FAULT with NOTREE. -/
def Failed (s t : State) (op : BitVec 8) (code : CmdError) (info : Word) : Prop :=
  t =
    { s with
      cmd := { pending := none, err := code, lastOp := op, errInfo := info }
      irq :=
        { s.irq with status := s.irq.status ||| (if code = .notree then 0x43 else 0x03) } }

/-- The offsets of `len` bytes from `lo` on. -/
abbrev within (lo len a : Nat) : Prop := lo ≤ a ∧ a < lo + len

/-- Every byte outside the named offsets reads in `t` what it reads in `s`, on every pass. -/
def SameBytesBut (s t : State) (changed : Nat → Prop) : Prop :=
  ∀ pass a, ¬ changed a → t.readByte pass a = s.readByte pass a

/-- The offsets of the bytes that hold bits lo .. hi-1 of FBUF (20_memory.md R62). -/
def fbufBytes (lo hi a : Nat) : Prop := ∃ k, lo ≤ k ∧ k < hi ∧ a = fbufBase + k / 8

/-- The offsets of CODE_LEN and CODE_BITS. -/
def codeOffsets (a : Nat) : Prop := within codeLenBase 1024 a ∨ within codeBitsBase 8192 a

/-- The bits of a frame on each pass: those that have been written do not differ from pass to pass. -/
def FbufWritten (s : State) (len : Nat) : Prop :=
  ∀ k < len, (s.store.written.get (fbufBase + k / 8)).getLsbD (7 - k % 8) = true

/-- The first `n` symbols of MSG have been written. -/
def MsgWritten (s : State) (n : Nat) : Prop := ∀ i < n, s.store.written.get (msgBase + i) = 0xFF

/-! ### Turns -/

/-- The turn resets the core: rst_n, or a write of SRESET's word to CMD that reaches it (R84, R151). -/
def turnResets : Input → Bool
  | .reset => true
  | .hostWrite addr strb data => addr == 0 && strb == 0b1111 && data == 0x0000001F
  | _ => false

/-! ### Runs -/

/-- The machine after one step; no step of this machine stops, and a step that did would stay. -/
def State.next (s : State) : State :=
  match step s with
  | .next t => t
  | .fault _ | .refused _ => s

/-- The machine after `n` steps. -/
def State.after (s : State) : Nat → State
  | 0 => s
  | n + 1 => (s.after n).next

/-! ### Reads -/

/-- The register table of 10_state.md section 3: each offset, and the value a read returns there (R66), by
the fields of the rule that the table names. -/
def State.registerMap (s : State) : List (Nat × Word) :=
  [(0x000, 0), (0x004, s.cmdStatus), (0x008, s.cmd.errInfo), (0x00C, s.cfg.word),
   (0x010, s.codec.msgLen), (0x014, s.codec.fbufLen), (0x018, s.codec.dmsgLen),
   (0x01C, s.codec.decTrail), (0x020, s.codec.padLen.zeroExtend 32), (0x024, s.codec.cksum),
   (0x028, s.val.result.code.zeroExtend 32), (0x02C, s.val.sum), (0x030, s.val.ck),
   (0x034, s.val.fid), (0x038, s.tree.word), (0x03C, s.cls.input),
   (0x040, s.cls.output.code.zeroExtend 32), (0x044, s.irq.status.zeroExtend 32),
   (0x048, s.irq.enable.zeroExtend 32), (0x04C, 0x50504C31), (0x050, BitVec.ofNat 32 s.params.msgMax),
   (0x054, BitVec.ofNat 32 s.params.bitsMax), (0x058, s.clock.time.extractLsb' 0 32),
   (0x05C, s.clock.shadow)] ++
  [(0x080, s.tx.word), (0x084, s.tx.bitIdx), (0x088, s.tx.len), (0x08C, s.tx.count),
   (0x090, s.txTiming.pre), (0x094, s.txTiming.init), (0x098, s.txTiming.gap),
   (0x09C, s.txTiming.bit0), (0x0A0, s.txTiming.bit1), (0x0A4, s.txTiming.term),
   (0x0A8, s.txTiming.delay), (0x0B0, s.tx.rem)] ++
  [(0x0C0, s.rx.word), (0x0C4, s.rx.rbufLen), (0x0C8, s.rxOut.result.code.zeroExtend 32),
   (0x0CC, s.rxOut.sum), (0x0D0, s.rxOut.ck), (0x0D4, s.rxOut.fid), (0x0D8, s.rxOut.rmsgLen),
   (0x0DC, s.rxOut.trail), (0x0E0, s.rxOut.count), (0x0E4, s.rxDelay), (0x0E8, s.rx.hcnt)] ++
  [(0x100, s.bands.shortMin), (0x104, s.bands.shortMax), (0x108, s.bands.longMin),
   (0x10C, s.bands.longMax), (0x110, s.bands.initMin), (0x114, s.bands.initMax),
   (0x118, s.bands.termMin), (0x120, s.acc.num.zeroExtend 32), (0x124, s.acc.den.zeroExtend 32)]

/-- The offsets of the RW registers and of the W1C register of 10_state.md section 3. CMD, at 0x000, is the
one other register the host may write. -/
def writableRegisters : List Nat :=
  [0x00C, 0x010, 0x014, 0x03C, 0x044, 0x048] ++
  [0x090, 0x094, 0x098, 0x09C, 0x0A0, 0x0A4, 0x0A8] ++
  [0x0E4, 0x100, 0x104, 0x108, 0x10C, 0x110, 0x114, 0x118, 0x120, 0x124]

/-- What the register at a writable offset reads after a write of `v` (20_memory.md R67): CFG, IRQ_EN,
ACC_NUM and ACC_DEN keep their fields (10_state.md R26, R34, R43), IRQ_STATUS loses the bits written as 1, a
TX timing register stores 1 for a written 0 (R38), and every other one stores `v`. -/
def State.afterWrite (s : State) (v : Word) (a : Nat) : Word :=
  if a = 0x00C then v &&& 0x00030107
  else if a = 0x044 then s.irq.status.zeroExtend 32 &&& ~~~v
  else if a = 0x048 then v &&& 0x000000FF
  else if 0x090 ≤ a ∧ a ≤ 0x0A8 then if v = 0 then 1 else v
  else if a = 0x120 ∨ a = 0x124 then v &&& 0x0000FFFF
  else v

/-- The offsets of the windows that the host may write: FREQ, and the valid parts of MSG and FBUF
(20_memory.md R59). -/
def writableWindows (p : Params) (a : Nat) : Prop :=
  within 0x01000 0x400 a ∨ within 0x10000 (min p.msgMax 0x10000) a ∨
    within 0x40000 (min (p.bitsMax / 8) 0x10000) a

/-- The offsets of the tables and of the valid parts of the buffers (20_memory.md R59). -/
def storageOffset (p : Params) (a : Nat) : Prop :=
  within 0x01000 0x400 a ∨ within 0x01400 0x400 a ∨ within 0x02000 0x2000 a ∨ within 0x04000 0x1000 a ∨
    within 0x10000 p.msgMax a ∨ within 0x20000 p.msgMax a ∨ within 0x30000 p.msgMax a ∨
    within 0x40000 (p.bitsMax / 8) a ∨ within 0x50000 (p.bitsMax / 8) a

/-- A host read of any location now is not refused, returns the free word in the bits `free` names, by
offset and bit, and what the location holds in every other bit (20_memory.md R66, R71). -/
def State.ReadsFree (s : State) (free : Nat → Nat → Prop) : Prop :=
  ∀ (addr : BitVec 20) (r : Region), reach s.params addr 0b1111 = some r →
    let t := s.busRead addr 0b1111
    t.bus.pslverr = false ∧
      ∀ b, b < 32 →
        (free addr.toNat b → t.bus.prdata.getLsbD b = (Config.freeWord s.draws).getLsbD b) ∧
        (¬ free addr.toNat b → t.bus.prdata.getLsbD b = (s.stored r addr.toNat).getLsbD b)

/-- Bit `b` of the word at offset `a` is one of frame bits lo .. hi-1 of FBUF (20_memory.md R61, R62). -/
def fbufWordBits (lo hi a b : Nat) : Prop :=
  within 0x40000 0x10000 a ∧
    let k := 8 * (a - 0x40000 + b / 8) + (7 - b % 8)
    lo ≤ k ∧ k < hi

/-! ### Trees -/

/-- The node of an index in a list of nodes. -/
def nodeOf (nodes : List Node) (i : Nat) : Node := nodes.getD i (.leaf 0 0)

/-- `j` is a child of node `i`. -/
def isChildOf (nodes : List Node) (j i : Nat) : Prop :=
  ∃ l r w, nodes[i]? = some (.inner l r w) ∧ (j = l ∨ j = r)

/-- `j` has no parent among the nodes made before node `i`. -/
def parentlessBefore (nodes : List Node) (i j : Nat) : Prop := ∀ k < i, ¬ isChildOf nodes j k

/-- The key of a node, (weight, index), in the order of 40_huffman.md R89: `x` comes before `y` or is
it. -/
def keyLe (nodes : List Node) (x y : Nat) : Prop :=
  (nodeOf nodes x).weight < (nodeOf nodes y).weight ∨
    ((nodeOf nodes x).weight = (nodeOf nodes y).weight ∧ x ≤ y)

/-- The symbol of the leaf at the end of a path from a node, "0" left and "1" right; none when the path
ends at an internal node or goes on beyond a leaf. -/
def descend (node : Nat → Node) : Nat → List Bool → Option Byte
  | i, [] =>
    match node i with
    | .leaf sym _ => some sym
    | .inner _ _ _ => none
  | i, b :: bs =>
    match node i with
    | .leaf _ _ => none
    | .inner l r _ => descend node (if b then r else l) bs

/-- The code of a symbol in a code table; none where it has none. -/
def codeIn (codes : List (Byte × List Bool)) (sym : Byte) : List Bool := (codes.lookup sym).getD []

/-- The tree the machine holds is one that BuildTree makes from some frequency table (10_state.md R49,
40_huffman.md R89): the nodes are its nodes, and ROOT and NLEAF are its root and leaf count. -/
def State.holdsTree (s : State) (freq : List Nat) : Prop :=
  0 < (leafSymbols freq).length ∧ freq.sum < 2 ^ 32 ∧
    s.tree.root.toNat = (buildTree freq).length - 1 ∧
    s.tree.nleaf.toNat = (leafSymbols freq).length ∧
    ∀ pass i, i < (buildTree freq).length → s.nodeAt pass i = nodeOf (buildTree freq) i

/-! ### Legal states -/

/-- Both memories of the storage are in canonical form. -/
def Storage.wf (st : Storage) : Bool := st.bits.wf && st.written.wf

/-- An offset of the storage (20_memory.md R59): mapped, and no register. -/
def isStorage (p : Params) (a : Nat) : Bool :=
  match locate p a with
  | none => false
  | some (.csr _ _) => false
  | some _ => true

/-- The storage is canonical and lists nothing outside the mapped windows, and the capacities are
legal. -/
def State.StorageOk (s : State) : Prop :=
  s.params.legal = true ∧ s.store.wf = true ∧
    (∀ c ∈ s.store.bits, isStorage s.params c.1 = true) ∧
    ∀ c ∈ s.store.written, isStorage s.params c.1 = true

/-- The TX engine (10_state.md R37, R38): TX_REM is 0 exactly in IDLE, TX_BITIDX is a bit of the frame
while a bit is sent and 0 otherwise, the frame fits FBUF, and every timing register is at least 1. -/
def State.TxOk (s : State) : Prop :=
  (s.tx.phase = .idle ↔ s.tx.rem = 0) ∧
    (s.tx.phase = .bith ∨ s.tx.phase = .bitl → s.tx.bitIdx.toNat < s.tx.len.toNat) ∧
    (s.tx.phase ≠ .bith → s.tx.phase ≠ .bitl → s.tx.bitIdx = 0) ∧
    s.tx.len.toNat ≤ s.params.bitsMax ∧
    s.txTiming.pre ≠ 0 ∧ s.txTiming.init ≠ 0 ∧ s.txTiming.gap ≠ 0 ∧ s.txTiming.bit0 ≠ 0 ∧
    s.txTiming.bit1 ≠ 0 ∧ s.txTiming.term ≠ 0 ∧ s.txTiming.delay ≠ 0

/-- The RX engine (10_state.md R39, R54, R56): a frame waits for the parser exactly in PARSE, and it is
the frame in RBUF; RX_HCNT is 0 unless DET is HIGH; RX_DCNT counts exactly in DELAY; RBUF_LEN is at most
BITS_MAX, and bits were dropped only when RBUF is full; DET is NEEDLOW in IDLE and LOW in PARSE and
DELAY. -/
def State.RxOk (s : State) : Prop :=
  s.params.legal = true ∧
    (s.rx.phase = .parse ↔ s.rx.parsePending.isSome = true) ∧
    (∀ snap, s.rx.parsePending = some snap →
      snap.len = s.rx.rbufLen ∧ snap.ovf = s.rx.ovf) ∧
    (s.rx.det = .high ↔ s.rx.hcnt ≠ 0) ∧
    (s.rx.phase = .delay ↔ s.rx.dcnt ≠ 0) ∧
    s.rx.rbufLen.toNat ≤ s.params.bitsMax ∧
    (s.rx.ovf = true → s.rx.rbufLen.toNat = s.params.bitsMax) ∧
    (s.rx.phase = .idle → s.rx.det = .needLow) ∧
    (s.rx.phase = .parse ∨ s.rx.phase = .delay → s.rx.det = .low)

/-- The command path's registers: SRESET is never pending (43_control.md R134), a code table needs a
tree (10_state.md R32), a fidelity is at most 1.0 (R31), RXOVF is a result of the RX engine only (R30),
and a delivered message fits its buffer (R28, R40). -/
def State.RegsOk (s : State) : Prop :=
  s.cmd.pending ≠ some 0x0000001F ∧
    (s.tree.cv = true → s.tree.tv = true) ∧
    s.val.fid.toNat ≤ 0x10000 ∧ s.rxOut.fid.toNat ≤ 0x10000 ∧
    s.val.result ≠ .rxovf ∧
    s.codec.dmsgLen.toNat ≤ s.params.msgMax ∧ s.rxOut.rmsgLen.toNat ≤ s.params.msgMax

/-- The tree (10_state.md R49): whenever TV = 1 the machine holds a tree that BuildTree makes. -/
def State.TreeOk (s : State) : Prop := s.tree.tv = true → ∃ freq, s.holdsTree freq

end Sys2Proof.Machine
end

