-- ==== Sys2Proof/Certificates/Slice0/Obligations.lean ====
section
/-! DEFINITION. The statements for the provers, each a proposition about the model; the docstrings name
the rules of spec/ they formalise. -/

open Sys2Proof Sys2Proof.Machine

/-! ### Encoding (30_encoding.md) -/

/-- Decoding and encoding agree: a word decodes to a command exactly when it is that command's word
(R78, R80). -/
def Obligations.DecodeIffEncode : Prop :=
  ∀ (w : Word) (i : Instr), decode w = .ok i ↔ w = encode i

/-- R81: which words are illegal, and that an illegal word completes with ILLEGAL, info = the word, and
has no other effect. -/
def Obligations.IllegalWordsAreRefused : Prop :=
  ∀ w : Word,
    ((∃ e, decode w = .error e) ↔
      ((0x0A ≤ w.toNat % 256 ∧ w.toNat % 256 ≤ 0x0F) ∨
          (0x14 ≤ w.toNat % 256 ∧ w.toNat % 256 ≤ 0x1E) ∨ 0x20 ≤ w.toNat % 256) ∨
        (∃ b, 9 ≤ b ∧ b ≤ 31 ∧ w.getLsbD b = true) ∨
        (w.getLsbD 8 = true ∧ w.toNat % 256 ≠ 0x09)) ∧
    ∀ (s : State) (e : Illegal), s.turn = .complete → s.cmd.pending = some w →
      decode w = .error e →
      ∃ t, step s = .next t ∧ Failed s.advance t (w.extractLsb' 0 8) .illegal w

/-- Words written out from the opcode map (R80) and from 95_test_vectors.md section 8. -/
def Obligations.SampleWordsDecode : Prop :=
  decode 0x00000000 = .ok .nop ∧ decode 0x00000001 = .ok .freq ∧ decode 0x00000002 = .ok .build ∧
    decode 0x00000004 = .ok .encode ∧ decode 0x00000005 = .ok .decode ∧
    decode 0x00000006 = .ok .addck ∧ decode 0x00000008 = .ok .parse ∧
    decode 0x00000009 = .ok (.classify 0) ∧ decode 0x00000109 = .ok (.classify 1) ∧
    decode 0x00000010 = .ok .txStart ∧ decode 0x00000013 = .ok .rxStop ∧
    decode 0x0000001F = .ok .sreset ∧
    decode 0x0000000A = .error .unassignedOp ∧ decode 0x000000FF = .error .unassignedOp ∧
    decode 0x00000101 = .error .phaseBit ∧ decode 0x00000209 = .error .reservedBits ∧
    decode 0x80000004 = .error .reservedBits ∧ decode 0x0000021F = .error .reservedBits

/-! ### The machine's step and the command engine -/

/-- A step runs the decoded command: the completion of a pending word that decodes to `i` is `exec i`,
SRESET's word written to CMD is `exec .sreset`, and around them the step takes the turn off the agenda
and numbers itself (R14, R84, R85). Two parts are the model's choice and no rule's: the agenda and the
step's number (log entry 8), and the completion of a pending SRESET, which no run reaches (log
entry 16). -/
def Obligations.StepRunsDecodedCommand : Prop :=
  (∀ (s : State) (w : Word) (i : Instr), s.turn = .complete → s.cmd.pending = some w →
      decode w = .ok i → step s = exec i s.advance) ∧
    (∀ s : State, s.turn = .hostWrite 0x00000 0b1111 0x0000001F →
      step s = exec .sreset s.advance) ∧
    ∀ (s : State) (turn : Input) (rest : List Input), s.agenda = turn :: rest →
      s.turn = turn ∧ s.advance = { s with agenda := rest, draws := s.draws + 1 }

/-- Nothing stops the machine, and every run is fair. Every step of every state answers a next state (R138).
In every run, from every state: a pending command stays pending until, after finitely many steps, its
completion or a reset ends it; a pending frame parse stays pending until its parse step, an RX_STOP or a
reset ends it; and ticks occur infinitely often (R15). The first premise of the parse clause is the invariant
`StepKeepsRegisters` states. That the turns beyond the agenda come in free rounds is log entry 3. -/
def Obligations.StepsAnswerAndRunsAreFair : Prop :=
  (∀ s : State, ∃ t, step s = .next t) ∧
    ∀ s : State,
      (∀ n, step (s.after n) = .next (s.after (n + 1))) ∧
      (∀ w, s.cmd.pending = some w →
        ∃ m, (∀ k, k ≤ m → (s.after k).cmd.pending = some w) ∧
          (s.after (m + 1)).cmd.pending = none ∧
          ((s.after m).turn = .complete ∨ turnResets (s.after m).turn = true)) ∧
      (∀ snap, s.RegsOk → s.rx.phase = .parse → s.rx.parsePending = some snap →
        ∃ m,
          (∀ k, k ≤ m →
            (s.after k).rx.phase = .parse ∧ (s.after k).rx.parsePending = some snap) ∧
          (s.after (m + 1)).rx.phase ≠ .parse ∧ (s.after (m + 1)).rx.parsePending = none ∧
          ((s.after m).turn = .parseFrame ∨ turnResets (s.after m).turn = true ∨
            ((s.after m).turn = .complete ∧ (s.after m).cmd.pending = some (encode .rxStop)))) ∧
      ∀ n, ∃ m, n ≤ m ∧ ∃ x, (s.after m).turn = .tick x

/-- R84: a bus write of a word to CMD resets, becomes the pending command, or is dropped with CMD_OVR;
it is never refused. -/
def Obligations.CmdWriteIssuesCommand : Prop :=
  ∀ (s : State) (w : Word),
    ∃ t, s.busWrite 0x00000 0b1111 w = .next t ∧ t.bus.pslverr = false ∧
      (w = 0x0000001F → t = { s.performReset with bus := t.bus }) ∧
      (w ≠ 0x0000001F → s.cmd.pending = none →
        t = { s with cmd := { s.cmd with pending := some w }, bus := t.bus }) ∧
      (w ≠ 0x0000001F → s.cmd.pending ≠ none →
        t = { s with irq := { s.irq with status := s.irq.status ||| 0x04 }, bus := t.bus })

/-! ### Control commands (43_control.md) -/

/-- NOP completes and changes nothing else (R133). -/
def Obligations.NopOnlyCompletes : Prop :=
  ∀ s : State, ∃ t, exec .nop s = .next t ∧ Completed s t 0x00 ∧
    t = { s with cmd := t.cmd, irq := t.irq }

/-- SRESET puts every register at its reset value and every piece of storage back to unwritten, and
leaves only the parameters and the model's own agenda and step number, whose keeping is the model's choice
(R134, R151, log entry 8). Unwritten storage reads as a draw of the step and the pass (log entry 1). -/
def Obligations.SresetResets : Prop :=
  ∀ s : State, ∃ t, exec .sreset s = .next t ∧
    t.params = s.params ∧ t.agenda = s.agenda ∧ t.draws = s.draws ∧
    t.cmd = { pending := none, err := .ok, lastOp := 0, errInfo := 0 } ∧
    t.cfg = { pad := 0, loop := false, txRepeat := false, rxCont := false } ∧
    t.codec = { msgLen := 0, fbufLen := 0, dmsgLen := 0, decTrail := 0, padLen := 0, cksum := 0 } ∧
    t.val = { result := .unset, sum := 0, ck := 0, fid := 0 } ∧
    t.tree = { tv := false, cv := false, root := 0, nleaf := 0 } ∧
    t.cls = { input := 0, output := .noise } ∧
    t.irq = { status := 0, enable := 0 } ∧ t.clock = { time := 0, shadow := 0 } ∧
    t.tx = { phase := .idle, bitIdx := 0, len := 0, count := 0, rem := 0 } ∧
    t.txTiming =
      { pre := 100, init := 650, gap := 100, bit0 := 50, bit1 := 150, term := 1200,
        delay := 100000 } ∧
    t.rx =
      { phase := .idle, det := .needLow, level := false, ovf := false, rbufLen := 0, hcnt := 0,
        dcnt := 0, parsePending := none } ∧
    t.rxOut =
      { result := .unset, sum := 0, ck := 0, fid := 0, rmsgLen := 0, trail := 0, count := 0 } ∧
    t.rxDelay = 0 ∧
    t.bands =
      { shortMin := 0, shortMax := 95, longMin := 96, longMax := 200, initMin := 401,
        initMax := 900, termMin := 1000 } ∧
    t.acc = { num := 995, den := 1000 } ∧ t.bus.pslverr = false ∧
    (∀ pass a, isFixed a = false → t.readByte pass a = Config.freeByte s.draws pass a) ∧
    t.lineOut = false ∧ t.irqLine = false

/-! ### Huffman commands (40_huffman.md) -/

/-- FREQ with a message that fits: FREQ[s] becomes the number of times s occurs in the message, and
nothing else changes (R88, R94). Unwritten storage: log entry 1. -/
def Obligations.FreqCountsSymbols : Prop :=
  ∀ s : State, s.codec.msgLen.toNat ≤ s.params.msgMax →
    ∃ t, exec .freq s = .next t ∧ Completed s t 0x01 ∧
      t = { s with cmd := t.cmd, irq := t.irq, store := t.store } ∧
      (∀ pass sym, sym < 256 →
        (t.readWord pass (freqBase + 4 * sym)).toNat =
          (s.message s.codec.msgLen.toNat).count (BitVec.ofNat 8 sym)) ∧
      SameBytesBut s t (within freqBase 1024)

/-- BUILD of a table with a symbol and a total that fits, with the RX engine idle: TREE holds BuildTree's
nodes and zeros elsewhere, TREE_STATUS says so, the code table is cleared, and nothing else changes (R48,
R89, R95). Unwritten storage: log entry 1. -/
def Obligations.BuildWritesTree : Prop :=
  ∀ s : State, s.rx.phase = .idle → s.freqTable.sum < 2 ^ 32 →
    (∃ sym, sym < 256 ∧ s.freqAt sym ≠ 0) →
    ∃ t, exec .build s = .next t ∧ Completed s t 0x02 ∧
      t = { s with cmd := t.cmd, irq := t.irq, tree := t.tree, store := t.store } ∧
      (let nodes := buildTree s.freqTable
       let n := (leafSymbols s.freqTable).length
       t.tree =
          { tv := true, cv := false, root := BitVec.ofNat 9 (2 * n - 2),
            nleaf := BitVec.ofNat 9 n } ∧
        (∀ pass i, i < 2 * n - 1 →
          nodes[i]? = some (t.nodeAt pass i) ∧ (t.nodeWord pass i).getLsbD 30 = true) ∧
        (∀ pass i, 2 * n - 1 ≤ i → i < 512 →
          t.nodeWord pass i = 0 ∧ t.readWord pass (treeBase + 8 * i + 4) = 0)) ∧
      (∀ pass a, codeOffsets a → t.readByte pass a = 0) ∧
      SameBytesBut s t (fun a => codeOffsets a ∨ within treeBase 4096 a)

/-- BuildTree makes a strict binary tree by merging the two least keys (R49, R89): the leaves first, in
ascending symbol order; then each internal node from the two parentless nodes with the least (weight,
index), the least on the left, its weight their sum; and every node but the root has a parent. -/
def Obligations.BuildTreeMergesLeast : Prop :=
  ∀ freq : List Nat, 0 < (leafSymbols freq).length →
    let n := (leafSymbols freq).length
    let nodes := buildTree freq
    nodes.length = 2 * n - 1 ∧
      (∀ i, i < n → ∃ sym, (leafSymbols freq)[i]? = some sym ∧
        nodes[i]? = some (.leaf (BitVec.ofNat 8 sym) (freq.getD sym 0))) ∧
      (∀ i, n ≤ i → i < 2 * n - 1 → ∃ l r,
        nodes[i]? = some (.inner l r ((nodeOf nodes l).weight + (nodeOf nodes r).weight)) ∧
          l < i ∧ r < i ∧ l ≠ r ∧ parentlessBefore nodes i l ∧ parentlessBefore nodes i r ∧
          ∀ j, j < i → parentlessBefore nodes i j →
            keyLe nodes l j ∧ (j ≠ l → keyLe nodes r j)) ∧
      ∀ j, j < 2 * n - 2 → ∃ i, i < 2 * n - 1 ∧ isChildOf nodes j i

/-- CODES with a tree: each symbol of the tree gets the path from the root to its leaf as its code (the
code "0" where it is the only one), every other symbol none, bits beyond a code read 0, and nothing else
changes (R46, R47, R90, R91, R96). The premise is the invariant `State.TreeOk` says of every tree the
machine holds. -/
def Obligations.CodesWritesPaths : Prop :=
  ∀ (s : State) (freq : List Nat), s.tree.tv = true → s.holdsTree freq →
    ∃ t, exec .codes s = .next t ∧ Completed s t 0x03 ∧
      t = { s with cmd := t.cmd, irq := t.irq, tree := t.tree, store := t.store } ∧
      t.tree = { s.tree with cv := true } ∧
      (∀ sym : Byte, freq.getD sym.toNat 0 = 0 → t.codeLenAt sym = 0) ∧
      (∀ sym : Byte, 0 < freq.getD sym.toNat 0 →
        1 ≤ t.codeLenAt sym ∧
          (2 ≤ (leafSymbols freq).length →
            descend (s.nodeAt 0) s.tree.root.toNat (t.codeOf sym) = some sym) ∧
          ((leafSymbols freq).length = 1 → t.codeOf sym = [false])) ∧
      (∀ (sym : Byte) (j : Nat), t.codeLenAt sym ≤ j → j < 256 → t.codeBitAt sym j = false) ∧
      SameBytesBut s t codeOffsets

/-- ENCODE of a message whose symbols all have codes and whose code fits, with the TX engine idle: FBUF
holds the codes in message order, FBUF_LEN is their total length, and nothing else changes (R97).
Unwritten storage: log entry 1. -/
def Obligations.EncodeConcatenatesCodes : Prop :=
  ∀ s : State, s.tx.phase = .idle → s.codec.msgLen.toNat ≤ s.params.msgMax →
    (∀ i, i < s.codec.msgLen.toNat → s.tree.cv = true ∧ s.codeLenAt (s.msgAt i) ≠ 0) →
    s.encodedLen (s.message s.codec.msgLen.toNat) ≤ s.params.bitsMax →
    ∃ t, exec .encode s = .next t ∧ Completed s t 0x04 ∧
      t = { s with cmd := t.cmd, irq := t.irq, codec := t.codec, store := t.store } ∧
      (let msg := s.message s.codec.msgLen.toNat
       let len := s.encodedLen msg
       t.codec = { s.codec with fbufLen := BitVec.ofNat 32 len } ∧
        (∀ pass k, t.fbufBit pass k =
          if k < len then (msg.flatMap s.codeOf).getD k false else s.fbufBit pass k) ∧
        SameBytesBut s t (fbufBytes 0 len))

/-- DECODE of a frame that fits, with a tree and a result that fits: DMSG holds the decoded symbols,
DMSG_LEN and DEC_TRAIL their number and the dropped bits, and nothing else changes (R98). Unwritten
storage: log entry 1. -/
def Obligations.DecodeDeliversMessage : Prop :=
  ∀ s : State, s.codec.fbufLen.toNat ≤ s.params.bitsMax → s.tree.tv = true →
    s.decodeFbuf.1.length ≤ s.params.msgMax →
    ∃ t, exec .decode s = .next t ∧ Completed s t 0x05 ∧
      t = { s with cmd := t.cmd, irq := t.irq, codec := t.codec, store := t.store } ∧
      t.codec =
        { s.codec with
          dmsgLen := BitVec.ofNat 32 s.decodeFbuf.1.length
          decTrail := BitVec.ofNat 32 s.decodeFbuf.2 } ∧
      (∀ pass i, i < s.decodeFbuf.1.length →
        some (t.readByte pass (dmsgBase + i)) = s.decodeFbuf.1[i]?) ∧
      SameBytesBut s t (within dmsgBase s.decodeFbuf.1.length)

/-- Decode, on any tree: a path from the root to a leaf emits the leaf's symbol and starts again at the
root; bits that reach no leaf are dropped and counted; and a tree of one leaf emits its symbol for every
bit (R90, R93). -/
def Obligations.DecodeEmitsLeaves : Prop :=
  ∀ (node : Nat → Node) (root : Nat),
    (∀ l r w, node root = .inner l r w →
      (∀ path sym rest, descend node root path = some sym →
        decodeFrom node root root 0 (path ++ rest) =
          (sym :: (decodeFrom node root root 0 rest).1, (decodeFrom node root root 0 rest).2)) ∧
      ∀ bits, (∀ path, path <+: bits → descend node root path = none) →
        decodeFrom node root root 0 bits = ([], bits.length)) ∧
    ∀ sym w bits, node root = .leaf sym w →
      decodeFrom node root root 0 bits = (List.replicate bits.length sym, 0)

/-- The checks of the Huffman commands, in order, and that a failing command changes nothing else (R94 to
R98, R135 to R137). Unwritten storage: log entry 1, which says that the successive checks of one command
read the same draws. -/
def Obligations.HuffmanCommandsFail : Prop :=
  ∀ s : State,
    (s.params.msgMax < s.codec.msgLen.toNat →
      ∃ t, exec .freq s = .next t ∧ Failed s t 0x01 .range 0x010) ∧
    (s.rx.phase ≠ .idle → ∃ t, exec .build s = .next t ∧ Failed s t 0x02 .busy 0x0C0) ∧
    (s.rx.phase = .idle → 2 ^ 32 ≤ s.freqTable.sum →
      ∃ t, exec .build s = .next t ∧ Failed s t 0x02 .range 0x1000) ∧
    (s.rx.phase = .idle → (∀ sym, sym < 256 → s.freqAt sym = 0) →
      ∃ t, exec .build s = .next t ∧ Failed s t 0x02 .empty 0) ∧
    (s.tree.tv = false → ∃ t, exec .codes s = .next t ∧ Failed s t 0x03 .empty 0) ∧
    (s.tx.phase ≠ .idle → ∃ t, exec .encode s = .next t ∧ Failed s t 0x04 .busy 0x080) ∧
    (s.tx.phase = .idle → s.params.msgMax < s.codec.msgLen.toNat →
      ∃ t, exec .encode s = .next t ∧ Failed s t 0x04 .range 0x010) ∧
    (s.tx.phase = .idle → s.codec.msgLen.toNat ≤ s.params.msgMax →
      ∀ i, i < s.codec.msgLen.toNat → (s.tree.cv = false ∨ s.codeLenAt (s.msgAt i) = 0) →
        (∀ j, j < i → s.tree.cv = true ∧ s.codeLenAt (s.msgAt j) ≠ 0) →
        ∃ t, exec .encode s = .next t ∧ Failed s t 0x04 .stale (BitVec.ofNat 32 i)) ∧
    (s.tx.phase = .idle → s.codec.msgLen.toNat ≤ s.params.msgMax →
      (∀ i, i < s.codec.msgLen.toNat → s.tree.cv = true ∧ s.codeLenAt (s.msgAt i) ≠ 0) →
      s.params.bitsMax < s.encodedLen (s.message s.codec.msgLen.toNat) →
      ∃ t, exec .encode s = .next t ∧
        Failed s t 0x04 .overflow
          (BitVec.ofNat 32 (s.encodedLen (s.message s.codec.msgLen.toNat)))) ∧
    (s.params.bitsMax < s.codec.fbufLen.toNat →
      ∃ t, exec .decode s = .next t ∧ Failed s t 0x05 .range 0x014) ∧
    (s.codec.fbufLen.toNat ≤ s.params.bitsMax → s.tree.tv = false →
      ∃ t, exec .decode s = .next t ∧ Failed s t 0x05 .notree 0) ∧
    (s.codec.fbufLen.toNat ≤ s.params.bitsMax → s.tree.tv = true →
      s.params.msgMax < s.decodeFbuf.1.length →
      ∃ t, exec .decode s = .next t ∧
        Failed s t 0x05 .overflow (BitVec.ofNat 32 s.decodeFbuf.1.length))

/-- The tree of a message's own frequency table encodes and decodes it: the functions FREQ, BUILD, CODES,
ENCODE and DECODE call give every non-empty message back with no bit left over (R99). -/
def Obligations.TreeRoundTrip : Prop :=
  ∀ msg : List Byte, msg ≠ [] →
    let nodes := buildTree (frequencyTable msg)
    let root := nodes.length - 1
    let codes := codeTable (nodeOf nodes) root
    decodeFrom (nodeOf nodes) root root 0 (msg.flatMap (codeIn codes)) = (msg, 0)

/-- Every symbol of the table has exactly one code, of 1 to 255 bits, and no code is a prefix of another
symbol's (R91, R92). -/
def Obligations.CodesArePrefixFree : Prop :=
  ∀ freq : List Nat, 0 < (leafSymbols freq).length →
    let codes := codeTable (nodeOf (buildTree freq)) ((buildTree freq).length - 1)
    (codes.map Prod.fst).Nodup ∧
      (∀ sym : Byte, sym ∈ codes.map Prod.fst ↔ 0 < freq.getD sym.toNat 0) ∧
      (∀ c ∈ codes, 1 ≤ c.2.length ∧ c.2.length ≤ 255) ∧
      ∀ c ∈ codes, ∀ d ∈ codes, c.1 ≠ d.1 → ¬ c.2 <+: d.2

/-- A symbol with a strictly higher frequency has a code no longer than a symbol with a lower one
(R100). -/
def Obligations.HigherFrequencyShorterCode : Prop :=
  ∀ freq : List Nat,
    let codes := codeTable (nodeOf (buildTree freq)) ((buildTree freq).length - 1)
    ∀ a b : Byte, 0 < freq.getD b.toNat 0 → freq.getD b.toNat 0 < freq.getD a.toNat 0 →
      (codeIn codes a).length ≤ (codeIn codes b).length

/-- R99 on the machine: FREQ, BUILD, CODES, ENCODE and DECODE in turn on a written non-empty message,
none of them failing, give the message back, whatever the draws of each step. -/
def Obligations.CommandRoundTrip : Prop :=
  ∀ (s t1 t2 t3 t4 t5 : State) (d1 d2 d3 d4 : Nat),
    s.params.legal = true → 1 ≤ s.codec.msgLen.toNat → s.codec.msgLen.toNat ≤ s.params.msgMax →
    MsgWritten s s.codec.msgLen.toNat →
    exec .freq s = .next t1 → t1.cmd.err = .ok →
    exec .build { t1 with draws := d1 } = .next t2 → t2.cmd.err = .ok →
    exec .codes { t2 with draws := d2 } = .next t3 → t3.cmd.err = .ok →
    exec .encode { t3 with draws := d3 } = .next t4 → t4.cmd.err = .ok →
    exec .decode { t4 with draws := d4 } = .next t5 → t5.cmd.err = .ok →
    t5.codec.dmsgLen = s.codec.msgLen ∧ t5.codec.decTrail = 0 ∧
      ∀ pass i, i < s.codec.msgLen.toNat →
        t5.readByte pass (dmsgBase + i) = s.readByte pass (msgBase + i)

/-! ### Frame commands (41_frame.md) -/

/-- ADDCK of a payload that fits with its pad and checksum, with the TX engine idle: zeros up to a
multiple of 8, then the byte-group sum, least-significant bit first; FBUF_LEN, PAD_LEN and CKSUM say so;
nothing else changes (R102, R103, R107, R109). Unwritten storage: log entry 1. -/
def Obligations.AddckAppendsChecksum : Prop :=
  ∀ s : State, s.tx.phase = .idle → s.codec.fbufLen.toNat ≤ s.params.bitsMax →
    ceil8 s.codec.fbufLen.toNat + 32 ≤ s.params.bitsMax →
    ∃ t, exec .addck s = .next t ∧ Completed s t 0x06 ∧
      t = { s with cmd := t.cmd, irq := t.irq, codec := t.codec, store := t.store } ∧
      (let len := s.codec.fbufLen.toNat
       let sum := byteGroupSum (s.fbufBit 0) len
       t.codec =
          { s.codec with
            fbufLen := BitVec.ofNat 32 (ceil8 len + 32)
            padLen := BitVec.ofNat 3 (ceil8 len - len)
            cksum := sum } ∧
        (∀ pass k, t.fbufBit pass k =
          if k < len then s.fbufBit pass k
          else if k < ceil8 len then false
          else if k < ceil8 len + 32 then sum.getLsbD (k - ceil8 len)
          else s.fbufBit pass k) ∧
        SameBytesBut s t (fbufBytes len (ceil8 len + 32)))

/-- VALIDATE of a frame that fits: SHORT with zeros below 40 bits, else the sum of all but the last 32
bits, the checksum in them, the fidelity, and GOOD exactly when the fidelity exceeds ACC_NUM / ACC_DEN; it
touches nothing else (R106, R110). Unwritten storage: log entry 1. -/
def Obligations.ValidateReportsVerdict : Prop :=
  ∀ s : State, s.codec.fbufLen.toNat ≤ s.params.bitsMax →
    ∃ t, exec .validate s = .next t ∧ Completed s t 0x07 ∧
      t = { s with cmd := t.cmd, irq := t.irq, val := t.val } ∧
      (s.codec.fbufLen.toNat < 40 → t.val = { result := .short, sum := 0, ck := 0, fid := 0 }) ∧
      (40 ≤ s.codec.fbufLen.toNat →
        let sum := byteGroupSum (s.fbufBit 0) (s.codec.fbufLen.toNat - 32)
        let ck := checksum32 (s.fbufBit 0) s.codec.fbufLen.toNat
        t.val.sum = sum ∧ t.val.ck = ck ∧ t.val.fid = fidQ16 sum.toNat ck.toNat ∧
          (t.val.result = .good ∨ t.val.result = .corrupt) ∧
          (t.val.result = .good ↔
            if sum = 0 ∧ ck = 0 then s.acc.num.toNat < s.acc.den.toNat
            else s.acc.num.toNat * max sum.toNat ck.toNat < min sum.toNat ck.toNat * s.acc.den.toNat))

/-- PARSE of a frame that fits: only a GOOD frame, with a tree and a decode that fits, delivers a message;
every other result delivers none; and NOTREE sets FAULT (R108, R111). Unwritten storage: log entry 1. -/
def Obligations.ParseDeliversGoodFrames : Prop :=
  ∀ s : State, s.codec.fbufLen.toNat ≤ s.params.bitsMax →
    ∃ t, exec .parse s = .next t ∧
      t.cmd = { pending := none, err := .ok, lastOp := 0x08, errInfo := 0 } ∧
      t =
        { s with cmd := t.cmd, irq := t.irq, codec := t.codec, val := t.val, store := t.store } ∧
      (let v := validate s.acc (s.fbufBit 0) s.codec.fbufLen.toNat
       let r := s.decodeBits 1
          (takeBits (s.fbufBit 1) (s.codec.fbufLen.toNat - 32 - s.cfg.pad.toNat))
       let silent := t.codec = { s.codec with dmsgLen := 0, decTrail := 0 } ∧
          SameBytesBut s t (fun _ => False)
       t.val.sum = v.sum ∧ t.val.ck = v.ck ∧ t.val.fid = v.fid ∧
        (v.result ≠ .good → t.val.result = v.result ∧ Completed s t 0x08 ∧ silent) ∧
        (v.result = .good → s.tree.tv = false →
          t.val.result = .notree ∧ silent ∧
            t.irq = { s.irq with status := s.irq.status ||| 0x41 }) ∧
        (v.result = .good → s.tree.tv = true → s.params.msgMax < r.1.length →
          t.val.result = .decovf ∧ Completed s t 0x08 ∧ silent) ∧
        (v.result = .good → s.tree.tv = true → r.1.length ≤ s.params.msgMax →
          t.val.result = .good ∧ Completed s t 0x08 ∧
            t.codec =
              { s.codec with
                dmsgLen := BitVec.ofNat 32 r.1.length, decTrail := BitVec.ofNat 32 r.2 } ∧
            (∀ pass i, i < r.1.length → some (t.readByte pass (dmsgBase + i)) = r.1[i]?) ∧
            SameBytesBut s t (within dmsgBase r.1.length)))

/-- R104: the checksum is the last 32 bits of the frame, bit L-32 its bit 0 and bit L-1 its bit 31. -/
def Obligations.ChecksumIsLastWord : Prop :=
  ∀ (bit : Nat → Bool) (L k : Nat), 32 ≤ L → k < 32 →
    (checksum32 bit L).getLsbD k = bit (L - 32 + k)

/-- The packing of bit buffers makes byte g of a buffer the value of the g-th group of a frame of whole
bytes (R62, R102). -/
def Obligations.BytesAreGroups : Prop :=
  ∀ (s : State) (pass base n g : Nat), n % 8 = 0 → g < n / 8 →
    groupValue (s.readBit pass base) n g = (s.readByte pass (base + g)).toNat

/-- The displayed fidelity is the rounded ratio, 1.0 when both sums are 0; it is at most 1.0, and 1.0
exactly when the sums agree (R105). -/
def Obligations.FidelityIsRoundedRatio : Prop :=
  ∀ sum ck : Word,
    (fidQ16 sum.toNat ck.toNat).toNat =
        (if sum = 0 ∧ ck = 0 then 65536
         else min sum.toNat ck.toNat * 65536 / max sum.toNat ck.toNat) ∧
      (fidQ16 sum.toNat ck.toNat).toNat ≤ 65536 ∧
      ((fidQ16 sum.toNat ck.toNat).toNat = 65536 ↔ sum = ck)

/-- R112: ADDCK then VALIDATE on the unmodified frame is GOOD with fidelity 1.0 for a payload of 1 bit or
more and a threshold below 1, whatever the draws of the two steps; for an empty payload it is SHORT. -/
def Obligations.CleanFrameValidates : Prop :=
  ∀ (s t : State) (d : Nat), s.params.legal = true →
    FbufWritten s s.codec.fbufLen.toNat → s.acc.num.toNat < s.acc.den.toNat →
    exec .addck s = .next t → t.cmd.err = .ok →
    ∃ u, exec .validate { t with draws := d } = .next u ∧ u.cmd.err = .ok ∧
      (1 ≤ s.codec.fbufLen.toNat →
        u.val = { result := .good, sum := t.codec.cksum, ck := t.codec.cksum, fid := 0x00010000 }) ∧
      (s.codec.fbufLen.toNat = 0 → u.val = { result := .short, sum := 0, ck := 0, fid := 0 })

/-- R113: one flipped bit of a clean frame changes the sum or the checksum by a power of two, so the
fidelity is below 1.0, and the frame stays GOOD exactly while the ratio exceeds the threshold; and any
frame whose sum is beyond the acceptance margin is CORRUPT. -/
def Obligations.FlippedBitLowersFidelity : Prop :=
  (∀ (acc : AccRegs) (bit : Nat → Bool) (L : Nat), 40 ≤ L →
    let v := validate acc bit L
    0 < max v.sum.toNat v.ck.toNat →
    min v.sum.toNat v.ck.toNat * acc.den.toNat ≤ acc.num.toNat * max v.sum.toNat v.ck.toNat →
    v.result = .corrupt) ∧
  ∀ (acc : AccRegs) (bit : Nat → Bool) (L k : Nat), 40 ≤ L → L ≤ 524288 → k < L →
    byteGroupSum bit (L - 32) = checksum32 bit L →
    let flipped := fun j => if j = k then !bit j else bit j
    let sum := byteGroupSum bit (L - 32)
    let v := validate acc flipped L
    (k < L - 32 →
      v.ck = sum ∧
        (v.sum.toNat = sum.toNat + 2 ^ (7 - k % 8) ∨ sum.toNat = v.sum.toNat + 2 ^ (7 - k % 8))) ∧
    (L - 32 ≤ k →
      v.sum = sum ∧
        (v.ck.toNat = sum.toNat + 2 ^ (k - (L - 32)) ∨
          sum.toNat = v.ck.toNat + 2 ^ (k - (L - 32)))) ∧
    v.fid.toNat < 0x10000 ∧
    (v.result = .good ↔
      acc.num.toNat * max v.sum.toNat v.ck.toNat < min v.sum.toNat v.ck.toNat * acc.den.toNat)

/-- R114: a frame of fewer than 40 bits is SHORT and never decoded, whatever its bits and the thresholds:
neither PARSE nor the RX engine delivers a message for it. -/
def Obligations.ShortFrameNeverDecoded : Prop :=
  (∀ (acc : AccRegs) (bit : Nat → Bool) (L : Nat), L < 40 →
      validate acc bit L = { result := .short, sum := 0, ck := 0, fid := 0 }) ∧
    (∀ s : State, s.params.legal = true → s.codec.fbufLen.toNat < 40 →
      ∃ t, exec .parse s = .next t ∧ t.cmd.err = .ok ∧ t.val.result = .short ∧
        t.codec.dmsgLen = 0 ∧ SameBytesBut s t (fun _ => False)) ∧
    ∀ (s : State) (snap : Snapshot), s.rx.phase = .parse → s.rx.parsePending = some snap →
      snap.len.toNat < 40 → snap.ovf = false →
      s.parseStep.rxOut.result = .short ∧ s.parseStep.rxOut.rmsgLen = 0 ∧
        SameBytesBut s s.parseStep (fun _ => False)

/-! ### Pulse commands (42_pulse.md) -/

/-- CLASSIFY.R and CLASSIFY.A: the bands in the order of R126; nothing but CLS_OUT changes (R126,
R127). -/
def Obligations.ClassifyFollowsBands : Prop :=
  ∀ (p : BitVec 1) (s : State), ∃ t, exec (.classify p) s = .next t ∧ Completed s t 0x09 ∧
    t = { s with cmd := t.cmd, irq := t.irq, cls := t.cls } ∧ t.cls.input = s.cls.input ∧
    (let d := s.cls.input.toNat
     let b := s.bands
     (p = 1 → t.cls.output =
        if b.termMin.toNat ≤ d then .term
        else if b.shortMin.toNat ≤ d ∧ d ≤ b.shortMax.toNat then .bit0
        else if b.longMin.toNat ≤ d ∧ d ≤ b.longMax.toNat then .bit1
        else .noise) ∧
     (p = 0 → t.cls.output =
        if b.initMin.toNat ≤ d ∧ d ≤ b.initMax.toNat then .init else .noise))

/-- TX_START with the TX engine idle and a length that fits arms the engine in PRE with the frame length
copied (R117). -/
def Obligations.TxStartArmsEngine : Prop :=
  ∀ s : State, s.tx.phase = .idle → s.codec.fbufLen.toNat ≤ s.params.bitsMax →
    ∃ t, exec .txStart s = .next t ∧ Completed s t 0x10 ∧
      t = { s with cmd := t.cmd, irq := t.irq, tx := t.tx } ∧
      t.tx =
        { phase := .pre, bitIdx := 0, len := s.codec.fbufLen, count := s.tx.count,
          rem := s.txTiming.pre } ∧
      t.lineOut = false

/-- RX_START with the RX engine idle awaits an initiation pulse; RBUF, RBUF_LEN and the results stay
(R123). -/
def Obligations.RxStartAwaitsPulse : Prop :=
  ∀ s : State, s.rx.phase = .idle →
    ∃ t, exec .rxStart s = .next t ∧ Completed s t 0x12 ∧
      t = { s with cmd := t.cmd, irq := t.irq, rx := t.rx } ∧
      t.rx = { s.rx with phase := .await, det := .needLow, hcnt := 0, ovf := false }

/-- TX_STOP idles the TX engine at once, TX_LEN and TX_COUNT stay, and TX_FRAME is not set (R122). RX_STOP
idles the RX engine and discards a frame that waits for the parser; RBUF, RBUF_LEN, OVF and the results
stay (R129). -/
def Obligations.StopCommandsIdleEngines : Prop :=
  ∀ s : State,
    (∃ t, exec .txStop s = .next t ∧ Completed s t 0x11 ∧
      t = { s with cmd := t.cmd, irq := t.irq, tx := t.tx } ∧
      t.tx = { phase := .idle, bitIdx := 0, len := s.tx.len, count := s.tx.count, rem := 0 } ∧
      t.lineOut = false) ∧
    ∃ t, exec .rxStop s = .next t ∧ Completed s t 0x13 ∧
      t = { s with cmd := t.cmd, irq := t.irq, rx := t.rx } ∧
      t.rx =
        { s.rx with phase := .idle, det := .needLow, hcnt := 0, dcnt := 0, parsePending := none }

/-- The checks of the frame commands and of the pulse commands, in order, and that a failing command
changes nothing else (R109 to R111, R117, R123, R135 to R137). -/
def Obligations.LinkCommandsFail : Prop :=
  ∀ s : State,
    (s.tx.phase ≠ .idle →
      (∃ t, exec .addck s = .next t ∧ Failed s t 0x06 .busy 0x080) ∧
        ∃ t, exec .txStart s = .next t ∧ Failed s t 0x10 .busy 0x080) ∧
    (s.tx.phase = .idle → s.params.bitsMax < s.codec.fbufLen.toNat →
      (∃ t, exec .addck s = .next t ∧ Failed s t 0x06 .range 0x014) ∧
        ∃ t, exec .txStart s = .next t ∧ Failed s t 0x10 .range 0x014) ∧
    (s.tx.phase = .idle → s.codec.fbufLen.toNat ≤ s.params.bitsMax →
      s.params.bitsMax < ceil8 s.codec.fbufLen.toNat + 32 →
      ∃ t, exec .addck s = .next t ∧
        Failed s t 0x06 .overflow (BitVec.ofNat 32 (ceil8 s.codec.fbufLen.toNat + 32))) ∧
    (s.params.bitsMax < s.codec.fbufLen.toNat →
      (∃ t, exec .validate s = .next t ∧ Failed s t 0x07 .range 0x014) ∧
        ∃ t, exec .parse s = .next t ∧ Failed s t 0x08 .range 0x014) ∧
    (s.rx.phase ≠ .idle → ∃ t, exec .rxStart s = .next t ∧ Failed s t 0x12 .busy 0x0C0)

/-! ### The engines (42_pulse.md) -/

/-- TxTick, phase by phase (R119, R120). -/
def Obligations.TxTickRunsPhases : Prop :=
  ∀ s : State,
    let enter (ph : TxPhase) (i rem : Word) : State :=
      { s with tx := { s.tx with phase := ph, bitIdx := i, rem := rem } }
    let bitTicks (i : Nat) : Word := if s.fbufBit 0 i then s.txTiming.bit1 else s.txTiming.bit0
    (s.tx.phase = .idle → s.txTick = s) ∧
    (s.tx.phase ≠ .idle → s.tx.rem ≠ 1 → s.txTick = enter s.tx.phase s.tx.bitIdx (s.tx.rem - 1)) ∧
    (s.tx.rem = 1 →
      (s.tx.phase = .pre → s.txTick = enter .init s.tx.bitIdx s.txTiming.init) ∧
      (s.tx.phase = .init → s.txTick = enter .gapi s.tx.bitIdx s.txTiming.gap) ∧
      (s.tx.phase = .gapi → s.tx.len = 0 → s.txTick = enter .term s.tx.bitIdx s.txTiming.term) ∧
      (s.tx.phase = .gapi → s.tx.len ≠ 0 → s.txTick = enter .bith 0 (bitTicks 0)) ∧
      (s.tx.phase = .bith → s.txTick = enter .bitl s.tx.bitIdx s.txTiming.gap) ∧
      (s.tx.phase = .bitl → s.tx.bitIdx.toNat + 1 < s.tx.len.toNat →
        s.txTick = enter .bith (s.tx.bitIdx + 1) (bitTicks (s.tx.bitIdx.toNat + 1))) ∧
      (s.tx.phase = .bitl → s.tx.len.toNat ≤ s.tx.bitIdx.toNat + 1 →
        s.txTick = enter .term 0 s.txTiming.term) ∧
      (s.tx.phase = .term →
        s.txTick =
          { s with
            irq := { s.irq with status := s.irq.status ||| 0x08 }
            tx :=
              { s.tx with
                phase := if s.cfg.txRepeat then .delay else .idle
                count := s.tx.count + 1
                rem := if s.cfg.txRepeat then s.txTiming.delay else 0 } }) ∧
      (s.tx.phase = .delay → s.txTick = enter .pre s.tx.bitIdx s.txTiming.pre))

/-- R119's derived duration: from PRE entered by TX_START, a written frame lasts exactly the ticks of its
phases, and at the last TERM tick it is counted and reported and the engine idles. -/
def Obligations.FrameLastsItsTicks : Prop :=
  ∀ s : State, s.TxOk → s.cfg.txRepeat = false → s.tx.phase = .pre → s.tx.rem = s.txTiming.pre →
    FbufWritten s s.tx.len.toNat →
    let len := s.tx.len.toNat
    let bits := takeBits (s.fbufBit 0) len
    let ticks := s.txTiming.pre.toNat + s.txTiming.init.toNat + s.txTiming.gap.toNat +
      bits.count false * (s.txTiming.bit0.toNat + s.txTiming.gap.toNat) +
      bits.count true * (s.txTiming.bit1.toNat + s.txTiming.gap.toNat) + s.txTiming.term.toNat
    (∀ k, k < ticks → (State.txTick^[k] s).tx.phase ≠ .idle) ∧
      State.txTick^[ticks] s =
        { s with
          irq := { s.irq with status := s.irq.status ||| 0x08 }
          tx := { phase := .idle, bitIdx := 0, len := s.tx.len, count := s.tx.count + 1, rem := 0 } }

/-- RxTick, state by state (R125, R130): every tick records the level; in IDLE and PARSE nothing else; in
DELAY the count goes down; in AWAIT and RECV the edge detector's three states, NEEDLOW measuring nothing
before a low sample. So a run of d high samples after a low one is measured as d, or 2^32 - 1 when it is
longer, and classified when its falling edge is sampled (R161); a run in progress in NEEDLOW is not
measured. -/
def Obligations.RxTickMeasuresPulses : Prop :=
  ∀ s : State,
    let sampled (x : Bool) : State := { s with rx := { s.rx with level := x } }
    let high (n : Nat) (u : State) : State := (fun u : State => u.rxTick true)^[n] u
    (s.rx.phase = .idle ∨ s.rx.phase = .parse → ∀ x, s.rxTick x = sampled x) ∧
    (s.rx.phase = .delay → ∀ x,
      (1 < s.rx.dcnt.toNat →
        s.rxTick x = { s with rx := { s.rx with level := x, dcnt := s.rx.dcnt - 1 } }) ∧
      (s.rx.dcnt = 1 →
        s.rxTick x =
          { s with rx := { s.rx with level := x, dcnt := 0, phase := .await, det := .needLow } })) ∧
    (s.rx.phase = .await ∨ s.rx.phase = .recv →
      (s.rx.det = .needLow →
        s.rxTick true = sampled true ∧
          s.rxTick false = { s with rx := { s.rx with level := false, det := .low } } ∧
          ∀ d, 1 ≤ d →
            high d s = sampled true ∧
              (high d s).rxTick false =
                { s with rx := { s.rx with level := false, det := .low } }) ∧
      (s.rx.det = .low →
        s.rxTick false = sampled false ∧
          s.rxTick true = { s with rx := { s.rx with level := true, det := .high, hcnt := 1 } } ∧
          ∀ d, 1 ≤ d →
            high d s =
                { s with
                  rx :=
                    { s.rx with
                      level := true, det := .high, hcnt := BitVec.ofNat 32 (min d (2 ^ 32 - 1)) } } ∧
              (high d s).rxTick false =
                { s with rx := { s.rx with level := false, det := .low, hcnt := 0 } }.rxPulse
                  (BitVec.ofNat 32 (min d (2 ^ 32 - 1)))) ∧
      (s.rx.det = .high →
        s.rxTick true =
            { s with
              rx :=
                { s.rx with
                  level := true, hcnt := BitVec.ofNat 32 (min (s.rx.hcnt.toNat + 1) (2 ^ 32 - 1)) } } ∧
          s.rxTick false =
            { s with rx := { s.rx with level := false, det := .low, hcnt := 0 } }.rxPulse
              s.rx.hcnt))

/-- What a pulse does (R125, R126): in AWAIT an initiation pulse starts a frame and any other is noise; in
RECV a termination pulse hands the frame to the parser, a bit is appended to RBUF or dropped when RBUF is
full, and any other is noise. -/
def Obligations.PulseDrivesReceiver : Prop :=
  ∀ (s : State) (d : Word),
    let append (b : Bool) : Prop :=
      (s.rx.rbufLen.toNat < s.params.bitsMax →
        s.rxPulse d =
            { s with
              rx := { s.rx with rbufLen := s.rx.rbufLen + 1 }, store := (s.rxPulse d).store } ∧
          (∀ pass k, (s.rxPulse d).rbufBit pass k =
            if k = s.rx.rbufLen.toNat then b else s.rbufBit pass k) ∧
          SameBytesBut s (s.rxPulse d) (fun a => a = rbufBase + s.rx.rbufLen.toNat / 8)) ∧
      (s.params.bitsMax ≤ s.rx.rbufLen.toNat →
        s.rxPulse d = { s with rx := { s.rx with ovf := true } })
    (s.rx.phase = .await →
      (classifyAwait s.bands d = .init →
        s.rxPulse d = { s with rx := { s.rx with phase := .recv, rbufLen := 0, ovf := false } }) ∧
      (classifyAwait s.bands d ≠ .init → s.rxPulse d = s)) ∧
    (s.rx.phase = .recv →
      (classifyRecv s.bands d = .bit0 → append false) ∧
      (classifyRecv s.bands d = .bit1 → append true) ∧
      (classifyRecv s.bands d = .noise → s.rxPulse d = s) ∧
      (classifyRecv s.bands d = .term →
        s.rxPulse d =
          { s with
            rx :=
              { s.rx with
                phase := .parse
                parsePending := some { len := s.rx.rbufLen, ovf := s.rx.ovf } } }))

/-- The frame parser's step publishes its results together, reports them, and re-arms or idles the engine
(R108, R128). -/
def Obligations.ParseStepPublishes : Prop :=
  ∀ (s : State) (snap : Snapshot), s.rx.phase = .parse → s.rx.parsePending = some snap →
    let p := s.frameParse s.rbufBit snap.len.toNat snap.ovf
    let t := s.parseStep
    t = { s with irq := t.irq, rx := t.rx, rxOut := t.rxOut, store := t.store } ∧
      t.rxOut =
        { result := p.verdict.result, sum := p.verdict.sum, ck := p.verdict.ck, fid := p.verdict.fid
          rmsgLen := BitVec.ofNat 32 p.out.length, trail := BitVec.ofNat 32 p.trail
          count := s.rxOut.count + 1 } ∧
      (∀ pass i, i < p.out.length → some (t.readByte pass (rmsgBase + i)) = p.out[i]?) ∧
      SameBytesBut s t (within rmsgBase p.out.length) ∧
      (snap.ovf = true → p.verdict = { result := .rxovf, sum := 0, ck := 0, fid := 0 }) ∧
      (p.verdict.result ≠ .good → p.out = [] ∧ p.trail = 0) ∧
      t.irq =
        { s.irq with
          status := s.irq.status ||| 0x10 ||| (if s.irq.status.getLsbD 4 then 0x20 else 0) |||
            (if p.verdict.result = .notree then 0x40 else 0) } ∧
      (s.cfg.rxCont = true → s.rxDelay = 0 →
        t.rx = { s.rx with phase := .await, det := .needLow, parsePending := none }) ∧
      (s.cfg.rxCont = true → s.rxDelay ≠ 0 →
        t.rx = { s.rx with phase := .delay, dcnt := s.rxDelay, parsePending := none }) ∧
      (s.cfg.rxCont = false →
        t.rx = { s.rx with phase := .idle, det := .needLow, parsePending := none })

/-- R131: in loopback, with the TX durations inside their bands, a frame sent to an RX engine that awaits
one arrives whole: the tick after the last TERM tick samples a low level and hands the parser RBUF with the
bits sent and no overflow, whatever line_in did, and the parse step publishes FrameParse of it. -/
def Obligations.LoopbackDeliversFrame : Prop :=
  ∀ (s0 s : State) (lineIn : List Bool), s0.TxOk → s0.params.legal = true →
    exec .txStart s0 = .next s → s.cmd.err = .ok →
    s.cfg.loop = true → s.rx.phase = .await → s.rx.det = .low ∨ s.rx.det = .needLow →
    s.bands.initMin ≤ s.txTiming.init ∧ s.txTiming.init ≤ s.bands.initMax →
    s.bands.shortMin ≤ s.txTiming.bit0 ∧ s.txTiming.bit0 ≤ s.bands.shortMax ∧
      s.txTiming.bit0 < s.bands.termMin →
    s.bands.longMin ≤ s.txTiming.bit1 ∧ s.txTiming.bit1 ≤ s.bands.longMax ∧
      s.txTiming.bit1 < s.bands.termMin ∧
      ¬ (s.bands.shortMin ≤ s.txTiming.bit1 ∧ s.txTiming.bit1 ≤ s.bands.shortMax) →
    s.bands.termMin ≤ s.txTiming.term → FbufWritten s s.tx.len.toNat →
    let len := s.tx.len.toNat
    let bits := takeBits (s.fbufBit 0) len
    let ticks := s.txTiming.pre.toNat + s.txTiming.init.toNat + s.txTiming.gap.toNat +
      bits.count false * (s.txTiming.bit0.toNat + s.txTiming.gap.toNat) +
      bits.count true * (s.txTiming.bit1.toNat + s.txTiming.gap.toNat) + s.txTiming.term.toNat
    lineIn.length = ticks + 1 →
    let t := lineIn.foldl State.tickStep s
    t.rx.phase = .parse ∧ t.rx.level = false ∧ t.rx.rbufLen = s.tx.len ∧ t.rx.ovf = false ∧
      t.rx.parsePending = some { len := s.tx.len, ovf := false } ∧
      (∀ pass k, k < len → t.rbufBit pass k = s.fbufBit pass k) ∧
      (let p := t.frameParse t.rbufBit len false
       t.parseStep.rxOut =
        { result := p.verdict.result, sum := p.verdict.sum, ck := p.verdict.ck, fid := p.verdict.fid
          rmsgLen := BitVec.ofNat 32 p.out.length, trail := BitVec.ofNat 32 p.trail
          count := s.rxOut.count + 1 } ∧
        ∀ pass i, i < p.out.length → some (t.parseStep.readByte pass (rmsgBase + i)) = p.out[i]?)

/-- In DELAY the engine ignores the line for exactly RX_DCNT ticks, whatever it samples, and then awaits a
low sample (R130). -/
def Obligations.DelayIgnoresLine : Prop :=
  ∀ (s : State) (samples : List Bool), s.rx.phase = .delay → s.rx.dcnt ≠ 0 →
    samples.length ≤ s.rx.dcnt.toNat → samples ≠ [] →
    let t := samples.foldl State.rxTick s
    let level := samples.getLastD false
    (samples.length < s.rx.dcnt.toNat →
      t = { s with
        rx := { s.rx with level := level, dcnt := s.rx.dcnt - BitVec.ofNat 32 samples.length } }) ∧
    (samples.length = s.rx.dcnt.toNat →
      t = { s with
        rx := { s.rx with level := level, dcnt := 0, phase := .await, det := .needLow } })

/-- A tick, whole: TIME counts; the TX engine takes TxTick, with the TX_FRAME bit it may set; the RX engine
takes RxTick, on line_in or, in loopback, on the level the TX engine drove during the tick, line_in being
ignored; and nothing else changes (R116, R124). -/
def Obligations.TickSamplesLine : Prop :=
  ∀ (s : State) (x : Bool),
    let moved (sample : Bool) : State :=
      { s with
        clock := { s.clock with time := s.clock.time + 1 }
        tx := s.txTick.tx
        irq := s.txTick.irq
        rx := (s.rxTick sample).rx
        store := (s.rxTick sample).store }
    (s.cfg.loop = false → s.tickStep x = moved x ∧ (s.tickStep x).rx.level = x) ∧
      (s.cfg.loop = true →
        s.tickStep x = moved s.lineOut ∧ (s.tickStep x).rx.level = s.lineOut ∧
          s.tickStep x = s.tickStep (!x))

/-! ### The bus (20_memory.md) -/

/-- The layouts of the status words: each field at its place, every other bit 0 (R24, R26, R32, R37,
R39); and the numeric codes of their named values: ERR (R135), PHASE (R37), STATE and DET (R39), the frame
results (R30) and the classes (R33). -/
def Obligations.StatusWordLayout : Prop :=
  (∀ s : State,
    s.cmdStatus.toNat =
        s.cmdBusy.toNat + 2 ^ 4 * s.cmd.err.code.toNat + 2 ^ 8 * s.cmd.lastOp.toNat ∧
      s.cfg.word.toNat =
        s.cfg.pad.toNat + 2 ^ 8 * s.cfg.loop.toNat + 2 ^ 16 * s.cfg.txRepeat.toNat +
          2 ^ 17 * s.cfg.rxCont.toNat ∧
      s.tree.word.toNat =
        s.tree.tv.toNat + 2 * s.tree.cv.toNat + 2 ^ 8 * s.tree.root.toNat +
          2 ^ 20 * s.tree.nleaf.toNat ∧
      s.tx.word.toNat = s.tx.phase.code.toNat + 2 ^ 8 * s.lineOut.toNat ∧
      s.rx.word.toNat =
        s.rx.phase.code.toNat + 2 ^ 4 * s.rx.det.code.toNat + 2 ^ 8 * s.rx.level.toNat +
          2 ^ 9 * s.rx.ovf.toNat ∧
      (s.lineOut = true ↔ s.tx.phase = .init ∨ s.tx.phase = .bith ∨ s.tx.phase = .term)) ∧
    [CmdError.ok, .illegal, .busy, .range, .empty, .stale, .overflow, .notree].map
        (fun e => e.code.toNat) = [0, 1, 2, 3, 4, 5, 6, 7] ∧
    [FrameResult.unset, .good, .short, .corrupt, .rxovf, .notree, .decovf].map
        (fun r => r.code.toNat) = [0, 1, 2, 3, 4, 5, 6] ∧
    [PulseClass.noise, .bit0, .bit1, .init, .term].map (fun c => c.code.toNat) = [0, 1, 2, 3, 4] ∧
    [TxPhase.idle, .pre, .init, .gapi, .bith, .bitl, .term, .delay].map (fun p => p.code.toNat) =
      [0, 1, 2, 3, 4, 5, 6, 7] ∧
    [RxPhase.idle, .await, .recv, .parse, .delay].map (fun p => p.code.toNat) = [0, 1, 2, 3, 4] ∧
    [Detector.needLow, .low, .high].map (fun d => d.code.toNat) = [0, 1, 2]

/-- A read that is not refused, pending command or not, changes nothing but the response and, for TIME_LO,
TIME_SHADOW; with no command pending it answers the stored value; TIME_LO then TIME_HI give one 64-bit value (R36, R66, R68).
Which value an offset reads: in the register region what the register table says, unlisted offsets being
refused (R23 to R44); above it the storage's word, unmapped offsets being refused (R59). Unwritten storage:
log entry 1. -/
def Obligations.ReadReturnsStored : Prop :=
  (∀ (s : State) (addr : BitVec 20) (r : Region), reach s.params addr 0b1111 = some r →
      ∃ v, (s.cmd.pending = none → v = s.stored r addr.toNat) ∧
        s.busRead addr 0b1111 =
          { s with
            bus := { prdata := v, pslverr := false }
            clock :=
              { s.clock with
                shadow :=
                  if addr = 0x00058 then s.clock.time.extractLsb' 32 32 else s.clock.shadow } }) ∧
    (∀ s : State, s.cmd.pending = none →
      let t := s.busRead 0x00058 0b1111
      (t.busRead 0x0005C 0b1111).bus.prdata ++ t.bus.prdata = s.clock.time) ∧
    (∀ (s : State) (addr : BitVec 20) (v : Word), s.cmd.pending = none →
      (addr.toNat, v) ∈ s.registerMap →
      (s.busRead addr 0b1111).bus = { prdata := v, pslverr := false }) ∧
    (∀ (s : State) (addr : BitVec 20), addr.toNat < 0x1000 →
      addr.toNat ∉ s.registerMap.map Prod.fst →
      (s.busRead addr 0b1111).bus = { prdata := 0, pslverr := true }) ∧
    ∀ (s : State) (addr : BitVec 20), s.params.legal = true → 0x1000 ≤ addr.toNat →
      addr.toNat % 4 = 0 → s.cmd.pending = none →
      (storageOffset s.params addr.toNat →
        (s.busRead addr 0b1111).bus =
          { prdata := s.readWord 0 addr.toNat, pslverr := false }) ∧
      (¬ storageOffset s.params addr.toNat →
        (s.busRead addr 0b1111).bus = { prdata := 0, pslverr := true })

/-- A misaligned or narrow access and an access to an unmapped offset are refused: pslverr is 1, a read
returns 0, BUS_ERR is set and nothing else changes; so are a write to an RO location and a write to FBUF
while the TX engine sends; and so, by number, is a write to any offset but CMD's, the RW and W1C registers'
and those of FREQ, MSG and FBUF (R59, R60, R70). That a narrow read is refused like a narrow write is log entry 13. -/
def Obligations.RefusedAccessChangesNothing : Prop :=
  ∀ (s : State) (addr : BitVec 20) (strb : BitVec 4) (v : Word),
    let refused (t : State) : Prop :=
      t.bus.pslverr = true ∧
        t = { s with bus := t.bus, irq := { s.irq with status := s.irq.status ||| 0x80 } }
    (addr.toNat % 4 ≠ 0 ∨ strb ≠ 0b1111 ∨ locate s.params addr.toNat = none →
      refused (s.busRead addr strb) ∧ (s.busRead addr strb).bus.prdata = 0 ∧
        ∃ t, s.busWrite addr strb v = .next t ∧ refused t) ∧
    (∀ r, locate s.params addr.toNat = some r →
      r.writable = false ∨ (r = .fbuf ∧ s.tx.phase ≠ .idle) →
      ∃ t, s.busWrite addr strb v = .next t ∧ refused t) ∧
    ((addr ≠ 0x00000 ∧ addr.toNat ∉ writableRegisters ∧ ¬ writableWindows s.params addr.toNat) ∨
        (within 0x40000 0x10000 addr.toNat ∧ s.tx.phase ≠ .idle) →
      ∃ t, s.busWrite addr strb v = .next t ∧ refused t)

/-- R69: while a command is pending every write is refused but those to CMD, IRQ_STATUS and IRQ_EN, and a
write to CMD is not refused. -/
def Obligations.BusyWritesRefused : Prop :=
  ∀ (s : State) (addr : BitVec 20) (v : Word), s.cmdBusy = true →
    (addr ≠ 0x00000 → addr ≠ 0x00044 → addr ≠ 0x00048 →
      ∃ t, s.busWrite addr 0b1111 v = .next t ∧ t.bus.pslverr = true ∧
        t = { s with bus := t.bus, irq := { s.irq with status := s.irq.status ||| 0x80 } }) ∧
    (addr = 0x00000 ∨ addr = 0x00044 ∨ addr = 0x00048 →
      ∃ t, s.busWrite addr 0b1111 v = .next t ∧ t.bus.pslverr = false)

/-- An aligned write to FREQ, to the valid part of MSG or, with the TX engine idle, to the valid part of FBUF,
by number, is not refused while no command is pending: it stores the word's four bytes, little-endian, and
changes nothing else (R59, R61, R67). -/
def Obligations.WindowWriteReadsBack : Prop :=
  ∀ (s : State) (addr : BitVec 20) (v : Word), addr.toNat % 4 = 0 →
    writableWindows s.params addr.toNat → (0x40000 ≤ addr.toNat → s.tx.phase = .idle) →
    s.cmd.pending = none →
    ∃ t, s.busWrite addr 0b1111 v = .next t ∧ t = { s with bus := t.bus, store := t.store } ∧
      t.bus.pslverr = false ∧
      (∀ pass k, k < 4 → t.readByte pass (addr.toNat + k) = v.extractLsb' (8 * k) 8) ∧
      (∀ pass, t.readWord pass addr.toNat = v) ∧ SameBytesBut s t (within addr.toNat 4)

/-- A write to an RW or W1C register reads back its fields with reserved bits 0, a timing register reads 1
for a written 0, IRQ_STATUS loses the bits written as 1, and no other register changes (R38, R67). By number:
a write to the offset of any RW or W1C register is not refused, but where a pending command forbids it (R69),
and afterwards the register table reads there what the write leaves and everywhere else what it read
before. -/
def Obligations.RegisterWriteReadsBack : Prop :=
  ∀ (s : State) (v : Word),
    (∀ c : Csr,
      c ∈ [Csr.msgLen, .fbufLen, .clsIn, .rxDelay, .shortMin, .shortMax, .longMin, .longMax, .initMin,
        .initMax, .termMin] → c.read (c.write s v) = v) ∧
    (∀ c : Csr, c ∈ [Csr.txPre, .txInit, .txGap, .txBit0, .txBit1, .txTerm, .txDelay] →
      c.read (c.write s v) = if v = 0 then 1 else v) ∧
    Csr.cfg.read (Csr.cfg.write s v) = v &&& 0x00030107 ∧
    Csr.irqEn.read (Csr.irqEn.write s v) = v &&& 0x000000FF ∧
    Csr.accNum.read (Csr.accNum.write s v) = v &&& 0x0000FFFF ∧
    Csr.accDen.read (Csr.accDen.write s v) = v &&& 0x0000FFFF ∧
    Csr.irqStatus.read (Csr.irqStatus.write s v) = Csr.irqStatus.read s &&& ~~~v ∧
    (∀ c d : Csr, d ≠ c → d.read (c.write s v) = d.read s) ∧
    (∀ (addr : BitVec 20) (c : Csr) (kind : Access),
      locate s.params addr.toNat = some (.csr c kind) → kind = .rw ∨ kind = .w1c →
      s.cmd.pending = none →
      ∃ bus : BusPort, bus.pslverr = false ∧
        s.busWrite addr 0b1111 v = .next (c.write { s with bus := bus } v)) ∧
    ∀ addr : BitVec 20, addr.toNat ∈ writableRegisters →
      s.cmd.pending = none ∨ addr = 0x00044 ∨ addr = 0x00048 →
      ∃ t, s.busWrite addr 0b1111 v = .next t ∧ t.bus.pslverr = false ∧
        t =
          { s with
            bus := t.bus, cfg := t.cfg, codec := t.codec, cls := t.cls, irq := t.irq
            txTiming := t.txTiming, rxDelay := t.rxDelay, bands := t.bands, acc := t.acc } ∧
        t.registerMap =
          s.registerMap.map
            (fun e => if e.1 = addr.toNat then (e.1, s.afterWrite v e.1) else e)

/-- Which bits a read returns free, and that every other bit reads what is stored (R71): none with no command
pending; the destinations of the pending command for the nine opcodes R71 names (R94 to R98, R109 to R111,
R127); none for the other opcodes and for an illegal word (log entry 22). The free bits are one draw for each
read (log entry 2); reserved bits and fixed parts are no destination (log entry 7); and the T of ENCODE's
destination FBUF[0..T-1] is that of the state the host reads in (log entry 14). -/
def Obligations.PendingReadsSettleElsewhere : Prop :=
  ∀ s : State,
    let during (i : Instr) (free : Nat → Nat → Prop) : Prop :=
      s.cmd.pending = some (encode i) → s.ReadsFree free
    let settled : Nat → Nat → Prop := fun _ _ => False
    let codeTable (a b : Nat) : Prop := (within 0x01400 0x400 a ∧ b < 8) ∨ within 0x02000 0x2000 a
    let verdict (a b : Nat) : Prop := (a = 0x028 ∧ b < 4) ∨ a = 0x02C ∨ a = 0x030 ∨ a = 0x034
    let message (a : Nat) : Prop := within 0x20000 0x10000 a ∨ a = 0x018 ∨ a = 0x01C
    let total := s.encodedLen (s.message (min s.codec.msgLen.toNat s.params.msgMax))
    let len := s.codec.fbufLen.toNat
    (s.cmd.pending = none → s.ReadsFree settled) ∧
    (∀ w e, s.cmd.pending = some w → decode w = .error e → s.ReadsFree settled) ∧
    (∀ i, i ∈ [Instr.nop, .txStart, .txStop, .rxStart, .rxStop] → during i settled) ∧
    during .freq (fun a _ => within 0x01000 0x400 a) ∧
    during .build (fun a b =>
      within 0x04000 0xFF8 a ∨ codeTable a b ∨
        (a = 0x038 ∧ (b < 2 ∨ (8 ≤ b ∧ b ≤ 16) ∨ (20 ≤ b ∧ b ≤ 28)))) ∧
    during .codes (fun a b => codeTable a b ∨ (a = 0x038 ∧ b = 1)) ∧
    during .encode (fun a b => fbufWordBits 0 total a b ∨ a = 0x014) ∧
    during .decode (fun a _ => message a) ∧
    during .addck (fun a b =>
      fbufWordBits len (ceil8 len + 32) a b ∨ a = 0x014 ∨ (a = 0x020 ∧ b < 3) ∨ a = 0x024) ∧
    during .validate verdict ∧
    during .parse (fun a b => verdict a b ∨ message a) ∧
    ∀ p, during (.classify p) (fun a b => a = 0x040 ∧ b < 3)

/-! ### Interrupts (60_exceptions.md) -/

/-- R143: irq is 1 exactly when a pending source is enabled; IRQ_EN masks the line and never a status bit;
clearing the last enabled pending bit drops irq at once; after reset irq is 0. -/
def Obligations.IrqLineFollowsRegisters : Prop :=
  (∀ s : State, s.irqLine = true ↔
    ∃ b, b < 8 ∧ s.irq.status.getLsbD b = true ∧ s.irq.enable.getLsbD b = true) ∧
  (∀ (s : State) (v : Word), (Csr.irqEn.write s v).irq.status = s.irq.status) ∧
  (∀ (s : State) (v : Word),
    (∀ b, b < 8 → s.irq.status.getLsbD b = true → s.irq.enable.getLsbD b = true →
      v.getLsbD b = true) →
    (Csr.irqStatus.write s v).irqLine = false) ∧
  State.reset.irqLine = false

/-- An IRQ_STATUS bit stays 1 in every step but a write of 1 to it, and reset (R142). -/
def Obligations.IrqBitsAreSticky : Prop :=
  ∀ (s t : State) (b : Nat), s.RegsOk → step s = .next t → s.irq.status.getLsbD b = true →
    t.irq.status.getLsbD b = true ∨ turnResets s.turn = true ∨
      ∃ v : Word, s.turn = .hostWrite 0x00044 0b1111 v ∧ v.getLsbD b = true

/-! ### The whole machine -/

/-- TIME is moved by ticks, which count, and by reset, and by no other step (R36, R116). -/
def Obligations.TimeCountsTicksOnly : Prop :=
  ∀ s t : State, s.RegsOk → step s = .next t →
    (∀ x, s.turn = .tick x → t.clock.time = s.clock.time + 1) ∧
      (turnResets s.turn = true → t.clock.time = 0) ∧
      ((∀ x, s.turn ≠ .tick x) → turnResets s.turn = false → t.clock.time = s.clock.time)

/-- While the RX engine is not idle no step but reset changes the tree (R75, R95, R159). The first
premise is the invariant `StepKeepsTree` states. -/
def Obligations.TreeFixedWhileReceiving : Prop :=
  ∀ s t : State, s.RegsOk → s.TreeOk → s.rx.phase ≠ .idle →
    turnResets s.turn = false → step s = .next t →
    t.tree.tv = s.tree.tv ∧ t.tree.root = s.tree.root ∧ t.tree.nleaf = s.tree.nleaf ∧
      ∀ a, within treeBase 4096 a → t.store.bits.get a = s.store.bits.get a

/-- While the TX engine sends no step but reset changes FBUF (R70, R119, R159). -/
def Obligations.FrameFixedWhileSending : Prop :=
  ∀ s t : State, s.RegsOk → s.params.legal = true → s.tx.phase ≠ .idle →
    turnResets s.turn = false → step s = .next t →
    ∀ a, within fbufBase 0x10000 a →
      t.store.bits.get a = s.store.bits.get a ∧ t.store.written.get a = s.store.written.get a

/-- Every step keeps the storage canonical and inside the mapped windows (R59). -/
def Obligations.StepKeepsStorage : Prop :=
  ∀ s t : State, s.StorageOk → step s = .next t → t.StorageOk

/-- Every step keeps the TX engine's registers consistent (R37, R38). -/
def Obligations.StepKeepsTxEngine : Prop := ∀ s t : State, s.TxOk → step s = .next t → t.TxOk

/-- Every step keeps the RX engine's registers consistent (R39, R56). -/
def Obligations.StepKeepsRxEngine : Prop := ∀ s t : State, s.RxOk → step s = .next t → t.RxOk

/-- Every step keeps the command path's registers legal (R28, R30, R31, R32, R134). -/
def Obligations.StepKeepsRegisters : Prop := ∀ s t : State, s.RegsOk → step s = .next t → t.RegsOk

/-- Every step keeps the tree one that BuildTree makes (R49). -/
def Obligations.StepKeepsTree : Prop :=
  ∀ s t : State, s.TreeOk → step s = .next t → t.TreeOk

/-- The state after reset meets the five invariants (R151). -/
def Obligations.ResetMeetsInvariants : Prop :=
  State.reset.StorageOk ∧ State.reset.TxOk ∧ State.reset.RxOk ∧ State.reset.RegsOk ∧
    State.reset.TreeOk
end

