-- ==== Sys2Proof/Laws/State.lean ====
section
/-! SUPPORT. The small lemmas of the state's updates: one for each field an update leaves alone, and
what it writes into the others, so that no later proof unfolds a record update. -/

namespace Sys2Proof.Machine

variable (s : State)

/-! `State.setIrq` -/

@[simp] theorem State.setIrq_params (b : Nat) : (s.setIrq b).params = s.params := rfl
@[simp] theorem State.setIrq_cmd (b : Nat) : (s.setIrq b).cmd = s.cmd := rfl
@[simp] theorem State.setIrq_cfg (b : Nat) : (s.setIrq b).cfg = s.cfg := rfl
@[simp] theorem State.setIrq_codec (b : Nat) : (s.setIrq b).codec = s.codec := rfl
@[simp] theorem State.setIrq_val (b : Nat) : (s.setIrq b).val = s.val := rfl
@[simp] theorem State.setIrq_tree (b : Nat) : (s.setIrq b).tree = s.tree := rfl
@[simp] theorem State.setIrq_cls (b : Nat) : (s.setIrq b).cls = s.cls := rfl
@[simp] theorem State.setIrq_clock (b : Nat) : (s.setIrq b).clock = s.clock := rfl
@[simp] theorem State.setIrq_tx (b : Nat) : (s.setIrq b).tx = s.tx := rfl
@[simp] theorem State.setIrq_txTiming (b : Nat) : (s.setIrq b).txTiming = s.txTiming := rfl
@[simp] theorem State.setIrq_rx (b : Nat) : (s.setIrq b).rx = s.rx := rfl
@[simp] theorem State.setIrq_rxOut (b : Nat) : (s.setIrq b).rxOut = s.rxOut := rfl
@[simp] theorem State.setIrq_rxDelay (b : Nat) : (s.setIrq b).rxDelay = s.rxDelay := rfl
@[simp] theorem State.setIrq_bands (b : Nat) : (s.setIrq b).bands = s.bands := rfl
@[simp] theorem State.setIrq_acc (b : Nat) : (s.setIrq b).acc = s.acc := rfl
@[simp] theorem State.setIrq_store (b : Nat) : (s.setIrq b).store = s.store := rfl
@[simp] theorem State.setIrq_bus (b : Nat) : (s.setIrq b).bus = s.bus := rfl
@[simp] theorem State.setIrq_agenda (b : Nat) : (s.setIrq b).agenda = s.agenda := rfl
@[simp] theorem State.setIrq_draws (b : Nat) : (s.setIrq b).draws = s.draws := rfl

/-! `State.succeed` -/

@[simp] theorem State.succeed_params (op : BitVec 8) : (s.succeed op).params = s.params := rfl
@[simp] theorem State.succeed_cfg (op : BitVec 8) : (s.succeed op).cfg = s.cfg := rfl
@[simp] theorem State.succeed_codec (op : BitVec 8) : (s.succeed op).codec = s.codec := rfl
@[simp] theorem State.succeed_val (op : BitVec 8) : (s.succeed op).val = s.val := rfl
@[simp] theorem State.succeed_tree (op : BitVec 8) : (s.succeed op).tree = s.tree := rfl
@[simp] theorem State.succeed_cls (op : BitVec 8) : (s.succeed op).cls = s.cls := rfl
@[simp] theorem State.succeed_clock (op : BitVec 8) : (s.succeed op).clock = s.clock := rfl
@[simp] theorem State.succeed_tx (op : BitVec 8) : (s.succeed op).tx = s.tx := rfl
@[simp] theorem State.succeed_txTiming (op : BitVec 8) : (s.succeed op).txTiming = s.txTiming := rfl
@[simp] theorem State.succeed_rx (op : BitVec 8) : (s.succeed op).rx = s.rx := rfl
@[simp] theorem State.succeed_rxOut (op : BitVec 8) : (s.succeed op).rxOut = s.rxOut := rfl
@[simp] theorem State.succeed_rxDelay (op : BitVec 8) : (s.succeed op).rxDelay = s.rxDelay := rfl
@[simp] theorem State.succeed_bands (op : BitVec 8) : (s.succeed op).bands = s.bands := rfl
@[simp] theorem State.succeed_acc (op : BitVec 8) : (s.succeed op).acc = s.acc := rfl
@[simp] theorem State.succeed_store (op : BitVec 8) : (s.succeed op).store = s.store := rfl
@[simp] theorem State.succeed_bus (op : BitVec 8) : (s.succeed op).bus = s.bus := rfl
@[simp] theorem State.succeed_agenda (op : BitVec 8) : (s.succeed op).agenda = s.agenda := rfl
@[simp] theorem State.succeed_draws (op : BitVec 8) : (s.succeed op).draws = s.draws := rfl

/-! `State.fail` -/

@[simp] theorem State.fail_params (op : BitVec 8) (e : CmdError) (w : Word) : (s.fail op e w).params = s.params := by
  unfold State.fail; dsimp only; split <;> rfl
@[simp] theorem State.fail_cfg (op : BitVec 8) (e : CmdError) (w : Word) : (s.fail op e w).cfg = s.cfg := by
  unfold State.fail; dsimp only; split <;> rfl
@[simp] theorem State.fail_codec (op : BitVec 8) (e : CmdError) (w : Word) : (s.fail op e w).codec = s.codec := by
  unfold State.fail; dsimp only; split <;> rfl
@[simp] theorem State.fail_val (op : BitVec 8) (e : CmdError) (w : Word) : (s.fail op e w).val = s.val := by
  unfold State.fail; dsimp only; split <;> rfl
@[simp] theorem State.fail_tree (op : BitVec 8) (e : CmdError) (w : Word) : (s.fail op e w).tree = s.tree := by
  unfold State.fail; dsimp only; split <;> rfl
@[simp] theorem State.fail_cls (op : BitVec 8) (e : CmdError) (w : Word) : (s.fail op e w).cls = s.cls := by
  unfold State.fail; dsimp only; split <;> rfl
@[simp] theorem State.fail_clock (op : BitVec 8) (e : CmdError) (w : Word) : (s.fail op e w).clock = s.clock := by
  unfold State.fail; dsimp only; split <;> rfl
@[simp] theorem State.fail_tx (op : BitVec 8) (e : CmdError) (w : Word) : (s.fail op e w).tx = s.tx := by
  unfold State.fail; dsimp only; split <;> rfl
@[simp] theorem State.fail_txTiming (op : BitVec 8) (e : CmdError) (w : Word) : (s.fail op e w).txTiming = s.txTiming := by
  unfold State.fail; dsimp only; split <;> rfl
@[simp] theorem State.fail_rx (op : BitVec 8) (e : CmdError) (w : Word) : (s.fail op e w).rx = s.rx := by
  unfold State.fail; dsimp only; split <;> rfl
@[simp] theorem State.fail_rxOut (op : BitVec 8) (e : CmdError) (w : Word) : (s.fail op e w).rxOut = s.rxOut := by
  unfold State.fail; dsimp only; split <;> rfl
@[simp] theorem State.fail_rxDelay (op : BitVec 8) (e : CmdError) (w : Word) : (s.fail op e w).rxDelay = s.rxDelay := by
  unfold State.fail; dsimp only; split <;> rfl
@[simp] theorem State.fail_bands (op : BitVec 8) (e : CmdError) (w : Word) : (s.fail op e w).bands = s.bands := by
  unfold State.fail; dsimp only; split <;> rfl
@[simp] theorem State.fail_acc (op : BitVec 8) (e : CmdError) (w : Word) : (s.fail op e w).acc = s.acc := by
  unfold State.fail; dsimp only; split <;> rfl
@[simp] theorem State.fail_store (op : BitVec 8) (e : CmdError) (w : Word) : (s.fail op e w).store = s.store := by
  unfold State.fail; dsimp only; split <;> rfl
@[simp] theorem State.fail_bus (op : BitVec 8) (e : CmdError) (w : Word) : (s.fail op e w).bus = s.bus := by
  unfold State.fail; dsimp only; split <;> rfl
@[simp] theorem State.fail_agenda (op : BitVec 8) (e : CmdError) (w : Word) : (s.fail op e w).agenda = s.agenda := by
  unfold State.fail; dsimp only; split <;> rfl
@[simp] theorem State.fail_draws (op : BitVec 8) (e : CmdError) (w : Word) : (s.fail op e w).draws = s.draws := by
  unfold State.fail; dsimp only; split <;> rfl

/-! `State.putVerdict` -/

@[simp] theorem State.putVerdict_params (v : Verdict) : (s.putVerdict v).params = s.params := rfl
@[simp] theorem State.putVerdict_cmd (v : Verdict) : (s.putVerdict v).cmd = s.cmd := rfl
@[simp] theorem State.putVerdict_cfg (v : Verdict) : (s.putVerdict v).cfg = s.cfg := rfl
@[simp] theorem State.putVerdict_codec (v : Verdict) : (s.putVerdict v).codec = s.codec := rfl
@[simp] theorem State.putVerdict_tree (v : Verdict) : (s.putVerdict v).tree = s.tree := rfl
@[simp] theorem State.putVerdict_cls (v : Verdict) : (s.putVerdict v).cls = s.cls := rfl
@[simp] theorem State.putVerdict_irq (v : Verdict) : (s.putVerdict v).irq = s.irq := rfl
@[simp] theorem State.putVerdict_clock (v : Verdict) : (s.putVerdict v).clock = s.clock := rfl
@[simp] theorem State.putVerdict_tx (v : Verdict) : (s.putVerdict v).tx = s.tx := rfl
@[simp] theorem State.putVerdict_txTiming (v : Verdict) : (s.putVerdict v).txTiming = s.txTiming := rfl
@[simp] theorem State.putVerdict_rx (v : Verdict) : (s.putVerdict v).rx = s.rx := rfl
@[simp] theorem State.putVerdict_rxOut (v : Verdict) : (s.putVerdict v).rxOut = s.rxOut := rfl
@[simp] theorem State.putVerdict_rxDelay (v : Verdict) : (s.putVerdict v).rxDelay = s.rxDelay := rfl
@[simp] theorem State.putVerdict_bands (v : Verdict) : (s.putVerdict v).bands = s.bands := rfl
@[simp] theorem State.putVerdict_acc (v : Verdict) : (s.putVerdict v).acc = s.acc := rfl
@[simp] theorem State.putVerdict_store (v : Verdict) : (s.putVerdict v).store = s.store := rfl
@[simp] theorem State.putVerdict_bus (v : Verdict) : (s.putVerdict v).bus = s.bus := rfl
@[simp] theorem State.putVerdict_agenda (v : Verdict) : (s.putVerdict v).agenda = s.agenda := rfl
@[simp] theorem State.putVerdict_draws (v : Verdict) : (s.putVerdict v).draws = s.draws := rfl

/-! `State.deliverDmsg` -/

@[simp] theorem State.deliverDmsg_params (out : List Byte) (t : Nat) : (s.deliverDmsg out t).params = s.params := rfl
@[simp] theorem State.deliverDmsg_cmd (out : List Byte) (t : Nat) : (s.deliverDmsg out t).cmd = s.cmd := rfl
@[simp] theorem State.deliverDmsg_cfg (out : List Byte) (t : Nat) : (s.deliverDmsg out t).cfg = s.cfg := rfl
@[simp] theorem State.deliverDmsg_val (out : List Byte) (t : Nat) : (s.deliverDmsg out t).val = s.val := rfl
@[simp] theorem State.deliverDmsg_tree (out : List Byte) (t : Nat) : (s.deliverDmsg out t).tree = s.tree := rfl
@[simp] theorem State.deliverDmsg_cls (out : List Byte) (t : Nat) : (s.deliverDmsg out t).cls = s.cls := rfl
@[simp] theorem State.deliverDmsg_irq (out : List Byte) (t : Nat) : (s.deliverDmsg out t).irq = s.irq := rfl
@[simp] theorem State.deliverDmsg_clock (out : List Byte) (t : Nat) : (s.deliverDmsg out t).clock = s.clock := rfl
@[simp] theorem State.deliverDmsg_tx (out : List Byte) (t : Nat) : (s.deliverDmsg out t).tx = s.tx := rfl
@[simp] theorem State.deliverDmsg_txTiming (out : List Byte) (t : Nat) : (s.deliverDmsg out t).txTiming = s.txTiming := rfl
@[simp] theorem State.deliverDmsg_rx (out : List Byte) (t : Nat) : (s.deliverDmsg out t).rx = s.rx := rfl
@[simp] theorem State.deliverDmsg_rxOut (out : List Byte) (t : Nat) : (s.deliverDmsg out t).rxOut = s.rxOut := rfl
@[simp] theorem State.deliverDmsg_rxDelay (out : List Byte) (t : Nat) : (s.deliverDmsg out t).rxDelay = s.rxDelay := rfl
@[simp] theorem State.deliverDmsg_bands (out : List Byte) (t : Nat) : (s.deliverDmsg out t).bands = s.bands := rfl
@[simp] theorem State.deliverDmsg_acc (out : List Byte) (t : Nat) : (s.deliverDmsg out t).acc = s.acc := rfl
@[simp] theorem State.deliverDmsg_bus (out : List Byte) (t : Nat) : (s.deliverDmsg out t).bus = s.bus := rfl
@[simp] theorem State.deliverDmsg_agenda (out : List Byte) (t : Nat) : (s.deliverDmsg out t).agenda = s.agenda := rfl
@[simp] theorem State.deliverDmsg_draws (out : List Byte) (t : Nat) : (s.deliverDmsg out t).draws = s.draws := rfl

/-! `State.txEnter` -/

@[simp] theorem State.txEnter_params (ph : TxPhase) (w : Word) : (s.txEnter ph w).params = s.params := rfl
@[simp] theorem State.txEnter_cmd (ph : TxPhase) (w : Word) : (s.txEnter ph w).cmd = s.cmd := rfl
@[simp] theorem State.txEnter_cfg (ph : TxPhase) (w : Word) : (s.txEnter ph w).cfg = s.cfg := rfl
@[simp] theorem State.txEnter_codec (ph : TxPhase) (w : Word) : (s.txEnter ph w).codec = s.codec := rfl
@[simp] theorem State.txEnter_val (ph : TxPhase) (w : Word) : (s.txEnter ph w).val = s.val := rfl
@[simp] theorem State.txEnter_tree (ph : TxPhase) (w : Word) : (s.txEnter ph w).tree = s.tree := rfl
@[simp] theorem State.txEnter_cls (ph : TxPhase) (w : Word) : (s.txEnter ph w).cls = s.cls := rfl
@[simp] theorem State.txEnter_irq (ph : TxPhase) (w : Word) : (s.txEnter ph w).irq = s.irq := rfl
@[simp] theorem State.txEnter_clock (ph : TxPhase) (w : Word) : (s.txEnter ph w).clock = s.clock := rfl
@[simp] theorem State.txEnter_txTiming (ph : TxPhase) (w : Word) : (s.txEnter ph w).txTiming = s.txTiming := rfl
@[simp] theorem State.txEnter_rx (ph : TxPhase) (w : Word) : (s.txEnter ph w).rx = s.rx := rfl
@[simp] theorem State.txEnter_rxOut (ph : TxPhase) (w : Word) : (s.txEnter ph w).rxOut = s.rxOut := rfl
@[simp] theorem State.txEnter_rxDelay (ph : TxPhase) (w : Word) : (s.txEnter ph w).rxDelay = s.rxDelay := rfl
@[simp] theorem State.txEnter_bands (ph : TxPhase) (w : Word) : (s.txEnter ph w).bands = s.bands := rfl
@[simp] theorem State.txEnter_acc (ph : TxPhase) (w : Word) : (s.txEnter ph w).acc = s.acc := rfl
@[simp] theorem State.txEnter_store (ph : TxPhase) (w : Word) : (s.txEnter ph w).store = s.store := rfl
@[simp] theorem State.txEnter_bus (ph : TxPhase) (w : Word) : (s.txEnter ph w).bus = s.bus := rfl
@[simp] theorem State.txEnter_agenda (ph : TxPhase) (w : Word) : (s.txEnter ph w).agenda = s.agenda := rfl
@[simp] theorem State.txEnter_draws (ph : TxPhase) (w : Word) : (s.txEnter ph w).draws = s.draws := rfl

/-! `State.txAtBit` -/

@[simp] theorem State.txAtBit_params (w : Word) : (s.txAtBit w).params = s.params := rfl
@[simp] theorem State.txAtBit_cmd (w : Word) : (s.txAtBit w).cmd = s.cmd := rfl
@[simp] theorem State.txAtBit_cfg (w : Word) : (s.txAtBit w).cfg = s.cfg := rfl
@[simp] theorem State.txAtBit_codec (w : Word) : (s.txAtBit w).codec = s.codec := rfl
@[simp] theorem State.txAtBit_val (w : Word) : (s.txAtBit w).val = s.val := rfl
@[simp] theorem State.txAtBit_tree (w : Word) : (s.txAtBit w).tree = s.tree := rfl
@[simp] theorem State.txAtBit_cls (w : Word) : (s.txAtBit w).cls = s.cls := rfl
@[simp] theorem State.txAtBit_irq (w : Word) : (s.txAtBit w).irq = s.irq := rfl
@[simp] theorem State.txAtBit_clock (w : Word) : (s.txAtBit w).clock = s.clock := rfl
@[simp] theorem State.txAtBit_txTiming (w : Word) : (s.txAtBit w).txTiming = s.txTiming := rfl
@[simp] theorem State.txAtBit_rx (w : Word) : (s.txAtBit w).rx = s.rx := rfl
@[simp] theorem State.txAtBit_rxOut (w : Word) : (s.txAtBit w).rxOut = s.rxOut := rfl
@[simp] theorem State.txAtBit_rxDelay (w : Word) : (s.txAtBit w).rxDelay = s.rxDelay := rfl
@[simp] theorem State.txAtBit_bands (w : Word) : (s.txAtBit w).bands = s.bands := rfl
@[simp] theorem State.txAtBit_acc (w : Word) : (s.txAtBit w).acc = s.acc := rfl
@[simp] theorem State.txAtBit_store (w : Word) : (s.txAtBit w).store = s.store := rfl
@[simp] theorem State.txAtBit_bus (w : Word) : (s.txAtBit w).bus = s.bus := rfl
@[simp] theorem State.txAtBit_agenda (w : Word) : (s.txAtBit w).agenda = s.agenda := rfl
@[simp] theorem State.txAtBit_draws (w : Word) : (s.txAtBit w).draws = s.draws := rfl

/-! `State.txEnterBit` -/

@[simp] theorem State.txEnterBit_params : s.txEnterBit.params = s.params := rfl
@[simp] theorem State.txEnterBit_cmd : s.txEnterBit.cmd = s.cmd := rfl
@[simp] theorem State.txEnterBit_cfg : s.txEnterBit.cfg = s.cfg := rfl
@[simp] theorem State.txEnterBit_codec : s.txEnterBit.codec = s.codec := rfl
@[simp] theorem State.txEnterBit_val : s.txEnterBit.val = s.val := rfl
@[simp] theorem State.txEnterBit_tree : s.txEnterBit.tree = s.tree := rfl
@[simp] theorem State.txEnterBit_cls : s.txEnterBit.cls = s.cls := rfl
@[simp] theorem State.txEnterBit_irq : s.txEnterBit.irq = s.irq := rfl
@[simp] theorem State.txEnterBit_clock : s.txEnterBit.clock = s.clock := rfl
@[simp] theorem State.txEnterBit_txTiming : s.txEnterBit.txTiming = s.txTiming := rfl
@[simp] theorem State.txEnterBit_rx : s.txEnterBit.rx = s.rx := rfl
@[simp] theorem State.txEnterBit_rxOut : s.txEnterBit.rxOut = s.rxOut := rfl
@[simp] theorem State.txEnterBit_rxDelay : s.txEnterBit.rxDelay = s.rxDelay := rfl
@[simp] theorem State.txEnterBit_bands : s.txEnterBit.bands = s.bands := rfl
@[simp] theorem State.txEnterBit_acc : s.txEnterBit.acc = s.acc := rfl
@[simp] theorem State.txEnterBit_store : s.txEnterBit.store = s.store := rfl
@[simp] theorem State.txEnterBit_bus : s.txEnterBit.bus = s.bus := rfl
@[simp] theorem State.txEnterBit_agenda : s.txEnterBit.agenda = s.agenda := rfl
@[simp] theorem State.txEnterBit_draws : s.txEnterBit.draws = s.draws := rfl

/-! `State.rxPublish` -/

@[simp] theorem State.rxPublish_params (p : Parsed) : (s.rxPublish p).params = s.params := rfl
@[simp] theorem State.rxPublish_cmd (p : Parsed) : (s.rxPublish p).cmd = s.cmd := rfl
@[simp] theorem State.rxPublish_cfg (p : Parsed) : (s.rxPublish p).cfg = s.cfg := rfl
@[simp] theorem State.rxPublish_codec (p : Parsed) : (s.rxPublish p).codec = s.codec := rfl
@[simp] theorem State.rxPublish_val (p : Parsed) : (s.rxPublish p).val = s.val := rfl
@[simp] theorem State.rxPublish_tree (p : Parsed) : (s.rxPublish p).tree = s.tree := rfl
@[simp] theorem State.rxPublish_cls (p : Parsed) : (s.rxPublish p).cls = s.cls := rfl
@[simp] theorem State.rxPublish_irq (p : Parsed) : (s.rxPublish p).irq = s.irq := rfl
@[simp] theorem State.rxPublish_clock (p : Parsed) : (s.rxPublish p).clock = s.clock := rfl
@[simp] theorem State.rxPublish_tx (p : Parsed) : (s.rxPublish p).tx = s.tx := rfl
@[simp] theorem State.rxPublish_txTiming (p : Parsed) : (s.rxPublish p).txTiming = s.txTiming := rfl
@[simp] theorem State.rxPublish_rx (p : Parsed) : (s.rxPublish p).rx = s.rx := rfl
@[simp] theorem State.rxPublish_rxDelay (p : Parsed) : (s.rxPublish p).rxDelay = s.rxDelay := rfl
@[simp] theorem State.rxPublish_bands (p : Parsed) : (s.rxPublish p).bands = s.bands := rfl
@[simp] theorem State.rxPublish_acc (p : Parsed) : (s.rxPublish p).acc = s.acc := rfl
@[simp] theorem State.rxPublish_bus (p : Parsed) : (s.rxPublish p).bus = s.bus := rfl
@[simp] theorem State.rxPublish_agenda (p : Parsed) : (s.rxPublish p).agenda = s.agenda := rfl
@[simp] theorem State.rxPublish_draws (p : Parsed) : (s.rxPublish p).draws = s.draws := rfl

/-! `State.refuse` -/

@[simp] theorem State.refuse_params (w : Word) : (s.refuse w).params = s.params := rfl
@[simp] theorem State.refuse_cmd (w : Word) : (s.refuse w).cmd = s.cmd := rfl
@[simp] theorem State.refuse_cfg (w : Word) : (s.refuse w).cfg = s.cfg := rfl
@[simp] theorem State.refuse_codec (w : Word) : (s.refuse w).codec = s.codec := rfl
@[simp] theorem State.refuse_val (w : Word) : (s.refuse w).val = s.val := rfl
@[simp] theorem State.refuse_tree (w : Word) : (s.refuse w).tree = s.tree := rfl
@[simp] theorem State.refuse_cls (w : Word) : (s.refuse w).cls = s.cls := rfl
@[simp] theorem State.refuse_clock (w : Word) : (s.refuse w).clock = s.clock := rfl
@[simp] theorem State.refuse_tx (w : Word) : (s.refuse w).tx = s.tx := rfl
@[simp] theorem State.refuse_txTiming (w : Word) : (s.refuse w).txTiming = s.txTiming := rfl
@[simp] theorem State.refuse_rx (w : Word) : (s.refuse w).rx = s.rx := rfl
@[simp] theorem State.refuse_rxOut (w : Word) : (s.refuse w).rxOut = s.rxOut := rfl
@[simp] theorem State.refuse_rxDelay (w : Word) : (s.refuse w).rxDelay = s.rxDelay := rfl
@[simp] theorem State.refuse_bands (w : Word) : (s.refuse w).bands = s.bands := rfl
@[simp] theorem State.refuse_acc (w : Word) : (s.refuse w).acc = s.acc := rfl
@[simp] theorem State.refuse_store (w : Word) : (s.refuse w).store = s.store := rfl
@[simp] theorem State.refuse_agenda (w : Word) : (s.refuse w).agenda = s.agenda := rfl
@[simp] theorem State.refuse_draws (w : Word) : (s.refuse w).draws = s.draws := rfl

/-! `State.advance` -/

@[simp] theorem State.advance_params : s.advance.params = s.params := rfl
@[simp] theorem State.advance_cmd : s.advance.cmd = s.cmd := rfl
@[simp] theorem State.advance_cfg : s.advance.cfg = s.cfg := rfl
@[simp] theorem State.advance_codec : s.advance.codec = s.codec := rfl
@[simp] theorem State.advance_val : s.advance.val = s.val := rfl
@[simp] theorem State.advance_tree : s.advance.tree = s.tree := rfl
@[simp] theorem State.advance_cls : s.advance.cls = s.cls := rfl
@[simp] theorem State.advance_irq : s.advance.irq = s.irq := rfl
@[simp] theorem State.advance_clock : s.advance.clock = s.clock := rfl
@[simp] theorem State.advance_tx : s.advance.tx = s.tx := rfl
@[simp] theorem State.advance_txTiming : s.advance.txTiming = s.txTiming := rfl
@[simp] theorem State.advance_rx : s.advance.rx = s.rx := rfl
@[simp] theorem State.advance_rxOut : s.advance.rxOut = s.rxOut := rfl
@[simp] theorem State.advance_rxDelay : s.advance.rxDelay = s.rxDelay := rfl
@[simp] theorem State.advance_bands : s.advance.bands = s.bands := rfl
@[simp] theorem State.advance_acc : s.advance.acc = s.acc := rfl
@[simp] theorem State.advance_store : s.advance.store = s.store := rfl
@[simp] theorem State.advance_bus : s.advance.bus = s.bus := rfl

/-! `State.padded` -/

@[simp] theorem State.padded_params : s.padded.params = s.params := rfl
@[simp] theorem State.padded_cmd : s.padded.cmd = s.cmd := rfl
@[simp] theorem State.padded_cfg : s.padded.cfg = s.cfg := rfl
@[simp] theorem State.padded_codec : s.padded.codec = s.codec := rfl
@[simp] theorem State.padded_val : s.padded.val = s.val := rfl
@[simp] theorem State.padded_tree : s.padded.tree = s.tree := rfl
@[simp] theorem State.padded_cls : s.padded.cls = s.cls := rfl
@[simp] theorem State.padded_irq : s.padded.irq = s.irq := rfl
@[simp] theorem State.padded_clock : s.padded.clock = s.clock := rfl
@[simp] theorem State.padded_tx : s.padded.tx = s.tx := rfl
@[simp] theorem State.padded_txTiming : s.padded.txTiming = s.txTiming := rfl
@[simp] theorem State.padded_rx : s.padded.rx = s.rx := rfl
@[simp] theorem State.padded_rxOut : s.padded.rxOut = s.rxOut := rfl
@[simp] theorem State.padded_rxDelay : s.padded.rxDelay = s.rxDelay := rfl
@[simp] theorem State.padded_bands : s.padded.bands = s.bands := rfl
@[simp] theorem State.padded_acc : s.padded.acc = s.acc := rfl
@[simp] theorem State.padded_bus : s.padded.bus = s.bus := rfl
@[simp] theorem State.padded_agenda : s.padded.agenda = s.agenda := rfl
@[simp] theorem State.padded_draws : s.padded.draws = s.draws := rfl

/-! What the updates write -/

@[simp] theorem State.setIrq_irq (b : Nat) :
    (s.setIrq b).irq = { s.irq with status := s.irq.status ||| (1 <<< b) } := rfl

@[simp] theorem State.succeed_cmd (op : BitVec 8) :
    (s.succeed op).cmd = { pending := none, err := .ok, lastOp := op, errInfo := 0 } := rfl

@[simp] theorem State.succeed_irq (op : BitVec 8) :
    (s.succeed op).irq = { s.irq with status := s.irq.status ||| 1 } := rfl

@[simp] theorem State.fail_cmd (op : BitVec 8) (e : CmdError) (w : Word) :
    (s.fail op e w).cmd = { pending := none, err := e, lastOp := op, errInfo := w } := by
  unfold State.fail; dsimp only; split <;> rfl

/-- The interrupt bits of an error: CMD_DONE and CMD_ERR, and FAULT for NOTREE (R137, R144). -/
theorem State.fail_irq (op : BitVec 8) (e : CmdError) (w : Word) :
    (s.fail op e w).irq =
      { s.irq with status := s.irq.status ||| (if e = .notree then 0x43 else 0x03) } := by
  unfold State.fail; dsimp only
  split
  · simp only [State.setIrq, irqCmdDone, irqCmdErr, irqFault, BitVec.or_assoc]; rfl
  · simp only [State.setIrq, irqCmdDone, irqCmdErr, BitVec.or_assoc]; rfl

@[simp] theorem State.putVerdict_val (v : Verdict) :
    (s.putVerdict v).val = { result := v.result, sum := v.sum, ck := v.ck, fid := v.fid } := rfl

@[simp] theorem State.deliverDmsg_codec (out : List Byte) (t : Nat) :
    (s.deliverDmsg out t).codec =
      { s.codec with dmsgLen := BitVec.ofNat 32 out.length, decTrail := BitVec.ofNat 32 t } := rfl

@[simp] theorem State.deliverDmsg_store (out : List Byte) (t : Nat) :
    (s.deliverDmsg out t).store = s.store.put dmsgBase out := rfl

@[simp] theorem State.txEnter_tx (ph : TxPhase) (w : Word) :
    (s.txEnter ph w).tx = { s.tx with phase := ph, rem := w } := rfl

@[simp] theorem State.txAtBit_tx (w : Word) : (s.txAtBit w).tx = { s.tx with bitIdx := w } := rfl

@[simp] theorem State.txEnterBit_tx :
    s.txEnterBit.tx =
      { s.tx with
        phase := .bith
        rem := if s.fbufBit 0 s.tx.bitIdx.toNat then s.txTiming.bit1 else s.txTiming.bit0 } := rfl

@[simp] theorem State.refuse_bus (w : Word) : (s.refuse w).bus = { prdata := w, pslverr := true } :=
  rfl

@[simp] theorem State.refuse_irq (w : Word) :
    (s.refuse w).irq = { s.irq with status := s.irq.status ||| 0x80 } := rfl

@[simp] theorem State.advance_agenda : s.advance.agenda = s.upcoming.tail := rfl

@[simp] theorem State.advance_draws : s.advance.draws = s.draws + 1 := rfl

/-- Reset leaves only what is not the core's: the parameters, the agenda and the step's number. -/
theorem State.performReset_eq :
    s.performReset =
      { State.reset with params := s.params, agenda := s.agenda, draws := s.draws } := rfl

/-! ### The completion of a command (30_encoding.md R85) -/

theorem State.run_none (op : BitVec 8) (f : State → State) : s.run op none f = (f s).succeed op := rfl

theorem State.run_some (op : BitVec 8) (e : CmdError × Word) (f : State → State) :
    s.run op (some e) f = s.fail op e.1 e.2 := rfl

/-- Everything a completion can do: either no check fails and the command's whole effect happens, or the
first failing check is recorded and nothing else changes. -/
theorem State.run_cases (op : BitVec 8) (check : Option (CmdError × Word)) (f : State → State) :
    (check = none ∧ s.run op check f = (f s).succeed op) ∨
      ∃ e, check = some e ∧ s.run op check f = s.fail op e.1 e.2 := by
  cases check with
  | none => exact .inl ⟨rfl, rfl⟩
  | some e => exact .inr ⟨e, rfl, rfl⟩

/-- Every command answers a next state: nothing stops the machine (60_exceptions.md R138). -/
theorem exec_next (i : Instr) : ∃ t, exec i s = .next t := by
  cases i <;> exact ⟨_, rfl⟩

end Sys2Proof.Machine
end

