-- ==== Sys2Proof/Laws/Memory.lean ====
section
/-! SUPPORT. The laws of the sparse memory: what a splice reads back as, everywhere, and that it keeps
the canonical form. -/

namespace Sys2Proof.Machine

@[simp] theorem Memory.get_nil (a : Nat) : Memory.get [] a = 0 := rfl

@[simp] theorem Memory.get_cons (c : Host.Cell) (m : Memory) (a : Nat) :
    Memory.get (c :: m) a = if c.1 = a then c.2 else Memory.get m a := rfl

theorem Memory.get_append (m n : Memory) (a : Nat) :
    Memory.get (m ++ n) a = if ∃ c ∈ m, c.1 = a then Memory.get m a else Memory.get n a := by
  induction m with
  | nil => simp
  | cons c m ih =>
    by_cases h : c.1 = a
    · simp [h]
    · simp [h, ih]

/-- A filter that keeps the entries of an offset keeps what it reads as. -/
theorem Memory.get_filter_of_keep (p : Nat → Bool) (m : Memory) (a : Nat) (h : p a = true) :
    Memory.get (m.filter (fun c => p c.1)) a = Memory.get m a := by
  induction m with
  | nil => rfl
  | cons c m ih =>
    by_cases hc : c.1 = a
    · simp [hc, h]
    · by_cases hp : p c.1 <;> simp [hp, hc, ih]

theorem Memory.get_eq_zero_of_not_mem (m : Memory) (a : Nat) (h : ¬ ∃ c ∈ m, c.1 = a) :
    Memory.get m a = 0 := by
  induction m with
  | nil => rfl
  | cons c m ih =>
    simp only [List.mem_cons, exists_eq_or_imp, not_or] at h
    simp [h.1, ih h.2]

theorem Memory.mem_cells (lo : Nat) (bs : List Byte) (c : Host.Cell) (h : c ∈ Memory.cells lo bs) :
    lo ≤ c.1 ∧ c.1 < lo + bs.length ∧ c.2 ≠ 0 := by
  induction bs generalizing lo with
  | nil => simp [Memory.cells] at h
  | cons b bs ih =>
    simp only [Memory.cells] at h
    split at h
    · have := ih _ h
      exact ⟨by omega, by simp only [List.length_cons]; omega, this.2.2⟩
    · rcases List.mem_cons.1 h with rfl | h'
      · simp_all
      · have := ih _ h'
        exact ⟨by omega, by simp only [List.length_cons]; omega, this.2.2⟩

theorem Memory.get_cells (lo : Nat) (bs : List Byte) (a : Nat) :
    Memory.get (Memory.cells lo bs) a =
      if lo ≤ a ∧ a < lo + bs.length then bs.getD (a - lo) 0 else 0 := by
  induction bs generalizing lo with
  | nil =>
    have : ¬ (lo ≤ a ∧ a < lo + ([] : List Byte).length) := by simp
    rw [if_neg this]; rfl
  | cons b bs ih =>
    have key : Memory.get (Memory.cells lo (b :: bs)) a =
        if lo = a then b else Memory.get (Memory.cells (lo + 1) bs) a := by
      simp only [Memory.cells]
      split
      · next hb =>
        split
        · next h =>
          subst h
          rw [ih, if_neg (by omega), hb]
        · rfl
      · rfl
    rw [key, ih]
    simp only [List.length_cons]
    by_cases h : lo = a
    · subst h; simp
    · rw [if_neg h]
      by_cases h2 : lo + 1 ≤ a ∧ a < lo + 1 + bs.length
      · rw [if_pos h2, if_pos (by omega)]
        obtain ⟨k, rfl⟩ : ∃ k, a = lo + 1 + k := ⟨a - (lo + 1), by omega⟩
        have e1 : lo + 1 + k - (lo + 1) = k := by omega
        have e2 : lo + 1 + k - lo = k + 1 := by omega
        rw [e1, e2, List.getD_cons_succ]
      · rw [if_neg h2, if_neg (by omega)]

/-- THE LAW OF A SPLICE: inside it reads the new bytes, elsewhere what it read before. -/
theorem Memory.get_splice (m : Memory) (lo : Nat) (bs : List Byte) (a : Nat) :
    Memory.get (m.splice lo bs) a =
      if lo ≤ a ∧ a < lo + bs.length then bs.getD (a - lo) 0 else Memory.get m a := by
  unfold Memory.splice
  rw [Memory.get_append]
  by_cases h1 : a < lo
  · have keep := Memory.get_filter_of_keep (fun n => decide (n < lo)) m a (by simpa using h1)
    rw [if_neg (by omega : ¬ (lo ≤ a ∧ a < lo + bs.length))]
    split
    · exact keep
    · next hno =>
      have hm : Memory.get m a = 0 := by
        rw [← keep]; exact Memory.get_eq_zero_of_not_mem _ _ hno
      rw [hm]
      apply Memory.get_eq_zero_of_not_mem
      rintro ⟨c, hc, rfl⟩
      rcases List.mem_append.1 hc with hc | hc
      · have := Memory.mem_cells _ _ _ hc; omega
      · have := (List.mem_filter.1 hc).2; simp at this; omega
  · have hno : ¬ ∃ c ∈ m.filter (fun c => decide (c.1 < lo)), c.1 = a := by
      rintro ⟨c, hc, rfl⟩
      have := (List.mem_filter.1 hc).2; simp at this; omega
    rw [if_neg hno, Memory.get_append]
    by_cases h2 : a < lo + bs.length
    · rw [if_pos (by omega : lo ≤ a ∧ a < lo + bs.length)]
      split
      · rw [Memory.get_cells, if_pos (by omega)]
      · next hno2 =>
        have hz : Memory.get (Memory.cells lo bs) a = 0 := Memory.get_eq_zero_of_not_mem _ _ hno2
        rw [Memory.get_cells, if_pos (by omega)] at hz
        rw [hz]
        apply Memory.get_eq_zero_of_not_mem
        rintro ⟨c, hc, rfl⟩
        have := (List.mem_filter.1 hc).2; simp at this; omega
    · rw [if_neg (by omega : ¬ (lo ≤ a ∧ a < lo + bs.length))]
      have hno2 : ¬ ∃ c ∈ Memory.cells lo bs, c.1 = a := by
        rintro ⟨c, hc, rfl⟩
        have := Memory.mem_cells _ _ _ hc; omega
      rw [if_neg hno2]
      exact Memory.get_filter_of_keep (fun n => decide (lo + bs.length ≤ n)) m a (by simp; omega)

theorem Memory.wf_iff (m : Memory) :
    m.wf = true ↔ m.Pairwise (fun c d => c.1 < d.1) ∧ ∀ c ∈ m, c.2 ≠ 0 := by
  simp [Memory.wf]

theorem Memory.wf_nil : Memory.wf [] = true := by decide

theorem Memory.cells_pairwise (lo : Nat) (bs : List Byte) :
    (Memory.cells lo bs).Pairwise (fun c d => c.1 < d.1) := by
  induction bs generalizing lo with
  | nil => exact List.Pairwise.nil
  | cons b bs ih =>
    simp only [Memory.cells]
    split
    · exact ih _
    · refine List.Pairwise.cons (fun c hc => ?_) (ih _)
      have := Memory.mem_cells _ _ _ hc
      exact this.1

/-- Every write keeps the canonical form. -/
theorem Memory.splice_wf (m : Memory) (lo : Nat) (bs : List Byte) (h : m.wf = true) :
    (m.splice lo bs).wf = true := by
  rw [Memory.wf_iff] at h ⊢
  obtain ⟨hp, hz⟩ := h
  unfold Memory.splice
  constructor
  · rw [List.pairwise_append]
    refine ⟨hp.filter _, ?_, ?_⟩
    · rw [List.pairwise_append]
      refine ⟨Memory.cells_pairwise _ _, hp.filter _, ?_⟩
      intro c hc d hd
      have h1 := Memory.mem_cells _ _ _ hc
      have h2 := (List.mem_filter.1 hd).2
      simp at h2; omega
    · intro c hc d hd
      have h1 := (List.mem_filter.1 hc).2
      simp at h1
      rcases List.mem_append.1 hd with hd | hd
      · have := Memory.mem_cells _ _ _ hd; omega
      · have h2 := (List.mem_filter.1 hd).2
        simp at h2; omega
  · intro c hc
    rcases List.mem_append.1 hc with hc | hc
    · exact hz _ (List.mem_filter.1 hc).1
    · rcases List.mem_append.1 hc with hc | hc
      · exact (Memory.mem_cells _ _ _ hc).2.2
      · exact hz _ (List.mem_filter.1 hc).1

/-- Equal memories are equal data: two canonical memories that read the same everywhere are the same
list. -/
theorem Memory.ext_of_wf (m n : Memory) (hm : m.wf = true) (hn : n.wf = true)
    (h : ∀ a, m.get a = n.get a) : m = n := by
  rw [Memory.wf_iff] at hm hn
  obtain ⟨pm, zm⟩ := hm
  obtain ⟨pn, zn⟩ := hn
  induction m generalizing n with
  | nil =>
    cases n with
    | nil => rfl
    | cons d n =>
      have := h d.1
      simp at this
      exact absurd this.symm (zn d (by simp))
  | cons c m ih =>
    cases n with
    | nil =>
      have := h c.1
      simp at this
      exact absurd this (zm c (by simp))
    | cons d n =>
      rw [List.pairwise_cons] at pm pn
      have low : ∀ (l : Memory) (k : Nat), (∀ e ∈ l, k < e.1) → Memory.get l k = 0 := by
        intro l k hl
        apply Memory.get_eq_zero_of_not_mem
        rintro ⟨e, he, rfl⟩
        exact absurd (hl e he) (lt_irrefl _)
      have hcd : c.1 = d.1 := by
        rcases Nat.lt_trichotomy c.1 d.1 with hlt | heq | hgt
        · have := h c.1
          rw [low (d :: n) c.1 (by
            intro e he
            rcases List.mem_cons.1 he with rfl | he
            · exact hlt
            · exact hlt.trans (pn.1 e he))] at this
          simp at this
          exact absurd this (zm c (by simp))
        · exact heq
        · have := h d.1
          rw [low (c :: m) d.1 (by
            intro e he
            rcases List.mem_cons.1 he with rfl | he
            · exact hgt
            · exact hgt.trans (pm.1 e he))] at this
          simp at this
          exact absurd this.symm (zn d (by simp))
      have hv : c.2 = d.2 := by
        have := h c.1
        simpa [hcd] using this
      have hce : c = d := Prod.ext hcd hv
      subst hce
      congr 1
      refine ih n ?_ pm.2 (fun e he => zm e (by simp [he])) pn.2 (fun e he => zn e (by simp [he]))
      intro a
      by_cases ha : c.1 = a
      · subst ha
        rw [low m _ pm.1, low n _ pn.1]
      · have := h a
        simpa [ha] using this

end Sys2Proof.Machine
end

