-- ==== Sys2Proof/Laws/Storage.lean ====
section
/-! SUPPORT. The laws of storage: what each write reads back as, for bytes and for bits, that it leaves
everything else as it was, and that it keeps the canonical form. -/

namespace Sys2Proof.Machine

/-! ### The address map -/

theorem inTables_eq (a : Nat) :
    inTables a = true ↔ (0x1400 ≤ a ∧ a < 0x1800) ∨ (0x2000 ≤ a ∧ a < 0x5000) := by
  rw [inTables, Bool.or_eq_true, decide_eq_true_iff, decide_eq_true_iff]; rfl

theorem isFixed_eq (a : Nat) :
    isFixed a = true ↔ (0x1400 ≤ a ∧ a < 0x1800 ∧ a % 4 ≠ 0) ∨ (0x4FF8 ≤ a ∧ a < 0x5000) := by
  rw [isFixed, Bool.or_eq_true, decide_eq_true_iff, decide_eq_true_iff]; rfl

theorem inTables_of_ge (a : Nat) (h : treeEnd ≤ a) : inTables a = false := by
  rw [Bool.eq_false_iff, Ne, inTables_eq]; unfold treeEnd at h; omega

theorem inTables_of_lt (a : Nat) (h : a < codeLenBase) : inTables a = false := by
  rw [Bool.eq_false_iff, Ne, inTables_eq]; unfold codeLenBase at h; omega

theorem isFixed_of_not_inTables (a : Nat) (h : inTables a = false) : isFixed a = false := by
  rw [Bool.eq_false_iff, Ne] at *; rw [inTables_eq] at h; rw [isFixed_eq]; omega

/-! ### Reading -/

/-- A byte outside the tables: its written bits, and a draw for the others. -/
theorem State.readByte_plain (s : State) (p a : Nat) (h : inTables a = false) :
    s.readByte p a =
      (s.store.bits.get a &&& s.store.written.get a) |||
        (Config.freeByte s.draws p a &&& ~~~(s.store.written.get a)) := by
  simp [State.readByte, State.mask, h, isFixed_of_not_inTables a h]

/-- A byte of a table that BUILD has written. -/
theorem State.readByte_table (s : State) (p a : Nat) (h : inTables a = true) (hf : isFixed a = false)
    (hv : s.tree.tv = true) : s.readByte p a = s.store.bits.get a := by
  have e : (0xFF : Byte) = BitVec.allOnes 8 := by decide
  simp only [State.readByte, State.mask, h, hf, hv, if_true, Bool.false_eq_true, if_false]
  rw [e, BitVec.and_allOnes]; simp

/-- Entry 511 of TREE and bits [31:8] of CODE_LEN read 0 always (10_state.md R46, R48). -/
theorem State.readByte_fixed (s : State) (p a : Nat) (h : isFixed a = true) : s.readByte p a = 0 := by
  simp [State.readByte, h]

/-- Two states read a byte alike when they agree on it, on TV and on the draws. -/
theorem State.readByte_congr (s t : State) (p a : Nat) (hd : t.draws = s.draws)
    (hv : t.tree.tv = s.tree.tv) (hb : t.store.bits.get a = s.store.bits.get a)
    (hw : t.store.written.get a = s.store.written.get a) : t.readByte p a = s.readByte p a := by
  simp [State.readByte, State.mask, hd, hv, hb, hw]

theorem State.readByte_of_store (s t : State) (p a : Nat) (hd : t.draws = s.draws)
    (hv : t.tree.tv = s.tree.tv) (hs : t.store = s.store) : t.readByte p a = s.readByte p a :=
  State.readByte_congr s t p a hd hv (by rw [hs]) (by rw [hs])

/-! ### Whole bytes -/

@[simp] theorem Storage.put_bits (st : Storage) (lo : Nat) (bs : List Byte) :
    (st.put lo bs).bits = st.bits.splice lo bs := rfl

@[simp] theorem Storage.put_written (st : Storage) (lo : Nat) (bs : List Byte) :
    (st.put lo bs).written = st.written.splice lo (List.replicate bs.length 0xFF) := rfl

@[simp] theorem Storage.putTable_bits (st : Storage) (lo : Nat) (bs : List Byte) :
    (st.putTable lo bs).bits = st.bits.splice lo bs := rfl

@[simp] theorem Storage.putTable_written (st : Storage) (lo : Nat) (bs : List Byte) :
    (st.putTable lo bs).written = st.written := rfl

/-- THE LAW OF A WRITE OF BYTES, inside: every pass reads the bytes written. -/
theorem State.readByte_put_inside (s t : State) (p lo a : Nat) (bs : List Byte)
    (hs : t.store = s.store.put lo bs) (hT : inTables a = false) (h1 : lo ≤ a)
    (h2 : a < lo + bs.length) : t.readByte p a = bs.getD (a - lo) 0 := by
  have hw : t.store.written.get a = (0xFF : Byte) := by
    rw [hs, Storage.put_written, Memory.get_splice, if_pos (by simp; omega), List.getD_eq_getElem?_getD,
      List.getElem?_replicate, if_pos (by omega)]
    rfl
  have hb : t.store.bits.get a = bs.getD (a - lo) 0 := by
    rw [hs, Storage.put_bits, Memory.get_splice, if_pos ⟨h1, h2⟩]
  have e : (0xFF : Byte) = BitVec.allOnes 8 := by decide
  rw [State.readByte_plain t p a hT, hw, hb, e, BitVec.and_allOnes]
  simp

/-- THE LAW OF A WRITE OF BYTES, outside: every other byte reads as before. -/
theorem State.readByte_put_outside (s t : State) (p lo a : Nat) (bs : List Byte)
    (hs : t.store = s.store.put lo bs) (hd : t.draws = s.draws) (hv : t.tree.tv = s.tree.tv)
    (h : ¬ (lo ≤ a ∧ a < lo + bs.length)) : t.readByte p a = s.readByte p a := by
  refine State.readByte_congr s t p a hd hv ?_ ?_
  · rw [hs, Storage.put_bits, Memory.get_splice, if_neg h]
  · rw [hs, Storage.put_written, Memory.get_splice, if_neg (by simpa using h)]

/-! ### Single bits -/

/-- Bit k of the bit buffer at `base` in a memory (20_memory.md R62). -/
def Memory.bitAt (m : Memory) (base k : Nat) : Bool := (m.get (base + k / 8)).getLsbD (7 - k % 8)

theorem bitMask_getLsbD (k i : Nat) (hi : i < 8) :
    (bitMask k).getLsbD i = decide (i = 7 - k % 8) := by
  have hk : 7 - k % 8 < 8 := by omega
  unfold bitMask
  generalize 7 - k % 8 = n at hk
  interval_cases n <;> interval_cases i <;> decide

theorem setBits_getLsbD (b : Byte) (k i : Nat) (v : Bool) (hi : i < 8) :
    (setBits b (bitMask k) v).getLsbD i = if i = 7 - k % 8 then v else b.getLsbD i := by
  unfold setBits
  cases v
  · rw [if_neg (by simp), BitVec.getLsbD_and, BitVec.getLsbD_not, bitMask_getLsbD k i hi]
    by_cases h : i = 7 - k % 8
    · simp [h]
    · simp [h, hi]
  · rw [if_pos rfl, BitVec.getLsbD_or, bitMask_getLsbD k i hi]
    by_cases h : i = 7 - k % 8 <;> simp [h]

theorem Memory.bitAt_splice_one (m : Memory) (base k j : Nat) (b : Byte) :
    (m.splice (base + k / 8) [b]).bitAt base j =
      if j / 8 = k / 8 then b.getLsbD (7 - j % 8) else m.bitAt base j := by
  unfold Memory.bitAt
  rw [Memory.get_splice]
  by_cases h : j / 8 = k / 8
  · rw [if_pos (by simp [h]), if_pos h]; simp [h]
  · rw [if_neg (by simp; omega), if_neg h]

theorem Storage.putBit_bits_bitAt (st : Storage) (base k j : Nat) (v : Bool) :
    (st.putBit base k v).bits.bitAt base j = if j = k then v else st.bits.bitAt base j := by
  show (st.bits.splice _ _).bitAt base j = _
  rw [Memory.bitAt_splice_one]
  by_cases h : j / 8 = k / 8
  · rw [if_pos h, setBits_getLsbD _ _ _ _ (by omega)]
    by_cases hj : j = k
    · subst hj; simp
    · rw [if_neg (by omega), if_neg hj]; simp [Memory.bitAt, h]
  · rw [if_neg h, if_neg (by rintro rfl; exact h rfl)]

theorem Storage.putBit_written_bitAt (st : Storage) (base k j : Nat) (v : Bool) :
    (st.putBit base k v).written.bitAt base j = if j = k then true else st.written.bitAt base j := by
  show (st.written.splice _ _).bitAt base j = _
  rw [Memory.bitAt_splice_one]
  by_cases h : j / 8 = k / 8
  · rw [if_pos h, BitVec.getLsbD_or, bitMask_getLsbD _ _ (by omega)]
    by_cases hj : j = k
    · subst hj; simp
    · rw [if_neg hj]
      have : ¬ (7 - j % 8 = 7 - k % 8) := by omega
      simp [this, Memory.bitAt, h]
  · rw [if_neg h, if_neg (by rintro rfl; exact h rfl)]

theorem Storage.putBit_get_outside (st : Storage) (base k a : Nat) (v : Bool) (h : a ≠ base + k / 8) :
    (st.putBit base k v).bits.get a = st.bits.get a ∧
      (st.putBit base k v).written.get a = st.written.get a := by
  constructor
  · show (st.bits.splice _ _).get a = _
    rw [Memory.get_splice, if_neg (by simp; omega)]
  · show (st.written.splice _ _).get a = _
    rw [Memory.get_splice, if_neg (by simp; omega)]

theorem Storage.putBits_bits_bitAt (st : Storage) (base k j : Nat) (vs : List Bool) :
    (st.putBits base k vs).bits.bitAt base j =
      if k ≤ j ∧ j < k + vs.length then vs.getD (j - k) false else st.bits.bitAt base j := by
  induction vs generalizing st k with
  | nil => rw [if_neg (by simp)]; rfl
  | cons v vs ih =>
    rw [Storage.putBits, ih, Storage.putBit_bits_bitAt]
    simp only [List.length_cons]
    by_cases hj : j = k
    · subst hj
      rw [if_neg (by omega), if_pos rfl, if_pos (by omega)]; simp
    · by_cases h : k + 1 ≤ j ∧ j < k + 1 + vs.length
      · rw [if_pos h, if_pos (by omega)]
        obtain ⟨d, rfl⟩ : ∃ d, j = k + 1 + d := ⟨j - (k + 1), by omega⟩
        rw [show k + 1 + d - (k + 1) = d by omega, show k + 1 + d - k = d + 1 by omega]
        simp
      · rw [if_neg h, if_neg hj, if_neg (by omega)]

theorem Storage.putBits_written_bitAt (st : Storage) (base k j : Nat) (vs : List Bool) :
    (st.putBits base k vs).written.bitAt base j =
      if k ≤ j ∧ j < k + vs.length then true else st.written.bitAt base j := by
  induction vs generalizing st k with
  | nil => rw [if_neg (by simp)]; rfl
  | cons v vs ih =>
    rw [Storage.putBits, ih, Storage.putBit_written_bitAt]
    simp only [List.length_cons]
    by_cases hj : j = k
    · subst hj
      rw [if_neg (by omega), if_pos rfl, if_pos (by omega)]
    · by_cases h : k + 1 ≤ j ∧ j < k + 1 + vs.length
      · rw [if_pos h, if_pos (by omega)]
      · rw [if_neg h, if_neg hj, if_neg (by omega)]

theorem Storage.putBits_get_outside (st : Storage) (base k a : Nat) (vs : List Bool)
    (h : ∀ i < vs.length, a ≠ base + (k + i) / 8) :
    (st.putBits base k vs).bits.get a = st.bits.get a ∧
      (st.putBits base k vs).written.get a = st.written.get a := by
  induction vs generalizing st k with
  | nil => exact ⟨rfl, rfl⟩
  | cons v vs ih =>
    have h0 := h 0 (by simp)
    have := ih (st.putBit base k v) (k + 1) (by
      intro i hi
      have := h (i + 1) (by simpa using hi)
      rwa [show k + (i + 1) = k + 1 + i by omega] at this)
    rw [Storage.putBits, this.1, this.2]
    exact Storage.putBit_get_outside st base k a v (by simpa using h0)

/-- A bit outside the tables: the bit written, or a draw. -/
theorem State.readBit_plain (s : State) (p base k : Nat) (h : treeEnd ≤ base) :
    s.readBit p base k =
      ((s.store.bits.bitAt base k && s.store.written.bitAt base k) ||
        ((Config.freeByte s.draws p (base + k / 8)).getLsbD (7 - k % 8) &&
          !s.store.written.bitAt base k)) := by
  unfold State.readBit
  rw [State.readByte_plain s p _ (inTables_of_ge _ (by omega))]
  simp [Memory.bitAt, show 7 - k % 8 < 8 by omega]

/-- THE LAW OF A WRITE OF BITS: the bits written read back, every other bit of the buffer reads as
before. -/
theorem State.readBit_putBits (s t : State) (p base k j : Nat) (vs : List Bool)
    (hs : t.store = s.store.putBits base k vs) (hd : t.draws = s.draws) (hb : treeEnd ≤ base) :
    t.readBit p base j =
      if k ≤ j ∧ j < k + vs.length then vs.getD (j - k) false else s.readBit p base j := by
  rw [State.readBit_plain t p base j hb, State.readBit_plain s p base j hb, hs, hd,
    Storage.putBits_bits_bitAt, Storage.putBits_written_bitAt]
  split <;> simp

/-- A write of bits leaves every byte that holds none of them. -/
theorem State.readByte_putBits_outside (s t : State) (p base k a : Nat) (vs : List Bool)
    (hs : t.store = s.store.putBits base k vs) (hd : t.draws = s.draws)
    (hv : t.tree.tv = s.tree.tv) (h : ∀ i < vs.length, a ≠ base + (k + i) / 8) :
    t.readByte p a = s.readByte p a := by
  have := Storage.putBits_get_outside s.store base k a vs h
  exact State.readByte_congr s t p a hd hv (by rw [hs, this.1]) (by rw [hs, this.2])

/-! ### The canonical form -/

theorem Storage.wf_iff (st : Storage) : st.wf = true ↔ st.bits.wf = true ∧ st.written.wf = true := by
  simp [Storage.wf]

theorem Storage.put_wf (st : Storage) (lo : Nat) (bs : List Byte) (h : st.wf = true) :
    (st.put lo bs).wf = true := by
  rw [Storage.wf_iff] at *
  exact ⟨Memory.splice_wf _ _ _ h.1, Memory.splice_wf _ _ _ h.2⟩

theorem Storage.putTable_wf (st : Storage) (lo : Nat) (bs : List Byte) (h : st.wf = true) :
    (st.putTable lo bs).wf = true := by
  rw [Storage.wf_iff] at *
  exact ⟨Memory.splice_wf _ _ _ h.1, h.2⟩

theorem Storage.putBit_wf (st : Storage) (base k : Nat) (v : Bool) (h : st.wf = true) :
    (st.putBit base k v).wf = true := by
  rw [Storage.wf_iff] at *
  exact ⟨Memory.splice_wf _ _ _ h.1, Memory.splice_wf _ _ _ h.2⟩

theorem Storage.putBits_wf (st : Storage) (base k : Nat) (vs : List Bool) (h : st.wf = true) :
    (st.putBits base k vs).wf = true := by
  induction vs generalizing st k with
  | nil => exact h
  | cons v vs ih => exact ih _ _ (Storage.putBit_wf _ _ _ _ h)

theorem Storage.putTableBits_wf (st : Storage) (base k : Nat) (vs : List Bool) (h : st.wf = true) :
    (st.putTableBits base k vs).wf = true := by
  induction vs generalizing st k with
  | nil => exact h
  | cons v vs ih => exact ih _ _ (Storage.putTable_wf _ _ _ h)

end Sys2Proof.Machine
end

