-- ==== Sys2Proof/Laws/Engines.lean ====
section
/-! SUPPORT. What each command's effect, each engine's step and each bus access can do, said once: which
parts of the state it touches, and the cases of what it does to them. Proofs cite these and do not unfold
the definitions. -/

namespace Sys2Proof.Machine

variable (s : State)

/-! ### The commands -/

theorem exec_nop : exec .nop s = .next (s.run 0x00 none id) := rfl
theorem exec_freq : exec .freq s = .next (s.run 0x01 s.msgRange State.freqEffect) := rfl
theorem exec_build : exec .build s = .next (s.run 0x02 s.buildCheck State.buildEffect) := rfl
theorem exec_codes : exec .codes s = .next (s.run 0x03 s.codesCheck State.codesEffect) := rfl
theorem exec_encode : exec .encode s = .next (s.run 0x04 s.encodeCheck State.encodeEffect) := rfl
theorem exec_decode : exec .decode s = .next (s.run 0x05 s.decodeCheck State.decodeEffect) := rfl
theorem exec_addck : exec .addck s = .next (s.run 0x06 s.addckCheck State.addckEffect) := rfl
theorem exec_validate : exec .validate s = .next (s.run 0x07 s.fbufRange State.validateEffect) := rfl
theorem exec_parse : exec .parse s = .next (s.run 0x08 s.fbufRange State.parseEffect) := rfl
theorem exec_classify (p : BitVec 1) :
    exec (.classify p) s = .next (s.run 0x09 none (State.classifyEffect p)) := rfl
theorem exec_txStart : exec .txStart s = .next (s.run 0x10 s.txStartCheck State.txStartEffect) := rfl
theorem exec_txStop : exec .txStop s = .next (s.run 0x11 none State.txStopEffect) := rfl
theorem exec_rxStart : exec .rxStart s = .next (s.run 0x12 s.rxBusy State.rxStartEffect) := rfl
theorem exec_rxStop : exec .rxStop s = .next (s.run 0x13 none State.rxStopEffect) := rfl
theorem exec_sreset : exec .sreset s = .next s.performReset := rfl

/-- A property that survives the recording of a completion, with or without an error, and a command's
effect where its checks pass, survives the command. -/
theorem State.run_induct (P : State → Prop) (op : BitVec 8) (check : Option (CmdError × Word))
    (f : State → State)
    (hrec : ∀ (t : State) (c : CmdRegs) (q : IrqRegs), c.pending = none → P t →
      P { t with cmd := c, irq := q })
    (hs : P s) (hf : check = none → P (f s)) : P (s.run op check f) := by
  rcases s.run_cases op check f with ⟨hc, h⟩ | ⟨e, _, h⟩
  · rw [h]; exact hrec (f s) _ _ rfl (hf hc)
  · rw [h]
    have key : ∃ q, s.fail op e.1 e.2 =
        { s with cmd := { pending := none, err := e.1, lastOp := op, errInfo := e.2 }, irq := q } := by
      unfold State.fail; dsimp only; split <;> exact ⟨_, rfl⟩
    obtain ⟨q, hq⟩ := key
    rw [hq]; exact hrec s _ _ rfl hs

/-! ### The checks: what a command's success says of the state it ran in -/

theorem State.txBusy_none : s.txBusy = none ↔ s.tx.phase = .idle := by
  unfold State.txBusy; by_cases h : s.tx.phase = .idle <;> simp [h]

theorem State.rxBusy_none : s.rxBusy = none ↔ s.rx.phase = .idle := by
  unfold State.rxBusy; by_cases h : s.rx.phase = .idle <;> simp [h]

theorem State.msgRange_none : s.msgRange = none ↔ s.codec.msgLen.toNat ≤ s.params.msgMax := by
  unfold State.msgRange; split <;> simp_all

theorem State.fbufRange_none : s.fbufRange = none ↔ s.codec.fbufLen.toNat ≤ s.params.bitsMax := by
  unfold State.fbufRange; split <;> simp_all

theorem orElse_eq_none {α : Type} (x : Option α) (f : Unit → Option α) :
    x.orElse f = none ↔ x = none ∧ f () = none := by
  cases x <;> simp [Option.orElse]

theorem State.buildCheck_none :
    s.buildCheck = none ↔
      s.rx.phase = .idle ∧ s.freqTable.sum < 2 ^ 32 ∧ ∃ w ∈ s.freqTable, w ≠ 0 := by
  unfold State.buildCheck
  rw [orElse_eq_none, State.rxBusy_none]
  refine and_congr_right fun _ => ?_
  split
  · next h => exact iff_of_false (by simp) (fun h' => by omega)
  · next h =>
    split
    · next h2 =>
      refine iff_of_false (by simp) ?_
      rintro ⟨_, w, hw, hz⟩
      rw [List.all_eq_true] at h2
      have := h2 w hw
      simp at this
      exact hz this
    · next h2 =>
      refine iff_of_true rfl ⟨by omega, ?_⟩
      by_contra hc
      apply h2
      rw [List.all_eq_true]
      intro w hw
      by_contra hz
      exact hc ⟨w, hw, by simpa using hz⟩

theorem State.codesCheck_none : s.codesCheck = none ↔ s.tree.tv = true := by
  unfold State.codesCheck; split <;> simp_all

theorem State.encodeCheck_none :
    s.encodeCheck = none ↔
      s.tx.phase = .idle ∧ s.codec.msgLen.toNat ≤ s.params.msgMax ∧
        (∀ sym ∈ s.message s.codec.msgLen.toNat, s.absent sym = false) ∧
        s.encodedLen (s.message s.codec.msgLen.toNat) ≤ s.params.bitsMax := by
  unfold State.encodeCheck
  rw [orElse_eq_none, orElse_eq_none, State.txBusy_none, State.msgRange_none]
  refine and_congr_right fun _ => and_congr_right fun _ => ?_
  dsimp only
  cases h : (s.message s.codec.msgLen.toNat).findIdx? s.absent with
  | some i =>
    refine iff_of_false (by simp) ?_
    rintro ⟨hall, _⟩
    have : (s.message s.codec.msgLen.toNat).findIdx? s.absent = none :=
      List.findIdx?_eq_none_iff.2 hall
    rw [h] at this; cases this
  | none =>
    have hall := List.findIdx?_eq_none_iff.1 h
    dsimp only
    split
    · next hT => exact iff_of_false (by simp) (fun h' => by omega)
    · next hT => exact iff_of_true rfl ⟨hall, by omega⟩

theorem State.decodeCheck_none :
    s.decodeCheck = none ↔
      s.codec.fbufLen.toNat ≤ s.params.bitsMax ∧ s.tree.tv = true ∧
        s.decodeFbuf.1.length ≤ s.params.msgMax := by
  unfold State.decodeCheck
  rw [orElse_eq_none, State.fbufRange_none]
  refine and_congr_right fun _ => ?_
  cases s.tree.tv
  · simp
  · simp only [Bool.not_true, Bool.false_eq_true, if_false, true_and]
    split
    · next h => exact iff_of_false (by simp) (fun h' => by omega)
    · next h => exact iff_of_true rfl (by omega)

theorem State.addckCheck_none :
    s.addckCheck = none ↔
      s.tx.phase = .idle ∧ s.codec.fbufLen.toNat ≤ s.params.bitsMax ∧
        ceil8 s.codec.fbufLen.toNat + 32 ≤ s.params.bitsMax := by
  unfold State.addckCheck
  rw [orElse_eq_none, orElse_eq_none, State.txBusy_none, State.fbufRange_none]
  refine and_congr_right fun _ => and_congr_right fun _ => ?_
  dsimp only
  split
  · next h => exact iff_of_false (by simp) (fun h' => by omega)
  · next h => exact iff_of_true rfl (by omega)

theorem State.txStartCheck_none :
    s.txStartCheck = none ↔
      s.tx.phase = .idle ∧ s.codec.fbufLen.toNat ≤ s.params.bitsMax := by
  unfold State.txStartCheck
  rw [orElse_eq_none, State.txBusy_none, State.fbufRange_none]

/-! ### The tick -/

/-- The TX engine's tick touches its own registers and IRQ_STATUS. -/
theorem State.txTick_frame : s.txTick = { s with irq := s.txTick.irq, tx := s.txTick.tx } := by
  unfold State.txTick
  split
  · rfl
  · dsimp only
    split
    · unfold State.txNext
      dsimp only
      split <;> (try split) <;> (try rfl)
      unfold State.txFrameDone
      dsimp only
      split <;> rfl
    · rfl

/-- Everything the TX engine's tick can do to IRQ_STATUS: set TX_FRAME, at the end of TERM. -/
theorem State.txTick_irq :
    s.txTick.irq = s.irq ∨
      (s.tx.phase = .term ∧
        s.txTick.irq = { s.irq with status := s.irq.status ||| 0x08 }) := by
  unfold State.txTick
  split
  · exact .inl rfl
  · dsimp only
    split
    · unfold State.txNext
      dsimp only
      split <;> (try split) <;> (try exact .inl rfl)
      next h =>
        refine .inr ⟨h, ?_⟩
        unfold State.txFrameDone
        dsimp only
        split <;> rfl
    · exact .inl rfl

/-- A data bit touches RBUF, RBUF_LEN and OVF. -/
theorem State.rxAppend_frame (b : Bool) :
    s.rxAppend b = { s with rx := (s.rxAppend b).rx, store := (s.rxAppend b).store } := by
  unfold State.rxAppend; split <;> rfl

/-- Everything a pulse can do to the storage: nothing, or one bit of RBUF, within its capacity. -/
theorem State.rxPulse_store (d : Word) :
    (s.rxPulse d).store = s.store ∨
      (s.rx.rbufLen.toNat < s.params.bitsMax ∧
        ∃ b, (s.rxPulse d).store = s.store.putBit rbufBase s.rx.rbufLen.toNat b) := by
  unfold State.rxPulse
  split
  · split <;> exact .inl rfl
  · split <;> (try exact .inl rfl) <;> (unfold State.rxAppend; split)
    · next h => exact .inr ⟨h, _, rfl⟩
    · exact .inl rfl
    · next h => exact .inr ⟨h, _, rfl⟩
    · exact .inl rfl

/-- A pulse touches the RX engine's registers and RBUF. -/
theorem State.rxPulse_frame (d : Word) :
    s.rxPulse d = { s with rx := (s.rxPulse d).rx, store := (s.rxPulse d).store } := by
  unfold State.rxPulse
  split
  · split <;> rfl
  · split <;> (try rfl) <;> (unfold State.rxAppend; split <;> rfl)

/-- The RX engine's tick touches its own registers and RBUF. -/
theorem State.rxTick_frame (b : Bool) :
    s.rxTick b = { s with rx := (s.rxTick b).rx, store := (s.rxTick b).store } := by
  unfold State.rxTick
  dsimp only
  split <;> (try rfl)
  · unfold State.rxDelayTick; dsimp only; split <;> rfl
  all_goals
    unfold State.rxDetect
    dsimp only
    split
    · split <;> rfl
    · split <;> rfl
    · split
      · split <;> rfl
      · rw [State.rxPulse_frame]

/-- In IDLE and PARSE a tick records the level and does nothing else (42_pulse.md R125). -/
theorem State.rxTick_still (x : Bool) (h : s.rx.phase = .idle ∨ s.rx.phase = .parse) :
    s.rxTick x = { s with rx := { s.rx with level := x } } := by
  unfold State.rxTick; rcases h with h | h <;> rw [h]

/-- In AWAIT and RECV a tick records the level and moves the edge detector. -/
theorem State.rxTick_detect (x : Bool) (h : s.rx.phase = .await ∨ s.rx.phase = .recv) :
    s.rxTick x = State.rxDetect { s with rx := { s.rx with level := x } } x := by
  unfold State.rxTick; rcases h with h | h <;> rw [h]

/-- In NEEDLOW only a low sample moves the detector. -/
theorem State.rxDetect_needLow (x : Bool) (h : s.rx.det = .needLow) :
    s.rxDetect x = if x then s else { s with rx := { s.rx with det := .low } } := by
  unfold State.rxDetect; rw [h]

/-- In LOW a high sample begins a run. -/
theorem State.rxDetect_low (x : Bool) (h : s.rx.det = .low) :
    s.rxDetect x = if x then { s with rx := { s.rx with det := .high, hcnt := 1 } } else s := by
  unfold State.rxDetect; rw [h]

/-- In HIGH a high sample lengthens the run, up to 2^32 - 1. -/
theorem State.rxDetect_high_true (h : s.rx.det = .high) :
    s.rxDetect true =
      { s with
        rx := { s.rx with hcnt := BitVec.ofNat 32 (min (s.rx.hcnt.toNat + 1) (2 ^ 32 - 1)) } } := by
  unfold State.rxDetect
  rw [h]; dsimp only
  have hlt := s.rx.hcnt.isLt
  by_cases hh : s.rx.hcnt = BitVec.allOnes 32
  · have h1 : BitVec.ofNat 32 (min (s.rx.hcnt.toNat + 1) (2 ^ 32 - 1)) = s.rx.hcnt := by
      rw [hh]; rfl
    rw [if_pos rfl, if_pos hh, h1]
  · have h2 : s.rx.hcnt.toNat ≠ 2 ^ 32 - 1 := fun h =>
      hh (BitVec.eq_of_toNat_eq (by simpa using h))
    have h1 : BitVec.ofNat 32 (min (s.rx.hcnt.toNat + 1) (2 ^ 32 - 1)) = s.rx.hcnt + 1 := by
      refine BitVec.eq_of_toNat_eq ?_
      rw [Nat.min_eq_left (by omega)]; simp [BitVec.toNat_add]
    rw [if_pos rfl, if_neg hh, h1]

/-- In HIGH a low sample ends the run, as a pulse. -/
theorem State.rxDetect_high_false (h : s.rx.det = .high) :
    s.rxDetect false = { s with rx := { s.rx with det := .low, hcnt := 0 } }.rxPulse s.rx.hcnt := by
  unfold State.rxDetect; rw [h]; rfl

/-- Everything the RX engine's tick can do to the storage. -/
theorem State.rxTick_store (b : Bool) :
    (s.rxTick b).store = s.store ∨
      (s.rx.rbufLen.toNat < s.params.bitsMax ∧
        ∃ v, (s.rxTick b).store = s.store.putBit rbufBase s.rx.rbufLen.toNat v) := by
  unfold State.rxTick
  dsimp only
  split <;> (try exact .inl rfl)
  · unfold State.rxDelayTick; dsimp only; split <;> exact .inl rfl
  all_goals
    unfold State.rxDetect
    dsimp only
    split
    · split <;> exact .inl rfl
    · split <;> exact .inl rfl
    · split
      · split <;> exact .inl rfl
      · exact State.rxPulse_store _ _

/-- A tick is TIME's count, the TX engine's tick and the RX engine's, which share nothing but the level in
loopback. -/
theorem State.tickStep_eq (x : Bool) :
    s.tickStep x =
      { s with
        clock := { s.clock with time := s.clock.time + 1 }
        irq := s.txTick.irq
        tx := s.txTick.tx
        rx := (s.rxTick (if s.cfg.loop then s.lineOut else x)).rx
        store := (s.rxTick (if s.cfg.loop then s.lineOut else x)).store } := by
  have clk : ∀ c, State.txTick { s with clock := c } = { s.txTick with clock := c } := by
    intro c
    unfold State.txTick
    dsimp only
    split
    · rfl
    · split
      · unfold State.txNext
        dsimp only
        split <;> (try split) <;> (try rfl)
        unfold State.txFrameDone
        dsimp only
        split <;> rfl
      · rfl
  have other : ∀ (u : State) (c : ClockRegs) (q : IrqRegs) (x' : TxRegs) (b : Bool),
      State.rxTick { u with clock := c, irq := q, tx := x' } b =
        { u.rxTick b with clock := c, irq := q, tx := x' } := by
    intro u c q x' b
    unfold State.rxTick
    dsimp only
    split <;> (try rfl)
    · unfold State.rxDelayTick; dsimp only; split <;> rfl
    all_goals
      unfold State.rxDetect
      dsimp only
      split
      · split <;> rfl
      · split <;> rfl
      · split
        · split <;> rfl
        · unfold State.rxPulse
          dsimp only
          split
          · split <;> rfl
          · split <;> (try rfl) <;> (unfold State.rxAppend; dsimp only; split <;> rfl)
  unfold State.tickStep
  dsimp only
  rw [clk, State.txTick_frame s]
  have := other s { s.clock with time := s.clock.time + 1 } s.txTick.irq s.txTick.tx
    (if s.cfg.loop then s.lineOut else x)
  dsimp only
  rw [this, State.rxTick_frame s]

/-! ### The RX frame parser -/

/-- The parser's step touches the RX engine's registers, its results, RMSG and IRQ_STATUS. -/
theorem State.parseStep_frame :
    s.parseStep =
      { s with
        irq := s.parseStep.irq, rx := s.parseStep.rx, rxOut := s.parseStep.rxOut
        store := s.parseStep.store } := by
  unfold State.parseStep
  split
  · unfold State.rxRearm State.rxReport
    dsimp only
    split <;> split <;> split <;> (try split) <;> rfl
  · rfl

/-- Only a GOOD frame delivers a message (41_frame.md R108), and it fits its buffer. -/
theorem State.frameParse_out (bit : Nat → Nat → Bool) (L : Nat) (ovf : Bool) :
    (s.frameParse bit L ovf).out.length ≤ s.params.msgMax ∧
      ((s.frameParse bit L ovf).verdict.result ≠ .good →
        (s.frameParse bit L ovf).out = [] ∧ (s.frameParse bit L ovf).trail = 0) := by
  unfold State.frameParse
  dsimp only
  split
  · exact ⟨Nat.zero_le _, fun _ => ⟨rfl, rfl⟩⟩
  · split
    · exact ⟨Nat.zero_le _, fun _ => ⟨rfl, rfl⟩⟩
    · split
      · exact ⟨Nat.zero_le _, fun _ => ⟨rfl, rfl⟩⟩
      · split
        · exact ⟨Nat.zero_le _, fun _ => ⟨rfl, rfl⟩⟩
        · next h1 _ h2 => exact ⟨Nat.not_lt.1 h2, fun h => absurd (not_not.1 h1) h⟩

/-- A verdict's fidelity is at most 1.0 (41_frame.md R105). -/
theorem fidQ16_le (sum ck : Nat) : (fidQ16 sum ck).toNat ≤ 0x10000 := by
  unfold fidQ16
  split
  · decide
  · next h =>
    rw [BitVec.toNat_ofNat]
    refine (Nat.mod_le _ _).trans ?_
    refine Nat.div_le_of_le_mul ?_
    rw [Nat.mul_comm (max sum ck)]
    rw [Nat.mul_comm (min sum ck)]
    exact Nat.mul_le_mul_left _ (min_le_max)

theorem validate_fid_le (acc : AccRegs) (bit : Nat → Bool) (L : Nat) :
    (validate acc bit L).fid.toNat ≤ 0x10000 := by
  unfold validate
  split
  · decide
  · exact fidQ16_le _ _

theorem validate_result (acc : AccRegs) (bit : Nat → Bool) (L : Nat) :
    (validate acc bit L).result = .good ∨ (validate acc bit L).result = .short ∨
      (validate acc bit L).result = .corrupt := by
  unfold validate
  split
  · exact .inr (.inl rfl)
  · dsimp only; split
    · exact .inl rfl
    · exact .inr (.inr rfl)

theorem State.frameParse_fid_le (bit : Nat → Nat → Bool) (L : Nat) (ovf : Bool) :
    (s.frameParse bit L ovf).verdict.fid.toNat ≤ 0x10000 := by
  unfold State.frameParse
  dsimp only
  split
  · decide
  · split
    · exact validate_fid_le _ _ _
    · split
      · exact validate_fid_le _ _ _
      · split <;> exact validate_fid_le _ _ _

/-- RXOVF is a result of a frame that lost bits only (41_frame.md R108). -/
theorem State.frameParse_result_ne_rxovf (bit : Nat → Nat → Bool) (L : Nat) :
    (s.frameParse bit L false).verdict.result ≠ .rxovf := by
  unfold State.frameParse
  dsimp only
  have := validate_result s.acc (bit 0) L
  split
  · next h => cases h
  · split
    · rcases this with h | h | h <;> simp [h]
    · split
      · simp
      · split
        · simp
        · rcases this with h | h | h <;> simp [h]

end Sys2Proof.Machine
end

