-- ==== Sys2Proof/Laws/Bus.lean ====
section
/-! SUPPORT. The laws of the bus: where an offset lies, everything an access can do, and everything one step
of the machine can do. -/

namespace Sys2Proof.Machine

/-! ### The address map -/

theorem mem_of_lookup {α : Type} (l : List (Nat × α)) (a : Nat) (e : α) (h : l.lookup a = some e) :
    (a, e) ∈ l := by
  induction l with
  | nil => cases h
  | cons c l ih =>
    obtain ⟨k, v⟩ := c
    rw [List.lookup_cons] at h
    by_cases hk : a = k
    · subst hk; simp at h; subst h; simp
    · have : (a == k) = false := by simpa using hk
      rw [this] at h
      exact List.mem_cons_of_mem _ (ih h)

/-- Every region of the map, with its offsets (20_memory.md R59). -/
theorem locate_eq_some (p : Params) (a : Nat) (r : Region) (h : locate p a = some r) :
    (∃ c k, r = .csr c k ∧ a < 0x1000 ∧ (a, c, k) ∈ csrTable) ∨
      (r = .freq ∧ 0x1000 ≤ a ∧ a < 0x1400) ∨ (r = .codeLen ∧ 0x1400 ≤ a ∧ a < 0x1800) ∨
      (r = .codeBits ∧ 0x2000 ≤ a ∧ a < 0x4000) ∨ (r = .tree ∧ 0x4000 ≤ a ∧ a < 0x5000) ∨
      (r = .msg ∧ 0x10000 ≤ a ∧ a < 0x20000 ∧ a < 0x10000 + p.msgMax) ∨
      (r = .dmsg ∧ 0x20000 ≤ a ∧ a < 0x30000 ∧ a < 0x20000 + p.msgMax) ∨
      (r = .rmsg ∧ 0x30000 ≤ a ∧ a < 0x40000 ∧ a < 0x30000 + p.msgMax) ∨
      (r = .fbuf ∧ 0x40000 ≤ a ∧ a < 0x50000 ∧ a < 0x40000 + p.bitsMax / 8) ∨
      (r = .rbuf ∧ 0x50000 ≤ a ∧ a < 0x60000 ∧ a < 0x50000 + p.bitsMax / 8) := by
  unfold locate at h
  unfold freqBase codeLenBase codeLenEnd codeBitsBase treeBase treeEnd msgBase dmsgBase rmsgBase
    fbufBase rbufBase at h
  by_cases hlt : a < 0x01000
  · rw [if_pos hlt] at h
    obtain ⟨e, he, hr⟩ := Option.map_eq_some_iff.1 h
    exact .inl ⟨e.1, e.2, hr.symm, hlt, mem_of_lookup _ _ _ he⟩
  · rw [if_neg hlt] at h
    right
    have none_some : ∀ q : Prop, (none : Option Region) = some r → q := fun _ h => by cases h
    by_cases h1 : a < 0x01400
    · rw [if_pos h1] at h; exact .inl ⟨(Option.some.inj h).symm, by omega, h1⟩
    rw [if_neg h1] at h; right
    by_cases h2 : a < 0x01800
    · rw [if_pos h2] at h; exact .inl ⟨(Option.some.inj h).symm, by omega, h2⟩
    rw [if_neg h2] at h; right
    by_cases h3 : a < 0x02000
    · rw [if_pos h3] at h; exact none_some _ h
    rw [if_neg h3] at h
    by_cases h4 : a < 0x04000
    · rw [if_pos h4] at h; exact .inl ⟨(Option.some.inj h).symm, by omega, h4⟩
    rw [if_neg h4] at h; right
    by_cases h5 : a < 0x05000
    · rw [if_pos h5] at h; exact .inl ⟨(Option.some.inj h).symm, by omega, h5⟩
    rw [if_neg h5] at h; right
    by_cases h6 : a < 0x10000
    · rw [if_pos h6] at h; exact none_some _ h
    rw [if_neg h6] at h
    by_cases h7 : a < 0x20000
    · rw [if_pos h7] at h
      by_cases g : a - 0x10000 < p.msgMax
      · rw [if_pos g] at h; exact .inl ⟨(Option.some.inj h).symm, by omega, h7, by omega⟩
      · rw [if_neg g] at h; exact none_some _ h
    rw [if_neg h7] at h; right
    by_cases h8 : a < 0x30000
    · rw [if_pos h8] at h
      by_cases g : a - 0x20000 < p.msgMax
      · rw [if_pos g] at h; exact .inl ⟨(Option.some.inj h).symm, by omega, h8, by omega⟩
      · rw [if_neg g] at h; exact none_some _ h
    rw [if_neg h8] at h; right
    by_cases h9 : a < 0x40000
    · rw [if_pos h9] at h
      by_cases g : a - 0x30000 < p.msgMax
      · rw [if_pos g] at h; exact .inl ⟨(Option.some.inj h).symm, by omega, h9, by omega⟩
      · rw [if_neg g] at h; exact none_some _ h
    rw [if_neg h9] at h; right
    by_cases h10 : a < 0x50000
    · rw [if_pos h10] at h
      by_cases g : a - 0x40000 < p.bitsMax / 8
      · rw [if_pos g] at h; exact .inl ⟨(Option.some.inj h).symm, by omega, h10, by omega⟩
      · rw [if_neg g] at h; exact none_some _ h
    rw [if_neg h10] at h; right
    by_cases h11 : a < 0x60000
    · rw [if_pos h11] at h
      by_cases g : a - 0x50000 < p.bitsMax / 8
      · rw [if_pos g] at h; exact ⟨(Option.some.inj h).symm, by omega, h11, by omega⟩
      · rw [if_neg g] at h; exact none_some _ h
    · rw [if_neg h11] at h; exact none_some _ h

/-- A register has one offset: only CMD is at 0. -/
theorem csrTable_cmd : ∀ e ∈ csrTable, (e.2.1 = Csr.cmd ↔ e.1 = 0) := by decide +kernel

theorem locate_zero (p : Params) : locate p 0 = some (.csr .cmd .wo) := by rfl

/-- Every access that is not refused is to an aligned, whole word (20_memory.md R60). -/
theorem reach_eq_some (p : Params) (addr : BitVec 20) (strb : BitVec 4) (r : Region) :
    reach p addr strb = some r ↔
      addr.toNat % 4 = 0 ∧ strb = 0b1111 ∧ locate p addr.toNat = some r := by
  unfold reach
  split
  · next h => simp [h.1, h.2]
  · next h => exact iff_of_false (by simp) (fun h' => h ⟨h'.1, h'.2.1⟩)

/-! ### Reads -/

/-- Everything a read can do: answer, latch TIME_SHADOW, or be refused. -/
theorem State.busRead_frame (s : State) (addr : BitVec 20) (strb : BitVec 4) :
    ∃ b sh, s.busRead addr strb = { s with bus := b, clock := { s.clock with shadow := sh } } ∨
      s.busRead addr strb = s.refuse 0 := by
  unfold State.busRead
  split
  · exact ⟨s.bus, s.clock.shadow, .inr rfl⟩
  · dsimp only
    split
    · exact ⟨_, _, .inl rfl⟩
    · exact ⟨_, s.clock.shadow, .inl rfl⟩

/-! ### Writes -/

/-- A register write touches the configuration, the two host-written lengths and the interrupt bits, no
more. -/
theorem Csr.write_frame (s : State) (v : Word) (c : Csr) :
    c.write s v =
      { s with
        cfg := (c.write s v).cfg, codec := (c.write s v).codec, cls := (c.write s v).cls
        irq := (c.write s v).irq, txTiming := (c.write s v).txTiming
        rxDelay := (c.write s v).rxDelay, bands := (c.write s v).bands
        acc := (c.write s v).acc } := by
  cases c <;> rfl

/-- Everything a write can do: be refused; reset; issue a command; write a register; or store a word in
FREQ, MSG or FBUF. -/
theorem State.busWrite_cases (s : State) (addr : BitVec 20) (strb : BitVec 4) (v : Word) :
    s.busWrite addr strb v = .next (s.refuse s.bus.prdata) ∨
      (addr = 0 ∧ strb = 0b1111 ∧ v = 0x0000001F ∧ s.busWrite addr strb v = .next s.performReset) ∨
      (addr = 0 ∧ strb = 0b1111 ∧ v ≠ 0x0000001F ∧
        s.busWrite addr strb v =
          .next (State.acceptCmd { s with bus := { s.bus with pslverr := false } } v)) ∨
      (∃ c k, strb = 0b1111 ∧ (addr.toNat, c, k) ∈ csrTable ∧ c ≠ .cmd ∧
        (s.cmdBusy = true → c = .irqStatus ∨ c = .irqEn) ∧
        s.busWrite addr strb v =
          .next (c.write { s with bus := { s.bus with pslverr := false } } v)) ∨
      (∃ r, (r = .freq ∨ r = .msg ∨ r = .fbuf ∧ s.tx.phase = .idle) ∧ s.cmdBusy = false ∧
        locate s.params addr.toNat = some r ∧ addr.toNat % 4 = 0 ∧ strb = 0b1111 ∧
        s.busWrite addr strb v =
          .next
            { s with
              bus := { s.bus with pslverr := false }
              store := s.store.put addr.toNat (Word.bytes v) }) := by
  unfold State.busWrite
  split
  · exact .inl rfl
  · next r hr =>
    obtain ⟨ha, hs, hl⟩ := (reach_eq_some _ _ _ _).1 hr
    split
    · exact .inl rfl
    · next hw =>
      right
      dsimp only
      simp only [State.refusesWrite, Bool.or_eq_true, Bool.and_eq_true, Bool.not_eq_true',
        not_or, not_and, Bool.not_eq_false] at hw
      rcases locate_eq_some _ _ _ hl with ⟨c, k, rfl, hlt, hm⟩ | h
      · by_cases hc : c = .cmd
        · subst hc
          have h0 : addr.toNat = 0 := (csrTable_cmd _ hm).1 rfl
          have h0' : addr = 0 := BitVec.eq_of_toNat_eq (by simpa using h0)
          dsimp only
          split
          · next hv => exact .inl ⟨h0', hs, hv, rfl⟩
          · next hv => exact .inr (.inl ⟨h0', hs, hv, rfl⟩)
        · right; right; left
          refine ⟨c, k, hs, hm, hc, fun hb => ?_, ?_⟩
          · have := hw.1.2 hb
            simp only [Region.writableBusy, Bool.or_eq_true, beq_iff_eq] at this
            rcases this with (h | h) | h
            · exact absurd h hc
            · exact .inl h
            · exact .inr h
          · cases c <;> first | exact absurd rfl hc | rfl
      · right; right; right
        have hbusy : s.cmdBusy = false := by
          cases hb : s.cmdBusy with
          | false => rfl
          | true =>
            have := hw.1.2 hb
            rcases h with ⟨rfl, _⟩ | ⟨rfl, _⟩ | ⟨rfl, _⟩ | ⟨rfl, _⟩ | ⟨rfl, _⟩ | ⟨rfl, _⟩ | ⟨rfl, _⟩ | ⟨rfl, _⟩ | ⟨rfl, _⟩ <;>
              simp [Region.writableBusy] at this
        refine ⟨r, ?_, hbusy, hl, ha, hs, ?_⟩
        · rcases h with ⟨rfl, _⟩ | ⟨rfl, _⟩ | ⟨rfl, _⟩ | ⟨rfl, _⟩ | ⟨rfl, _⟩ | ⟨rfl, _⟩ | ⟨rfl, _⟩ | ⟨rfl, _⟩ | ⟨rfl, _⟩ <;>
            simp_all [Region.writable]
        · rcases h with ⟨rfl, _⟩ | ⟨rfl, _⟩ | ⟨rfl, _⟩ | ⟨rfl, _⟩ | ⟨rfl, _⟩ | ⟨rfl, _⟩ | ⟨rfl, _⟩ | ⟨rfl, _⟩ | ⟨rfl, _⟩ <;> rfl

/-! ### One step -/

/-- Everything a completion can do: nothing with no command pending, the command's meaning, or ILLEGAL. -/
theorem State.completeStep_cases (s : State) :
    (s.cmd.pending = none ∧ s.completeStep = .next s) ∨
      (∃ w i, s.cmd.pending = some w ∧ decode w = .ok i ∧ s.completeStep = exec i s) ∨
      ∃ w e, s.cmd.pending = some w ∧ decode w = .error e ∧
        s.completeStep = .next (s.fail (w.extractLsb' 0 8) .illegal w) := by
  unfold State.completeStep
  cases hp : s.cmd.pending with
  | none => exact .inl ⟨rfl, rfl⟩
  | some w =>
    right
    cases hd : decode w with
    | ok i => exact .inl ⟨w, i, rfl, hd, by dsimp only; rw [hd]⟩
    | error e => exact .inr ⟨w, e, rfl, hd, by dsimp only; rw [hd]⟩

/-- THE LAW OF A STEP: a property that every agent's turn keeps is kept by the machine's step. -/
theorem step_induct (P : State → Prop) (s t : State) (h : step s = .next t) (hs : P s.advance)
    (hbus : ∀ (u : State) (b : BusPort) (sh : Word), P u →
      P { u with bus := b, clock := { u.clock with shadow := sh } })
    (hrefuse : ∀ (u : State) (w : Word), P u → P (u.refuse w))
    (hreset : ∀ u : State, P u → P u.performReset)
    (haccept : ∀ (u : State) (v : Word), v ≠ 0x0000001F → P u → P (u.acceptCmd v))
    (hcsr : ∀ (u : State) (c : Csr) (v : Word), P u → P (c.write u v))
    (hstore : ∀ (u : State) (a : Nat) (v : Word) (r : Region),
      r = .freq ∨ r = .msg ∨ r = .fbuf ∧ u.tx.phase = .idle → locate u.params a = some r →
      a % 4 = 0 → P u → P { u with store := u.store.put a (Word.bytes v) })
    (hexec : ∀ (u v : State) (w : Word) (i : Instr), u.cmd.pending = some w → decode w = .ok i → P u →
      exec i u = .next v → P v)
    (hillegal : ∀ (u : State) (op : BitVec 8) (w : Word), P u → P (u.fail op .illegal w))
    (htick : ∀ (u : State) (x : Bool), P u → P (u.tickStep x))
    (hparse : ∀ u : State, P u → P u.parseStep) : P t := by
  have hb : ∀ (u : State) (b : BusPort), P u → P { u with bus := b } := fun u b hu =>
    hbus u b u.clock.shadow hu
  unfold step at h
  cases hturn : s.turn with
  | hostRead addr strb =>
    rw [hturn] at h
    have ht : s.advance.busRead addr strb = t := Host.Outcome.next.inj h
    obtain ⟨b, sh, h1 | h1⟩ := s.advance.busRead_frame addr strb
    · rw [← ht, h1]; exact hbus _ _ _ hs
    · rw [← ht, h1]; exact hrefuse _ _ hs
  | hostWrite addr strb v =>
    rw [hturn] at h
    have ht : s.advance.busWrite addr strb v = .next t := h
    rcases s.advance.busWrite_cases addr strb v with h1 | ⟨_, _, _, h1⟩ | ⟨_, _, hv, h1⟩ |
        ⟨c, k, _, _, _, _, h1⟩ | ⟨r, hr, _, hl, ha, _, h1⟩ <;>
      (rw [h1] at ht; rw [← Host.Outcome.next.inj ht])
    · exact hrefuse _ _ hs
    · exact hreset _ hs
    · exact haccept _ _ hv (hb _ _ hs)
    · exact hcsr _ _ _ (hb _ _ hs)
    · exact hb _ _ (hstore _ _ v r hr hl ha hs)
  | complete =>
    rw [hturn] at h
    have ht : s.advance.completeStep = .next t := h
    rcases s.advance.completeStep_cases with ⟨_, h1⟩ | ⟨w, i, hp, hd, h1⟩ | ⟨w, e, _, _, h1⟩
    · rw [h1] at ht; rw [← Host.Outcome.next.inj ht]; exact hs
    · rw [h1] at ht; exact hexec _ _ w i hp hd hs ht
    · rw [h1] at ht; rw [← Host.Outcome.next.inj ht]; exact hillegal _ _ _ hs
  | tick x => rw [hturn] at h; rw [← Host.Outcome.next.inj h]; exact htick _ _ hs
  | parseFrame => rw [hturn] at h; rw [← Host.Outcome.next.inj h]; exact hparse _ hs
  | reset => rw [hturn] at h; rw [← Host.Outcome.next.inj h]; exact hreset _ hs

end Sys2Proof.Machine
end

