-- ==== Sys2Proof/Laws/Codec.lean ====
section
/-! SUPPORT. The laws of the codec's functions and of the tables: lengths and bounds, how a decode and a
search for the least node behave, and what a write of a table reads back as. -/

namespace Sys2Proof.Machine

/-! ### The parameters and the windows -/

/-- What legal capacities (00_scope.md R8, R9) give. -/
theorem Params.legal_bounds {p : Params} (h : p.legal = true) :
    p.msgMax % 4 = 0 ∧ 4 ≤ p.msgMax ∧ p.msgMax ≤ 65536 ∧ p.bitsMax % 32 = 0 ∧ 64 ≤ p.bitsMax ∧
      p.bitsMax ≤ 524288 := by
  simp [Params.legal, Params.bitsMaxLegal, Params.msgMaxLegal] at h; omega

/-- The offsets of the storage (20_memory.md R59). -/
theorem isStorage_of (p : Params) (a : Nat)
    (h : (0x1000 ≤ a ∧ a < 0x1800) ∨ (0x2000 ≤ a ∧ a < 0x5000) ∨
      (0x10000 ≤ a ∧ a < 0x20000 ∧ a < 0x10000 + p.msgMax) ∨
      (0x20000 ≤ a ∧ a < 0x30000 ∧ a < 0x20000 + p.msgMax) ∨
      (0x30000 ≤ a ∧ a < 0x40000 ∧ a < 0x30000 + p.msgMax) ∨
      (0x40000 ≤ a ∧ a < 0x50000 ∧ a < 0x40000 + p.bitsMax / 8) ∨
      (0x50000 ≤ a ∧ a < 0x60000 ∧ a < 0x50000 + p.bitsMax / 8)) : isStorage p a = true := by
  unfold isStorage locate
  unfold freqBase codeLenBase codeLenEnd codeBitsBase treeBase treeEnd msgBase dmsgBase rmsgBase
    fbufBase rbufBase
  rcases h with h | h | h | h | h | h | h
  · rw [if_neg (by omega)]
    by_cases g : a < 0x1400
    · rw [if_pos g]
    · rw [if_neg g, if_pos h.2]
  · rw [if_neg (by omega), if_neg (by omega), if_neg (by omega), if_neg (by omega)]
    by_cases g : a < 0x4000
    · rw [if_pos g]
    · rw [if_neg g, if_pos h.2]
  · repeat rw [if_neg (by omega)]
    rw [if_pos (by omega), if_pos (by omega)]
  · repeat rw [if_neg (by omega)]
    rw [if_pos (by omega), if_pos (by omega)]
  · repeat rw [if_neg (by omega)]
    rw [if_pos (by omega), if_pos (by omega)]
  · repeat rw [if_neg (by omega)]
    rw [if_pos (by omega), if_pos (by omega)]
  · repeat rw [if_neg (by omega)]
    rw [if_pos (by omega), if_pos (by omega)]

/-- Every entry of a spliced memory was there or is inside the splice. -/
theorem Memory.mem_splice (m : Memory) (lo : Nat) (bs : List Byte) (c : Host.Cell)
    (h : c ∈ m.splice lo bs) : c ∈ m ∨ (lo ≤ c.1 ∧ c.1 < lo + bs.length) := by
  unfold Memory.splice at h
  rcases List.mem_append.1 h with h | h
  · exact .inl (List.mem_filter.1 h).1
  · rcases List.mem_append.1 h with h | h
    · have := Memory.mem_cells _ _ _ h; exact .inr ⟨this.1, this.2.1⟩
    · exact .inl (List.mem_filter.1 h).1

/-! ### Tables that BUILD and CODES write -/

/-- A write of a table reads back once the tables are valid. -/
theorem State.readByte_putTable_inside (s t : State) (p lo a : Nat) (bs : List Byte)
    (hs : t.store = s.store.putTable lo bs) (hv : t.tree.tv = true) (hT : inTables a = true)
    (hf : isFixed a = false) (h1 : lo ≤ a) (h2 : a < lo + bs.length) :
    t.readByte p a = bs.getD (a - lo) 0 := by
  rw [State.readByte_table t p a hT hf hv, hs, Storage.putTable_bits, Memory.get_splice,
    if_pos ⟨h1, h2⟩]

/-- A write of a table leaves every other byte. -/
theorem State.readByte_putTable_outside (s t : State) (p lo a : Nat) (bs : List Byte)
    (hs : t.store = s.store.putTable lo bs) (hd : t.draws = s.draws) (hv : t.tree.tv = s.tree.tv)
    (h : ¬ (lo ≤ a ∧ a < lo + bs.length)) : t.readByte p a = s.readByte p a := by
  refine State.readByte_congr s t p a hd hv ?_ ?_
  · rw [hs, Storage.putTable_bits, Memory.get_splice, if_neg h]
  · rw [hs, Storage.putTable_written]

/-- Clearing the code table clears exactly CODE_LEN and CODE_BITS. -/
theorem Storage.clearCodes_get (st : Storage) (a : Nat) :
    (codeOffsets a → st.clearCodes.bits.get a = 0) ∧
      (¬ codeOffsets a → st.clearCodes.bits.get a = st.bits.get a) := by
  unfold Storage.clearCodes
  rw [Storage.putTable_bits, Memory.get_splice, Storage.putTable_bits, Memory.get_splice,
    List.length_replicate, List.length_replicate]
  unfold codeOffsets within codeLenBase codeBitsBase
  by_cases h1 : 0x02000 ≤ a ∧ a < 0x02000 + 8192
  · rw [if_pos h1, List.getD_eq_getElem?_getD, List.getElem?_replicate, if_pos (by omega)]
    exact ⟨fun _ => rfl, fun h => absurd (.inr h1) h⟩
  · rw [if_neg h1]
    by_cases h2 : 0x01400 ≤ a ∧ a < 0x01400 + 1024
    · rw [if_pos h2, List.getD_eq_getElem?_getD, List.getElem?_replicate, if_pos (by omega)]
      exact ⟨fun _ => rfl, fun h => absurd (.inl h2) h⟩
    · rw [if_neg h2]
      exact ⟨fun h => absurd h (by tauto), fun _ => rfl⟩

@[simp] theorem Storage.clearCodes_written (st : Storage) : st.clearCodes.written = st.written := rfl

/-! ### Lengths and bounds -/

/-- The symbols of a table read entry by entry, each once. -/
theorem leafSymbols_eq (freq : List Nat) (h : freq.length ≤ 256) :
    leafSymbols freq = ((freq.zipIdx).filter (fun e => 0 < e.1)).map Prod.snd := by
  have hr : List.range 256 =
      freq.zipIdx.map Prod.snd ++ (List.range (256 - freq.length)).map (freq.length + ·) := by
    rw [show freq.zipIdx.map Prod.snd = List.range freq.length by
      simp [List.range_eq_range'], ← List.range_add]
    congr 1; omega
  have h0 : ((List.range (256 - freq.length)).map (freq.length + ·)).filter
      (fun sym => 0 < freq.getD sym 0) = [] := by
    rw [List.filter_eq_nil_iff]
    intro a ha
    obtain ⟨k, _, rfl⟩ := List.mem_map.1 ha
    simp [List.getD_eq_getElem?_getD]
  rw [leafSymbols, hr, List.filter_append, h0, List.append_nil, List.filter_map]
  congr 1
  refine List.filter_congr fun e he => ?_
  have := List.mem_zipIdx_iff_getElem?.1 he
  simp [List.getD_eq_getElem?_getD, this]

theorem frequencyTable_length (msg : List Byte) : (frequencyTable msg).length = 256 := by
  simp [frequencyTable]

theorem State.freqTable_length (s : State) : s.freqTable.length = 256 := by simp [State.freqTable]

theorem State.freqTable_getD (s : State) (sym : Nat) (h : sym < 256) :
    s.freqTable.getD sym 0 = (s.freqAt sym).toNat := by
  simp [State.freqTable, h]

@[simp] theorem takeBits_length (bit : Nat → Bool) (n : Nat) : (takeBits bit n).length = n := by
  simp [takeBits]

theorem takeBits_getD (bit : Nat → Bool) (n k : Nat) (h : k < n) :
    (takeBits bit n).getD k false = bit k := by
  simp [takeBits, h]

@[simp] theorem State.codeOf_length (s : State) (sym : Byte) :
    (s.codeOf sym).length = s.codeLenAt sym := by
  simp [State.codeOf]

/-- The codes of a message take encodedLen bits (40_huffman.md R97's T). -/
theorem State.codes_length (s : State) (msg : List Byte) :
    (msg.flatMap s.codeOf).length = s.encodedLen msg := by
  unfold State.encodedLen
  rw [List.length_flatMap]
  congr 1
  exact List.map_congr_left fun a _ => by simp

/-- A walk's paths are no longer than its fuel and the longest path it starts with. -/
theorem walkCodes_length (node : Nat → Node) (fuel : Nat) (todo : List (Nat × List Bool)) (n : Nat)
    (h : ∀ c ∈ todo, c.2.length + fuel ≤ n) : ∀ c ∈ walkCodes node fuel todo, c.2.length ≤ n := by
  induction fuel generalizing todo with
  | zero => intro c hc; simp [walkCodes] at hc
  | succ f ih =>
    cases todo with
    | nil => intro c hc; simp [walkCodes] at hc
    | cons x rest =>
      obtain ⟨i, path⟩ := x
      intro c hc
      simp only [walkCodes] at hc
      have hp := h (i, path) (by simp)
      split at hc
      · rcases List.mem_cons.1 hc with rfl | hc
        · dsimp only at *; omega
        · exact ih rest (fun d hd => by have := h d (by simp [hd]); omega) c hc
      · refine ih _ ?_ c hc
        intro d hd
        simp only [List.mem_cons] at hd
        rcases hd with rfl | rfl | hd
        · simp at *; omega
        · simp at *; omega
        · have := h d (by simp [hd]); omega

/-- Whatever the tree's nodes are, CODES writes paths of at most 511 bits. -/
theorem codeTable_length (node : Nat → Node) (root : Nat) :
    ∀ c ∈ codeTable node root, c.2.length ≤ 511 := by
  unfold codeTable
  split
  · simp
  · exact walkCodes_length _ _ _ _ (by simp)

/-- Each symbol a decode emits consumes a bit (40_huffman.md R93). -/
theorem decodeFrom_length (node : Nat → Node) (root cur t : Nat) (bits : List Bool) :
    (decodeFrom node root cur t bits).1.length ≤ bits.length := by
  induction bits generalizing cur t with
  | nil => simp [decodeFrom]
  | cons b bs ih =>
    rw [decodeFrom]
    split
    · simpa using ih cur t
    · dsimp only
      split
      · simpa using ih root 0
      · exact (ih _ _).trans (Nat.le_succ _)

/-! ### The least node of a working set (40_huffman.md R89) -/

/-- Taking the least keeps the members. -/
theorem takeLeast_perm (x : Nat × Nat) (ws : List (Nat × Nat)) :
    ((takeLeast x ws).1 :: (takeLeast x ws).2).Perm (x :: ws) := by
  induction ws generalizing x with
  | nil => exact .refl _
  | cons y ys ih =>
    rw [takeLeast]
    split
    · exact (List.Perm.swap _ _ _).trans ((ih y).cons x)
    · exact (List.Perm.swap _ _ _).trans (((ih x).cons y).trans (List.Perm.swap _ _ _))

theorem takeLeast_length (x : Nat × Nat) (ws : List (Nat × Nat)) :
    (takeLeast x ws).2.length = ws.length := by
  have := (takeLeast_perm x ws).length_eq
  simpa using this

theorem keyLt_iff (x y : Nat × Nat) :
    keyLt x y = true ↔ x.1 < y.1 ∨ (x.1 = y.1 ∧ x.2 < y.2) := by
  simp [keyLt]

/-- No member comes before the least. -/
theorem takeLeast_least (x : Nat × Nat) (ws : List (Nat × Nat)) :
    ∀ y ∈ x :: ws, keyLt y (takeLeast x ws).1 = false := by
  have irr : ∀ x, keyLt x x = false := by
    intro x; rw [Bool.eq_false_iff, Ne, keyLt_iff]; omega
  induction ws generalizing x with
  | nil => intro y hy; simp only [List.mem_singleton] at hy; subst hy; exact irr _
  | cons z zs ih =>
    intro y hy
    rw [takeLeast]
    split
    · next hz =>
      have hz' := (keyLt_iff z x).1 hz
      have hzl := ih z z (by simp)
      rcases List.mem_cons.1 hy with rfl | hy
      · rw [Bool.eq_false_iff, Ne, keyLt_iff] at hzl ⊢; dsimp only; omega
      · exact ih z y hy
    · next hz =>
      rw [keyLt_iff] at hz
      have hxl := ih x x (by simp)
      rcases List.mem_cons.1 hy with rfl | hy
      · exact hxl
      · rcases List.mem_cons.1 hy with rfl | hy
        · rw [Bool.eq_false_iff, Ne, keyLt_iff] at hxl ⊢; dsimp only; omega
        · exact ih x y (List.mem_cons_of_mem _ hy)

end Sys2Proof.Machine
end

