-- ==== Sys2Proof/Laws/Frame.lean ====
section
/-! SUPPORT. The laws of reading what has been written, and that the frame functions depend on a frame's
bits only. -/

namespace Sys2Proof.Machine

/-! ### Written storage -/

/-- A written byte outside the tables reads the same in every pass. -/
theorem State.readByte_written (s : State) (p a : Nat) (hT : inTables a = false)
    (hw : s.store.written.get a = 0xFF) : s.readByte p a = s.store.bits.get a := by
  have e : (0xFF : Byte) = BitVec.allOnes 8 := by decide
  rw [State.readByte_plain s p a hT, hw, e, BitVec.and_allOnes]
  simp

/-- A written bit outside the tables reads the same in every pass. -/
theorem State.readBit_written (s : State) (p base k : Nat) (hb : treeEnd ≤ base)
    (hw : s.store.written.bitAt base k = true) : s.readBit p base k = s.store.bits.bitAt base k := by
  rw [State.readBit_plain s p base k hb, hw]; simp

/-- A word of a byte list. -/
theorem Word.ofBytes_bytes (w : Word) :
    Word.ofBytes (w.extractLsb' 0 8) (w.extractLsb' 8 8) (w.extractLsb' 16 8) (w.extractLsb' 24 8) =
      w := by
  unfold Word.ofBytes
  apply BitVec.eq_of_getLsbD_eq
  intro i hi
  simp only [BitVec.getLsbD_append, BitVec.getLsbD_extractLsb']
  by_cases h1 : i < 8
  · simp [h1]
  · by_cases h2 : i < 16
    · simp [h1, show i - 8 < 8 by omega, show 8 + (i - 8) = i by omega]
    · by_cases h3 : i < 24
      · simp [h1, show ¬ (i - 8 < 8) by omega, show i - 8 - 8 < 8 by omega,
          show 16 + (i - 8 - 8) = i by omega]
      · simp [h1, show ¬ (i - 8 < 8) by omega, show ¬ (i - 8 - 8 < 8) by omega,
          show i - 8 - 8 - 8 < 8 by omega, show 24 + (i - 8 - 8 - 8) = i by omega]

/-- The bytes of a list of words, four to a word. -/
theorem getD_flatMap_bytes (ws : List Word) (i k : Nat) (hk : k < 4) (hi : i < ws.length) :
    (ws.flatMap Word.bytes).getD (4 * i + k) 0 = (Word.bytes (ws.getD i 0)).getD k 0 := by
  induction ws generalizing i with
  | nil => simp at hi
  | cons w ws ih =>
    have hl : (Word.bytes w).length = 4 := rfl
    rw [List.flatMap_cons]
    cases i with
    | zero => rw [List.getD_append _ _ _ _ (by rw [hl]; omega)]; simp
    | succ i =>
      rw [List.getD_append_right _ _ _ _ (by rw [hl]; omega), hl,
        show 4 * (i + 1) + k - 4 = 4 * i + k by omega, ih i (by simpa using hi)]
      simp

theorem length_flatMap_bytes (ws : List Word) : (ws.flatMap Word.bytes).length = 4 * ws.length := by
  induction ws with
  | nil => rfl
  | cons w ws ih =>
    rw [List.flatMap_cons, List.length_append, ih, List.length_cons]
    have : (Word.bytes w).length = 4 := rfl
    omega

/-- A list of words written outside the tables reads back as those words. -/
theorem State.readWord_put (s t : State) (p lo i : Nat) (ws : List Word)
    (hs : t.store = s.store.put lo (ws.flatMap Word.bytes)) (hi : i < ws.length)
    (hT : ∀ k < 4, inTables (lo + 4 * i + k) = false) : t.readWord p (lo + 4 * i) = ws.getD i 0 := by
  have one : ∀ k < 4, t.readByte p (lo + 4 * i + k) = (Word.bytes (ws.getD i 0)).getD k 0 := by
    intro k hk
    rw [State.readByte_put_inside s t p lo _ _ hs (hT k hk) (by omega)
      (by rw [length_flatMap_bytes]; omega), show lo + 4 * i + k - lo = 4 * i + k by omega,
      getD_flatMap_bytes ws i k hk hi]
  unfold State.readWord
  have h0 := one 0 (by omega)
  rw [Nat.add_zero] at h0
  rw [h0, one 1 (by omega), one 2 (by omega), one 3 (by omega)]
  exact Word.ofBytes_bytes _

/-- FREQ written with a list of 256 counts reads back as them. -/
theorem State.freqTable_put (s t : State) (counts : List Nat) (hl : counts.length = 256)
    (hc : ∀ c ∈ counts, c < 2 ^ 32)
    (hs : t.store =
      s.store.put freqBase (counts.flatMap (fun c => Word.bytes (BitVec.ofNat 32 c)))) :
    t.freqTable = counts := by
  have hs' : t.store = s.store.put freqBase ((counts.map (BitVec.ofNat 32)).flatMap Word.bytes) := by
    rw [hs, List.flatMap_map]
  apply List.ext_getElem
  · rw [State.freqTable_length, hl]
  · intro i h1 h2
    have hi : i < (counts.map (BitVec.ofNat 32)).length := by simpa using h2
    have := State.readWord_put s t 0 freqBase i _ hs' hi (by
      intro k hk
      apply inTables_of_lt
      unfold freqBase codeLenBase
      rw [hl] at h2
      omega)
    simp only [State.freqTable, List.getElem_map, List.getElem_range, State.freqAt]
    rw [this, List.getD_eq_getElem?_getD, List.getElem?_map, List.getElem?_eq_getElem h2]
    simp only [Option.map_some, Option.getD_some, BitVec.toNat_ofNat]
    exact Nat.mod_eq_of_lt (hc _ (List.getElem_mem h2))

/-! ### The tree in the tables -/

/-- The word at an offset of a sparse memory. -/
def Memory.word (m : Memory) (a : Nat) : Word :=
  Word.ofBytes (m.get a) (m.get (a + 1)) (m.get (a + 2)) (m.get (a + 3))

/-- The node at an index of a sparse memory's TREE (10_state.md R48). -/
def Memory.node (m : Memory) (i : Nat) : Node :=
  let w := m.word (treeBase + 8 * i)
  let weight := (m.word (treeBase + 8 * i + 4)).toNat
  if w.getLsbD 31 then .leaf (w.extractLsb' 0 8) weight
  else .inner (w.extractLsb' 0 9).toNat (w.extractLsb' 16 9).toNat weight

/-- Once BUILD has run, a node reads as what TREE holds, in every pass. -/
theorem State.nodeAt_table (s : State) (p i : Nat) (hv : s.tree.tv = true) (hi : i < 511) :
    s.nodeAt p i = s.store.bits.node i := by
  have one : ∀ k < 8, s.readByte p (treeBase + 8 * i + k) = s.store.bits.get (treeBase + 8 * i + k) := by
    intro k hk
    refine State.readByte_table s p _ ?_ ?_ hv
    · rw [inTables_eq]; unfold treeBase; omega
    · rw [Bool.eq_false_iff, Ne, isFixed_eq]; unfold treeBase; omega
  have h0 := one 0 (by omega)
  rw [Nat.add_zero] at h0
  unfold State.nodeAt State.nodeWord State.readWord Memory.node Memory.word
  rw [h0, one 1 (by omega), one 2 (by omega), one 3 (by omega), one 4 (by omega),
    one (4 + 1) (by omega), one (4 + 2) (by omega), one (4 + 3) (by omega)]

/-- A code length reads as what CODE_LEN holds. -/
theorem State.codeLenAt_table (s : State) (sym : Byte) (hv : s.tree.tv = true) :
    s.codeLenAt sym = (s.store.bits.get (codeLenBase + 4 * sym.toNat)).toNat := by
  have := sym.isLt
  unfold State.codeLenAt
  rw [State.readByte_table s 0 _ ?_ ?_ hv]
  · rw [inTables_eq]; unfold codeLenBase; omega
  · rw [Bool.eq_false_iff, Ne, isFixed_eq]; unfold codeLenBase; omega

/-! ### The frame functions depend on the frame's bits only -/

theorem takeBits_congr (f g : Nat → Bool) (n : Nat) (h : ∀ k < n, f k = g k) :
    takeBits f n = takeBits g n :=
  List.map_congr_left fun k hk => h k (List.mem_range.1 hk)

theorem groupValue_congr (f g : Nat → Bool) (n i : Nat) (h : ∀ k < n, f k = g k) :
    groupValue f n i = groupValue g n i := by
  unfold groupValue
  congr 1
  refine List.map_congr_left fun j _ => ?_
  by_cases hn : 8 * i + j < n
  · rw [h _ hn]
  · rw [if_neg (fun hc => hn hc.1), if_neg (fun hc => hn hc.1)]

theorem byteGroupSum_congr (f g : Nat → Bool) (n : Nat) (h : ∀ k < n, f k = g k) :
    byteGroupSum f n = byteGroupSum g n := by
  unfold byteGroupSum
  congr 2
  exact List.map_congr_left fun i _ => groupValue_congr f g n i h

theorem checksum32_congr (f g : Nat → Bool) (L : Nat) (hL : 32 ≤ L) (h : ∀ k < L, f k = g k) :
    checksum32 f L = checksum32 g L := by
  unfold checksum32
  congr 2
  refine List.map_congr_left fun k hk => ?_
  have := List.mem_range.1 hk
  rw [h _ (by omega)]

/-- A verdict depends on the frame's own bits (41_frame.md R106). -/
theorem validate_congr (acc : AccRegs) (f g : Nat → Bool) (L : Nat) (h : ∀ k < L, f k = g k) :
    validate acc f L = validate acc g L := by
  unfold validate
  split
  · rfl
  · next hL =>
    rw [byteGroupSum_congr f g (L - 32) (fun k hk => h k (by omega)),
      checksum32_congr f g L (by omega) h]

end Sys2Proof.Machine
end

