-- ==== Sys2Proof/Laws/PerInstr.lean ====
section
/-! SUPPORT. Statements about every command, as syntax: one lemma for each constructor of `Instr`. -/

namespace Sys2Proof.Laws

/-- The encoder writes legal words: the word of a command passes the three checks of 30_encoding.md R81,
and its fields are the command's. -/
def EncodeLegal.Statement (i : Instr) : Prop :=
  (Cmd32.ofWord (encode i)).wellFormed = true ∧ Cmd32.ofWord (encode i) = i.fields

theorem EncodeLegal.nop : EncodeLegal.Statement .nop := by unfold EncodeLegal.Statement; decide

theorem EncodeLegal.freq : EncodeLegal.Statement .freq := by unfold EncodeLegal.Statement; decide

theorem EncodeLegal.build : EncodeLegal.Statement .build := by unfold EncodeLegal.Statement; decide

theorem EncodeLegal.codes : EncodeLegal.Statement .codes := by unfold EncodeLegal.Statement; decide

theorem EncodeLegal.encode : EncodeLegal.Statement .encode := by unfold EncodeLegal.Statement; decide

theorem EncodeLegal.decode : EncodeLegal.Statement .decode := by unfold EncodeLegal.Statement; decide

theorem EncodeLegal.addck : EncodeLegal.Statement .addck := by unfold EncodeLegal.Statement; decide

theorem EncodeLegal.validate : EncodeLegal.Statement .validate := by unfold EncodeLegal.Statement; decide

theorem EncodeLegal.parse : EncodeLegal.Statement .parse := by unfold EncodeLegal.Statement; decide

theorem EncodeLegal.txStart : EncodeLegal.Statement .txStart := by unfold EncodeLegal.Statement; decide

theorem EncodeLegal.txStop : EncodeLegal.Statement .txStop := by unfold EncodeLegal.Statement; decide

theorem EncodeLegal.rxStart : EncodeLegal.Statement .rxStart := by unfold EncodeLegal.Statement; decide

theorem EncodeLegal.rxStop : EncodeLegal.Statement .rxStop := by unfold EncodeLegal.Statement; decide

theorem EncodeLegal.sreset : EncodeLegal.Statement .sreset := by unfold EncodeLegal.Statement; decide

theorem EncodeLegal.classify (p : BitVec 1) : EncodeLegal.Statement (.classify p) := by
  unfold EncodeLegal.Statement; revert p; decide

end Sys2Proof.Laws
end

