-- ==== Sys2Proof/Laws/Reads.lean ====
section
/-! SUPPORT. The laws of host accesses by offset: what a read answers, which bits a pending command
unsettles, which offset is which register, and which offsets the host may write. -/

namespace Sys2Proof.Machine

/-! ### The bits of a bit buffer in a word -/

/-- The number whose bits below `n` a predicate gives. -/
theorem testBit_sum_two_pow (f : Nat → Prop) [DecidablePred f] (n j : Nat) :
    ((List.range n).map (fun b => if f b then 2 ^ b else 0)).sum < 2 ^ n ∧
      (((List.range n).map (fun b => if f b then 2 ^ b else 0)).sum.testBit j = true ↔
        j < n ∧ f j) := by
  induction n generalizing j with
  | zero => simp
  | succ n ih =>
    rw [List.range_succ, List.map_append, List.sum_append]
    simp only [List.map_cons, List.map_nil, List.sum_cons, List.sum_nil, Nat.add_zero]
    have h1 := (ih j).1
    refine ⟨by rw [Nat.pow_succ]; split <;> omega, ?_⟩
    by_cases hf : f n
    · rw [if_pos hf, Nat.add_comm]
      rcases Nat.lt_trichotomy j n with h | h | h
      · rw [Nat.testBit_two_pow_add_gt h, (ih j).2]
        constructor <;> (rintro ⟨_, h2⟩; exact ⟨by omega, h2⟩)
      · subst h
        rw [Nat.testBit_two_pow_add_eq, Nat.testBit_lt_two_pow h1]
        simp [hf]
      · have : 2 ^ (n + 1) ≤ 2 ^ j := Nat.pow_le_pow_right (by decide) h
        rw [Nat.testBit_lt_two_pow (by rw [Nat.pow_succ] at this; omega)]
        simp; omega
    · rw [if_neg hf, Nat.add_zero, (ih j).2]
      constructor
      · rintro ⟨h, h2⟩; exact ⟨by omega, h2⟩
      · rintro ⟨h, h2⟩
        rcases Nat.lt_succ_iff_lt_or_eq.1 h with h | rfl
        · exact ⟨h, h2⟩
        · exact absurd h2 hf

/-- Bit `b` of a word of a bit buffer is in the mask exactly when it is one of the bits lo .. hi-1. -/
theorem bufferMask_getLsbD (base lo hi a b : Nat) (hb : b < 32) :
    (bufferMask base lo hi a).getLsbD b = true ↔
      lo ≤ 8 * (a - base + b / 8) + (7 - b % 8) ∧ 8 * (a - base + b / 8) + (7 - b % 8) < hi := by
  unfold bufferMask
  rw [BitVec.getLsbD_ofNat]
  have := (testBit_sum_two_pow (fun b => lo ≤ 8 * (a - base + b / 8) + (7 - b % 8) ∧
    8 * (a - base + b / 8) + (7 - b % 8) < hi) 32 b).2
  simp only [Bool.and_eq_true, decide_eq_true_eq]
  rw [this]; tauto

/-- An empty range masks nothing. -/
theorem bufferMask_empty (base a : Nat) : bufferMask base 0 0 a = 0 := by
  refine BitVec.eq_of_getLsbD_eq fun j hj => ?_
  have := bufferMask_getLsbD base 0 0 a j hj
  simp at this ⊢; exact this

/-- Every bit of a word of TREE can change, but for entry 511 (10_state.md R48). -/
theorem treeMask_getLsbD (a b : Nat) (hb : b < 32) :
    (treeMask a).getLsbD b = true ↔ a < 0x4FF8 := by
  unfold treeMask treeFixed
  split
  · next h => exact iff_of_true (by rw [BitVec.getLsbD_allOnes]; simpa using hb) h
  · next h => simp [h]

/-! ### What a read answers -/

/-- A read that is not refused answers the free word in the unsettled bits and what is stored in the
others. -/
theorem State.busRead_bus (s : State) (addr : BitVec 20) (r : Region)
    (h : reach s.params addr 0b1111 = some r) :
    (s.busRead addr 0b1111).bus =
      { prdata :=
          (s.stored r addr.toNat &&& ~~~(s.unsettled r addr.toNat)) |||
            (Config.freeWord s.draws &&& s.unsettled r addr.toNat)
        pslverr := false } := by
  unfold State.busRead; rw [h]; dsimp only; split <;> rfl

/-- A read whose offset is not mapped is refused. -/
theorem State.busRead_refused (s : State) (addr : BitVec 20) (strb : BitVec 4)
    (h : reach s.params addr strb = none) : s.busRead addr strb = s.refuse 0 := by
  unfold State.busRead; rw [h]

/-- The bits a read returns free are the unsettled ones. -/
theorem State.readsFree_of (s : State) (free : Nat → Nat → Prop)
    (h : ∀ (addr : BitVec 20) (r : Region) (b : Nat), locate s.params addr.toNat = some r → b < 32 →
      ((s.unsettled r addr.toNat).getLsbD b = true ↔ free addr.toNat b)) : s.ReadsFree free := by
  intro addr r hr
  dsimp only
  rw [s.busRead_bus addr r hr]
  refine ⟨rfl, fun b hb => ?_⟩
  have hu := h addr r b ((reach_eq_some _ _ _ _).1 hr).2.2 hb
  simp only [BitVec.getLsbD_or, BitVec.getLsbD_and, BitVec.getLsbD_not, hb, decide_true, Bool.true_and]
  exact ⟨fun hf => by simp [hu.2 hf], fun hf => by simp [Bool.eq_false_iff.2 fun x => hf (hu.1 x)]⟩

/-- While a command that decodes is pending, the unsettled bits are its destinations. -/
theorem State.unsettled_of_pending (s : State) (w : Word) (i : Instr) (h : s.cmd.pending = some w)
    (hd : decode w = .ok i) (r : Region) (a : Nat) : s.unsettled r a = s.destination i r a := by
  unfold State.unsettled; rw [h]; dsimp only; rw [hd]

/-! ### The registers by offset -/

/-- The register table by value and the register table by name say the same. -/
theorem State.registerMap_eq (s : State) :
    s.registerMap = csrTable.map (fun e => (e.1, e.2.1.read s)) := rfl

/-- Every offset of the register table is an aligned one below 0x1000, listed once. -/
theorem csrTable_lookup :
    ∀ e ∈ csrTable, csrTable.lookup e.1 = some e.2 ∧ e.1 < 0x1000 ∧ e.1 % 4 = 0 := by
  have h : (csrTable.all fun e =>
      decide (e.1 < 0x1000) && e.1 % 4 == 0 && csrTable.lookup e.1 == some e.2) = true := rfl
  intro e he
  have := List.all_eq_true.1 h e he
  simp only [Bool.and_eq_true, decide_eq_true_eq, beq_iff_eq] at this
  exact ⟨this.2, this.1.1, this.1.2⟩

/-- A listed offset is its register's. -/
theorem locate_csr (p : Params) (e : Nat × Csr × Access) (h : e ∈ csrTable) :
    locate p e.1 = some (.csr e.2.1 e.2.2) := by
  obtain ⟨h1, h2, _⟩ := csrTable_lookup e h
  unfold locate freqBase
  rw [if_pos h2, h1]; rfl

/-- No two entries of the register table share an offset. -/
theorem csrTable_injective (e f : Nat × Csr × Access) (he : e ∈ csrTable) (hf : f ∈ csrTable)
    (h : e.1 = f.1) : e = f := by
  have h1 := (csrTable_lookup e he).1
  rw [h, (csrTable_lookup f hf).1] at h1
  exact Prod.ext h (Option.some.inj h1).symm

/-! ### The writable offsets -/

/-- The registers the table marks RO are those whose offsets are not writable. -/
theorem csrTable_ro (e : Nat × Csr × Access) (he : e ∈ csrTable) :
    e.2.2 = .ro ↔ e.1 ≠ 0 ∧ e.1 ∉ writableRegisters := by
  have h : (csrTable.all fun e =>
      (e.2.2 == .ro) == (e.1 != 0 && !writableRegisters.contains e.1)) = true := rfl
  have := List.all_eq_true.1 h e he
  rw [beq_iff_eq] at this
  rw [← beq_iff_eq, this]
  simp

/-- Every writable offset is a register's. -/
theorem writableRegisters_listed (a : Nat) (h : a ∈ writableRegisters) : ∃ e ∈ csrTable, e.1 = a := by
  have h0 : (writableRegisters.all fun a => (csrTable.lookup a).isSome) = true := rfl
  obtain ⟨x, hx⟩ := Option.isSome_iff_exists.1 (List.all_eq_true.1 h0 a h)
  exact ⟨(a, x), mem_of_lookup _ _ _ hx, rfl⟩

/-- The writable windows are FREQ, MSG and FBUF (20_memory.md R59). -/
theorem writableWindows_iff (p : Params) (a : Nat) :
    writableWindows p a ↔
      locate p a = some .freq ∨ locate p a = some .msg ∨ locate p a = some .fbuf := by
  unfold writableWindows within
  constructor
  · intro h
    unfold locate freqBase codeLenBase codeLenEnd codeBitsBase treeBase treeEnd msgBase dmsgBase rmsgBase
      fbufBase rbufBase
    rcases h with h | h | h
    · left; rw [if_neg (by omega), if_pos (by omega)]
    · right; left
      iterate 7 rw [if_neg (by omega)]
      rw [if_pos (by omega), if_pos (by omega)]
    · right; right
      iterate 10 rw [if_neg (by omega)]
      rw [if_pos (by omega), if_pos (by omega)]
  · rintro (h | h | h) <;>
      (rcases locate_eq_some _ _ _ h with ⟨c, k, hc, _, hm⟩ | h'
       · cases hc
       · simp at h'; omega)

end Sys2Proof.Machine
end

