-- ==== Sys2Proof/Laws/Runs.lean ====
section
/-! SUPPORT. The laws of runs: which turns come, and what a step leaves of the agenda and of what waits for
its turn (00_scope.md R14, R15). -/

namespace Sys2Proof.Machine

/-! ### Turns -/

/-- Every free round holds a completion, a parse step and a tick (00_scope.md R15). -/
theorem mem_roundTurns (r : Round) :
    .complete ∈ roundTurns r ∧ .parseFrame ∈ roundTurns r ∧ .tick r.lineIn ∈ roundTurns r := by
  simp [roundTurns]

/-- There always is a next turn, and the rest is what the step leaves. -/
theorem State.upcoming_eq (s : State) : s.upcoming = s.turn :: s.upcoming.tail := by
  have : s.upcoming ≠ [] := by
    unfold State.upcoming
    split
    · exact List.ne_nil_of_mem (mem_roundTurns _).1
    · exact List.cons_ne_nil _ _
  cases h : s.upcoming with
  | nil => exact absurd h this
  | cons turn rest => simp [State.turn, h]

theorem State.upcoming_of_nil {s : State} (h : s.agenda = []) :
    s.upcoming = roundTurns (Config.freeRound s.draws) := by unfold State.upcoming; rw [h]

theorem State.upcoming_of_ne_nil {s : State} (h : s.agenda ≠ []) : s.upcoming = s.agenda := by
  unfold State.upcoming; split
  · next h' => exact absurd h' h
  · next h' => exact h'.symm

/-! ### What a command leaves -/

theorem State.parseEffect_frame (s : State) :
    s.parseEffect =
      { s with
        irq := s.parseEffect.irq, codec := s.parseEffect.codec, val := s.parseEffect.val
        store := s.parseEffect.store } := by
  unfold State.parseEffect
  dsimp only
  split <;> rfl

/-- A completion that leaves a field as its effect leaves it, for the fields an error does not touch. -/
theorem State.run_keeps {α : Type} (g : State → α) (s : State) (op : BitVec 8)
    (check : Option (CmdError × Word)) (f : State → State)
    (hg : ∀ (t : State) (c : CmdRegs) (q : IrqRegs), g { t with cmd := c, irq := q } = g t)
    (hf : check = none → g (f s) = g s) : g (s.run op check f) = g s :=
  s.run_induct (fun t => g t = g s) op check f (fun t c q _ h => (hg t c q).trans h) rfl hf

/-- No command touches the agenda or the step's number. -/
theorem exec_agenda (i : Instr) (s t : State) (h : exec i s = .next t) :
    t.agenda = s.agenda ∧ t.draws = s.draws := by
  suffices H : (t.agenda, t.draws) = (s.agenda, s.draws) from Prod.mk.inj H
  cases i <;> rw [← Host.Outcome.next.inj h]
  case sreset => rfl
  case parse =>
    exact State.run_keeps (fun u => (u.agenda, u.draws)) s _ _ _ (fun _ _ _ => rfl)
      (fun _ => by rw [State.parseEffect_frame])
  all_goals
    exact State.run_keeps (fun u => (u.agenda, u.draws)) s _ _ _ (fun _ _ _ => rfl) (fun _ => rfl)

/-- Every completed command leaves no command pending (30_encoding.md R85). -/
theorem exec_pending (i : Instr) (s t : State) (h : exec i s = .next t) : t.cmd.pending = none := by
  have run : ∀ op check (f : State → State), (s.run op check f).cmd.pending = none := by
    intro op check f
    rcases s.run_cases op check f with ⟨_, h⟩ | ⟨e, _, h⟩ <;> rw [h] <;> simp
  cases i <;> rw [← Host.Outcome.next.inj h]
  case sreset => rfl
  all_goals exact run _ _ _

/-- A command other than RX_STOP and SRESET leaves an RX engine that is not idle as it is. -/
theorem exec_rx (i : Instr) (s t : State) (h : exec i s = .next t) (h1 : i ≠ .rxStop) (h2 : i ≠ .sreset)
    (hp : s.rx.phase ≠ .idle) : t.rx = s.rx := by
  cases i <;> rw [← Host.Outcome.next.inj h]
  case rxStop => exact absurd rfl h1
  case sreset => exact absurd rfl h2
  case rxStart =>
    exact State.run_keeps State.rx s _ _ _ (fun _ _ _ => rfl)
      (fun hc => absurd (s.rxBusy_none.1 hc) hp)
  case parse =>
    exact State.run_keeps State.rx s _ _ _ (fun _ _ _ => rfl) (fun _ => by rw [State.parseEffect_frame])
  all_goals exact State.run_keeps State.rx s _ _ _ (fun _ _ _ => rfl) (fun _ => rfl)

/-! ### What a step leaves -/

/-- A step takes its turn off the upcoming turns and numbers itself, whatever the turn does. -/
theorem step_agenda (s t : State) (h : step s = .next t) :
    t.agenda = s.upcoming.tail ∧ t.draws = s.draws + 1 := by
  refine step_induct (fun u => u.agenda = s.upcoming.tail ∧ u.draws = s.draws + 1) s t h ⟨rfl, rfl⟩
    (fun _ _ _ hu => hu) (fun _ _ hu => hu) (fun _ hu => hu) ?_ ?_ (fun _ _ _ _ _ _ _ hu => hu) ?_ ?_
    ?_ ?_
  · intro u v _ hu; unfold State.acceptCmd; split <;> exact hu
  · intro u c v hu; rw [Csr.write_frame]; exact hu
  · intro u v w i _ _ hu hx
    obtain ⟨h1, h2⟩ := exec_agenda i u v hx
    exact ⟨h1.trans hu.1, h2.trans hu.2⟩
  · intro u op w hu; simpa using hu
  · intro u x hu; rw [State.tickStep_eq]; exact hu
  · intro u hu; rw [State.parseStep_frame]; exact hu

end Sys2Proof.Machine
end

