-- ==== Sys2Proof/Tests/Slice0.lean ====
section
/-! SUPPORT. The package's own tests: the checks of WellFormed, the decoder on words written out from
30_encoding.md R78 and R80, the fetch, small vectors of 95_test_vectors.md (named V<n>.<m> in the comments),
and, for every obligation with hypotheses, a state that meets them. -/

namespace Sys2Proof.Tests

open Sys2Proof Sys2Proof.Machine

-- One theorem after another: a kernel evaluation waits for every theorem before it, each on a thread of its own.
set_option Elab.async false

/-! ### WellFormed: an ill-formed term for each check -/

theorem test_refuses_unassigned_op :
    ({ op := 0x0A, p := 0, reserved := 0 } : Cmd32).wellFormed = false ∧
      ({ op := 0x14, p := 0, reserved := 0 } : Cmd32).wellFormed = false := by decide

theorem test_refuses_reserved_bits :
    ({ op := 0x04, p := 0, reserved := 0x400000 } : Cmd32).wellFormed = false ∧
      ({ op := 0x09, p := 0, reserved := 1 } : Cmd32).wellFormed = false := by decide

theorem test_refuses_phase_bit :
    ({ op := 0x01, p := 1, reserved := 0 } : Cmd32).wellFormed = false ∧
      ({ op := 0x09, p := 1, reserved := 0 } : Cmd32).wellFormed = true := by decide

theorem test_refuses_msgMax :
    ({ msgMax := 0, bitsMax := 64 } : Params).legal = false ∧
      ({ msgMax := 6, bitsMax := 64 } : Params).legal = false ∧
      ({ msgMax := 65540, bitsMax := 64 } : Params).legal = false ∧
      ({ msgMax := 4, bitsMax := 64 } : Params).legal = true := by decide

theorem test_refuses_bitsMax :
    ({ msgMax := 4, bitsMax := 32 } : Params).legal = false ∧
      ({ msgMax := 4, bitsMax := 80 } : Params).legal = false ∧
      ({ msgMax := 4, bitsMax := 524320 } : Params).legal = false ∧
      ({ msgMax := 65536, bitsMax := 524288 } : Params).legal = true := by decide

/-! ### Decoding: each command's word, field by field (R78: reserved, P, OP) -/

/-- A word from its fields. -/
def word (reserved : BitVec 23) (p : BitVec 1) (op : BitVec 8) : Word := reserved ++ p ++ op

theorem test_decode_nop : decode (word 0 0 0b00000000) = .ok .nop := by decide

theorem test_decode_freq : decode (word 0 0 0b00000001) = .ok .freq := by decide

theorem test_decode_build : decode (word 0 0 0b00000010) = .ok .build := by decide

theorem test_decode_codes : decode (word 0 0 0b00000011) = .ok .codes := by decide

theorem test_decode_encode : decode (word 0 0 0b00000100) = .ok .encode := by decide

theorem test_decode_decode : decode (word 0 0 0b00000101) = .ok .decode := by decide

theorem test_decode_addck : decode (word 0 0 0b00000110) = .ok .addck := by decide

theorem test_decode_validate : decode (word 0 0 0b00000111) = .ok .validate := by decide

theorem test_decode_parse : decode (word 0 0 0b00001000) = .ok .parse := by decide

theorem test_decode_txStart : decode (word 0 0 0b00010000) = .ok .txStart := by decide

theorem test_decode_txStop : decode (word 0 0 0b00010001) = .ok .txStop := by decide

theorem test_decode_rxStart : decode (word 0 0 0b00010010) = .ok .rxStart := by decide

theorem test_decode_rxStop : decode (word 0 0 0b00010011) = .ok .rxStop := by decide

theorem test_decode_sreset : decode (word 0 0 0b00011111) = .ok .sreset := by decide

theorem test_decode_classify :
    decode (word 0 0 0b00001001) = .ok (.classify 0) ∧
      decode (word 0 1 0b00001001) = .ok (.classify 1) := by decide

/-- V8.1 to V8.6. -/
theorem test_decode_illegal :
    decode 0x0000000A = .error .unassignedOp ∧ decode 0x000000FF = .error .unassignedOp ∧
      decode 0x00000101 = .error .phaseBit ∧ decode 0x00000209 = .error .reservedBits ∧
      decode 0x80000004 = .error .reservedBits ∧ decode 0x0000021F = .error .reservedBits := by decide

theorem test_decodeTableWord :
    decodeTableWord 32 0x109 = some (.classify 1) ∧ decodeTableWord 8 0x12 = some .rxStart ∧
      decodeTableWord 32 0x0A = none ∧ decodeTableWord 40 0x01 = none := by decide

/-! ### The fetch: the next step runs the given word -/

theorem test_fetch_txStart :
    step (State.reset.withFetchWord 32 0x10) =
      exec .txStart (State.reset.withFetchWord 32 0x10).advance := rfl

theorem test_fetch_sreset :
    step (State.reset.withFetchWord 32 0x1F) =
      exec .sreset (State.reset.withFetchWord 32 0x1F).advance := rfl

/-! ### Vectors -/

/-- The next state of a command, for tests (a command always has one). -/
def run (i : Instr) (s : State) : State :=
  match exec i s with
  | .next t => t
  | .fault _ => s
  | .refused _ => s

/-- "abbccc" (R12: ASCII bytes). -/
def abbccc : List Byte := [0x61, 0x62, 0x62, 0x63, 0x63, 0x63]

/-- The tree of "abbccc". -/
def abbcccTree : List Node :=
  [.leaf 0x61 1, .leaf 0x62 2, .leaf 0x63 3, .inner 0 1 3, .inner 2 3 6]

/-- The bit string of a list of 0s and 1s, for frames. -/
def bitsOf (l : List Nat) : List Bool := l.map (· == 1)

/-- V7.2. -/
theorem test_nop_completes :
    (run .nop State.reset).cmdStatus = 0x00000000 ∧ (run .nop State.reset).irq.status = 0x01 := by
  decide

/-- V2.1: FREQ. -/
theorem test_freq_abbccc :
    (frequencyTable abbccc).getD 0x61 0 = 1 ∧ (frequencyTable abbccc).getD 0x62 0 = 2 ∧
      (frequencyTable abbccc).getD 0x63 0 = 3 ∧ (frequencyTable abbccc).sum = 6 := by decide +kernel

/-- V2.20. -/
theorem test_freq_range :
    (run .freq { State.reset with codec := { State.reset.codec with msgLen := 4097 } }).cmd =
      { pending := none, err := .range, lastOp := 0x01, errInfo := 0x010 } := by decide

/-- V2.1: the nodes N0 to N4 as TREE words, and their weights. -/
theorem test_build_abbccc :
    buildTree (List.replicate 0x61 0 ++ [1, 2, 3]) = abbcccTree ∧
      abbcccTree.map Node.word = [0xC0000061, 0xC0000062, 0xC0000063, 0x40010000, 0x40030002] ∧
      abbcccTree.map Node.weight = [1, 2, 3, 3, 6] := by
  unfold buildTree leafNodes
  rw [leafSymbols_eq _ (by decide +kernel)]; decide +kernel

/-- V2.14. -/
theorem test_build_busy :
    (run .build { State.reset with rx := { State.reset.rx with phase := .await } }).cmdStatus =
      0x00000220 := by decide

/-- V2.1b: c "0", a "10", b "11". -/
theorem test_codes_abbccc :
    codeTable (nodeOf abbcccTree) 4 =
      [(0x63, [false]), (0x61, [true, false]), (0x62, [true, true])] := by decide +kernel

/-- V2.15. -/
theorem test_codes_empty :
    (run .codes State.reset).cmdStatus = 0x00000340 ∧ (run .codes State.reset).cmd.errInfo = 0 := by
  decide

/-- V2.1c: "101111000". -/
theorem test_encode_abbccc :
    abbccc.flatMap (codeIn (codeTable (nodeOf abbcccTree) 4)) = bitsOf [1, 0, 1, 1, 1, 1, 0, 0, 0] := by
  decide +kernel

/-- V2.21: BUSY before RANGE. -/
theorem test_encode_busy :
    (run .encode
      { State.reset with
        tx := { State.reset.tx with phase := .pre }
        codec := { State.reset.codec with msgLen := 4097 } }).cmd =
      { pending := none, err := .busy, lastOp := 0x04, errInfo := 0x080 } := by decide

/-- V2.7 and V2.8: "1011" gives "ab", "101" gives "a" and one trailing bit. -/
theorem test_decode_trailing :
    decodeFrom (nodeOf abbcccTree) 4 4 0 (bitsOf [1, 0, 1, 1]) = ([0x61, 0x62], 0) ∧
      decodeFrom (nodeOf abbcccTree) 4 4 0 (bitsOf [1, 0, 1]) = ([0x61], 1) := by decide +kernel

/-- V2.16. -/
theorem test_decode_notree :
    (run .decode State.reset).cmdStatus = 0x00000570 ∧ (run .decode State.reset).irq.status = 0x43 := by
  decide

/-- The 48 bits of V3.1's frame, with the bits of a set flipped. -/
def frame (flip : List Nat) (k : Nat) : Bool :=
  (bitsOf
    [1, 0, 1, 1, 1, 1, 0, 0, 0, 0, 0, 0, 0, 0, 0, 0, 0, 0, 1, 1, 1, 1, 0, 1]).getD k false !=
      flip.contains k

/-- V3.1: the sum of "101111000" is 188, and the checksum read back from the frame is the same. -/
theorem test_addck_sum :
    byteGroupSum (frame []) 9 = 188 ∧ checksum32 (frame []) 48 = 188 := by decide +kernel

/-- V3.20. -/
theorem test_addck_overflow :
    (run .addck { State.reset with codec := { State.reset.codec with fbufLen := 65536 } }).cmd =
      { pending := none, err := .overflow, lastOp := 0x06, errInfo := 0x00010020 } := by decide

/-- V3.2 and V3.5. -/
theorem test_validate_flipped :
    validate State.reset.acc (frame [7]) 48 =
        { result := .corrupt, sum := 189, ck := 188, fid := 0x0000FEA5 } ∧
      validate State.reset.acc (frame [47]) 48 =
        { result := .corrupt, sum := 188, ck := 0x800000BC, fid := 0 } := by decide +kernel

/-- V3.7: the threshold is strict. -/
theorem test_validate_threshold :
    accepted State.reset.acc 995 1000 = false ∧ accepted State.reset.acc 996 1000 = true ∧
      accepted State.reset.acc 99500 100000 = false ∧ accepted State.reset.acc 0 0 = true ∧
      fidQ16 996 1000 = 0xFEF9 := by decide

/-- V3.9's frame: 32 bits are SHORT, and PARSE completes with OK. -/
theorem test_parse_short :
    (run .parse { State.reset with codec := { State.reset.codec with fbufLen := 32 } }).val.result =
        .short ∧
      (run .parse { State.reset with codec := { State.reset.codec with fbufLen := 32 } }).cmdStatus =
        0x00000800 := by decide

/-- V3.22. -/
theorem test_parse_range :
    (run .parse { State.reset with codec := { State.reset.codec with fbufLen := 65537 } }).cmdStatus =
      0x00000830 := by decide

/-- CLASSIFY of a duration at the reset bands. -/
def classified (p : BitVec 1) (d : Word) : PulseClass :=
  (run (.classify p) { State.reset with cls := { State.reset.cls with input := d } }).cls.output

/-- V4.1 to V4.7, CLASSIFY.R. -/
theorem test_classify_receiving :
    classified 1 0 = .bit0 ∧ classified 1 95 = .bit0 ∧ classified 1 96 = .bit1 ∧
      classified 1 200 = .bit1 ∧ classified 1 201 = .noise ∧ classified 1 500 = .noise ∧
      classified 1 1000 = .term ∧ classified 1 0xFFFFFFFF = .term := by decide

/-- V4.1 to V4.7, CLASSIFY.A. -/
theorem test_classify_awaiting :
    classified 0 0 = .noise ∧ classified 0 400 = .noise ∧ classified 0 401 = .init ∧
      classified 0 900 = .init ∧ classified 0 901 = .noise ∧ classified 0 1000 = .noise := by decide

/-- V5.2. -/
theorem test_txStart_arms :
    (run .txStart { State.reset with codec := { State.reset.codec with fbufLen := 48 } }).tx =
      { phase := .pre, bitIdx := 0, len := 48, count := 0, rem := 100 } := by decide

/-- V5.8. -/
theorem test_txStart_range :
    (run .txStart { State.reset with codec := { State.reset.codec with fbufLen := 65537 } }).cmd =
      { pending := none, err := .range, lastOp := 0x10, errInfo := 0x014 } := by decide

/-- A state in a TX phase. -/
def txIn (phase : TxPhase) (bitIdx len rem : Word) : State :=
  { State.reset with tx := { phase := phase, bitIdx := bitIdx, len := len, count := 0, rem := rem } }

/-- V5.9. -/
theorem test_txStop_idles :
    (run .txStop (txIn .bith 5 48 20)).tx =
        { phase := .idle, bitIdx := 0, len := 48, count := 0, rem := 0 } ∧
      (run .txStop (txIn .bith 5 48 20)).irq.status = 0x01 := by decide

/-- A state in an RX phase. -/
def rxIn (phase : RxPhase) (det : Detector) (rbufLen hcnt dcnt : Word) (p : Option Snapshot) : State :=
  { State.reset with
    rx :=
      { phase := phase, det := det, level := false, ovf := false, rbufLen := rbufLen, hcnt := hcnt,
        dcnt := dcnt, parsePending := p } }

/-- V6.1. -/
theorem test_rxStart_awaits : (run .rxStart State.reset).rx.word = 0x00000001 := by decide

/-- V6.10. -/
theorem test_rxStart_busy :
    (run .rxStart (rxIn .delay .low 0 0 5 none)).cmdStatus = 0x00001220 := by decide

/-- V6.9. -/
theorem test_rxStop_idles :
    (run .rxStop (rxIn .recv .high 17 3 0 none)).rx =
      { phase := .idle, det := .needLow, level := false, ovf := false, rbufLen := 17, hcnt := 0,
        dcnt := 0, parsePending := none } := by decide

/-- V7.7. -/
theorem test_sreset_discards :
    (run .sreset { txIn .bith 5 48 20 with cmd := { State.reset.cmd with pending := some 5 } }) =
      State.reset := by decide

/-- V5.6: a timing register stores 1 for a written 0. -/
theorem test_timing_register :
    Csr.txGap.read (Csr.txGap.write State.reset 0) = 1 ∧
      Csr.txGap.read (Csr.txGap.write State.reset 7) = 7 := by decide

/-- V7.5: misaligned, narrow, unmapped, beyond MSG_MAX; V7.1: ID and BITS_MAX_R. -/
theorem test_bus_reach :
    reach State.reset.params 0x00002 0b1111 = none ∧ reach State.reset.params 0x00000 0b0011 = none ∧
      reach State.reset.params 0x00060 0b1111 = none ∧
      reach State.reset.params 0x11000 0b1111 = none ∧
      reach State.reset.params 0x10FFC 0b1111 = some .msg ∧
      Csr.ident.read State.reset = 0x50504C31 ∧ Csr.bitsMaxR.read State.reset = 0x00010000 := by
  decide +kernel

/-! ### Witnesses: states and operands that meet the hypotheses of the obligations -/

/-- Reset, with a turn on the agenda. -/
def next (i : Input) : State := { State.reset with agenda := [i] }

/-- Reset, with a command pending and the completion next. -/
def pending (w : Word) : State :=
  { next .complete with cmd := { State.reset.cmd with pending := some w } }

/-- Reset, with lengths. -/
def lengths (msgLen fbufLen : Word) : State :=
  { State.reset with codec := { State.reset.codec with msgLen := msgLen, fbufLen := fbufLen } }

/-- A storage of whole bytes. -/
def stored (lo : Nat) (bs : List Byte) : Storage := Storage.put { bits := [], written := [] } lo bs

/-- FREQ written by the host. -/
def withFreq (counts : List Nat) : State :=
  { State.reset with
    store := stored freqBase (counts.flatMap (fun c => Word.bytes (BitVec.ofNat 32 c))) }

/-- A tree in TREE, as BUILD leaves it. -/
def withTree (nodes : List Node) : State :=
  { State.reset with
    tree := { tv := true, cv := false, root := BitVec.ofNat 9 (nodes.length - 1), nleaf := 1 }
    store := Storage.putTable { bits := [], written := [] } treeBase (treeBytes nodes) }

/-- The counts of the one-symbol message "a". -/
def counts1 : List Nat := List.replicate 0x61 0 ++ 1 :: List.replicate 158 0

theorem counts1_eq : frequencyTable [0x61] = counts1 := by decide +kernel

/-- The tree of "a". -/
def tree1 : List Node := [.leaf 0x61 1]

theorem leaf1 : leafSymbols counts1 = [0x61] := by
  rw [leafSymbols_eq _ (by decide +kernel)]; decide +kernel

theorem tree1_eq : buildTree counts1 = tree1 := by
  unfold buildTree leafNodes; rw [leaf1]; decide +kernel

/-- The one-leaf tree of "a". -/
def leafTree : State := withTree tree1

theorem freqTable_withFreq (counts : List Nat) (hl : counts.length = 256)
    (hc : ∀ c ∈ counts, c < 2 ^ 32) : (withFreq counts).freqTable = counts :=
  State.freqTable_put { State.reset with store := { bits := [], written := [] } } (withFreq counts)
    counts hl hc rfl

theorem counts1_lt : ∀ c ∈ counts1, c < 2 ^ 32 := by decide +kernel

theorem node_leafTree (p i : Nat) (hi : i < 511) :
    leafTree.nodeAt p i = leafTree.store.bits.node i := State.nodeAt_table _ _ _ rfl hi

theorem root_leafTree (p : Nat) : leafTree.nodeAt p 0 = .leaf 0x61 1 := by
  rw [node_leafTree p 0 (by decide)]; decide +kernel

theorem test_witness_IllegalWordsAreRefused :
    (pending 0x0A).turn = .complete ∧ (pending 0x0A).cmd.pending = some 0x0A ∧
      decode 0x0A = .error .unassignedOp ∧ decode 0x0F = .error .unassignedOp ∧
      decode 0x14 = .error .unassignedOp ∧ decode 0x1E = .error .unassignedOp ∧
      decode 0x20 = .error .unassignedOp ∧ decode 0x80000000 = .error .reservedBits ∧
      decode 0x00000100 = .error .phaseBit := by decide

theorem test_witness_StepRunsDecodedCommand :
    (pending 1).turn = .complete ∧ (pending 1).cmd.pending = some 1 ∧ decode 1 = .ok .freq ∧
      (next (.hostWrite 0x00000 0b1111 0x1F)).turn = .hostWrite 0x00000 0b1111 0x1F ∧
      (pending 1).agenda = [.complete] := by decide

theorem test_witness_StepsAnswerAndRunsAreFair :
    (pending 1).cmd.pending = some 1 ∧
      (rxIn .parse .low 0 0 0 (some { len := 40, ovf := false })).rx.phase = .parse ∧
      (rxIn .parse .low 0 0 0 (some { len := 40, ovf := false })).rx.parsePending =
        some { len := 40, ovf := false } ∧
      (rxIn .parse .low 0 0 0 (some { len := 40, ovf := false })).RegsOk := by
  refine ⟨rfl, rfl, rfl, ?_⟩
  unfold State.RegsOk; decide

theorem test_witness_CmdWriteIssuesCommand :
    (0x1F : Word) = 0x0000001F ∧ (0x20 : Word) ≠ 0x0000001F ∧ State.reset.cmd.pending = none ∧
      (pending 0).cmd.pending ≠ none := by decide

theorem test_witness_FreqCountsSymbols :
    (lengths 0 0).codec.msgLen.toNat ≤ (lengths 0 0).params.msgMax ∧
      (lengths 4096 0).codec.msgLen.toNat ≤ (lengths 4096 0).params.msgMax := by decide

/-- FREQ for one symbol: the counts of "a". -/
theorem test_witness_BuildWritesTree :
    (withFreq counts1).rx.phase = .idle ∧ (withFreq counts1).freqTable.sum < 2 ^ 32 ∧
      ∃ sym, sym < 256 ∧ (withFreq counts1).freqAt sym ≠ 0 := by
  have hf := freqTable_withFreq counts1 (by decide +kernel) counts1_lt
  refine ⟨rfl, by rw [hf]; decide +kernel, 0x61, by decide, fun h => ?_⟩
  have := State.freqTable_getD (withFreq counts1) 0x61 (by decide)
  rw [hf, h] at this
  revert this; decide +kernel

/-- One leaf, and 256 leaves; a path to a leaf, and a node with a parent. -/
theorem test_witness_BuildTreeMergesLeast :
    0 < (leafSymbols [7]).length ∧ (leafSymbols (List.replicate 256 1)).length = 256 ∧
      (leafSymbols [1, 2]).length = 2 ∧ (2 : Nat) < 2 * 2 - 1 := by
  rw [leafSymbols_eq _ (by decide), leafSymbols_eq _ (by rw [List.length_replicate]),
    leafSymbols_eq _ (by decide)]
  decide +kernel

theorem holdsTree_leafTree : leafTree.holdsTree counts1 := by
  refine ⟨by rw [leaf1]; decide, by decide +kernel, by rw [tree1_eq]; decide, by rw [leaf1]; rfl, ?_⟩
  rw [tree1_eq]
  intro pass i hi
  obtain rfl : i = 0 := by have : tree1.length = 1 := rfl; omega
  rw [root_leafTree]; rfl

theorem test_witness_CodesWritesPaths :
    leafTree.tree.tv = true ∧ leafTree.holdsTree counts1 ∧ counts1.getD 0x62 0 = 0 ∧
      0 < counts1.getD 0x61 0 ∧ (leafSymbols counts1).length = 1 :=
  ⟨rfl, holdsTree_leafTree, by decide +kernel, by decide +kernel, by rw [leaf1]; rfl⟩

/-- The one-leaf tree with its code table, and a message "a" in MSG. -/
def coded : State :=
  { leafTree with
    tree := { leafTree.tree with cv := true }
    codec := { State.reset.codec with msgLen := 1 }
    store := (stored msgBase [0x61]).putTable (codeLenBase + 4 * 0x61) [1] }

theorem msgAt_coded : coded.msgAt 0 = 0x61 :=
  (State.readByte_written coded 0 msgBase (by decide +kernel) (by decide +kernel)).trans
    (by decide +kernel)

theorem codeLen_coded : coded.codeLenAt 0x61 = 1 :=
  (State.codeLenAt_table coded 0x61 rfl).trans (by decide +kernel)

theorem message_coded : coded.message coded.codec.msgLen.toNat = [0x61] := by
  show (List.range 1).map coded.msgAt = [0x61]
  rw [List.range_one, List.map_singleton, msgAt_coded]

theorem test_witness_EncodeConcatenatesCodes :
    coded.tx.phase = .idle ∧ coded.codec.msgLen.toNat ≤ coded.params.msgMax ∧
      (∀ i, i < coded.codec.msgLen.toNat →
        coded.tree.cv = true ∧ coded.codeLenAt (coded.msgAt i) ≠ 0) ∧
      coded.encodedLen (coded.message coded.codec.msgLen.toNat) ≤ coded.params.bitsMax := by
  refine ⟨rfl, by decide, ?_, ?_⟩
  · intro i hi
    obtain rfl : i = 0 := by have : coded.codec.msgLen.toNat = 1 := rfl; omega
    exact ⟨rfl, by rw [msgAt_coded, codeLen_coded]; decide⟩
  · rw [message_coded]
    simp only [State.encodedLen, List.map_singleton, List.sum_singleton, codeLen_coded]
    decide

/-- An empty frame, and a frame of any 4096 bits. -/
theorem test_witness_DecodeDeliversMessage :
    leafTree.codec.fbufLen.toNat ≤ leafTree.params.bitsMax ∧ leafTree.tree.tv = true ∧
      leafTree.decodeFbuf.1.length ≤ leafTree.params.msgMax := ⟨by decide, rfl, by decide⟩

theorem test_witness_DecodeEmitsLeaves :
    nodeOf abbcccTree 4 = .inner 2 3 6 ∧ descend (nodeOf abbcccTree) 4 [true, false] = some 0x61 ∧
      (∀ path, path <+: [true] → descend (nodeOf abbcccTree) 4 path = none) ∧
      nodeOf [.leaf 0x61 4] 0 = .leaf 0x61 4 := by
  refine ⟨by decide +kernel, by decide +kernel, ?_, by decide⟩
  intro path hp
  have : path = [] ∨ path = [true] := by
    rcases List.prefix_cons_iff.1 hp with h | ⟨l, rfl, hl⟩
    · exact .inl h
    · rw [List.prefix_nil.1 hl]; exact .inr rfl
  rcases this with rfl | rfl <;> decide +kernel

/-- The lengths one above the capacities; the engines busy; no tree. -/
theorem test_witness_HuffmanCommandsFail_ranges :
    (lengths 4097 0).params.msgMax < (lengths 4097 0).codec.msgLen.toNat ∧
      (lengths 4097 0).tx.phase = .idle ∧
      (lengths 0 65537).params.bitsMax < (lengths 0 65537).codec.fbufLen.toNat ∧
      (rxIn .await .low 0 0 0 none).rx.phase ≠ .idle ∧ (txIn .pre 0 0 1).tx.phase ≠ .idle ∧
      State.reset.tree.tv = false ∧
      (lengths 0 65536).codec.fbufLen.toNat ≤ (lengths 0 65536).params.bitsMax := by decide

/-- The total one above 2^32 - 1 (V2.12), and a table of zeros. -/
theorem test_witness_HuffmanCommandsFail_build :
    2 ^ 32 ≤ (withFreq (0xFFFFFFFF :: 1 :: List.replicate 254 0)).freqTable.sum ∧
      ∀ sym, sym < 256 → (withFreq (List.replicate 256 0)).freqAt sym = 0 := by
  constructor
  · rw [freqTable_withFreq _ (by decide +kernel) (by decide +kernel)]; decide +kernel
  · intro sym h
    have h1 := State.freqTable_getD (withFreq (List.replicate 256 0)) sym h
    rw [freqTable_withFreq _ (by decide +kernel) (by decide +kernel)] at h1
    refine BitVec.eq_of_toNat_eq ?_
    rw [← h1]
    rw [List.getD_eq_getElem?_getD, List.getElem?_replicate, if_pos h]; rfl

/-- A stale table: the symbol of MSG has no code; and a code that does not fit. -/
theorem test_witness_HuffmanCommandsFail_encode :
    ((lengths 1 0).tree.cv = false ∧ 0 < (lengths 1 0).codec.msgLen.toNat ∧
        ∀ j, j < 0 → (lengths 1 0).tree.cv = true) ∧
      (let s := { coded with params := { msgMax := 4, bitsMax := 0 } }
       s.params.bitsMax < s.encodedLen (s.message s.codec.msgLen.toNat)) := by
  refine ⟨⟨rfl, by decide, by omega⟩, ?_⟩
  show 0 < coded.encodedLen (coded.message coded.codec.msgLen.toNat)
  rw [message_coded]
  simp only [State.encodedLen, List.map_singleton, List.sum_singleton, codeLen_coded]
  decide

/-- A one-leaf tree turns each of five bits into a symbol, one more than MSG holds (V2.23). -/
theorem test_witness_HuffmanCommandsFail_decode :
    let s : State :=
      { leafTree with
        params := { msgMax := 4, bitsMax := 64 }
        codec := { State.reset.codec with fbufLen := 5 } }
    s.codec.fbufLen.toNat ≤ s.params.bitsMax ∧ s.tree.tv = true ∧
      s.params.msgMax < s.decodeFbuf.1.length := by
  intro s
  refine ⟨by decide, rfl, ?_⟩
  have hr : s.nodeAt 0 0 = .leaf 0x61 1 := root_leafTree 0
  have hroot : s.tree.root.toNat = 0 := rfl
  have hl : ∀ (cur t : Nat) (bits : List Bool),
      (decodeFrom (s.nodeAt 0) 0 cur t bits).1.length = bits.length := by
    intro cur t bits
    induction bits with
    | nil => rfl
    | cons b bs ih => simp [decodeFrom, hr, ih]
  show 4 < (decodeFrom (s.nodeAt 0) s.tree.root.toNat s.tree.root.toNat 0
    (takeBits (s.fbufBit 0) 5)).1.length
  rw [hroot, hl, takeBits_length]
  decide

theorem test_witness_TreeRoundTrip : abbccc ≠ [] := by decide

theorem test_witness_HigherFrequencyShorterCode :
    0 < (List.replicate 0x61 0 ++ [1, 2, 3]).getD (0x61 : Byte).toNat 0 ∧
      (List.replicate 0x61 0 ++ [1, 2, 3]).getD (0x61 : Byte).toNat 0 <
        (List.replicate 0x61 0 ++ [1, 2, 3]).getD (0x63 : Byte).toNat 0 := by decide +kernel

/-- The machine before the round trip of the message "a": MSG written, MSG_LEN 1. -/
def trip : State := { lengths 1 0 with store := stored msgBase [0x61] }

/-- The storage after FREQ and BUILD of "a". -/
def tripTree : Storage :=
  ((trip.store.put freqBase (counts1.flatMap (fun c => Word.bytes (BitVec.ofNat 32 c)))).putTable
    treeBase (treeBytes tree1)).clearCodes

theorem freqBytes_length :
    (counts1.flatMap (fun c => Word.bytes (BitVec.ofNat 32 c))).length = 1024 := by decide +kernel

theorem treeBytes1_length : (treeBytes tree1).length = 4096 := by decide +kernel

/-- FREQ and BUILD leave everything above TREE alone. -/
theorem tripTree_get (a : Nat) (h : treeEnd ≤ a) :
    tripTree.bits.get a = trip.store.bits.get a ∧
      tripTree.written.get a = trip.store.written.get a := by
  have hc : ¬ codeOffsets a := by
    unfold codeOffsets within codeLenBase codeBitsBase; unfold treeEnd at h; omega
  unfold treeEnd at h
  constructor
  · rw [tripTree, (Storage.clearCodes_get _ a).2 hc, Storage.putTable_bits, Memory.get_splice,
      if_neg (by rw [treeBytes1_length]; unfold treeBase; omega),
      Storage.put, Memory.get_splice, if_neg (by rw [freqBytes_length]; unfold freqBase; omega)]
  · rw [tripTree, Storage.clearCodes_written, Storage.putTable_written, Storage.put, Memory.get_splice,
      if_neg (by rw [List.length_replicate, freqBytes_length]; unfold freqBase; omega)]

/-- The storage after CODES of "a". -/
def tripCodes : Storage := tripTree.clearCodes.putCode (0x61, [false])

/-- CODES leaves everything above TREE alone. -/
theorem tripCodes_get (a : Nat) (h : treeEnd ≤ a) :
    tripCodes.bits.get a = trip.store.bits.get a ∧
      tripCodes.written.get a = trip.store.written.get a := by
  have hc : ¬ codeOffsets a := by
    unfold codeOffsets within codeLenBase codeBitsBase; unfold treeEnd at h; omega
  have e1 : codeBitsBase + 32 * (0x61 : Byte).toNat + 0 / 8 = 0x2C20 := by decide
  have e2 : codeLenBase + 4 * (0x61 : Byte).toNat = 0x1584 := by decide
  have h1 : tripCodes.bits.get a = tripTree.clearCodes.bits.get a := by
    unfold treeEnd at h
    rw [tripCodes, Storage.putCode, Storage.putTableBits, Storage.putTableBits, Storage.putTableBit,
      Storage.putTable_bits, Memory.get_splice,
      if_neg (by rw [List.length_singleton]; dsimp only; rw [e1]; omega),
      Storage.putTable_bits, Memory.get_splice,
      if_neg (by rw [List.length_singleton]; dsimp only; rw [e2]; omega)]
  have h2 : tripCodes.written = tripTree.written := by
    rw [tripCodes, Storage.putCode, Storage.putTableBits, Storage.putTableBits, Storage.putTableBit,
      Storage.putTable_written, Storage.putTable_written, Storage.clearCodes_written]
  exact ⟨h1.trans (((Storage.clearCodes_get _ a).2 hc).trans (tripTree_get a h).1),
    (congrArg (fun m : Memory => m.get a) h2).trans (tripTree_get a h).2⟩

/-- The code of "a" is one bit long. -/
theorem tripCodes_len : tripCodes.bits.get (codeLenBase + 4 * (0x61 : Byte).toNat) = 1 := by
  rw [tripCodes, Storage.putCode, Storage.putTableBits, Storage.putTableBits, Storage.putTableBit,
      Storage.putTable_bits, Memory.get_splice, if_neg (by decide),
      Storage.putTable_bits, Memory.get_splice, if_pos (by decide)]
  rfl

/-- The root that BUILD leaves is the leaf of "a". -/
theorem tripTree_root : tripTree.bits.node 0 = .leaf 0x61 1 := by
  have h : ∀ k < 8, tripTree.bits.get (treeBase + k) = (treeBytes tree1).getD k 0 := by
    intro k hk
    have hc : ¬ codeOffsets (treeBase + k) := by
      unfold codeOffsets within codeLenBase codeBitsBase treeBase; omega
    rw [tripTree, (Storage.clearCodes_get _ _).2 hc, Storage.putTable_bits, Memory.get_splice,
      if_pos (by rw [treeBytes1_length]; omega), Nat.add_sub_cancel_left]
  have h0 := h 0 (by decide)
  rw [Nat.add_zero] at h0
  unfold Memory.node Memory.word
  rw [Nat.mul_zero, Nat.add_zero, h0, h 1 (by decide), h 2 (by decide), h 3 (by decide), h 4 (by decide),
    Nat.add_assoc, Nat.add_assoc, Nat.add_assoc, h (4 + 1) (by decide), h (4 + 2) (by decide), h (4 + 3) (by decide)]
  decide +kernel

theorem trip_freq (u : State) (hn : u.codec.msgLen.toNat = 1) (hp : u.params = Params.default)
    (hm : u.message 1 = [0x61]) :
    ∃ v, exec .freq u = .next v ∧ v.cmd.err = .ok ∧
      v.store =
        u.store.put freqBase (counts1.flatMap (fun c => Word.bytes (BitVec.ofNat 32 c))) ∧
      v.rx = u.rx ∧ v.tx = u.tx ∧ v.codec = u.codec ∧ v.params = u.params := by
  have hc : u.msgRange = none := (State.msgRange_none u).2 (by rw [hn, hp]; decide)
  refine ⟨u.freqEffect.succeed 0x01, by rw [exec_freq, hc]; rfl, rfl, ?_, rfl, rfl, rfl, rfl⟩
  rw [State.succeed_store, State.freqEffect, hn, hm]; dsimp only; rw [counts1_eq]

theorem trip_build (u : State) (hf : u.freqTable = counts1) (hr : u.rx.phase = .idle) :
    ∃ v, exec .build u = .next v ∧ v.cmd.err = .ok ∧
      v.store = (u.store.putTable treeBase (treeBytes tree1)).clearCodes ∧
      v.tree = { tv := true, cv := false, root := 0, nleaf := 1 } ∧ v.tx = u.tx ∧
      v.codec = u.codec ∧ v.params = u.params := by
  have hc : u.buildCheck = none :=
    (State.buildCheck_none u).2 ⟨hr, by rw [hf]; decide +kernel, by rw [hf]; decide +kernel⟩
  refine ⟨u.buildEffect.succeed 0x02, by rw [exec_build, hc]; rfl, rfl, ?_, ?_, rfl, rfl, rfl⟩
  · rw [State.succeed_store, State.buildEffect, hf, tree1_eq]
  · rw [State.succeed_tree, State.buildEffect, hf, tree1_eq]; dsimp only; rw [leaf1]; rfl

theorem trip_codes (u : State) (ht : u.tree = { tv := true, cv := false, root := 0, nleaf := 1 })
    (hn : u.nodeAt 0 0 = .leaf 0x61 1) :
    ∃ v, exec .codes u = .next v ∧ v.cmd.err = .ok ∧
      v.store = u.store.clearCodes.putCode (0x61, [false]) ∧
      v.tree = { tv := true, cv := true, root := 0, nleaf := 1 } ∧ v.tx = u.tx ∧
      v.codec = u.codec ∧ v.params = u.params := by
  have hc : u.codesCheck = none := (State.codesCheck_none u).2 (by rw [ht])
  have h0 : u.tree.root.toNat = 0 := by rw [ht]; rfl
  have hct : codeTable (u.nodeAt 0) u.tree.root.toNat = [(0x61, [false])] := by
    unfold codeTable; rw [h0, hn]
  refine ⟨u.codesEffect.succeed 0x03, by rw [exec_codes, hc]; rfl, rfl, ?_, ?_, rfl, rfl, rfl⟩
  · rw [State.succeed_store, State.codesEffect, hct]; rfl
  · rw [State.succeed_tree, State.codesEffect, ht]

theorem trip_encode (u : State) (hx : u.tx.phase = .idle) (hn : u.codec.msgLen.toNat = 1)
    (hp : u.params = Params.default) (hm : u.message 1 = [0x61])
    (ht : u.tree = { tv := true, cv := true, root := 0, nleaf := 1 })
    (hl : u.codeLenAt 0x61 = 1) :
    ∃ v, exec .encode u = .next v ∧ v.cmd.err = .ok ∧ v.tree = u.tree ∧ v.params = u.params ∧
      v.codec.fbufLen = 1 := by
  have he : u.encodedLen [0x61] = 1 := by
    rw [State.encodedLen, List.map_singleton, List.sum_singleton, hl]
  have hc : u.encodeCheck = none := by
    refine (State.encodeCheck_none u).2 ⟨hx, by rw [hn, hp]; decide, ?_, ?_⟩
    · rw [hn, hm]
      intro sym hs
      rw [List.mem_singleton.1 hs, State.absent, hl, ht]; rfl
    · rw [hn, hm, he, hp]; decide
  refine ⟨u.encodeEffect.succeed 0x04, by rw [exec_encode, hc]; rfl, rfl, rfl, rfl, ?_⟩
  rw [State.succeed_codec, State.encodeEffect, hn, hm, he]; rfl

theorem trip_decode (u : State) (hn : u.codec.fbufLen = 1) (hp : u.params = Params.default)
    (ht : u.tree.tv = true) : ∃ v, exec .decode u = .next v ∧ v.cmd.err = .ok := by
  have hc : u.decodeCheck = none := by
    refine (State.decodeCheck_none u).2 ⟨by rw [hn, hp]; decide, ht, ?_⟩
    refine (decodeFrom_length _ _ _ _ _).trans ?_
    rw [takeBits_length, hn, hp]; decide
  exact ⟨u.decodeEffect.succeed 0x05, by rw [exec_decode, hc]; rfl, rfl⟩

/-- A message "a" in MSG reads as it, whatever the draws. -/
theorem message_of_store (u : State) (hb : u.store.bits.get msgBase = 0x61)
    (hw : u.store.written.get msgBase = 0xFF) : u.message 1 = [0x61] := by
  have : u.msgAt 0 = 0x61 :=
    (State.readByte_written u 0 msgBase (by decide +kernel) hw).trans hb
  rw [State.message, List.range_one, List.map_singleton, this]

/-- The round trip of "a": every command succeeds, each step with draws of its own. -/
theorem test_witness_CommandRoundTrip :
    trip.params.legal = true ∧ trip.codec.msgLen.toNat = 1 ∧
      MsgWritten trip trip.codec.msgLen.toNat ∧
      ∃ t1 t2 t3 t4 t5 : State,
        exec .freq trip = .next t1 ∧ t1.cmd.err = .ok ∧
        exec .build { t1 with draws := 1 } = .next t2 ∧ t2.cmd.err = .ok ∧
        exec .codes { t2 with draws := 2 } = .next t3 ∧ t3.cmd.err = .ok ∧
        exec .encode { t3 with draws := 3 } = .next t4 ∧ t4.cmd.err = .ok ∧
        exec .decode { t4 with draws := 4 } = .next t5 ∧ t5.cmd.err = .ok := by
  refine ⟨by decide, rfl, ?_, ?_⟩
  · intro i hi
    obtain rfl : i = 0 := by have : trip.codec.msgLen.toNat = 1 := rfl; omega
    decide +kernel
  obtain ⟨t1, e1, o1, s1, r1, x1, c1, p1⟩ :=
    trip_freq trip rfl rfl (message_of_store trip (by decide +kernel) (by decide +kernel))
  obtain ⟨t2, e2, o2, s2, r2, x2, c2, p2⟩ :=
    trip_build { t1 with draws := 1 }
      (State.freqTable_put trip _ counts1 (by decide +kernel) counts1_lt s1) (by rw [r1]; rfl)
  have hs2 : t2.store = tripTree := by rw [s2]; dsimp only; rw [s1]; rfl
  obtain ⟨t3, e3, o3, s3, r3, x3, c3, p3⟩ :=
    trip_codes { t2 with draws := 2 } r2 (by
      rw [State.nodeAt_table _ _ _ (by rw [r2]) (by decide)]
      dsimp only; rw [hs2]; exact tripTree_root)
  have hs3 : t3.store = tripCodes := by rw [s3]; dsimp only; rw [hs2]; rfl
  have hm := tripCodes_get msgBase (by decide)
  obtain ⟨t4, e4, o4, r4, p4, f4⟩ :=
    trip_encode { t3 with draws := 3 } (by dsimp only; rw [x3]; dsimp only; rw [x2]; dsimp only; rw [x1]; rfl)
      (by dsimp only; rw [c3]; dsimp only; rw [c2]; dsimp only; rw [c1]; rfl)
      (by dsimp only; rw [p3]; dsimp only; rw [p2]; dsimp only; rw [p1]; rfl)
      (message_of_store _ (by dsimp only; rw [hs3, hm.1]; decide +kernel)
        (by dsimp only; rw [hs3, hm.2]; decide +kernel)) r3
      (by
        rw [State.codeLenAt_table _ _ (by rw [r3])]
        dsimp only; rw [hs3, tripCodes_len]; rfl)
  obtain ⟨t5, e5, o5⟩ :=
    trip_decode { t4 with draws := 4 } f4
      (by dsimp only; rw [p4]; dsimp only; rw [p3]; dsimp only; rw [p2]; dsimp only; rw [p1]; rfl)
      (by dsimp only; rw [r4]; dsimp only; rw [r3])
  exact ⟨t1, t2, t3, t4, t5, e1, o1, e2, o2, e3, o3, e4, o4, e5, o5⟩

/-- FBUF written with bytes, and a length; a tree or none. -/
def framed (bytes : List Byte) (len : Word) : State :=
  { lengths 0 len with store := stored fbufBase bytes }

theorem test_witness_AddckAppendsChecksum :
    (lengths 0 0).tx.phase = .idle ∧ (lengths 0 65504).codec.fbufLen.toNat ≤ 65536 ∧
      ceil8 (lengths 0 0).codec.fbufLen.toNat + 32 ≤ (lengths 0 0).params.bitsMax ∧
      ceil8 (lengths 0 65504).codec.fbufLen.toNat + 32 ≤ (lengths 0 65504).params.bitsMax := by decide

/-- 39 and 40 bits: the clauses of SHORT and of the sums. -/
theorem test_witness_ValidateReportsVerdict :
    (lengths 0 39).codec.fbufLen.toNat ≤ (lengths 0 39).params.bitsMax ∧
      (lengths 0 39).codec.fbufLen.toNat < 40 ∧
      (lengths 0 65536).codec.fbufLen.toNat ≤ (lengths 0 65536).params.bitsMax ∧
      40 ≤ (lengths 0 40).codec.fbufLen.toNat := by decide

/-- A frame of zero bytes reads as zeros. -/
theorem fbuf_zeros (s : State) (n : Nat) (hs : s.store = stored fbufBase (List.replicate n 0)) (p k : Nat)
    (hk : k < 8 * n) : s.fbufBit p k = false := by
  unfold State.fbufBit State.readBit
  rw [State.readByte_put_inside { s with store := { bits := [], written := [] } } s p fbufBase _ _ hs
    (inTables_of_ge _ (by unfold fbufBase treeEnd; omega)) (by omega)
    (by rw [List.length_replicate]; omega), List.getD_eq_getElem?_getD, List.getElem?_replicate,
    if_pos (by omega)]
  simp

/-- A frame of 40 zero bits is GOOD at the reset threshold (V3.8). -/
theorem zeros_good (s : State) (n : Nat) (hs : s.store = stored fbufBase (List.replicate n 0))
    (ha : s.acc = State.reset.acc) (hn : 40 ≤ 8 * n) :
    validate s.acc (s.fbufBit 0) 40 =
      { result := .good, sum := 0, ck := 0, fid := 0x00010000 } := by
  rw [validate_congr s.acc (s.fbufBit 0) (fun _ => false) 40
    (fun k hk => fbuf_zeros s n hs 0 k (by omega)), ha]
  decide +kernel

/-- A tree, and a frame of 40 zero bits at given parameters. -/
def parsing (p : Params) : State :=
  { framed (List.replicate 5 0) 40 with
    params := p, tree := { tv := true, cv := false, root := 0, nleaf := 1 } }

/-- The cases of PARSE: a SHORT frame; a GOOD one with no tree; a GOOD one whose decode fits any message
buffer of 8 symbols; and one whose decode does not fit a buffer of none. -/
theorem test_witness_ParseDeliversGoodFrames :
    (validate State.reset.acc ((framed [] 0).fbufBit 0) 0).result ≠ .good ∧
      (framed (List.replicate 5 0) 40).codec.fbufLen.toNat ≤ 65536 ∧
      (validate State.reset.acc ((framed (List.replicate 5 0) 40).fbufBit 0) 40).result = .good ∧
      (framed (List.replicate 5 0) 40).tree.tv = false ∧
      (let s := parsing { msgMax := 8, bitsMax := 64 }
       (validate s.acc (s.fbufBit 0) 40).result = .good ∧ s.tree.tv = true ∧
        (s.decodeBits 1 (takeBits (s.fbufBit 1) (40 - 32 - s.cfg.pad.toNat))).1.length ≤ 8) := by
  refine ⟨by decide, by decide, ?_, rfl, ?_, rfl, ?_⟩
  · exact congrArg Verdict.result (zeros_good (framed (List.replicate 5 0) 40) 5 rfl rfl (by decide))
  · exact congrArg Verdict.result (zeros_good (parsing { msgMax := 8, bitsMax := 64 }) 5 rfl rfl (by decide))
  · refine (decodeFrom_length _ _ _ _ _).trans ?_
    rw [takeBits_length]; decide

/-- A GOOD frame whose 8 payload bits decode, over the one-leaf tree, to 8 symbols, one more than the
message buffer would hold at 7. -/
theorem test_witness_ParseDeliversGoodFrames_overflow :
    let s : State :=
      { leafTree with
        params := { msgMax := 7, bitsMax := 64 }
        codec := { State.reset.codec with fbufLen := 40 }
        store := leafTree.store.put fbufBase (List.replicate 5 0) }
    (validate s.acc (s.fbufBit 0) 40).result = .good ∧ s.tree.tv = true ∧
      s.params.msgMax <
        (s.decodeBits 1 (takeBits (s.fbufBit 1) (40 - 32 - s.cfg.pad.toNat))).1.length := by
  intro s
  have hz : ∀ k < 40, s.fbufBit 0 k = false := by
    intro k hk
    unfold State.fbufBit State.readBit
    rw [State.readByte_put_inside leafTree s 0 fbufBase _ _ rfl
      (inTables_of_ge _ (by unfold fbufBase treeEnd; omega)) (by omega)
      (by rw [List.length_replicate]; omega), List.getD_eq_getElem?_getD, List.getElem?_replicate,
      if_pos (by omega)]
    simp
  have hr : s.nodeAt 1 0 = .leaf 0x61 1 := by
    rw [State.nodeAt_table s 1 0 rfl (by decide)]
    decide +kernel
  refine ⟨?_, rfl, ?_⟩
  · rw [validate_congr s.acc (s.fbufBit 0) (fun _ => false) 40 hz]
    decide +kernel
  · have hl : ∀ (cur t : Nat) (bits : List Bool),
        (decodeFrom (s.nodeAt 1) 0 cur t bits).1.length = bits.length := by
      intro cur t bits
      induction bits with
      | nil => rfl
      | cons b bs ih => simp [decodeFrom, hr, ih]
    show 7 < (decodeFrom (s.nodeAt 1) 0 0 0 (takeBits (s.fbufBit 1) 8)).1.length
    rw [hl, takeBits_length]
    decide

/-- FBUF_LEN one above BITS_MAX, and the largest that has no room for a checksum (V3.20). -/
theorem test_witness_LinkCommandsFail :
    (txIn .delay 0 0 1).tx.phase ≠ .idle ∧ (lengths 0 65537).tx.phase = .idle ∧
      (lengths 0 65537).params.bitsMax < (lengths 0 65537).codec.fbufLen.toNat ∧
      (lengths 0 65505).codec.fbufLen.toNat ≤ (lengths 0 65505).params.bitsMax ∧
      (lengths 0 65505).params.bitsMax < ceil8 (lengths 0 65505).codec.fbufLen.toNat + 32 ∧
      (rxIn .parse .low 0 0 0 (some { len := 0, ovf := false })).rx.phase ≠ .idle := by decide

theorem test_witness_ChecksumIsLastWord : 32 ≤ 32 ∧ 0 < 32 ∧ 31 < 32 := by decide

theorem test_witness_BytesAreGroups : 8 % 8 = 0 ∧ 0 < 8 / 8 := by decide

/-- A payload of one written bit, and an empty one. -/
theorem test_witness_CleanFrameValidates :
    (framed [0x80] 1).params.legal = true ∧ FbufWritten (framed [0x80] 1) 1 ∧
      (framed [0x80] 1).acc.num.toNat < (framed [0x80] 1).acc.den.toNat ∧
      (∃ t, exec .addck (framed [0x80] 1) = .next t ∧ t.cmd.err = .ok) ∧
      ∃ t, exec .addck (lengths 0 0) = .next t ∧ t.cmd.err = .ok := by
  refine ⟨by decide, ?_, by decide, ⟨_, rfl, ?_⟩, ⟨_, rfl, ?_⟩⟩
  · intro k hk
    obtain rfl : k = 0 := by omega
    decide +kernel
  · have hc : (framed [0x80] 1).addckCheck = none :=
      (State.addckCheck_none _).2 ⟨rfl, by decide, by decide⟩
    rw [hc]; rfl
  · have hc : (lengths 0 0).addckCheck = none :=
      (State.addckCheck_none _).2 ⟨rfl, by decide, by decide⟩
    rw [hc]; rfl

/-- The frame of 40 zero bits is clean; bits 0, 7, 8 and 39 are in it. -/
theorem test_witness_FlippedBitLowersFidelity :
    byteGroupSum (fun _ => false) (40 - 32) = checksum32 (fun _ => false) 40 ∧ 40 ≤ 524288 ∧
      0 < 40 - 32 ∧ 7 < 40 - 32 ∧ 40 - 32 ≤ 8 ∧ 39 < 40 ∧
      (let v := validate State.reset.acc (fun k => k == 0) 40
       0 < max v.sum.toNat v.ck.toNat ∧
        min v.sum.toNat v.ck.toNat * State.reset.acc.den.toNat ≤
          State.reset.acc.num.toNat * max v.sum.toNat v.ck.toNat) := by decide +kernel

theorem test_witness_ShortFrameNeverDecoded :
    (lengths 0 39).params.legal = true ∧ (lengths 0 39).codec.fbufLen.toNat < 40 ∧
      (rxIn .parse .low 39 0 0 (some { len := 39, ovf := false })).rx.phase = .parse ∧
      (rxIn .parse .low 39 0 0 (some { len := 39, ovf := false })).rx.parsePending =
        some { len := 39, ovf := false } := by decide

theorem test_witness_TxStartArmsEngine :
    (lengths 0 0).tx.phase = .idle ∧ (lengths 0 65536).tx.phase = .idle ∧
      (lengths 0 65536).codec.fbufLen.toNat ≤ (lengths 0 65536).params.bitsMax := by decide

theorem test_witness_RxStartAwaitsPulse : State.reset.rx.phase = .idle := by decide

/-- A state for each clause: idle; not at a phase's end; each phase at its end, the last bit and the one
before it apart. -/
theorem test_witness_TxTickRunsPhases :
    (txIn .idle 0 0 0).tx.phase = .idle ∧ (txIn .pre 0 2 2).tx.rem ≠ 1 ∧
      ((txIn .pre 0 2 1).tx.rem = 1 ∧ (txIn .pre 0 2 1).tx.phase = .pre) ∧
      (txIn .init 0 2 1).tx.phase = .init ∧
      ((txIn .gapi 0 0 1).tx.phase = .gapi ∧ (txIn .gapi 0 0 1).tx.len = 0) ∧
      (txIn .gapi 0 1 1).tx.len ≠ 0 ∧ (txIn .bith 0 2 1).tx.phase = .bith ∧
      (txIn .bitl 0 2 1).tx.bitIdx.toNat + 1 < (txIn .bitl 0 2 1).tx.len.toNat ∧
      (txIn .bitl 1 2 1).tx.len.toNat ≤ (txIn .bitl 1 2 1).tx.bitIdx.toNat + 1 ∧
      (txIn .term 0 2 1).tx.phase = .term ∧ (txIn .delay 0 2 1).tx.phase = .delay := by decide

/-- A frame of two written bits, armed by TX_START. -/
def armed : State := { txIn .pre 0 2 100 with store := stored fbufBase [0x80] }

theorem test_witness_FrameLastsItsTicks :
    armed.TxOk ∧ armed.cfg.txRepeat = false ∧ armed.tx.phase = .pre ∧
      armed.tx.rem = armed.txTiming.pre ∧ FbufWritten armed armed.tx.len.toNat ∧
      (txIn .pre 0 0 100).TxOk := by
  refine ⟨by unfold State.TxOk; decide, rfl, rfl, rfl, ?_, by unfold State.TxOk; decide⟩
  intro k hk
  have hk : k < 2 := hk
  interval_cases k <;> decide +kernel

theorem test_witness_RxTickMeasuresPulses :
    (rxIn .await .low 0 0 0 none).rx.phase = .await ∧ (rxIn .recv .low 0 0 0 none).rx.phase = .recv ∧
      (rxIn .recv .low 0 0 0 none).rx.det = .low ∧ (rxIn .await .needLow 0 0 0 none).rx.det = .needLow ∧
      (rxIn .recv .high 0 0xFFFFFFFF 0 none).rx.det = .high ∧ State.reset.rx.phase = .idle ∧
      1 < (rxIn .delay .low 0 0 2 none).rx.dcnt.toNat ∧ (rxIn .delay .low 0 0 1 none).rx.dcnt = 1 ∧
      (rxIn .delay .low 0 0 1 none).rx.phase = .delay := by decide

/-- Every class at the reset bands, and RBUF with one bit of room and with none. -/
theorem test_witness_PulseDrivesReceiver :
    classifyAwait State.reset.bands 401 = .init ∧ classifyAwait State.reset.bands 400 ≠ .init ∧
      classifyRecv State.reset.bands 95 = .bit0 ∧ classifyRecv State.reset.bands 96 = .bit1 ∧
      classifyRecv State.reset.bands 999 = .noise ∧ classifyRecv State.reset.bands 1000 = .term ∧
      (rxIn .recv .low 65535 0 0 none).rx.rbufLen.toNat < State.reset.params.bitsMax ∧
      State.reset.params.bitsMax ≤ (rxIn .recv .low 65536 0 0 none).rx.rbufLen.toNat := by decide

/-- A SHORT frame and one that lost bits; one shot, and continuous with and without a delay. -/
theorem test_witness_ParseStepPublishes :
    (rxIn .parse .low 2 0 0 (some { len := 2, ovf := false })).rx.phase = .parse ∧
      ((rxIn .parse .low 2 0 0 (some { len := 2, ovf := true })).frameParse
        (rxIn .parse .low 2 0 0 none).rbufBit 2 true).verdict.result = .rxovf ∧
      State.reset.cfg.rxCont = false ∧ State.reset.rxDelay = 0 ∧
      ({ State.reset with cfg := { State.reset.cfg with rxCont := true } } : State).cfg.rxCont = true ∧
      ({ State.reset with rxDelay := 3 } : State).rxDelay ≠ 0 := by decide

/-- Reset timing and bands, loopback, the RX engine awaiting; an empty frame. -/
def looped : State :=
  { rxIn .await .needLow 0 0 0 none with cfg := { State.reset.cfg with loop := true } }

theorem test_witness_LoopbackDeliversFrame :
    looped.TxOk ∧ looped.params.legal = true ∧ exec .txStart looped = .next (run .txStart looped) ∧
      (run .txStart looped).cmd.err = .ok ∧ (run .txStart looped).cfg.loop = true ∧
      (run .txStart looped).rx.phase = .await ∧ (run .txStart looped).rx.det = .needLow ∧
      (let s := run .txStart looped
       (s.bands.initMin ≤ s.txTiming.init ∧ s.txTiming.init ≤ s.bands.initMax) ∧
        (s.bands.shortMin ≤ s.txTiming.bit0 ∧ s.txTiming.bit0 ≤ s.bands.shortMax ∧
          s.txTiming.bit0 < s.bands.termMin) ∧
        (s.bands.longMin ≤ s.txTiming.bit1 ∧ s.txTiming.bit1 ≤ s.bands.longMax ∧
          s.txTiming.bit1 < s.bands.termMin ∧
          ¬ (s.bands.shortMin ≤ s.txTiming.bit1 ∧ s.txTiming.bit1 ≤ s.bands.shortMax)) ∧
        s.bands.termMin ≤ s.txTiming.term ∧ s.tx.len.toNat = 0) ∧
      FbufWritten (run .txStart looped) 0 ∧
      (List.replicate (100 + 650 + 100 + 0 * (50 + 100) + 0 * (150 + 100) + 1200 + 1) true).length =
        100 + 650 + 100 + 0 * (50 + 100) + 0 * (150 + 100) + 1200 + 1 := by
  refine ⟨by unfold State.TxOk; decide, by decide, rfl, by decide, by decide, by decide, by decide,
    by decide, fun k hk => absurd hk (Nat.not_lt_zero k), List.length_replicate⟩

/-- One of two DELAY ticks, and the last one. -/
theorem test_witness_TickSamplesLine :
    State.reset.cfg.loop = false ∧
      ({ State.reset with cfg := { State.reset.cfg with loop := true } } : State).cfg.loop = true := by
  decide

theorem test_witness_DelayIgnoresLine :
    (rxIn .delay .low 0 0 2 none).rx.phase = .delay ∧ (rxIn .delay .low 0 0 2 none).rx.dcnt ≠ 0 ∧
      [true].length < (rxIn .delay .low 0 0 2 none).rx.dcnt.toNat ∧
      [true].length = (rxIn .delay .low 0 0 1 none).rx.dcnt.toNat := by decide

theorem test_witness_ReadReturnsStored :
    reach State.reset.params 0x00000 0b1111 = some (.csr .cmd .wo) ∧
      reach State.reset.params 0x00058 0b1111 = some (.csr .timeLo .ro) ∧
      reach State.reset.params 0x51FFC 0b1111 = some .rbuf ∧ State.reset.cmd.pending = none ∧
      (0x0004C, (0x50504C31 : Word)) ∈ State.reset.registerMap ∧
      (0x00124, (1000 : Word)) ∈ State.reset.registerMap ∧
      0x000AC ∉ State.reset.registerMap.map Prod.fst ∧ State.reset.params.legal = true := by
  decide +kernel

/-- The last word of RBUF at the reset capacities, and the first one past it. -/
theorem test_witness_ReadReturnsStored_storage :
    storageOffset State.reset.params 0x51FFC ∧ ¬ storageOffset State.reset.params 0x52000 := by
  unfold storageOffset within; decide

/-- TX_LEN, the gap before TX_REM, CODE_LEN and the first offset past MSG are not writable. -/
theorem test_witness_RefusedAccessChangesNothing_offsets :
    (∀ a ∈ [0x00088, 0x000AC, 0x01400, 0x11000],
        a ≠ 0 ∧ a ∉ writableRegisters ∧ ¬ writableWindows State.reset.params a) ∧
      within 0x40000 0x10000 0x4FFFC := by
  unfold writableWindows within; decide

/-- Misaligned by one; one strobe off; the first offset past each buffer; an RO register; FBUF while
sending. -/
theorem test_witness_RefusedAccessChangesNothing :
    (0x00001 : BitVec 20).toNat % 4 ≠ 0 ∧ (0b1110 : BitVec 4) ≠ 0b1111 ∧
      locate State.reset.params 0x11000 = none ∧ locate State.reset.params 0x42000 = none ∧
      locate State.reset.params 0x000AC = none ∧ locate State.reset.params 0x60000 = none ∧
      locate State.reset.params 0x00004 = some (.csr .cmdStatus .ro) ∧
      (Region.csr .cmdStatus .ro).writable = false ∧ locate State.reset.params 0x40000 = some .fbuf ∧
      (txIn .pre 0 0 1).tx.phase ≠ .idle := by decide +kernel

theorem test_witness_BusyWritesRefused :
    (pending 0).cmdBusy = true ∧ (0x00010 : BitVec 20) ≠ 0x00000 ∧ (0x00010 : BitVec 20) ≠ 0x00044 ∧
      (0x00010 : BitVec 20) ≠ 0x00048 ∧ (0x00048 : BitVec 20) = 0x00048 := by decide

/-- The first and the last word of each window the host writes. -/
theorem test_witness_WindowWriteReadsBack :
    (∀ a ∈ [0x01000, 0x013FC, 0x10000, 0x10FFC, 0x40000, 0x41FFC],
        a % 4 = 0 ∧ writableWindows State.reset.params a) ∧
      State.reset.tx.phase = .idle ∧ State.reset.cmd.pending = none := by
  unfold writableWindows within; decide

theorem test_witness_RegisterWriteReadsBack :
    Csr.rxDelay ∈ [Csr.msgLen, .fbufLen, .clsIn, .rxDelay] ∧ Csr.txPre ∈ [Csr.txPre, .txInit] ∧
      Csr.cfg ≠ Csr.msgLen ∧ locate State.reset.params 0x00044 = some (.csr .irqStatus .w1c) ∧
      locate State.reset.params 0x0000C = some (.csr .cfg .rw) ∧ 0x0000C ∈ writableRegisters ∧
      0x00124 ∈ writableRegisters ∧ State.reset.cmd.pending = none := by decide +kernel

theorem test_witness_PendingReadsSettleElsewhere :
    State.reset.cmd.pending = none ∧ (pending 0x0A).cmd.pending = some 0x0A ∧
      decode 0x0A = .error .unassignedOp ∧
      Instr.rxStop ∈ [Instr.nop, .txStart, .txStop, .rxStart, .rxStop] ∧
      (∀ i, i ∈ [Instr.freq, .build, .codes, .encode, .decode, .addck, .validate, .parse,
        .classify 0, .classify 1] → (pending (encode i)).cmd.pending = some (encode i)) ∧
      reach (pending (encode .freq)).params 0x013FC 0b1111 = some .freq := by decide +kernel

/-- Bits 0 to 7 of FBUF are byte 0, most significant first (R62): with frame bits 0 to 2 free, bits 7 to 5
of the first word are, and bit 4 is not. -/
theorem test_fbufWordBits :
    (bufferMask fbufBase 0 3 0x40000) = 0xE0 ∧ fbufWordBits 0 3 0x40000 7 ∧
      fbufWordBits 0 3 0x40000 5 ∧ ¬ fbufWordBits 0 3 0x40000 4 := by
  unfold fbufWordBits within; decide +kernel

theorem test_witness_IrqLineFollowsRegisters :
    ∀ b, b < 8 → State.reset.irq.status.getLsbD b = true → State.reset.irq.enable.getLsbD b = true →
      (0 : Word).getLsbD b = true := by decide

theorem regsOk_reset (p : Option Word) (a : List Input) (h : p ≠ some 0x0000001F) (q : IrqRegs) :
    ({ State.reset with cmd := { State.reset.cmd with pending := p }, agenda := a, irq := q } :
      State).RegsOk :=
  ⟨h, by dsimp only; decide, by dsimp only; decide, by dsimp only; decide, by dsimp only; decide,
    by dsimp only; decide, by dsimp only; decide⟩

/-- CMD_DONE is pending, and the next turn is a tick; or a write of 1 to it. -/
theorem test_witness_IrqBitsAreSticky :
    (∃ s t : State, s.RegsOk ∧ s.turn = .tick true ∧ step s = .next t ∧
      s.irq.status.getLsbD 0 = true) ∧
    ∃ s t : State, s.RegsOk ∧ s.turn = .hostWrite 0x00044 0b1111 1 ∧ step s = .next t ∧
      s.irq.status.getLsbD 7 = true ∧ s.irq.status.getLsbD 0 = true := by
  refine ⟨⟨{ State.reset with agenda := [.tick true], irq := { status := 1, enable := 0 } }, _,
    regsOk_reset none _ (by decide) _, rfl, rfl, by decide⟩,
    ⟨{ State.reset with
        agenda := [.hostWrite 0x00044 0b1111 1], irq := { status := 0x81, enable := 0 } }, _,
      regsOk_reset none _ (by decide) _, rfl, rfl, by decide, by decide⟩⟩

theorem test_witness_TimeCountsTicksOnly :
    (∃ t, (next (.tick false)).RegsOk ∧ step (next (.tick false)) = .next t) ∧
      (∃ t, (next .reset).RegsOk ∧ step (next .reset) = .next t ∧ turnResets (next .reset).turn = true) ∧
      ∃ t, (pending 0).RegsOk ∧ step (pending 0) = .next t ∧ turnResets (pending 0).turn = false := by
  exact ⟨⟨_, regsOk_reset none _ (by decide) _, rfl⟩, ⟨_, regsOk_reset none _ (by decide) _, rfl, rfl⟩,
    ⟨_, regsOk_reset (some 0) _ (by decide) _, rfl, rfl⟩⟩

/-- The one-leaf tree while the RX engine awaits, and a BUILD comes to completion. -/
theorem test_witness_TreeFixedWhileReceiving :
    ∃ s t : State, s.RegsOk ∧ s.TreeOk ∧ s.tree.tv = true ∧ s.rx.phase ≠ .idle ∧
      turnResets s.turn = false ∧ step s = .next t := by
  refine ⟨{ leafTree with
      rx := { State.reset.rx with phase := .await }
      cmd := { State.reset.cmd with pending := some 2 }, agenda := [.complete] }, _,
    ⟨by decide, by decide, by decide, by decide, by decide, by decide, by decide⟩,
    fun _ => ⟨counts1, holdsTree_leafTree⟩, rfl, by decide, rfl, rfl⟩

theorem test_witness_FrameFixedWhileSending :
    ∃ s t : State, s.RegsOk ∧ s.params.legal = true ∧ s.tx.phase ≠ .idle ∧
      turnResets s.turn = false ∧ step s = .next t ∧ within fbufBase 0x10000 0x40000 ∧
      within fbufBase 0x10000 0x4FFFF := by
  refine ⟨{ txIn .bith 0 2 1 with agenda := [.hostWrite 0x40000 0b1111 1] }, _,
    ⟨by decide, by decide, by decide, by decide, by decide, by decide, by decide⟩, by decide, by decide,
    rfl, rfl, by decide, by decide⟩

/-- A state of each invariant, from which a step goes on: a bit is being sent, a pulse is being measured,
a tree is held. -/
theorem test_witness_invariants :
    (∃ s t : State, s.StorageOk ∧ s.turn = .hostWrite 0x10000 0b1111 0x61 ∧ step s = .next t) ∧
    (∃ s t : State, s.TxOk ∧ s.tx.phase = .bith ∧ step s = .next t) ∧
    (∃ s t : State, s.RxOk ∧ s.rx.det = .high ∧ step s = .next t) ∧
    (∃ s t : State, s.RegsOk ∧ s.cmd.pending = some 0x0000021F ∧ step s = .next t) ∧
    ∃ s t : State, s.TreeOk ∧ s.tree.tv = true ∧ step s = .next t := by
  refine ⟨⟨{ State.reset with agenda := [.hostWrite 0x10000 0b1111 0x61] }, _, ?_, rfl, rfl⟩,
    ⟨{ txIn .bith 0 2 1 with agenda := [.tick false] }, _, ?_, rfl, rfl⟩,
    ⟨{ rxIn .recv .high 3 7 0 none with agenda := [.tick false] }, _, ?_, rfl, rfl⟩,
    ⟨pending 0x0000021F, _, regsOk_reset _ _ (by decide) _, rfl, rfl⟩,
    ⟨{ leafTree with agenda := [.complete] }, _, fun _ => ⟨counts1, holdsTree_leafTree⟩, rfl, rfl⟩⟩
  · exact ⟨by decide, by decide, by simp [State.reset], by simp [State.reset]⟩
  · unfold State.TxOk; decide
  · refine ⟨by decide, by decide, ?_, by decide, by decide, by decide, by decide, by decide, by decide⟩
    intro snap h; cases h

end Sys2Proof.Tests
end

section
/-! PROOF of O5, `StepsAnswerAndRunsAreFair`: nothing stops the machine, and every run is fair. A turn that
every free round holds recurs in every run (00_scope.md R15), and what waits for such a turn is left alone by
every turn that does not end the wait. -/

namespace Sys2Proof.Machine

/-! ### Words and their commands (30_encoding.md R78, R80) -/

/-- Only an opcode of R80 selects a command, and it is that command's; P is kept by CLASSIFY alone. -/
theorem commandOf_eq_some {op : BitVec 8} {p : BitVec 1} {i : Instr} (h : commandOf op p = some i) :
    op = i.fields.op ∧ i.fields.reserved = 0 ∧ (i.fields.p = p ∨ op ≠ 0x09 ∧ i.fields.p = 0) := by
  unfold commandOf at h
  simp only [ite_eq_iff, Option.some.injEq, reduceCtorEq, and_false, or_false] at h
  repeat' rcases h with ⟨rfl, rfl⟩ | ⟨-, h⟩
  all_goals
    subst_vars
    simp [Instr.fields]

theorem cmd32_eq_of_fields {c d : Cmd32} (hop : c.op = d.op) (hp : c.p = d.p)
    (hres : c.reserved = d.reserved) : c = d := by
  obtain ⟨op, p, res⟩ := c
  obtain rfl : op = d.op := hop
  obtain rfl : p = d.p := hp
  obtain rfl : res = d.reserved := hres
  rfl

/-- The fields of a word that decodes are its command's. -/
theorem ofWord_eq_fields_of_decode {w : Word} {i : Instr} (h : decode w = .ok i) :
    Cmd32.ofWord w = i.fields := by
  unfold decode at h
  dsimp only at h
  split at h
  · cases h
  · next j hj =>
    split_ifs at h with hres hp
    obtain rfl : j = i := Except.ok.inj h
    obtain ⟨hop, hzero, hpar⟩ := commandOf_eq_some hj
    have hres' : (Cmd32.ofWord w).reserved = 0 := by simpa [Cmd32.reservedZero] using hres
    have hp' : (Cmd32.ofWord w).p = 0 ∨ (Cmd32.ofWord w).op = 0x09 := by
      simpa [Cmd32.phaseAllowed, Classical.or_iff_not_imp_left] using hp
    refine cmd32_eq_of_fields hop ?_ (hres'.trans hzero.symm)
    rcases hpar with hpar | ⟨hne, h0⟩
    · exact hpar.symm
    · exact (hp'.resolve_right hne).trans h0.symm

/-- A word is put together from its fields. -/
theorem ofWord_append (w : Word) :
    (Cmd32.ofWord w).reserved ++ (Cmd32.ofWord w).p ++ (Cmd32.ofWord w).op = w := by
  unfold Cmd32.ofWord
  dsimp only
  rw [BitVec.extractLsb'_append_extractLsb'_eq_extractLsb' (by decide),
    BitVec.extractLsb'_append_extractLsb'_eq_extractLsb' (by decide)]
  exact BitVec.extractLsb'_eq_self

/-- A word that decodes to a command is that command's word. -/
theorem eq_encode_of_decode {w : Word} {i : Instr} (h : decode w = .ok i) : w = encode i := by
  rw [encode, ← ofWord_eq_fields_of_decode h, ofWord_append]

/-! ### Every step answers a next state (60_exceptions.md R138) -/

theorem State.busWrite_next (s : State) (addr : BitVec 20) (strb : BitVec 4) (v : Word) :
    ∃ t, s.busWrite addr strb v = .next t := by
  rcases s.busWrite_cases addr strb v with
    h | ⟨_, _, _, h⟩ | ⟨_, _, _, h⟩ | ⟨_, _, _, _, _, _, h⟩ | ⟨_, _, _, _, _, _, h⟩
  all_goals exact ⟨_, h⟩

theorem State.completeStep_next (s : State) : ∃ t, s.completeStep = .next t := by
  rcases s.completeStep_cases with ⟨_, h⟩ | ⟨_, i, _, _, h⟩ | ⟨_, _, _, _, h⟩
  · exact ⟨_, h⟩
  · rw [h]; exact exec_next s i
  · exact ⟨_, h⟩

theorem step_answers (s : State) : ∃ t, step s = .next t := by
  unfold step
  cases s.turn with
  | hostRead addr strb => exact ⟨_, rfl⟩
  | hostWrite addr strb v => exact s.advance.busWrite_next addr strb v
  | complete => exact s.advance.completeStep_next
  | tick x => exact ⟨_, rfl⟩
  | parseFrame => exact ⟨_, rfl⟩
  | reset => exact ⟨_, rfl⟩

/-- A step's next state is `State.next`'s. -/
theorem State.next_eq {s t : State} (h : step s = .next t) : s.next = t := by
  unfold State.next; rw [h]

theorem step_eq_next (s : State) : step s = .next s.next := by
  obtain ⟨t, h⟩ := step_answers s
  rw [h, State.next_eq h]

/-- The next state is what the turn's agent makes of the state in which the turn is taken. -/
theorem State.act_turn (s : State) : s.advance.act s.turn = .next s.next := step_eq_next s

/-! ### What one turn does to a pending command and to a waiting frame -/

/-- A read leaves the command engine and the RX engine alone. -/
theorem State.busRead_cmd_rx (s : State) (addr : BitVec 20) (strb : BitVec 4) :
    (s.busRead addr strb).cmd = s.cmd ∧ (s.busRead addr strb).rx = s.rx := by
  obtain ⟨b, sh, h | h⟩ := s.busRead_frame addr strb <;> rw [h]
  · exact ⟨rfl, rfl⟩
  · exact ⟨s.refuse_cmd 0, s.refuse_rx 0⟩

/-- A command that comes while one is pending leaves it pending (30_encoding.md R84). -/
theorem State.acceptCmd_pending {s : State} {w : Word} (v : Word) (h : s.cmd.pending = some w) :
    (s.acceptCmd v).cmd.pending = some w := by
  unfold State.acceptCmd; rw [h]; exact h

theorem State.acceptCmd_rx (s : State) (v : Word) : (s.acceptCmd v).rx = s.rx := by
  unfold State.acceptCmd; split <;> rfl

/-- A write that does not reset leaves a pending command pending, and the RX engine alone. -/
theorem State.busWrite_keeps {s t : State} {addr : BitVec 20} {strb : BitVec 4} {v : Word}
    (h : s.busWrite addr strb v = .next t) (hr : turnResets (.hostWrite addr strb v) = false) :
    t.rx = s.rx ∧ ∀ w, s.cmd.pending = some w → t.cmd.pending = some w := by
  rcases s.busWrite_cases addr strb v with
    h1 | ⟨ha, hs, hv, _⟩ | ⟨_, _, _, h1⟩ | ⟨c, _, _, _, _, _, h1⟩ | ⟨_, _, _, _, _, _, h1⟩
  case inr.inl => subst ha hs hv; exact absurd hr (by decide)
  all_goals obtain rfl := Host.Outcome.next.inj (h1.symm.trans h)
  · exact ⟨s.refuse_rx _, fun w hw => hw⟩
  · exact ⟨State.acceptCmd_rx _ v, fun w hw => State.acceptCmd_pending v hw⟩
  · rw [Csr.write_frame]; exact ⟨rfl, fun w hw => hw⟩
  · exact ⟨rfl, fun w hw => hw⟩

/-- A write of SRESET's word to CMD resets at once, whatever is pending (30_encoding.md R84). -/
theorem State.busWrite_sreset (s : State) :
    s.busWrite 0x00000 0b1111 0x0000001F = .next s.performReset := by
  have hreach : reach s.params 0x00000 0b1111 = some (.csr .cmd .wo) :=
    (reach_eq_some _ _ _ _).2 ⟨rfl, rfl, locate_zero _⟩
  have haccept : s.refusesWrite (.csr .cmd .wo) = false := by
    simp [State.refusesWrite, Region.writable, Region.writableBusy]
  unfold State.busWrite
  rw [hreach]
  simp only [haccept]
  rfl

/-- A turn that resets leaves the reset state, but for what is not the core's. -/
theorem State.next_of_turnResets {s : State} (h : turnResets s.turn = true) :
    s.next = s.advance.performReset := by
  have hact := s.act_turn
  cases hturn : s.turn with
  | reset => rw [hturn] at hact; exact (Host.Outcome.next.inj hact).symm
  | hostWrite addr strb v =>
    rw [hturn] at h hact
    obtain ⟨⟨rfl, rfl⟩, rfl⟩ : (addr = 0 ∧ strb = 0b1111) ∧ v = 0x0000001F := by
      simpa [turnResets] using h
    exact (Host.Outcome.next.inj (s.advance.busWrite_sreset.symm.trans hact)).symm
  | hostRead _ _ | complete | tick _ | parseFrame => rw [hturn] at h; cases h

/-- In PARSE a tick only records the level. -/
theorem State.tickStep_rx_of_parse {s : State} (x : Bool) (h : s.rx.phase = .parse) :
    ∃ y, (s.tickStep x).rx = { s.rx with level := y } := by
  rw [s.tickStep_eq x]
  dsimp only
  rw [s.rxTick_still _ (.inr h)]
  exact ⟨_, rfl⟩

/-- A frame waits for the parser. -/
def State.FrameWaits (s : State) (snap : Snapshot) : Prop :=
  s.rx.phase = .parse ∧ s.rx.parsePending = some snap

/-- No frame is waiting, and the RX engine is not in PARSE. -/
def State.ParserIdle (s : State) : Prop := s.rx.phase ≠ .parse ∧ s.rx.parsePending = none

/-- Each re-arming, and none, leaves PARSE with no frame waiting (42_pulse.md R128). -/
theorem State.parserIdle_rxRearm (s : State) : s.rxRearm.ParserIdle := by
  unfold State.rxRearm State.ParserIdle
  dsimp only
  split_ifs <;> exact ⟨by simp, rfl⟩

/-- The parser's step takes the frame, wherever the RX engine goes then. -/
theorem State.FrameWaits.parseStep {s : State} {snap : Snapshot} (h : s.FrameWaits snap) :
    s.parseStep.ParserIdle := by
  obtain ⟨hphase, hpend⟩ := h
  unfold State.parseStep
  rw [hphase, hpend]
  exact State.parserIdle_rxRearm _

/-! ### The turns that end a wait -/

/-- The turn completes the pending command, or resets. -/
def State.EndsCommand (s : State) : Prop := s.turn = .complete ∨ turnResets s.turn = true

/-- The turn is the parser's, resets, or completes an RX_STOP. -/
def State.EndsParse (s : State) : Prop :=
  s.turn = .parseFrame ∨ turnResets s.turn = true ∨
    (s.turn = .complete ∧ s.cmd.pending = some (encode .rxStop))

/-- A completion leaves no command pending, whatever the word (30_encoding.md R85). -/
theorem State.completeStep_pending {s t : State} (h : s.completeStep = .next t) :
    t.cmd.pending = none := by
  rcases s.completeStep_cases with ⟨hp, h1⟩ | ⟨w, i, _, _, h1⟩ | ⟨w, e, _, _, h1⟩
  · rw [← Host.Outcome.next.inj (h1.symm.trans h)]; exact hp
  · exact exec_pending i s t (h1.symm.trans h)
  · rw [← Host.Outcome.next.inj (h1.symm.trans h), State.fail_cmd]

/-- A completion of anything but RX_STOP and SRESET leaves an RX engine that is not idle alone. -/
theorem State.completeStep_rx {s t : State} (h : s.completeStep = .next t)
    (hstop : s.cmd.pending ≠ some (encode .rxStop)) (hreset : s.cmd.pending ≠ some (encode .sreset))
    (hphase : s.rx.phase ≠ .idle) : t.rx = s.rx := by
  rcases s.completeStep_cases with ⟨_, h1⟩ | ⟨w, i, hp, hd, h1⟩ | ⟨w, e, _, _, h1⟩
  · rw [Host.Outcome.next.inj (h1.symm.trans h)]
  · rw [hp, eq_encode_of_decode hd] at hstop hreset
    exact exec_rx i s t (h1.symm.trans h) (fun hi => hstop (by rw [hi])) (fun hi => hreset (by rw [hi]))
      hphase
  · rw [← Host.Outcome.next.inj (h1.symm.trans h), State.fail_rx]

/-- The completion of RX_STOP takes the waiting frame away (42_pulse.md R129). -/
theorem State.completeStep_rxStop {s t : State} (h : s.completeStep = .next t)
    (hp : s.cmd.pending = some (encode .rxStop)) : t.ParserIdle := by
  have hd : decode (encode .rxStop) = .ok .rxStop := by decide
  have hrun : s.completeStep = .next (s.run 0x13 none State.rxStopEffect) := by
    unfold State.completeStep; rw [hp]; dsimp only; rw [hd]; exact exec_rxStop s
  rw [← Host.Outcome.next.inj (hrun.symm.trans h), State.run_none]
  exact ⟨by simp [State.rxStopEffect], rfl⟩

/-- The turn that ends a command's wait leaves none pending. -/
theorem State.EndsCommand.next_pending {s : State} (h : s.EndsCommand) : s.next.cmd.pending = none := by
  rcases h with h | h
  · have hact := s.act_turn
    rw [h] at hact
    exact State.completeStep_pending hact
  · rw [State.next_of_turnResets h]; rfl

/-- Every other turn leaves it pending. -/
theorem State.next_pending_of_not_endsCommand {s : State} {w : Word} (hp : s.cmd.pending = some w)
    (h : ¬ s.EndsCommand) : s.next.cmd.pending = some w := by
  obtain ⟨hcomplete, hreset⟩ := not_or.1 h
  rw [Bool.not_eq_true] at hreset
  have hp' : s.advance.cmd.pending = some w := hp
  have hact := s.act_turn
  cases hturn : s.turn <;> rw [hturn] at hact hreset
  case complete => exact absurd hturn hcomplete
  case reset => cases hreset
  case hostWrite addr strb v => exact (State.busWrite_keeps hact hreset).2 w hp'
  all_goals rw [← Host.Outcome.next.inj hact]
  case hostRead addr strb => rw [(s.advance.busRead_cmd_rx addr strb).1]; exact hp'
  case tick x => rw [State.tickStep_eq]; exact hp'
  case parseFrame => rw [State.parseStep_frame]; exact hp'

/-- The turn that ends a frame's wait takes the frame. -/
theorem State.EndsParse.next_parserIdle {s : State} {snap : Snapshot} (h : s.EndsParse)
    (hw : s.FrameWaits snap) : s.next.ParserIdle := by
  have hact := s.act_turn
  rcases h with h | h | ⟨h, hp⟩
  · rw [h] at hact
    rw [← Host.Outcome.next.inj hact]
    exact State.FrameWaits.parseStep (s := s.advance) hw
  · rw [State.next_of_turnResets h]; exact ⟨RxPhase.noConfusion, rfl⟩
  · rw [h] at hact
    exact State.completeStep_rxStop hact hp

/-- Every other turn leaves the frame waiting, when SRESET is not the pending word. -/
theorem State.FrameWaits.next {s : State} {snap : Snapshot} (hw : s.FrameWaits snap)
    (hs : s.cmd.pending ≠ some (encode .sreset)) (h : ¬ s.EndsParse) : s.next.FrameWaits snap := by
  simp only [State.EndsParse, not_or, not_and, Bool.not_eq_true] at h
  obtain ⟨hparse, hreset, hstop⟩ := h
  have keeps : s.next.rx = s.rx → s.next.FrameWaits snap := fun hrx => by
    unfold State.FrameWaits; rw [hrx]; exact hw
  have hact := s.act_turn
  cases hturn : s.turn <;> rw [hturn] at hact hreset
  case parseFrame => exact absurd hturn hparse
  case reset => cases hreset
  case hostWrite addr strb v => exact keeps (State.busWrite_keeps hact hreset).1
  case complete =>
    refine keeps (State.completeStep_rx (s := s.advance) hact (hstop hturn) hs ?_)
    rw [State.advance_rx, hw.1]
    exact RxPhase.noConfusion
  case hostRead addr strb =>
    refine keeps ?_
    rw [← Host.Outcome.next.inj hact]
    exact (s.advance.busRead_cmd_rx addr strb).2
  case tick x =>
    obtain ⟨y, hy⟩ := State.tickStep_rx_of_parse (s := s.advance) x hw.1
    rw [← Host.Outcome.next.inj hact]
    unfold State.FrameWaits
    rw [hy]
    exact hw

/-- SRESET is never pending (43_control.md R134): no step makes it so. -/
theorem State.next_pending_ne_sreset {s : State} (h : s.cmd.pending ≠ some (encode .sreset)) :
    s.next.cmd.pending ≠ some (encode .sreset) := by
  have of_none : ∀ u : State, u.cmd.pending = none → u.cmd.pending ≠ some (encode .sreset) :=
    fun u hu => by rw [hu]; exact Option.some_ne_none _ |>.symm
  refine step_induct (fun u => u.cmd.pending ≠ some (encode .sreset)) s s.next (step_eq_next s) h
    (fun _ _ _ hu => hu) (fun _ _ hu => hu) (fun _ _ => of_none _ rfl) ?_ ?_
    (fun _ _ _ _ _ _ _ hu => hu) ?_ ?_ ?_ ?_
  · intro u v hv hu
    unfold State.acceptCmd
    split
    · exact fun he => hv (Option.some.inj he)
    · exact hu
  · intro u c v hu; rw [Csr.write_frame]; exact hu
  · exact fun u v w i _ _ _ hx => of_none v (exec_pending i u v hx)
  · exact fun u op w _ => of_none _ (by rw [State.fail_cmd])
  · intro u x hu; rw [State.tickStep_eq]; exact hu
  · intro u hu; rw [State.parseStep_frame]; exact hu

/-! ### Fairness: a turn that every free round holds recurs (00_scope.md R15) -/

theorem State.after_add (s : State) (m n : Nat) : s.after (m + n) = (s.after m).after n := by
  induction n with
  | zero => rfl
  | succ n ih => exact congrArg State.next ih

theorem State.after_succ (s : State) (n : Nat) : s.after (n + 1) = s.next.after n := by
  rw [Nat.add_comm]; exact s.after_add 1 n

/-- The upcoming turns are taken in their order. -/
theorem State.turn_after_of_upcoming {s : State} {pre post : List Input} {x : Input}
    (h : s.upcoming = pre ++ x :: post) :
    (s.after pre.length).turn = x ∧ (s.after (pre.length + 1)).agenda = post := by
  have hnext := (step_agenda s s.next (step_eq_next s)).1
  rw [h] at hnext
  induction pre generalizing s with
  | nil => exact ⟨by unfold State.turn; exact congrArg (List.headD · .complete) h, hnext⟩
  | cons y pre ih =>
    have hup : s.next.upcoming = pre ++ x :: post := by
      rw [State.upcoming_of_ne_nil] <;> rw [hnext] <;> simp
    have hnext' := (step_agenda s.next s.next.next (step_eq_next s.next)).1
    rw [hup] at hnext'
    rw [List.length_cons, s.after_succ, s.after_succ]
    exact ih hup hnext'

/-- The agenda runs out, and then the turns come from free rounds. -/
theorem State.exists_after_agenda_nil (s : State) : ∃ n, (s.after n).agenda = [] := by
  by_cases h : s.agenda = []
  · exact ⟨0, h⟩
  · have hlast : s.upcoming = s.agenda.dropLast ++ s.agenda.getLast h :: [] := by
      rw [State.upcoming_of_ne_nil h, List.dropLast_append_getLast]
    exact ⟨_, (State.turn_after_of_upcoming hlast).2⟩

/-- A kind of turn that every free round holds comes in every run. -/
theorem State.exists_after_turn (s : State) (P : Input → Prop)
    (hP : ∀ r : Round, ∃ i ∈ roundTurns r, P i) : ∃ m, P (s.after m).turn := by
  obtain ⟨n, hn⟩ := s.exists_after_agenda_nil
  obtain ⟨i, hi, hPi⟩ := hP (Config.freeRound (s.after n).draws)
  obtain ⟨pre, post, hsplit⟩ := List.append_of_mem hi
  have hturn := (State.turn_after_of_upcoming ((State.upcoming_of_nil hn).trans hsplit)).1
  exact ⟨n + pre.length, by rw [s.after_add, hturn]; exact hPi⟩

/-- It comes again after every step. -/
theorem State.exists_le_after_turn (s : State) (P : Input → Prop)
    (hP : ∀ r : Round, ∃ i ∈ roundTurns r, P i) (n : Nat) : ∃ m, n ≤ m ∧ P (s.after m).turn := by
  obtain ⟨m, hm⟩ := (s.after n).exists_after_turn P hP
  exact ⟨n + m, Nat.le_add_right n m, by rw [s.after_add]; exact hm⟩

/-- THE LAW OF A WAIT: what every step keeps until an end comes holds up to the first end, which does
come. -/
theorem State.after_until {Keep Ends : State → Prop} {s : State} (hs : Keep s)
    (hkeep : ∀ t, Keep t → ¬ Ends t → Keep t.next) (hends : ∃ m, Ends (s.after m)) :
    ∃ m, (∀ k, k ≤ m → Keep (s.after k)) ∧ Ends (s.after m) := by
  classical
  refine ⟨Nat.find hends, fun k hk => ?_, Nat.find_spec hends⟩
  induction k with
  | zero => exact hs
  | succ k ih => exact hkeep _ (ih (Nat.le_of_succ_le hk)) (Nat.find_min hends hk)

/-! ### The parts of the statement -/

/-- A pending command waits for its completion or a reset, which comes. -/
theorem State.command_waits_until {s : State} {w : Word} (hp : s.cmd.pending = some w) :
    ∃ m, (∀ k, k ≤ m → (s.after k).cmd.pending = some w) ∧ (s.after m).EndsCommand :=
  State.after_until (Keep := fun t => t.cmd.pending = some w) hp
    (fun _ => State.next_pending_of_not_endsCommand)
    (s.exists_after_turn (fun i => i = .complete ∨ turnResets i = true)
      fun r => ⟨_, (mem_roundTurns r).1, .inl rfl⟩)

/-- A waiting frame waits for its parse step, an RX_STOP or a reset, and one comes. -/
theorem State.frame_waits_until {s : State} {snap : Snapshot} (hw : s.FrameWaits snap)
    (hs : s.cmd.pending ≠ some (encode .sreset)) :
    ∃ m, (∀ k, k ≤ m → (s.after k).FrameWaits snap) ∧ (s.after m).EndsParse := by
  obtain ⟨n, hn⟩ := s.exists_after_turn (· = .parseFrame) fun r => ⟨_, (mem_roundTurns r).2.1, rfl⟩
  obtain ⟨m, hkeep, hend⟩ :=
    State.after_until (Ends := State.EndsParse)
      (Keep := fun t => t.FrameWaits snap ∧ t.cmd.pending ≠ some (encode .sreset)) ⟨hw, hs⟩
      (fun _ ht hne => ⟨ht.1.next ht.2 hne, State.next_pending_ne_sreset ht.2⟩) ⟨n, .inl hn⟩
  exact ⟨m, fun k hk => (hkeep k hk).1, hend⟩

/-- Settles O5: the first end of each wait, by `State.after_until`, comes because the turns that end it are
in every free round, by `State.exists_after_turn`. -/
theorem stepsAnswerAndRunsAreFair : Obligations.StepsAnswerAndRunsAreFair := by
  refine ⟨step_answers, fun s => ⟨fun n => step_eq_next _, ?_, ?_, ?_⟩⟩
  · intro w hp
    obtain ⟨m, hkeep, hend⟩ := State.command_waits_until hp
    exact ⟨m, hkeep, hend.next_pending, hend⟩
  · intro snap hregs hphase hpend
    obtain ⟨m, hkeep, hend⟩ := State.frame_waits_until ⟨hphase, hpend⟩ hregs.1
    obtain ⟨hleft, htaken⟩ := hend.next_parserIdle (hkeep m le_rfl)
    exact ⟨m, hkeep, hleft, htaken, hend⟩
  · exact s.exists_le_after_turn (fun i => ∃ x, i = .tick x)
      fun r => ⟨_, (mem_roundTurns r).2.2, _, rfl⟩

end Sys2Proof.Machine
end

section
/-! PROOF of O56, `StepKeepsTxEngine`: the TX engine's registers stay consistent (10_state.md R37, R38). Only
its own tick, TX_START, TX_STOP, a write of a timing register and reset reach them. -/

namespace Sys2Proof.Machine

/-! ### The invariant and the registers it speaks of -/

/-- The invariant speaks of the TX engine's registers and of BITS_MAX. -/
theorem State.TxOk.congr {s t : State} (hs : s.TxOk) (hp : t.params = s.params) (htx : t.tx = s.tx)
    (htm : t.txTiming = s.txTiming) : t.TxOk := by
  unfold State.TxOk at *; rw [hp, htx, htm]; exact hs

/-- A state whose timing registers are a legal state's is legal when its TX status is consistent. -/
theorem State.TxOk.withStatus {s : State} (hs : s.TxOk) (x : TxRegs) (hidle : x.phase = .idle ↔ x.rem = 0)
    (hbit : x.phase = .bith ∨ x.phase = .bitl → x.bitIdx.toNat < x.len.toNat)
    (hzero : x.phase ≠ .bith → x.phase ≠ .bitl → x.bitIdx = 0)
    (hlen : x.len.toNat ≤ s.params.bitsMax) : State.TxOk { s with tx := x } := by
  obtain ⟨-, -, -, -, htiming⟩ := hs
  exact ⟨hidle, hbit, hzero, hlen, htiming⟩

/-- A phase that sends no bit, entered with a length that is not 0 and no bit index. -/
theorem State.TxOk.enter {s : State} (hs : s.TxOk) (ph : TxPhase)
    (hph : ph ≠ .idle ∧ ph ≠ .bith ∧ ph ≠ .bitl) {w : Word} (hw : w ≠ 0) {i : Word} (hi : i = 0)
    {c : Word} :
    State.TxOk { s with tx := { phase := ph, bitIdx := i, len := s.tx.len, count := c, rem := w } } := by
  obtain ⟨-, -, -, hlen, -⟩ := id hs
  exact hs.withStatus _ (iff_of_false hph.1 hw) (fun h => (h.elim hph.2.1 hph.2.2).elim)
    (fun _ _ => hi) hlen

/-- A phase that sends a bit of the frame, entered with a length that is not 0. -/
theorem State.TxOk.enterBit {s : State} (hs : s.TxOk) (ph : TxPhase) (hph : ph = .bith ∨ ph = .bitl)
    {w : Word} (hw : w ≠ 0) {i : Word} (hi : i.toNat < s.tx.len.toNat) {c : Word} :
    State.TxOk { s with tx := { phase := ph, bitIdx := i, len := s.tx.len, count := c, rem := w } } := by
  obtain ⟨-, -, -, hlen, -⟩ := id hs
  refine hs.withStatus _ (iff_of_false ?_ hw) (fun _ => hi) (fun h1 h2 => (hph.elim h1 h2).elim) hlen
  rintro rfl
  rcases hph with h | h <;> cases h

/-- The idle engine, with no bit index and no ticks left. -/
theorem State.TxOk.stop {s : State} (hs : s.TxOk) {i : Word} (hi : i = 0) {c : Word} :
    State.TxOk
      { s with tx := { phase := .idle, bitIdx := i, len := s.tx.len, count := c, rem := 0 } } := by
  obtain ⟨-, -, -, hlen, -⟩ := id hs
  refine hs.withStatus _ (iff_of_true rfl rfl) ?_ (fun _ _ => hi) hlen
  rintro (h | h) <;> cases h

theorem State.txOk_performReset (s : State) : s.performReset.TxOk := by
  rw [State.performReset_eq]
  have htiming : State.reset.txTiming.pre ≠ 0 ∧ State.reset.txTiming.init ≠ 0 ∧
      State.reset.txTiming.gap ≠ 0 ∧ State.reset.txTiming.bit0 ≠ 0 ∧ State.reset.txTiming.bit1 ≠ 0 ∧
      State.reset.txTiming.term ≠ 0 ∧ State.reset.txTiming.delay ≠ 0 := by decide
  refine ⟨iff_of_true rfl rfl, ?_, fun _ _ => rfl, Nat.zero_le _, htiming⟩
  rintro (h | h) <;> cases h

/-- A timing register never holds 0, whatever is written (R38). -/
theorem atLeastOne_ne_zero (v : Word) : atLeastOne v ≠ 0 := by
  unfold atLeastOne; split
  · decide
  · assumption

theorem State.TxOk.write {s : State} (hs : s.TxOk) (v : Word) (c : Csr) : (c.write s v).TxOk := by
  obtain ⟨hidle, hbit, hzero, hlen, hpre, hinit, hgap, hbit0, hbit1, hterm, hdelay⟩ := id hs
  have hv := atLeastOne_ne_zero v
  cases c
  case txPre => exact ⟨hidle, hbit, hzero, hlen, hv, hinit, hgap, hbit0, hbit1, hterm, hdelay⟩
  case txInit => exact ⟨hidle, hbit, hzero, hlen, hpre, hv, hgap, hbit0, hbit1, hterm, hdelay⟩
  case txGap => exact ⟨hidle, hbit, hzero, hlen, hpre, hinit, hv, hbit0, hbit1, hterm, hdelay⟩
  case txBit0 => exact ⟨hidle, hbit, hzero, hlen, hpre, hinit, hgap, hv, hbit1, hterm, hdelay⟩
  case txBit1 => exact ⟨hidle, hbit, hzero, hlen, hpre, hinit, hgap, hbit0, hv, hterm, hdelay⟩
  case txTerm => exact ⟨hidle, hbit, hzero, hlen, hpre, hinit, hgap, hbit0, hbit1, hv, hdelay⟩
  case txDelay => exact ⟨hidle, hbit, hzero, hlen, hpre, hinit, hgap, hbit0, hbit1, hterm, hv⟩
  all_goals exact hs

/-! ### The commands -/

theorem State.TxOk.txStartEffect {s : State} (hs : s.TxOk) (hc : s.txStartCheck = none) :
    s.txStartEffect.TxOk := by
  obtain ⟨-, -, -, -, hpre, -⟩ := id hs
  refine hs.withStatus _ (iff_of_false TxPhase.noConfusion hpre) ?_ (fun _ _ => rfl)
    (s.txStartCheck_none.1 hc).2
  rintro (h | h) <;> cases h

theorem State.TxOk.exec {s t : State} {i : Instr} (hs : s.TxOk) (h : exec i s = .next t) : t.TxOk := by
  have run (op check) (f : State → State) (hf : check = none → (f s).TxOk) : (s.run op check f).TxOk :=
    s.run_induct State.TxOk op check f (fun _ _ _ _ hu => hu) hs hf
  cases i <;> rw [← Host.Outcome.next.inj h]
  case sreset => exact s.txOk_performReset
  case txStart => exact run _ _ _ hs.txStartEffect
  case txStop => exact run _ _ _ fun _ => hs.stop rfl
  case parse => exact run _ _ _ fun _ => by rw [State.parseEffect_frame]; exact hs
  all_goals exact run _ _ _ fun _ => hs

/-! ### The tick -/

/-- Every phase follows with its timing register's value, which is not 0, and only BITH and BITL keep a bit
index. What TX_REM held is of no matter. -/
theorem State.TxOk.txNext {s : State} (hs : s.TxOk) (r : Word) (hbusy : s.tx.phase ≠ .idle) :
    (State.txNext { s with tx := { s.tx with rem := r } }).TxOk := by
  obtain ⟨-, hbit, hzero, -, hpre, hinit, hgap, hbit0, hbit1, hterm, hdelay⟩ := id hs
  have hlevel (b : Bool) : (if b then s.txTiming.bit1 else s.txTiming.bit0) ≠ 0 := by
    cases b <;> assumption
  have hi (hph : s.tx.phase ≠ .bith ∧ s.tx.phase ≠ .bitl) : s.tx.bitIdx = 0 := hzero hph.1 hph.2
  unfold State.txNext
  cases hphase : s.tx.phase <;> rw [hphase] at hi <;> dsimp only
  case idle => exact absurd hphase hbusy
  case pre => exact hs.enter .init (by decide) hinit (hi (by decide))
  case init => exact hs.enter .gapi (by decide) hgap (hi (by decide))
  case gapi =>
    split
    · exact hs.enter .term (by decide) hterm (hi (by decide))
    · next hne =>
      exact hs.enterBit .bith (.inl rfl) (hlevel _) (i := 0)
        (Nat.pos_of_ne_zero fun h => hne (BitVec.eq_of_toNat_eq h))
  case bith => exact hs.enterBit .bitl (.inr rfl) hgap (hbit (.inl hphase))
  case bitl =>
    split
    · next hlt =>
      refine hs.enterBit .bith (.inl rfl) (hlevel _) (lt_of_le_of_lt ?_ hlt)
      simpa [BitVec.toNat_add] using Nat.mod_le _ _
    · exact hs.enter .term (by decide) hterm rfl
  case term =>
    unfold State.txFrameDone
    dsimp only
    split
    · exact hs.enter .delay (by decide) hdelay (hi (by decide))
    · exact hs.stop (hi (by decide))
  case delay => exact hs.enter .pre (by decide) hpre (hi (by decide))

theorem State.TxOk.txTick {s : State} (hs : s.TxOk) : s.txTick.TxOk := by
  unfold State.txTick
  split
  · exact hs
  · next hbusy =>
    dsimp only
    split
    · exact hs.txNext _ hbusy
    · next hrem =>
      obtain ⟨-, hbit, hzero, hlen, -⟩ := id hs
      exact hs.withStatus _ (iff_of_false hbusy hrem) hbit hzero hlen

/-- Settles O56, turn by turn. -/
theorem stepKeepsTxEngine : Obligations.StepKeepsTxEngine := by
  intro s t hs h
  refine step_induct State.TxOk s t h hs (fun _ _ _ hu => hu) (fun _ _ hu => hu)
    (fun u _ => u.txOk_performReset) ?_ (fun u c v hu => hu.write v c) (fun _ _ _ _ _ _ _ hu => hu)
    (fun _ _ _ _ _ _ hu hx => hu.exec hx) ?_ ?_ ?_
  · intro u v _ hu; unfold State.acceptCmd; split <;> exact hu
  · exact fun u op w hu => hu.congr (by simp) (by simp) (by simp)
  · intro u x hu; rw [State.tickStep_eq]
    exact hu.txTick.congr (by rw [u.txTick_frame]) rfl (by rw [u.txTick_frame])
  · intro u hu; rw [State.parseStep_frame]; exact hu

end Sys2Proof.Machine
end

section
/-! PROOF of O57, `StepKeepsRxEngine`: the RX engine's registers stay consistent (10_state.md R39, R54, R56).
Only its own tick, the parser's step, RX_START, RX_STOP and reset reach them. -/

namespace Sys2Proof.Machine

/-! ### The invariant and the registers it speaks of -/

/-- The invariant speaks of the RX engine's registers and of the capacities. -/
theorem State.RxOk.congr {s t : State} (hs : s.RxOk) (hp : t.params = s.params) (hrx : t.rx = s.rx) :
    t.RxOk := by
  unfold State.RxOk at *; rw [hp, hrx]; exact hs

/-- An engine that listens: in AWAIT or RECV, with no frame for the parser and no delay to count. -/
theorem State.RxOk.listen {s : State} (hs : s.RxOk) (x : RxRegs) (hph : x.phase = .await ∨ x.phase = .recv)
    (hnone : x.parsePending = none) (hdet : x.det = .high ↔ x.hcnt ≠ 0) (hdcnt : x.dcnt = 0)
    (hlen : x.rbufLen.toNat ≤ s.params.bitsMax)
    (hovf : x.ovf = true → x.rbufLen.toNat = s.params.bitsMax) : State.RxOk { s with rx := x } := by
  obtain ⟨hlegal, -⟩ := hs
  have hne : x.phase ≠ .parse ∧ x.phase ≠ .delay ∧ x.phase ≠ .idle := by
    rcases hph with h | h <;> rw [h] <;> decide
  exact ⟨hlegal, iff_of_false hne.1 (by simp [hnone]), by simp [hnone], hdet,
    iff_of_false hne.2.1 (not_not.2 hdcnt), hlen, hovf, fun h => absurd h hne.2.2,
    fun h => (h.elim hne.1 hne.2.1).elim⟩

/-- What a listening engine's registers are. -/
theorem State.RxOk.listening {s : State} (hs : s.RxOk) (hph : s.rx.phase = .await ∨ s.rx.phase = .recv) :
    s.rx.parsePending = none ∧ s.rx.dcnt = 0 := by
  obtain ⟨-, hparse, -, -, hdelay, -⟩ := hs
  have hne : s.rx.phase ≠ .parse ∧ s.rx.phase ≠ .delay := by
    rcases hph with h | h <;> rw [h] <;> decide
  exact ⟨by simpa using mt hparse.2 hne.1, not_not.1 (mt hdelay.2 hne.2)⟩

/-- An engine that is idle, with no run, no delay and no frame. -/
theorem State.RxOk.idle {s : State} (hs : s.RxOk) (x : RxRegs) (hph : x.phase = .idle)
    (hdet : x.det = .needLow) (hnone : x.parsePending = none) (hhcnt : x.hcnt = 0) (hdcnt : x.dcnt = 0)
    (hlen : x.rbufLen.toNat ≤ s.params.bitsMax)
    (hovf : x.ovf = true → x.rbufLen.toNat = s.params.bitsMax) : State.RxOk { s with rx := x } := by
  obtain ⟨hlegal, -⟩ := hs
  refine ⟨hlegal, iff_of_false ?_ (by simp [hnone]), by simp [hnone], iff_of_false ?_ (not_not.2 hhcnt),
    iff_of_false ?_ (not_not.2 hdcnt), hlen, hovf, fun _ => hdet, ?_⟩
  · rw [hph]; decide
  · rw [hdet]; decide
  · rw [hph]; decide
  · rw [hph]; rintro (h | h) <;> cases h

theorem State.RxOk.performReset {s : State} (hs : s.RxOk) : s.performReset.RxOk :=
  (hs.idle State.reset.rx rfl rfl rfl rfl rfl (Nat.zero_le _) (fun h => by cases h)).congr rfl rfl

/-! ### The commands -/

theorem State.RxOk.rxStartEffect {s : State} (hs : s.RxOk) (hidle : s.rx.phase = .idle) :
    s.rxStartEffect.RxOk := by
  obtain ⟨-, hparse, -, -, hdelay, hlen, -⟩ := id hs
  refine hs.listen _ (.inl rfl) ?_ (iff_of_false Detector.noConfusion (not_not.2 rfl)) ?_ hlen
    (fun h => by cases h)
  · simpa using mt hparse.2 (by rw [hidle]; decide)
  · exact not_not.1 (mt hdelay.2 (by rw [hidle]; decide))

theorem State.RxOk.rxStopEffect {s : State} (hs : s.RxOk) : s.rxStopEffect.RxOk := by
  obtain ⟨-, -, -, -, -, hlen, hovf, -⟩ := id hs
  exact hs.idle _ rfl rfl rfl rfl rfl hlen hovf

theorem State.RxOk.exec {s t : State} {i : Instr} (hs : s.RxOk) (h : exec i s = .next t) : t.RxOk := by
  have run (op check) (f : State → State) (hf : check = none → (f s).RxOk) : (s.run op check f).RxOk :=
    s.run_induct State.RxOk op check f (fun _ _ _ _ hu => hu) hs hf
  cases i <;> rw [← Host.Outcome.next.inj h]
  case sreset => exact hs.performReset
  case rxStart => exact run _ _ _ fun hc => hs.rxStartEffect (s.rxBusy_none.1 hc)
  case rxStop => exact run _ _ _ fun _ => hs.rxStopEffect
  case parse => exact run _ _ _ fun _ => by rw [State.parseEffect_frame]; exact hs
  all_goals exact run _ _ _ fun _ => hs

/-! ### The tick -/

/-- A data bit is appended while RBUF has room, and recorded as lost when it has none. -/
theorem State.RxOk.rxAppend {s : State} (hs : s.RxOk) (hph : s.rx.phase = .recv) (b : Bool) :
    (s.rxAppend b).RxOk := by
  obtain ⟨hlegal, -, -, hdet, -, hlen, hovf, -⟩ := id hs
  obtain ⟨hnone, hdcnt⟩ := hs.listening (.inr hph)
  have hmax := (Params.legal_bounds hlegal).2.2.2.2.2
  unfold State.rxAppend
  split
  · next hroom =>
    have hnext : (s.rx.rbufLen + 1).toNat = s.rx.rbufLen.toNat + 1 := by
      rw [BitVec.toNat_add]; exact Nat.mod_eq_of_lt (by simp; omega)
    refine (hs.listen { s.rx with rbufLen := s.rx.rbufLen + 1 } (.inr hph) hnone hdet hdcnt ?_ ?_).congr
      rfl rfl
    · rw [hnext]; exact hroom
    · intro h; have := hovf h; omega
  · next hfull => exact hs.listen _ (.inr hph) hnone hdet hdcnt hlen (fun _ => by dsimp only; omega)

/-- A pulse starts a frame, adds a bit to it, ends it, or is ignored. -/
theorem State.RxOk.rxPulse {s : State} (hs : s.RxOk) (hph : s.rx.phase = .await ∨ s.rx.phase = .recv)
    (hlow : s.rx.det = .low) (d : Word) : (s.rxPulse d).RxOk := by
  obtain ⟨hlegal, -, -, hdet, -, hlen, hovf, -⟩ := id hs
  obtain ⟨hnone, hdcnt⟩ := hs.listening hph
  unfold State.rxPulse
  split
  · split
    · exact hs.listen _ (.inr rfl) hnone hdet hdcnt (Nat.zero_le _) (fun h => by cases h)
    · exact hs
  · next hne =>
    have hrecv := hph.resolve_left hne
    split
    · exact hs.rxAppend hrecv false
    · exact hs.rxAppend hrecv true
    · refine ⟨hlegal, iff_of_true rfl rfl, ?_, hdet, iff_of_false RxPhase.noConfusion (not_not.2 hdcnt),
        hlen, hovf, RxPhase.noConfusion, fun _ => hlow⟩
      intro snap hsnap
      rw [← Option.some.inj hsnap]
      exact ⟨rfl, rfl⟩
    · exact hs
    · exact hs

/-- The edge detector counts a run of high samples, which is never 0 long. -/
theorem State.RxOk.rxDetect {s : State} (hs : s.RxOk) (hph : s.rx.phase = .await ∨ s.rx.phase = .recv)
    (x : Bool) : (s.rxDetect x).RxOk := by
  obtain ⟨-, -, -, hdet, -, hlen, hovf, -⟩ := id hs
  obtain ⟨hnone, hdcnt⟩ := hs.listening hph
  have listen (d : Detector) (n : Word) (h : d = .high ↔ n ≠ 0) :
      State.RxOk { s with rx := { s.rx with det := d, hcnt := n } } :=
    hs.listen _ hph hnone h hdcnt hlen hovf
  cases hd : s.rx.det with
  | needLow =>
    have hzero : s.rx.hcnt = 0 := not_not.1 (mt hdet.2 (by rw [hd]; decide))
    rw [s.rxDetect_needLow x hd]
    cases x
    · exact listen .low s.rx.hcnt (iff_of_false (by decide) (not_not.2 hzero))
    · exact hs
  | low =>
    rw [s.rxDetect_low x hd]
    cases x
    · exact hs
    · exact listen .high 1 (iff_of_true rfl (by decide))
  | high =>
    cases x
    · rw [s.rxDetect_high_false hd]
      exact (listen .low 0 (iff_of_false (by decide) (not_not.2 rfl))).rxPulse hph rfl _
    · rw [s.rxDetect_high_true hd]
      refine (listen s.rx.det _ (iff_of_true hd fun h => ?_) :)
      have := congrArg BitVec.toNat h
      simp at this
      omega

/-- The delay ends in AWAIT when its count reaches 0 (42_pulse.md R130). -/
theorem State.RxOk.rxDelayTick {s : State} (hs : s.RxOk) (hph : s.rx.phase = .delay) :
    s.rxDelayTick.RxOk := by
  obtain ⟨hlegal, hparse, hsnap, hdet, -, hlen, hovf, hidle, hlow⟩ := id hs
  have hzero : s.rx.hcnt = 0 := not_not.1 (mt hdet.2 (by rw [hlow (.inr hph)]; decide))
  unfold State.rxDelayTick
  dsimp only
  split
  · next hend =>
    refine hs.listen _ (.inl rfl) ?_ (iff_of_false Detector.noConfusion (not_not.2 hzero)) hend hlen hovf
    simpa using mt hparse.2 (by rw [hph]; decide)
  · next hmore => exact ⟨hlegal, hparse, hsnap, hdet, iff_of_true hph hmore, hlen, hovf, hidle, hlow⟩

theorem State.RxOk.rxTick {s : State} (hs : s.RxOk) (x : Bool) : (s.rxTick x).RxOk := by
  have hlevel : State.RxOk { s with rx := { s.rx with level := x } } := hs
  cases hph : s.rx.phase with
  | idle => rw [s.rxTick_still x (.inl hph)]; exact hlevel
  | parse => rw [s.rxTick_still x (.inr hph)]; exact hlevel
  | await => rw [s.rxTick_detect x (.inl hph)]; exact hlevel.rxDetect (.inl hph) x
  | recv => rw [s.rxTick_detect x (.inr hph)]; exact hlevel.rxDetect (.inr hph) x
  | delay => unfold State.rxTick; rw [hph]; exact hlevel.rxDelayTick hph

/-! ### The parser's step -/

/-- Stopping and each re-arming leave PARSE with no frame waiting (42_pulse.md R128). -/
theorem State.RxOk.rxRearm {s : State} (hs : s.RxOk) (hph : s.rx.phase = .parse) : s.rxRearm.RxOk := by
  obtain ⟨hlegal, -, -, hdet, hdelay, hlen, hovf, -, hlow⟩ := id hs
  have hdcnt : s.rx.dcnt = 0 := not_not.1 (mt hdelay.2 (by rw [hph]; decide))
  have hhcnt : s.rx.hcnt = 0 := not_not.1 (mt hdet.2 (by rw [hlow (.inl hph)]; decide))
  unfold State.rxRearm
  dsimp only
  split
  · split
    · exact hs.listen _ (.inl rfl) rfl (iff_of_false Detector.noConfusion (not_not.2 hhcnt)) hdcnt hlen hovf
    · next hne =>
      exact ⟨hlegal, iff_of_false RxPhase.noConfusion Bool.noConfusion, (fun _ h => by cases h), hdet,
        iff_of_true rfl hne, hlen, hovf, RxPhase.noConfusion, fun _ => hlow (.inl hph)⟩
  · exact hs.idle _ rfl rfl rfl hhcnt hdcnt hlen hovf

/-- A publication and its report leave the RX engine's own registers alone. -/
theorem State.rxReport_rxPublish_frame (s : State) (p : Parsed) (r : FrameResult) :
    (s.rxPublish p).rxReport r =
      { s with
        irq := ((s.rxPublish p).rxReport r).irq, rxOut := (s.rxPublish p).rxOut
        store := (s.rxPublish p).store } := by
  unfold State.rxReport
  dsimp only
  split <;> split <;> rfl

theorem State.RxOk.parseStep {s : State} (hs : s.RxOk) : s.parseStep.RxOk := by
  unfold State.parseStep
  split
  · next snap hph _ =>
    dsimp only
    rw [State.rxReport_rxPublish_frame]
    exact State.RxOk.rxRearm (hs.congr rfl rfl) hph
  · exact hs

/-- Settles O57, turn by turn. -/
theorem stepKeepsRxEngine : Obligations.StepKeepsRxEngine := by
  intro s t hs h
  refine step_induct State.RxOk s t h hs (fun _ _ _ hu => hu) (fun _ _ hu => hu)
    (fun _ hu => hu.performReset) ?_ ?_ (fun _ _ _ _ _ _ _ hu => hu)
    (fun _ _ _ _ _ _ hu hx => hu.exec hx) ?_ ?_ (fun _ hu => hu.parseStep)
  · exact fun u v _ hu => hu.congr (by unfold State.acceptCmd; split <;> rfl) (u.acceptCmd_rx v)
  · intro u c v hu; rw [Csr.write_frame]; exact hu
  · exact fun u op w hu => hu.congr (by simp) (by simp)
  · intro u x hu; rw [State.tickStep_eq]
    exact (hu.rxTick _).congr (by rw [State.rxTick_frame]) rfl

end Sys2Proof.Machine
end

section
/-! PROOF of O58, `StepKeepsRegisters`: the command path's registers stay legal (10_state.md R28, R30, R31, R32,
R40, 43_control.md R134). -/

namespace Sys2Proof.Machine

/-! ### The invariant and the registers it speaks of -/

/-- The invariant speaks of the pending word, TREE_STATUS, the two verdicts and the two message lengths. -/
theorem State.RegsOk.congr {s t : State} (hs : s.RegsOk) (hpend : t.cmd.pending = s.cmd.pending)
    (htree : t.tree = s.tree) (hval : t.val = s.val) (hout : t.rxOut = s.rxOut)
    (hdmsg : t.codec.dmsgLen = s.codec.dmsgLen) (hp : t.params = s.params) : t.RegsOk := by
  unfold State.RegsOk at *; rw [hpend, htree, hval, hout, hdmsg, hp]; exact hs

/-- A completion leaves no command pending, and the other registers alone. -/
theorem State.RegsOk.completed {s : State} (hs : s.RegsOk) (c : CmdRegs) (q : IrqRegs)
    (hc : c.pending = none) : State.RegsOk { s with cmd := c, irq := q } := by
  obtain ⟨-, hrest⟩ := hs
  exact ⟨by rw [hc]; exact (Option.some_ne_none _).symm, hrest⟩

theorem State.RegsOk.withTree {s : State} (hs : s.RegsOk) (x : TreeRegs) (st : Storage)
    (hx : x.cv = true → x.tv = true) : State.RegsOk { s with tree := x, store := st } := by
  obtain ⟨hpend, -, hrest⟩ := hs
  exact ⟨hpend, hx, hrest⟩

theorem State.regsOk_performReset (s : State) : s.performReset.RegsOk := by
  rw [State.performReset_eq]
  have hreset : State.reset.cmd.pending ≠ some 0x0000001F ∧
      (State.reset.tree.cv = true → State.reset.tree.tv = true) ∧ State.reset.val.fid.toNat ≤ 0x10000 ∧
      State.reset.rxOut.fid.toNat ≤ 0x10000 ∧ State.reset.val.result ≠ .rxovf := by decide
  obtain ⟨hpend, hcv, hval, hout, hres⟩ := hreset
  exact ⟨hpend, hcv, hval, hout, hres, Nat.zero_le _, Nat.zero_le _⟩

/-! ### The commands -/

/-- A verdict on a frame that lost no bits (41_frame.md R105, R106). -/
theorem State.RegsOk.putVerdict {s : State} (hs : s.RegsOk) (v : Verdict) (hfid : v.fid.toNat ≤ 0x10000)
    (hres : v.result ≠ .rxovf) : (s.putVerdict v).RegsOk := by
  obtain ⟨hpend, hcv, -, hout, -, hrest⟩ := hs
  exact ⟨hpend, hcv, hfid, hout, hres, hrest⟩

/-- A message that fits is delivered with its length. -/
theorem State.RegsOk.deliverDmsg {s : State} (hs : s.RegsOk) (out : List Byte) (trail : Nat)
    (hlen : out.length ≤ s.params.msgMax) : (s.deliverDmsg out trail).RegsOk := by
  obtain ⟨hpend, hcv, hval, hout, hres, -, hrmsg⟩ := hs
  refine ⟨hpend, hcv, hval, hout, hres, ?_, hrmsg⟩
  rw [State.deliverDmsg_codec, BitVec.toNat_ofNat]
  exact (Nat.mod_le _ _).trans hlen

theorem State.RegsOk.validateEffect {s : State} (hs : s.RegsOk) : s.validateEffect.RegsOk := by
  refine hs.putVerdict _ (validate_fid_le _ _ _) ?_
  rcases validate_result s.acc (s.fbufBit 0) s.codec.fbufLen.toNat with h | h | h <;>
    (rw [h]; exact FrameResult.noConfusion)

theorem State.RegsOk.parseEffect {s : State} (hs : s.RegsOk) : s.parseEffect.RegsOk := by
  have hv := hs.putVerdict (s.frameParse s.fbufBit s.codec.fbufLen.toNat false).verdict
    (s.frameParse_fid_le _ _ _) (s.frameParse_result_ne_rxovf _ _)
  have hd := hv.deliverDmsg (s.frameParse s.fbufBit s.codec.fbufLen.toNat false).out
    (s.frameParse s.fbufBit s.codec.fbufLen.toNat false).trail (s.frameParse_out _ _ _).1
  unfold State.parseEffect
  dsimp only
  split
  · exact hd
  · exact hd

theorem State.RegsOk.exec {s t : State} {i : Instr} (hs : s.RegsOk) (h : exec i s = .next t) :
    t.RegsOk := by
  have run (op check) (f : State → State) (hf : check = none → (f s).RegsOk) :
      (s.run op check f).RegsOk :=
    s.run_induct State.RegsOk op check f (fun u c q hc hu => hu.completed c q hc) hs hf
  cases i <;> rw [← Host.Outcome.next.inj h]
  case sreset => exact s.regsOk_performReset
  case build => exact run _ _ _ fun _ => hs.withTree _ _ fun h => by cases h
  case codes => exact run _ _ _ fun hc => hs.withTree _ _ fun _ => s.codesCheck_none.1 hc
  case decode =>
    exact run _ _ _ fun hc => hs.deliverDmsg _ _ (s.decodeCheck_none.1 hc).2.2
  case validate => exact run _ _ _ fun _ => hs.validateEffect
  case parse => exact run _ _ _ fun _ => hs.parseEffect
  all_goals exact run _ _ _ fun _ => hs

/-! ### The parser's step -/

/-- A publication brings a fidelity of at most 1.0 and a message that fits (10_state.md R40). -/
theorem State.RegsOk.rxPublish {s : State} (hs : s.RegsOk) (p : Parsed)
    (hfid : p.verdict.fid.toNat ≤ 0x10000) (hlen : p.out.length ≤ s.params.msgMax) :
    (s.rxPublish p).RegsOk := by
  obtain ⟨hpend, hcv, hval, -, hres, hdmsg, -⟩ := hs
  refine ⟨hpend, hcv, hval, hfid, hres, hdmsg, ?_⟩
  exact (Nat.mod_le _ _).trans hlen

/-- Beside its publication the parser's step reaches the interrupt bits and the RX engine's registers. -/
theorem State.parseStep_cases (s : State) :
    s.parseStep = s ∨ ∃ bit L ovf,
      s.parseStep =
        { s.rxPublish (s.frameParse bit L ovf) with irq := s.parseStep.irq, rx := s.parseStep.rx } := by
  unfold State.parseStep
  split
  · next snap _ _ =>
    refine .inr ⟨s.rbufBit, snap.len.toNat, snap.ovf, ?_⟩
    unfold State.rxRearm State.rxReport
    dsimp only
    split <;> split <;> split <;> (try split) <;> rfl
  · exact .inl rfl

theorem State.RegsOk.parseStep {s : State} (hs : s.RegsOk) : s.parseStep.RegsOk := by
  rcases s.parseStep_cases with h | ⟨bit, L, ovf, h⟩ <;> rw [h]
  · exact hs
  · exact hs.rxPublish _ (s.frameParse_fid_le bit L ovf) (s.frameParse_out bit L ovf).1

/-! ### Every turn -/

/-- A command that is not SRESET's word may become pending (30_encoding.md R84). -/
theorem State.RegsOk.acceptCmd {s : State} (hs : s.RegsOk) (v : Word) (hv : v ≠ 0x0000001F) :
    (s.acceptCmd v).RegsOk := by
  unfold State.acceptCmd
  split
  · obtain ⟨-, hrest⟩ := hs
    exact ⟨fun h => hv (Option.some.inj h), hrest⟩
  · exact hs

/-- DMSG_LEN is no register the host writes. -/
theorem Csr.write_dmsgLen (s : State) (v : Word) (c : Csr) :
    (c.write s v).codec.dmsgLen = s.codec.dmsgLen := by
  cases c <;> rfl

/-- Settles O58, turn by turn. -/
theorem stepKeepsRegisters : Obligations.StepKeepsRegisters := by
  intro s t hs h
  refine step_induct State.RegsOk s t h hs (fun _ _ _ hu => hu) (fun _ _ hu => hu)
    (fun u _ => u.regsOk_performReset) (fun u v hv hu => hu.acceptCmd v hv) ?_
    (fun _ _ _ _ _ _ _ hu => hu) (fun _ _ _ _ _ _ hu hx => hu.exec hx) ?_ ?_
    (fun _ hu => hu.parseStep)
  · intro u c v hu
    rw [Csr.write_frame]
    exact hu.congr rfl rfl rfl rfl (c.write_dmsgLen u v) rfl
  · exact fun u op w hu => (hu.completed (u.fail op .illegal w).cmd (u.fail op .illegal w).irq
      (by simp)).congr rfl (by simp) (by simp) (by simp) (by simp) (by simp)
  · intro u x hu; rw [State.tickStep_eq]; exact hu

end Sys2Proof.Machine
end

section
/-! PROOF of O52, `TimeCountsTicksOnly`: TIME counts ticks, reset clears it, and no other turn moves it
(10_state.md R36, 42_pulse.md R116). -/

namespace Sys2Proof.Machine

/-- A read moves TIME_SHADOW at most (10_state.md R36). -/
theorem State.busRead_time (s : State) (addr : BitVec 20) (strb : BitVec 4) :
    (s.busRead addr strb).clock.time = s.clock.time := by
  obtain ⟨b, sh, h | h⟩ := s.busRead_frame addr strb <;> rw [h]
  rw [State.refuse_clock]

theorem State.acceptCmd_clock (s : State) (v : Word) : (s.acceptCmd v).clock = s.clock := by
  unfold State.acceptCmd; split <;> rfl

/-- No write but SRESET's reaches TIME. -/
theorem State.busWrite_clock {s t : State} {addr : BitVec 20} {strb : BitVec 4} {v : Word}
    (h : s.busWrite addr strb v = .next t) (hr : turnResets (.hostWrite addr strb v) = false) :
    t.clock = s.clock := by
  rcases s.busWrite_cases addr strb v with
    h1 | ⟨ha, hs, hv, _⟩ | ⟨_, _, _, h1⟩ | ⟨c, _, _, _, _, _, h1⟩ | ⟨_, _, _, _, _, _, h1⟩
  case inr.inl => subst ha hs hv; exact absurd hr (by decide)
  all_goals obtain rfl := Host.Outcome.next.inj (h1.symm.trans h)
  · rw [State.refuse_clock]
  · rw [State.acceptCmd_clock]
  · rw [Csr.write_frame]
  · rfl

/-- No command but SRESET reaches TIME. -/
theorem exec_clock {i : Instr} {s t : State} (h : exec i s = .next t) (hi : i ≠ .sreset) :
    t.clock = s.clock := by
  cases i <;> rw [← Host.Outcome.next.inj h]
  case sreset => exact absurd rfl hi
  case parse =>
    exact State.run_keeps State.clock s _ _ _ (fun _ _ _ => rfl)
      (fun _ => by rw [State.parseEffect_frame])
  all_goals exact State.run_keeps State.clock s _ _ _ (fun _ _ _ => rfl) (fun _ => rfl)

/-- A completion leaves TIME alone: SRESET is never pending (43_control.md R134). -/
theorem State.completeStep_clock {s t : State} (h : s.completeStep = .next t)
    (hs : s.cmd.pending ≠ some (encode .sreset)) : t.clock = s.clock := by
  rcases s.completeStep_cases with ⟨_, h1⟩ | ⟨w, i, hp, hd, h1⟩ | ⟨w, e, _, _, h1⟩
  · rw [Host.Outcome.next.inj (h1.symm.trans h)]
  · rw [hp, eq_encode_of_decode hd] at hs
    exact exec_clock (h1.symm.trans h) (fun hi => hs (by rw [hi]))
  · rw [← Host.Outcome.next.inj (h1.symm.trans h), State.fail_clock]

/-- A turn that is no tick and no reset leaves TIME alone. -/
theorem State.next_time_of_still {s : State} (hs : s.cmd.pending ≠ some (encode .sreset))
    (htick : ∀ x, s.turn ≠ .tick x) (hreset : turnResets s.turn = false) :
    s.next.clock.time = s.clock.time := by
  have hact := s.act_turn
  cases hturn : s.turn <;> rw [hturn] at hact hreset
  case hostRead addr strb => rw [← Host.Outcome.next.inj hact]; exact s.advance.busRead_time addr strb
  case hostWrite addr strb v => rw [State.busWrite_clock hact hreset]; rfl
  case complete => rw [State.completeStep_clock hact hs]; rfl
  case tick x => exact absurd hturn (htick x)
  case parseFrame => rw [← Host.Outcome.next.inj hact, State.parseStep_frame]; rfl
  case reset => cases hreset

/-- Settles O52, turn by turn. -/
theorem timeCountsTicksOnly : Obligations.TimeCountsTicksOnly := by
  intro s t hregs h
  obtain rfl := State.next_eq h
  refine ⟨fun x hx => ?_, fun hreset => ?_, State.next_time_of_still hregs.1⟩
  · have hact := s.act_turn
    rw [hx] at hact
    rw [← Host.Outcome.next.inj hact, State.tickStep_eq]
    rfl
  · rw [State.next_of_turnResets hreset]; rfl

end Sys2Proof.Machine
end

section
/-! PROOF of O43, `StatusWordLayout`: a word put together from fields holds each at its place. -/

namespace Sys2Proof.Machine

/-- The field on the left of another stands above it. -/
theorem toNat_append_field {m n : Nat} (x : BitVec m) (y : BitVec n) :
    (x ++ y).toNat = 2 ^ n * x.toNat + y.toNat := by
  rw [BitVec.toNat_append, ← Nat.shiftLeft_add_eq_or_of_lt y.isLt, Nat.shiftLeft_eq, Nat.mul_comm]

theorem toNat_flag (b : Bool) : (flag b).toNat = b.toNat := BitVec.toNat_ofBool b

/-- Reserved bits hold 0. -/
theorem toNat_reserved (n : Nat) : (0 : BitVec n).toNat = 0 := BitVec.toNat_zero

/-- The phases that drive the line high (42_pulse.md R118). -/
theorem TxPhase.level_iff (p : TxPhase) :
    p.level = true ↔ p = .init ∨ p = .bith ∨ p = .term := by
  cases p <;> decide

/-- Settles O43, word by word. -/
theorem statusWordLayout : Obligations.StatusWordLayout := by
  refine ⟨fun s => ⟨?_, ?_, ?_, ?_, ?_, TxPhase.level_iff _⟩, rfl, rfl, rfl, rfl, rfl, rfl⟩
  · simp only [State.cmdStatus, toNat_append_field, toNat_flag, toNat_reserved]
    omega
  · simp only [CfgRegs.word, toNat_append_field, toNat_flag, toNat_reserved]
    omega
  · simp only [TreeRegs.word, toNat_append_field, toNat_flag, toNat_reserved]
    omega
  · simp only [TxRegs.word, State.lineOut, toNat_append_field, toNat_flag, toNat_reserved]
    omega
  · simp only [RxRegs.word, toNat_append_field, toNat_flag, toNat_reserved]
    omega

end Sys2Proof.Machine
end

section
/-! PROOF of O44, `ReadReturnsStored`: what a read changes, and which value each offset reads (10_state.md R36,
20_memory.md R59, R66, R68). -/

namespace Sys2Proof.Machine

/-! ### Which offset is which -/

/-- TIME_LO has one offset. -/
theorem csrTable_timeLo : ∀ e ∈ csrTable, (e.2.1 = Csr.timeLo ↔ e.1 = 0x058) := by decide +kernel

/-- An aligned read of a listed offset reaches its register. -/
theorem reach_csr (p : Params) (addr : BitVec 20) {e : Nat × Csr × Access} (he : e ∈ csrTable)
    (h : addr.toNat = e.1) : reach p addr 0b1111 = some (.csr e.2.1 e.2.2) :=
  (reach_eq_some _ _ _ _).2
    ⟨by rw [h]; exact (csrTable_lookup e he).2.2, rfl, by rw [h]; exact locate_csr p e he⟩

/-- The storage is mapped, and is no register. -/
theorem isStorage_iff (p : Params) (a : Nat) :
    isStorage p a = true ↔ ∃ r, locate p a = some r ∧ ∀ c k, r ≠ .csr c k := by
  unfold isStorage
  cases h : locate p a with
  | none => simp
  | some r => cases r <;> simp

/-- With legal capacities the storage is what R59 lists. -/
theorem storageOffset_iff {p : Params} (hp : p.legal = true) {a : Nat} (ha : 0x1000 ≤ a) :
    storageOffset p a ↔ ∃ r, locate p a = some r ∧ ∀ c k, r ≠ .csr c k := by
  obtain ⟨-, -, hmsg, -, -, hbits⟩ := Params.legal_bounds hp
  rw [← isStorage_iff]
  unfold storageOffset within
  constructor
  · exact fun h => isStorage_of p a (by omega)
  · intro h
    obtain ⟨r, hr, hcsr⟩ := (isStorage_iff p a).1 h
    rcases locate_eq_some p a r hr with ⟨c, k, rfl, _⟩ | hreg
    · exact absurd rfl (hcsr c k)
    · omega

/-! ### What a read does -/

/-- Everything an accepted read does: it answers, and a read of TIME_LO copies TIME[63:32] (R68). -/
theorem State.busRead_eq (s : State) (addr : BitVec 20) {r : Region}
    (h : reach s.params addr 0b1111 = some r) :
    s.busRead addr 0b1111 =
      { s with
        bus := (s.busRead addr 0b1111).bus
        clock :=
          { s.clock with
            shadow :=
              if addr = 0x00058 then s.clock.time.extractLsb' 32 32 else s.clock.shadow } } := by
  have hl := ((reach_eq_some _ _ _ _).1 h).2.2
  unfold State.busRead
  rw [h]
  dsimp only
  split
  · next k =>
    rcases locate_eq_some _ _ _ hl with ⟨c, k', hr, _, hm⟩ | hreg
    · obtain ⟨rfl, rfl⟩ := Region.csr.inj hr
      rw [if_pos (BitVec.eq_of_toNat_eq ((csrTable_timeLo _ hm).1 rfl))]
    · simp at hreg
  · next hne =>
    rw [if_neg]
    rintro rfl
    have h58 := locate_csr s.params (0x058, .timeLo, .ro) (by decide)
    exact hne .ro (Option.some.inj (hl.symm.trans h58))

/-- With no command pending a read answers what is stored. -/
theorem State.busRead_settled (s : State) (addr : BitVec 20) {r : Region}
    (h : reach s.params addr 0b1111 = some r) (hp : s.cmd.pending = none) :
    (s.busRead addr 0b1111).bus = { prdata := s.stored r addr.toNat, pslverr := false } := by
  have hu : s.unsettled r addr.toNat = 0 := by unfold State.unsettled; rw [hp]
  have hall : ~~~(0 : Word) = BitVec.allOnes 32 := by decide
  rw [s.busRead_bus addr r h, hu, hall, BitVec.and_allOnes]
  simp

/-- A listed offset reads what the register table says. -/
theorem State.busRead_register (s : State) (addr : BitVec 20) {e : Nat × Csr × Access} (he : e ∈ csrTable)
    (ha : addr.toNat = e.1) (hp : s.cmd.pending = none) :
    (s.busRead addr 0b1111).bus = { prdata := e.2.1.read s, pslverr := false } :=
  s.busRead_settled addr (reach_csr s.params addr he ha) hp

/-- TIME_LO, then TIME_HI: the high word is the one latched with the low word (R36, R68). -/
theorem State.busRead_time_pair (s : State) (hp : s.cmd.pending = none) :
    ((s.busRead 0x00058 0b1111).busRead 0x0005C 0b1111).bus.prdata ++
      (s.busRead 0x00058 0b1111).bus.prdata = s.clock.time := by
  have hlo := s.busRead_register 0x00058 (e := (0x058, .timeLo, .ro)) (by decide) rfl hp
  have heq := s.busRead_eq 0x00058 (reach_csr s.params 0x00058 (e := (0x058, .timeLo, .ro)) (by decide) rfl)
  have hhi := (s.busRead 0x00058 0b1111).busRead_register 0x0005C (e := (0x05C, .timeHi, .ro)) (by decide)
    rfl (by rw [heq]; exact hp)
  rw [hhi, hlo]
  have hshadow : (s.busRead 0x00058 0b1111).clock.shadow = s.clock.time.extractLsb' 32 32 := by
    rw [heq]; rfl
  dsimp only [Csr.read]
  rw [hshadow, BitVec.extractLsb'_append_extractLsb'_eq_extractLsb' (by decide)]
  exact BitVec.extractLsb'_eq_self

/-- An unlisted offset of the register region is refused (10_state.md R44). -/
theorem reach_none_of_unlisted (p : Params) (addr : BitVec 20) (hlt : addr.toNat < 0x1000)
    (h : ∀ e ∈ csrTable, e.1 ≠ addr.toNat) : reach p addr 0b1111 = none := by
  by_contra hne
  obtain ⟨r, hr⟩ := Option.ne_none_iff_exists'.1 hne
  rcases locate_eq_some _ _ _ ((reach_eq_some _ _ _ _).1 hr).2.2 with ⟨c, k, _, _, hm⟩ | hreg
  · exact h _ hm rfl
  · omega

/-- Settles O44, by the region of the offset. -/
theorem readReturnsStored : Obligations.ReadReturnsStored := by
  refine ⟨fun s addr r h => ?_, State.busRead_time_pair, fun s addr v hp hm => ?_,
    fun s addr hlt hm => ?_, fun s addr hlegal hge halign hp => ⟨fun hst => ?_, fun hst => ?_⟩⟩
  · refine ⟨(s.busRead addr 0b1111).bus.prdata, fun hp => by rw [s.busRead_settled addr h hp], ?_⟩
    conv_lhs => rw [s.busRead_eq addr h]
    rw [s.busRead_bus addr r h]
  · rw [State.registerMap_eq] at hm
    obtain ⟨e, he, hev⟩ := List.mem_map.1 hm
    obtain ⟨ha, rfl⟩ := Prod.mk.inj hev
    exact s.busRead_register addr he ha.symm hp
  · rw [s.busRead_refused addr _ (reach_none_of_unlisted s.params addr hlt ?_), State.refuse_bus]
    rw [State.registerMap_eq, List.map_map] at hm
    exact fun e he ha => hm (List.mem_map.2 ⟨e, he, ha⟩)
  · obtain ⟨r, hl, hr⟩ := (storageOffset_iff hlegal hge).1 hst
    rw [s.busRead_settled addr ((reach_eq_some _ _ _ _).2 ⟨halign, rfl, hl⟩) hp]
    cases r
    case csr c k => exact absurd rfl (hr c k)
    all_goals rfl
  · rw [s.busRead_refused addr, State.refuse_bus]
    by_contra hne
    obtain ⟨r, hr⟩ := Option.ne_none_iff_exists'.1 hne
    have hl := ((reach_eq_some _ _ _ _).1 hr).2.2
    refine hst ((storageOffset_iff hlegal hge).2 ⟨r, hl, ?_⟩)
    rintro c k rfl
    rcases locate_eq_some _ _ _ hl with ⟨_, _, _, hlt, _⟩ | hreg
    · omega
    · simp at hreg

end Sys2Proof.Machine
end

section
/-! PROOF of O48, `RegisterWriteReadsBack`: a register write changes one register (10_state.md R26, R34, R38,
R43, 20_memory.md R67), by name and then by number. -/

namespace Sys2Proof.Machine

/-! ### What a written register reads -/

/-- The registers of 32 bits that store the word written. -/
def plainRegisters : List Csr :=
  [.msgLen, .fbufLen, .clsIn, .rxDelay, .shortMin, .shortMax, .longMin, .longMax, .initMin, .initMax,
    .termMin]

/-- The TX timing registers (R38). -/
def timingRegisters : List Csr := [.txPre, .txInit, .txGap, .txBit0, .txBit1, .txTerm, .txDelay]

theorem Csr.read_write_plain (s : State) (v : Word) {c : Csr} (hc : c ∈ plainRegisters) :
    c.read (c.write s v) = v := by
  simp only [plainRegisters, List.mem_cons, List.not_mem_nil, or_false] at hc
  rcases hc with rfl | rfl | rfl | rfl | rfl | rfl | rfl | rfl | rfl | rfl | rfl <;> rfl

theorem Csr.read_write_timing (s : State) (v : Word) {c : Csr} (hc : c ∈ timingRegisters) :
    c.read (c.write s v) = if v = 0 then 1 else v := by
  simp only [timingRegisters, List.mem_cons, List.not_mem_nil, or_false] at hc
  rcases hc with rfl | rfl | rfl | rfl | rfl | rfl | rfl <;> rfl

/-- CFG keeps its four fields (R26). -/
theorem CfgRegs.word_ofWord (v : Word) : (CfgRegs.ofWord v).word = v &&& 0x00030107 := by
  refine BitVec.eq_of_getLsbD_eq fun i hi => ?_
  unfold CfgRegs.word CfgRegs.ofWord flag
  simp only [BitVec.getLsbD_append]
  interval_cases i <;> simp

/-- A field of the low bits keeps those bits of the word written. -/
theorem zeroExtend_lowBits (v : Word) {n : Nat} (hn : n ≤ 32) :
    (v.extractLsb' 0 n).zeroExtend 32 = v &&& BitVec.ofNat 32 (2 ^ n - 1) := by
  have hle : 2 ^ n ≤ 2 ^ 32 := Nat.pow_le_pow_right (by decide) hn
  have hpos := Nat.two_pow_pos n
  have hlt : v.toNat % 2 ^ n < 2 ^ n := Nat.mod_lt _ hpos
  refine BitVec.eq_of_toNat_eq ?_
  rw [BitVec.toNat_and, BitVec.toNat_ofNat, Nat.mod_eq_of_lt (by omega : 2 ^ n - 1 < 2 ^ 32),
    Nat.and_two_pow_sub_one_eq_mod]
  simp
  omega

/-- IRQ_STATUS loses the bits written as 1 (R34). -/
theorem Csr.read_write_irqStatus (s : State) (v : Word) :
    Csr.irqStatus.read (Csr.irqStatus.write s v) = Csr.irqStatus.read s &&& ~~~v := by
  refine BitVec.eq_of_getLsbD_eq fun i hi => ?_
  by_cases h8 : i < 8
  · simp [Csr.read, Csr.write, hi, h8]
  · simp [Csr.read, Csr.write, BitVec.getLsbD_of_ge s.irq.status i (Nat.not_lt.1 h8)]

/-- No other register reads another value. -/
theorem Csr.read_write_of_ne (s : State) (v : Word) {c d : Csr} (h : d ≠ c) :
    d.read (c.write s v) = d.read s := by
  cases c
  case cfg | msgLen | fbufLen | clsIn | irqStatus | irqEn | txPre | txInit | txGap | txBit0 | txBit1 |
      txTerm | txDelay | rxDelay | shortMin | shortMax | longMin | longMax | initMin | initMax | termMin |
      accNum | accDen =>
    cases d <;> first | rfl | exact absurd rfl h
  all_goals rfl

/-! ### The write by its offset -/

/-- No two entries of the register table name the same register. -/
theorem csrTable_offset_unique : ∀ e ∈ csrTable, ∀ f ∈ csrTable, e.2.1 = f.2.1 → e.1 = f.1 := by
  decide +kernel

/-- CMD is the one WO register, and no register of the other kinds. -/
theorem csrTable_cmd_kind : ∀ e ∈ csrTable, (e.2.1 = Csr.cmd ↔ e.2.2 = .wo) := by decide +kernel

/-- The writable registers by what a write leaves in them. -/
theorem csrTable_writable : ∀ e ∈ csrTable, e.1 ∈ writableRegisters →
    (e.1 = 0x00C ∧ e.2.1 = .cfg) ∨ (e.1 = 0x044 ∧ e.2.1 = .irqStatus) ∨ (e.1 = 0x048 ∧ e.2.1 = .irqEn) ∨
      (e.1 = 0x120 ∧ e.2.1 = .accNum) ∨ (e.1 = 0x124 ∧ e.2.1 = .accDen) ∨
      ((0x090 ≤ e.1 ∧ e.1 ≤ 0x0A8) ∧ e.2.1 ∈ timingRegisters) ∨
      ((e.1 ≠ 0x00C ∧ e.1 ≠ 0x044 ∧ e.1 ≠ 0x048 ∧ ¬ (0x090 ≤ e.1 ∧ e.1 ≤ 0x0A8) ∧
        ¬ (e.1 = 0x120 ∨ e.1 = 0x124)) ∧ e.2.1 ∈ plainRegisters) := by
  decide +kernel

/-- What the register at a writable offset reads after a write. -/
theorem Csr.read_write_of_writable (s : State) (v : Word) {e : Nat × Csr × Access} (he : e ∈ csrTable)
    (hw : e.1 ∈ writableRegisters) : e.2.1.read (e.2.1.write s v) = s.afterWrite v e.1 := by
  obtain ⟨a, c, k⟩ := e
  rcases csrTable_writable _ he hw with
    ⟨rfl, rfl⟩ | ⟨rfl, rfl⟩ | ⟨rfl, rfl⟩ | ⟨rfl, rfl⟩ | ⟨rfl, rfl⟩ | ⟨ha, hc⟩ | ⟨⟨h1, h2, h3, h4, h5⟩, hc⟩
  · exact CfgRegs.word_ofWord v
  · exact Csr.read_write_irqStatus s v
  · exact zeroExtend_lowBits v (n := 8) (by decide)
  · exact zeroExtend_lowBits v (n := 16) (by decide)
  · exact zeroExtend_lowBits v (n := 16) (by decide)
  · rw [Csr.read_write_timing s v hc]
    unfold State.afterWrite
    dsimp only at ha ⊢
    have h1 : a ≠ 0x00C ∧ a ≠ 0x044 ∧ a ≠ 0x048 := by omega
    rw [if_neg h1.1, if_neg h1.2.1, if_neg h1.2.2, if_pos ha]
  · rw [Csr.read_write_plain s v hc]
    unfold State.afterWrite
    rw [if_neg h1, if_neg h2, if_neg h3, if_neg h4, if_neg h5]

/-- A write to a listed RW or W1C register is done, unless a pending command forbids it (R69). -/
theorem State.busWrite_register (s : State) (addr : BitVec 20) (v : Word) {e : Nat × Csr × Access}
    (he : e ∈ csrTable) (ha : addr.toNat = e.1) (hkind : e.2.2 = .rw ∨ e.2.2 = .w1c)
    (hp : s.cmd.pending = none ∨ e.2.1 = .irqStatus ∨ e.2.1 = .irqEn) :
    s.busWrite addr 0b1111 v =
      .next (e.2.1.write { s with bus := { s.bus with pslverr := false } } v) := by
  have hcmd : e.2.1 ≠ .cmd := by
    rw [Ne, csrTable_cmd_kind e he]
    rcases hkind with h | h <;> rw [h] <;> decide
  have hok : s.refusesWrite (.csr e.2.1 e.2.2) = false := by
    have hw : Region.writable (.csr e.2.1 e.2.2) = true := by rcases hkind with h | h <;> rw [h] <;> rfl
    have hb : s.cmdBusy = false ∨ Region.writableBusy (.csr e.2.1 e.2.2) = true := by
      rcases hp with h | h | h
      · exact .inl (by unfold State.cmdBusy; rw [h]; rfl)
      · exact .inr (by rw [h]; rfl)
      · exact .inr (by rw [h]; rfl)
    unfold State.refusesWrite
    rw [hw]
    rcases hb with h | h <;> rw [h] <;> simp
  unfold State.busWrite
  rw [reach_csr s.params addr he ha]
  dsimp only
  rw [hok, if_neg Bool.false_ne_true]
  split
  · next h => exact absurd (Region.csr.inj h).1 hcmd
  · next h => obtain ⟨rfl, -⟩ := Region.csr.inj h; rfl
  · next h => exact absurd rfl (h _ _)

/-- A register write changes the register table at its offset alone. -/
theorem State.registerMap_write (s : State) (v : Word) {e : Nat × Csr × Access} (he : e ∈ csrTable)
    (hw : e.1 ∈ writableRegisters) :
    (e.2.1.write s v).registerMap =
      s.registerMap.map (fun f => if f.1 = e.1 then (f.1, s.afterWrite v f.1) else f) := by
  rw [State.registerMap_eq, State.registerMap_eq, List.map_map]
  refine List.map_congr_left fun f hf => ?_
  dsimp only [Function.comp]
  split
  · next h =>
    obtain rfl := csrTable_injective f e hf he h
    rw [Csr.read_write_of_writable s v he hw]
  · next h => rw [Csr.read_write_of_ne s v fun hc => h (csrTable_offset_unique f hf e he hc)]

/-- A writable offset is that of an RW or W1C register. -/
theorem csrTable_kind_of_writable : ∀ e ∈ csrTable, e.1 ∈ writableRegisters →
    e.2.2 = .rw ∨ e.2.2 = .w1c := by decide +kernel

/-- The registers the host may write while a command is pending (R69), by offset. -/
theorem csrTable_writableBusy : ∀ e ∈ csrTable,
    (e.1 = 0x044 → e.2.1 = .irqStatus) ∧ (e.1 = 0x048 → e.2.1 = .irqEn) := by decide +kernel

/-- A write to a writable offset, by number. -/
theorem State.busWrite_writable (s : State) (addr : BitVec 20) (v : Word)
    (hw : addr.toNat ∈ writableRegisters)
    (hp : s.cmd.pending = none ∨ addr = 0x00044 ∨ addr = 0x00048) :
    ∃ t, s.busWrite addr 0b1111 v = .next t ∧ t.bus.pslverr = false ∧
      t =
        { s with
          bus := t.bus, cfg := t.cfg, codec := t.codec, cls := t.cls, irq := t.irq
          txTiming := t.txTiming, rxDelay := t.rxDelay, bands := t.bands, acc := t.acc } ∧
      t.registerMap =
        s.registerMap.map (fun e => if e.1 = addr.toNat then (e.1, s.afterWrite v e.1) else e) := by
  obtain ⟨e, he, ha⟩ := writableRegisters_listed _ hw
  rw [← ha] at hw
  have hp' : s.cmd.pending = none ∨ e.2.1 = .irqStatus ∨ e.2.1 = .irqEn := by
    refine hp.imp_right (Or.imp ?_ ?_)
    · exact fun h => (csrTable_writableBusy e he).1 (by rw [ha, h]; rfl)
    · exact fun h => (csrTable_writableBusy e he).2 (by rw [ha, h]; rfl)
  refine ⟨_, s.busWrite_register addr v he ha.symm (csrTable_kind_of_writable e he hw) hp', ?_, ?_, ?_⟩
  · rw [Csr.write_frame]
  · rw [Csr.write_frame]
  · rw [State.registerMap_write _ v he hw, ← ha]
    rfl

/-- Settles O48, register by register. -/
theorem registerWriteReadsBack : Obligations.RegisterWriteReadsBack := by
  refine fun s v => ⟨fun c => Csr.read_write_plain s v, fun c => Csr.read_write_timing s v,
    CfgRegs.word_ofWord v, zeroExtend_lowBits v (n := 8) (by decide),
    zeroExtend_lowBits v (n := 16) (by decide), zeroExtend_lowBits v (n := 16) (by decide),
    Csr.read_write_irqStatus s v, fun c d => Csr.read_write_of_ne s v, fun addr c kind hl hkind hp => ?_,
    fun addr hw hp => s.busWrite_writable addr v hw hp⟩
  rcases locate_eq_some _ _ _ hl with ⟨c', k', hr, _, hm⟩ | hreg
  · obtain ⟨rfl, rfl⟩ := Region.csr.inj hr
    exact ⟨{ s.bus with pslverr := false }, rfl, s.busWrite_register addr v hm rfl hkind (.inl hp)⟩
  · simp at hreg

end Sys2Proof.Machine
end

section
/-! PROOF of O11, `BuildTreeMergesLeast`. BuildTree's merges keep an invariant (40_huffman.md R89): the working
set is the nodes without a parent, each with its key, and every node made by a merge joined the two least of
them. -/

namespace Sys2Proof.Machine

/-! ### One merge (R89) -/

/-- `x` and `y` are the least and the next least member of a working set, and `rest` are the others. -/
structure LeastPair (ws : List (Nat × Nat)) (x y : Nat × Nat) (rest : List (Nat × Nat)) : Prop where
  perm : ws.Perm (x :: y :: rest)
  left_least : ∀ z ∈ ws, keyLt z x = false
  right_least : ∀ z ∈ y :: rest, keyLt z y = false

/-- The node that a merge of two keys makes. -/
def mergedNode (x y : Nat × Nat) : Node := .inner x.2 y.2 (x.1 + y.1)

/-- A merge of two or more nodes takes the least pair. -/
theorem mergeNodes_two (fuel next : Nat) (w v : Nat × Nat) (ws : List (Nat × Nat)) :
    ∃ x y rest, LeastPair (w :: v :: ws) x y rest ∧
      mergeNodes (fuel + 1) next (w :: v :: ws) =
        mergedNode x y :: mergeNodes fuel (next + 1) ((x.1 + y.1, next) :: rest) := by
  have hlen := takeLeast_length w (v :: ws)
  have hperm := takeLeast_perm w (v :: ws)
  have hleast := takeLeast_least w (v :: ws)
  rw [mergeNodes]
  generalize takeLeast w (v :: ws) = r at hlen hperm hleast
  obtain ⟨x, _ | ⟨u, us⟩⟩ := r
  · cases hlen
  · exact ⟨x, (takeLeast u us).1, (takeLeast u us).2,
      ⟨hperm.symm.trans ((takeLeast_perm u us).symm.cons x), hleast,
        fun z hz => takeLeast_least u us z ((takeLeast_perm u us).mem_iff.1 hz)⟩, rfl⟩

theorem mergeNodes_one (fuel next : Nat) (w : Nat × Nat) : mergeNodes fuel next [w] = [] := by
  cases fuel <;> rfl

/-- THE LAW OF THE MERGES: what every merge keeps holds of the nodes made so far and the working set when one
node is left. -/
theorem mergeNodes_induct {P : List Node → List (Nat × Nat) → Prop}
    (hstep : ∀ made ws x y rest, LeastPair ws x y rest → P made ws →
      P (made ++ [mergedNode x y]) ((x.1 + y.1, made.length) :: rest))
    (fuel : Nat) (made : List Node) (ws : List (Nat × Nat)) (hfuel : ws.length ≤ fuel) (hne : ws ≠ [])
    (h : P made ws) : ∃ p, P (made ++ mergeNodes fuel made.length ws) [p] := by
  induction fuel generalizing made ws with
  | zero => exact absurd (List.length_eq_zero_iff.1 (Nat.le_zero.1 hfuel)) hne
  | succ fuel ih =>
    match ws with
    | [w] => exact ⟨w, by rw [mergeNodes_one, List.append_nil]; exact h⟩
    | w :: v :: ws =>
      obtain ⟨x, y, rest, hpair, heq⟩ := mergeNodes_two fuel made.length w v ws
      have hlen := hpair.perm.length_eq
      obtain ⟨p, hp⟩ := ih (made ++ [mergedNode x y]) ((x.1 + y.1, made.length) :: rest)
        (by simp at hlen hfuel ⊢; omega) (List.cons_ne_nil _ _) (hstep made _ x y rest hpair h)
      rw [List.length_append, List.append_assoc] at hp
      exact ⟨p, by rw [heq]; exact hp⟩

/-- The working set before the first merge: the leaves with their keys. -/
def leafKeys (freq : List Nat) : List (Nat × Nat) := ((leafNodes freq).map Node.weight).zipIdx

@[simp] theorem leafNodes_length (freq : List Nat) :
    (leafNodes freq).length = (leafSymbols freq).length := by
  simp [leafNodes]

@[simp] theorem leafKeys_length (freq : List Nat) :
    (leafKeys freq).length = (leafSymbols freq).length := by
  simp [leafKeys]

/-- What holds of the leaves and is kept by every merge holds of the whole tree, with one node left. -/
theorem buildTree_induct {P : List Node → List (Nat × Nat) → Prop} (freq : List Nat)
    (hn : 0 < (leafSymbols freq).length) (h0 : P (leafNodes freq) (leafKeys freq))
    (hstep : ∀ made ws x y rest, LeastPair ws x y rest → P made ws →
      P (made ++ [mergedNode x y]) ((x.1 + y.1, made.length) :: rest)) :
    ∃ p, P (buildTree freq) [p] := by
  refine mergeNodes_induct hstep _ _ _ (by simp) ?_ h0
  intro h
  have hlen := leafKeys_length freq
  rw [leafKeys, h] at hlen
  exact absurd hlen.symm hn.ne'

/-! ### A node added to a list of nodes -/

theorem getElem?_of_nodeOf {nodes : List Node} {i : Nat} (h : i < nodes.length) :
    nodes[i]? = some (nodeOf nodes i) := by
  simp [nodeOf, h]

theorem nodeOf_append_of_lt (nodes new : List Node) {i : Nat} (h : i < nodes.length) :
    nodeOf (nodes ++ new) i = nodeOf nodes i := by
  unfold nodeOf; exact List.getD_append _ _ _ _ h

theorem nodeOf_append_length (nodes : List Node) (nd : Node) :
    nodeOf (nodes ++ [nd]) nodes.length = nd := by
  simp [nodeOf]

theorem isChildOf_append_of_lt (nodes new : List Node) {j k : Nat} (h : k < nodes.length) :
    isChildOf (nodes ++ new) j k ↔ isChildOf nodes j k := by
  unfold isChildOf; rw [List.getElem?_append_left h]

/-- A merge gives its two nodes a parent, and no other node. -/
theorem isChildOf_mergedNode (nodes : List Node) (x y : Nat × Nat) (j : Nat) :
    isChildOf (nodes ++ [mergedNode x y]) j nodes.length ↔ j = x.2 ∨ j = y.2 := by
  unfold isChildOf mergedNode
  simp

theorem isChildOf_lt_length {nodes : List Node} {j k : Nat} (h : isChildOf nodes j k) :
    k < nodes.length := by
  obtain ⟨l, r, w, hk, -⟩ := h
  exact (List.getElem?_eq_some_iff.1 hk).1

theorem parentlessBefore_append (nodes new : List Node) {i j : Nat} (h : i ≤ nodes.length) :
    parentlessBefore (nodes ++ new) i j ↔ parentlessBefore nodes i j :=
  forall₂_congr fun k hk => not_congr (isChildOf_append_of_lt nodes new (by omega))

theorem keyLe_append (nodes new : List Node) {x y : Nat} (hx : x < nodes.length) (hy : y < nodes.length) :
    keyLe (nodes ++ new) x y ↔ keyLe nodes x y := by
  unfold keyLe; rw [nodeOf_append_of_lt nodes new hx, nodeOf_append_of_lt nodes new hy]

/-! ### The working set -/

/-- The working set is the nodes without a parent, each once and with its key, and a child's index is below
its parent's. -/
structure WorkingSet (made : List Node) (ws : List (Nat × Nat)) : Prop where
  nodup : ws.Nodup
  mem_iff : ∀ p, p ∈ ws ↔
    p.2 < made.length ∧ p.1 = (nodeOf made p.2).weight ∧ parentlessBefore made made.length p.2
  child_lt : ∀ j k, isChildOf made j k → j < k

/-- A member's index gives its key. -/
theorem WorkingSet.eq_of_index {made : List Node} {ws : List (Nat × Nat)} (hw : WorkingSet made ws)
    {p q : Nat × Nat} (hp : p ∈ ws) (hq : q ∈ ws) (h : p.2 = q.2) : p = q := by
  have hp1 := ((hw.mem_iff p).1 hp).2.1
  have hq1 := ((hw.mem_iff q).1 hq).2.1
  exact Prod.ext (by rw [hp1, hq1, h]) h

theorem WorkingSet.lt_length {made : List Node} {ws : List (Nat × Nat)} (hw : WorkingSet made ws)
    {p : Nat × Nat} (hp : p ∈ ws) : p.2 < made.length := ((hw.mem_iff p).1 hp).1

/-- The members of a least pair, and the others. -/
theorem LeastPair.mem_iff {ws rest : List (Nat × Nat)} {x y : Nat × Nat} (h : LeastPair ws x y rest)
    (p : Nat × Nat) : p ∈ ws ↔ p = x ∨ p = y ∨ p ∈ rest := by
  rw [h.perm.mem_iff, List.mem_cons, List.mem_cons]

/-- A merge takes the pair out of the working set and puts the new node in. -/
theorem WorkingSet.merge {made : List Node} {ws rest : List (Nat × Nat)} {x y : Nat × Nat}
    (hw : WorkingSet made ws) (h : LeastPair ws x y rest) :
    WorkingSet (made ++ [mergedNode x y]) ((x.1 + y.1, made.length) :: rest) := by
  have hnd := h.perm.nodup_iff.1 hw.nodup
  simp only [List.nodup_cons, List.mem_cons, not_or] at hnd
  obtain ⟨⟨hxy, hxr⟩, hyr, hrest⟩ := hnd
  have hx : x ∈ ws := (h.mem_iff x).2 (.inl rfl)
  have hy : y ∈ ws := (h.mem_iff y).2 (.inr (.inl rfl))
  have hr {p} (hp : p ∈ rest) : p ∈ ws := (h.mem_iff p).2 (.inr (.inr hp))
  have hchild {j k} (hc : isChildOf (made ++ [mergedNode x y]) j k) :
      (k < made.length ∧ isChildOf made j k) ∨ (k = made.length ∧ (j = x.2 ∨ j = y.2)) := by
    have hk := isChildOf_lt_length hc
    rw [List.length_append, List.length_singleton] at hk
    rcases Nat.lt_succ_iff_lt_or_eq.1 hk with hk | rfl
    · exact .inl ⟨hk, (isChildOf_append_of_lt _ _ hk).1 hc⟩
    · exact .inr ⟨rfl, (isChildOf_mergedNode made x y j).1 hc⟩
  refine ⟨List.nodup_cons.2 ⟨fun hp => (hw.lt_length (hr hp)).ne rfl, hrest⟩, fun p => ?_, ?_⟩
  · rw [List.mem_cons, List.length_append, List.length_singleton]
    constructor
    · rintro (rfl | hp)
      · refine ⟨Nat.lt_succ_self _, by rw [nodeOf_append_length]; rfl, fun k _ hc => ?_⟩
        rcases hchild hc with ⟨hk, hc⟩ | ⟨rfl, hc | hc⟩
        · exact absurd (hw.child_lt _ _ hc) (Nat.lt_asymm hk)
        · exact (hw.lt_length hx).ne hc.symm
        · exact (hw.lt_length hy).ne hc.symm
      · obtain ⟨hlt, hwt, hpar⟩ := (hw.mem_iff p).1 (hr hp)
        refine ⟨by omega, by rw [nodeOf_append_of_lt _ _ hlt]; exact hwt, fun k _ hc => ?_⟩
        rcases hchild hc with ⟨hk, hc⟩ | ⟨rfl, hc | hc⟩
        · exact hpar k hk hc
        · exact hxr (hw.eq_of_index (hr hp) hx hc ▸ hp)
        · exact hyr (hw.eq_of_index (hr hp) hy hc ▸ hp)
    · rintro ⟨hlt, hwt, hpar⟩
      rcases Nat.lt_succ_iff_lt_or_eq.1 hlt with hlt | heq
      · right
        have hp : p ∈ ws := by
          refine (hw.mem_iff p).2 ⟨hlt, by rw [nodeOf_append_of_lt _ _ hlt] at hwt; exact hwt, ?_⟩
          exact (parentlessBefore_append _ _ le_rfl).1 fun k hk => hpar k (by omega)
        have hnot (hc : p.2 = x.2 ∨ p.2 = y.2) : False :=
          hpar _ (Nat.lt_succ_self _) ((isChildOf_mergedNode made x y p.2).2 hc)
        rcases (h.mem_iff p).1 hp with rfl | rfl | hp
        · exact (hnot (.inl rfl)).elim
        · exact (hnot (.inr rfl)).elim
        · exact hp
      · left
        rw [heq, nodeOf_append_length] at hwt
        exact Prod.ext hwt heq
  · intro j k hc
    rcases hchild hc with ⟨_, hc⟩ | ⟨rfl, rfl | rfl⟩
    · exact hw.child_lt j k hc
    · exact hw.lt_length hx
    · exact hw.lt_length hy

/-! ### The nodes that merges made -/

/-- Node `i` joined the two nodes with the least keys that had no parent then, the least on the left. -/
def MergedAt (nodes : List Node) (i : Nat) : Prop :=
  ∃ l r, nodes[i]? = some (.inner l r ((nodeOf nodes l).weight + (nodeOf nodes r).weight)) ∧
    l < i ∧ r < i ∧ l ≠ r ∧ parentlessBefore nodes i l ∧ parentlessBefore nodes i r ∧
    ∀ j, j < i → parentlessBefore nodes i j → keyLe nodes l j ∧ (j ≠ l → keyLe nodes r j)

/-- A later node changes nothing that was said of an earlier one. -/
theorem MergedAt.append {nodes : List Node} {i : Nat} (h : MergedAt nodes i) (new : List Node)
    (hi : i < nodes.length) : MergedAt (nodes ++ new) i := by
  obtain ⟨l, r, hnode, hl, hr, hne, hpl, hpr, hleast⟩ := h
  refine ⟨l, r, ?_, hl, hr, hne, (parentlessBefore_append _ _ hi.le).2 hpl,
    (parentlessBefore_append _ _ hi.le).2 hpr, fun j hj hpj => ?_⟩
  · rw [List.getElem?_append_left hi, nodeOf_append_of_lt _ _ (by omega),
      nodeOf_append_of_lt _ _ (by omega)]
    exact hnode
  · rw [keyLe_append _ _ (by omega) (by omega), keyLe_append _ _ (by omega) (by omega)]
    exact hleast j hj ((parentlessBefore_append _ _ hi.le).1 hpj)

/-- A key that does not come before another comes after it or is it. -/
theorem keyLe_of_not_keyLt {nodes : List Node} {x z : Nat × Nat} (h : keyLt z x = false)
    (hx : x.1 = (nodeOf nodes x.2).weight) (hz : z.1 = (nodeOf nodes z.2).weight) :
    keyLe nodes x.2 z.2 := by
  rw [Bool.eq_false_iff, Ne, keyLt_iff] at h
  unfold keyLe
  omega

/-- The node a merge makes joined the two least nodes without a parent. -/
theorem WorkingSet.mergedAt {made : List Node} {ws rest : List (Nat × Nat)} {x y : Nat × Nat}
    (hw : WorkingSet made ws) (h : LeastPair ws x y rest) :
    MergedAt (made ++ [mergedNode x y]) made.length := by
  have hx : x ∈ ws := (h.mem_iff x).2 (.inl rfl)
  have hy : y ∈ ws := (h.mem_iff y).2 (.inr (.inl rfl))
  have hxy : x ≠ y := by
    rintro rfl
    have hnd := h.perm.nodup_iff.1 hw.nodup
    simp at hnd
  obtain ⟨hxlt, hxw, hxp⟩ := (hw.mem_iff x).1 hx
  obtain ⟨hylt, hyw, hyp⟩ := (hw.mem_iff y).1 hy
  refine ⟨x.2, y.2, ?_, hxlt, hylt, fun he => hxy (hw.eq_of_index hx hy he),
    (parentlessBefore_append _ _ le_rfl).2 hxp, (parentlessBefore_append _ _ le_rfl).2 hyp,
    fun j hj hpj => ?_⟩
  · rw [nodeOf_append_of_lt _ _ hxlt, nodeOf_append_of_lt _ _ hylt, ← hxw, ← hyw]
    simp [mergedNode]
  · have hmem : ((nodeOf made j).weight, j) ∈ ws :=
      (hw.mem_iff _).2 ⟨hj, rfl, (parentlessBefore_append _ _ le_rfl).1 hpj⟩
    rw [keyLe_append _ _ hxlt hj, keyLe_append _ _ hylt hj]
    refine ⟨keyLe_of_not_keyLt (h.left_least _ hmem) hxw rfl, fun hne => ?_⟩
    refine keyLe_of_not_keyLt (z := ((nodeOf made j).weight, j)) (h.right_least _ ?_) hyw rfl
    rcases (h.mem_iff _).1 hmem with he | he | he
    · exact absurd (congrArg Prod.snd he) hne
    · rw [← he]; exact List.mem_cons_self
    · exact List.mem_cons_of_mem _ he

/-! ### The whole tree -/

/-- What holds of the nodes made so far and of the working set: the leaves come first, then the merged nodes;
and each merge leaves one node fewer. -/
structure Building (freq : List Nat) (made : List Node) (ws : List (Nat × Nat)) : Prop where
  working : WorkingSet made ws
  count : made.length + ws.length = 2 * (leafSymbols freq).length
  leaves : leafNodes freq <+: made
  merged : ∀ i, (leafSymbols freq).length ≤ i → i < made.length → MergedAt made i

/-- A leaf by its index. -/
theorem leafNodes_getElem? (freq : List Nat) (i : Nat) :
    (leafNodes freq)[i]? =
      (leafSymbols freq)[i]?.map fun sym => .leaf (BitVec.ofNat 8 sym) (freq.getD sym 0) := by
  simp [leafNodes]

/-- Leaves are nobody's parents. -/
theorem not_isChildOf_leafNodes (freq : List Nat) (j k : Nat) : ¬ isChildOf (leafNodes freq) j k := by
  rintro ⟨l, r, w, hk, -⟩
  rw [leafNodes_getElem?] at hk
  obtain ⟨sym, -, h⟩ := Option.map_eq_some_iff.1 hk
  cases h

/-- Before the first merge every leaf is in the working set. -/
theorem workingSet_leaves (freq : List Nat) : WorkingSet (leafNodes freq) (leafKeys freq) := by
  refine ⟨?_, fun p => ?_, fun j k h => absurd h (not_isChildOf_leafNodes freq j k)⟩
  · refine List.Nodup.of_map Prod.snd ?_
    rw [leafKeys, List.zipIdx_map_snd]
    exact List.nodup_range'
  · have hpar : parentlessBefore (leafNodes freq) (leafNodes freq).length p.2 :=
      fun k _ => not_isChildOf_leafNodes freq p.2 k
    rw [leafKeys, List.mem_zipIdx_iff_getElem?, List.getElem?_map]
    constructor
    · intro h
      obtain ⟨nd, hnd, hwt⟩ := Option.map_eq_some_iff.1 h
      refine ⟨(List.getElem?_eq_some_iff.1 hnd).1, ?_, hpar⟩
      rw [← hwt, nodeOf, List.getD_eq_getElem?_getD, hnd]; rfl
    · rintro ⟨hlt, hwt, -⟩
      rw [getElem?_of_nodeOf hlt, hwt]; rfl

theorem Building.leaves_only (freq : List Nat) : Building freq (leafNodes freq) (leafKeys freq) :=
  ⟨workingSet_leaves freq, by simp; omega, List.prefix_refl _,
    fun i h1 h2 => absurd h2 (by rw [leafNodes_length]; omega)⟩

theorem Building.merge {freq : List Nat} {made : List Node} {ws rest : List (Nat × Nat)} {x y : Nat × Nat}
    (hb : Building freq made ws) (h : LeastPair ws x y rest) :
    Building freq (made ++ [mergedNode x y]) ((x.1 + y.1, made.length) :: rest) := by
  refine ⟨hb.working.merge h, ?_, hb.leaves.trans (List.prefix_append _ _), fun i h1 h2 => ?_⟩
  · have hlen := h.perm.length_eq
    have hcount := hb.count
    simp at hlen ⊢
    omega
  · rw [List.length_append, List.length_singleton] at h2
    rcases Nat.lt_succ_iff_lt_or_eq.1 h2 with hlt | rfl
    · exact (hb.merged i h1 hlt).append _ hlt
    · exact hb.working.mergedAt h

theorem building_buildTree (freq : List Nat) (hn : 0 < (leafSymbols freq).length) :
    ∃ p, Building freq (buildTree freq) [p] :=
  buildTree_induct freq hn (Building.leaves_only freq) fun _ _ _ _ _ h hb => hb.merge h

/-- The last node made has no parent, so it is the one that is left. -/
theorem Building.root_eq {freq : List Nat} {made : List Node} {p : Nat × Nat}
    (hb : Building freq made [p]) : p.2 = made.length - 1 := by
  have hp := hb.working.lt_length (List.mem_singleton.2 rfl)
  have hmem : ((nodeOf made (made.length - 1)).weight, made.length - 1) ∈ [p] := by
    refine (hb.working.mem_iff _).2 ⟨by dsimp only; omega, rfl, fun k hk hc => ?_⟩
    have := hb.working.child_lt _ _ hc
    dsimp only at this
    omega
  rw [← List.mem_singleton.1 hmem]

/-- n leaves make 2n - 1 nodes (R49). -/
theorem buildTree_length (freq : List Nat) (hn : 0 < (leafSymbols freq).length) :
    (buildTree freq).length = 2 * (leafSymbols freq).length - 1 := by
  obtain ⟨p, hb⟩ := building_buildTree freq hn
  have := hb.count
  simp at this
  omega

/-- Settles O11: the invariant `Building` of the merges, read when one node is left. -/
theorem buildTreeMergesLeast : Obligations.BuildTreeMergesLeast := by
  intro freq hn
  have hlen := buildTree_length freq hn
  obtain ⟨p, hb⟩ := building_buildTree freq hn
  refine ⟨hlen, fun i hi => ?_, fun i h1 h2 => hb.merged i h1 (by omega), fun j hj => ?_⟩
  · refine ⟨(leafSymbols freq)[i], List.getElem?_eq_getElem hi, ?_⟩
    obtain ⟨merged, hsplit⟩ := hb.leaves
    rw [← hsplit, List.getElem?_append_left (by simpa using hi), leafNodes_getElem?,
      List.getElem?_eq_getElem hi]
    rfl
  · by_contra hno
    have hmem : ((nodeOf (buildTree freq) j).weight, j) ∈ [p] :=
      (hb.working.mem_iff _).2 ⟨by dsimp only; omega, rfl, fun k hk hc => hno ⟨k, by omega, hc⟩⟩
    have hroot := hb.root_eq
    rw [← List.mem_singleton.1 hmem] at hroot
    dsimp only at hroot
    omega

end Sys2Proof.Machine
end

section
/-! PROOF of O10, `BuildWritesTree`: TREE reads back the nodes BUILD writes (10_state.md R48, 40_huffman.md R89,
R95), because every weight and every index of BuildTree's nodes fits its field. -/

namespace Sys2Proof.Machine

/-! ### The weights of a tree (R49) -/

/-- What the merges keep of the weights: the working set's add up to at most the total, so no node weighs
more. -/
structure WeightsWithin (total : Nat) (made : List Node) (ws : List (Nat × Nat)) : Prop where
  sum_le : (ws.map Prod.fst).sum ≤ total
  le : ∀ nd ∈ made, nd.weight ≤ total

theorem WeightsWithin.merge {total : Nat} {made : List Node} {ws rest : List (Nat × Nat)}
    {x y : Nat × Nat} (hw : WeightsWithin total made ws) (h : LeastPair ws x y rest) :
    WeightsWithin total (made ++ [mergedNode x y]) ((x.1 + y.1, made.length) :: rest) := by
  have hsum := hw.sum_le
  rw [(h.perm.map Prod.fst).sum_eq] at hsum
  simp only [List.map_cons, List.sum_cons] at hsum
  refine ⟨by simp only [List.map_cons, List.sum_cons]; omega, fun nd hnd => ?_⟩
  rcases List.mem_append.1 hnd with hnd | hnd
  · exact hw.le nd hnd
  · rw [List.mem_singleton.1 hnd]
    show x.1 + y.1 ≤ total
    omega

/-- The leaves weigh no more than the whole table. -/
theorem leafNodes_weight_sum_le (freq : List Nat) (hlen : freq.length = 256) :
    ((leafNodes freq).map Node.weight).sum ≤ freq.sum := by
  have hall : (List.range 256).map (fun sym => freq.getD sym 0) = freq := by
    refine List.ext_getElem (by simp [hlen]) fun i h1 h2 => ?_
    simp [h2]
  have hsub : (leafSymbols freq).Sublist (List.range 256) := List.filter_sublist
  have hmap : (leafNodes freq).map Node.weight = (leafSymbols freq).map (fun sym => freq.getD sym 0) := by
    rw [leafNodes, List.map_map]; rfl
  rw [hmap]
  calc _ ≤ ((List.range 256).map (fun sym => freq.getD sym 0)).sum :=
        (hsub.map _).sum_le_sum (fun _ _ => Nat.zero_le _)
    _ = freq.sum := by rw [hall]

theorem weightsWithin_leaves (freq : List Nat) (hlen : freq.length = 256) :
    WeightsWithin freq.sum (leafNodes freq) (leafKeys freq) := by
  have hsum := leafNodes_weight_sum_le freq hlen
  refine ⟨by rw [leafKeys, List.zipIdx_map_fst]; exact hsum, fun nd hnd => ?_⟩
  exact (List.single_le_sum (fun _ _ => Nat.zero_le _) _ (List.mem_map_of_mem hnd)).trans hsum

/-! ### A node in its two words (10_state.md R48) -/

/-- The node that two words of TREE hold. -/
def nodeOfWords (w weight : Word) : Node :=
  if w.getLsbD 31 then .leaf (w.extractLsb' 0 8) weight.toNat
  else .inner (w.extractLsb' 0 9).toNat (w.extractLsb' 16 9).toNat weight.toNat

theorem State.nodeAt_eq (s : State) (pass i : Nat) :
    s.nodeAt pass i = nodeOfWords (s.nodeWord pass i) (s.readWord pass (treeBase + 8 * i + 4)) := rfl

/-- A node whose indices and weight fit their fields. -/
def Node.Fits : Node → Prop
  | .leaf _ w => w < 2 ^ 32
  | .inner l r w => l < 512 ∧ r < 512 ∧ w < 2 ^ 32

/-- VALID, LEAF and SYM of a leaf. -/
theorem leafWord_fields (sym : Byte) (w : Nat) :
    (Node.leaf sym w).word.getLsbD 31 = true ∧ (Node.leaf sym w).word.getLsbD 30 = true ∧
      (Node.leaf sym w).word.extractLsb' 0 8 = sym := by
  unfold Node.word
  refine ⟨by simp, by simp, BitVec.eq_of_getLsbD_eq fun i hi => ?_⟩
  interval_cases i <;> simp

/-- VALID, LEAF, LEFT and RIGHT of an internal node. -/
theorem innerWord_fields (l r w : Nat) :
    (Node.inner l r w).word.getLsbD 31 = false ∧ (Node.inner l r w).word.getLsbD 30 = true ∧
      (Node.inner l r w).word.extractLsb' 0 9 = BitVec.ofNat 9 l ∧
      (Node.inner l r w).word.extractLsb' 16 9 = BitVec.ofNat 9 r := by
  unfold Node.word
  refine ⟨by simp, by simp, BitVec.eq_of_getLsbD_eq fun i hi => ?_, BitVec.eq_of_getLsbD_eq fun i hi => ?_⟩
  · interval_cases i <;> simp
  · interval_cases i <;> simp

theorem Node.word_valid (nd : Node) : nd.word.getLsbD 30 = true := by
  cases nd with
  | leaf sym w => exact (leafWord_fields sym w).2.1
  | inner l r w => exact (innerWord_fields l r w).2.1

/-- A node that fits reads back from its words. -/
theorem nodeOfWords_word {nd : Node} (h : nd.Fits) :
    nodeOfWords nd.word (BitVec.ofNat 32 nd.weight) = nd := by
  unfold nodeOfWords
  cases nd with
  | leaf sym w =>
    obtain ⟨h31, -, hsym⟩ := leafWord_fields sym w
    rw [if_pos h31, hsym, BitVec.toNat_ofNat]
    show Node.leaf sym (w % 2 ^ 32) = _
    rw [Nat.mod_eq_of_lt h]
  | inner l r w =>
    obtain ⟨h31, -, hl, hr⟩ := innerWord_fields l r w
    obtain ⟨hl', hr', hw⟩ := h
    rw [if_neg (by rw [h31]; exact Bool.false_ne_true), hl, hr, BitVec.toNat_ofNat, BitVec.toNat_ofNat,
      BitVec.toNat_ofNat, Nat.mod_eq_of_lt hl', Nat.mod_eq_of_lt hr']
    show Node.inner l r (w % 2 ^ 32) = _
    rw [Nat.mod_eq_of_lt hw]

/-! ### The node store as words -/

/-- The words of a list of nodes, two to a node. -/
def treeWords (nodes : List Node) : List Word :=
  nodes.flatMap fun nd => [nd.word, BitVec.ofNat 32 nd.weight]

theorem treeWords_length (nodes : List Node) : (treeWords nodes).length = 2 * nodes.length := by
  simp [treeWords, List.length_flatMap]; omega

theorem flatMap_bytes_treeWords (nodes : List Node) :
    (treeWords nodes).flatMap Word.bytes = nodes.flatMap Node.bytes := by
  rw [treeWords, List.flatMap_assoc]
  rfl

/-- The two words of a node by its index. -/
theorem treeWords_getD (nodes : List Node) (i : Nat) :
    (treeWords nodes).getD (2 * i) 0 = (nodes[i]?.map Node.word).getD 0 ∧
      (treeWords nodes).getD (2 * i + 1) 0 =
        (nodes[i]?.map fun nd => BitVec.ofNat 32 nd.weight).getD 0 := by
  induction nodes generalizing i with
  | nil => simp [treeWords]
  | cons nd nodes ih =>
    have hcons : treeWords (nd :: nodes) = nd.word :: BitVec.ofNat 32 nd.weight :: treeWords nodes := rfl
    rw [hcons]
    cases i with
    | zero => simp
    | succ i => simpa [Nat.mul_succ] using ih i

/-- A byte of the node store is a byte of its word; beyond the nodes all are 0. -/
theorem treeBytes_getD (nodes : List Node) (i k : Nat) (hk : k < 4) :
    (treeBytes nodes).getD (4 * i + k) 0 = (Word.bytes ((treeWords nodes).getD i 0)).getD k 0 := by
  unfold treeBytes
  dsimp only
  rw [← flatMap_bytes_treeWords]
  have hlen := length_flatMap_bytes (treeWords nodes)
  by_cases hi : i < (treeWords nodes).length
  · rw [List.getD_append _ _ _ _ (by omega), getD_flatMap_bytes _ _ _ hk hi]
  · rw [List.getD_append_right _ _ _ _ (by omega), List.getD_eq_default _ _ (Nat.not_lt.1 hi)]
    have hzero : (Word.bytes 0).getD k 0 = 0 := by interval_cases k <;> rfl
    rw [hzero, List.getD_eq_getElem?_getD, List.getElem?_replicate]
    split <;> rfl

theorem treeBytes_length (nodes : List Node) (h : nodes.length ≤ 512) :
    (treeBytes nodes).length = 4096 := by
  have hlen := length_flatMap_bytes (treeWords nodes)
  rw [flatMap_bytes_treeWords, treeWords_length] at hlen
  simp only [treeBytes, List.length_append, List.length_replicate]
  omega

/-- The machine's TREE holds these nodes, and zeros for every other entry. -/
def State.StoresTree (s : State) (nodes : List Node) : Prop :=
  s.tree.tv = true ∧ ∀ a, within treeBase 4096 a →
    s.store.bits.get a = (treeBytes nodes).getD (a - treeBase) 0

/-- A word whose four bytes read is read. -/
theorem State.readWord_eq {s : State} {pass a : Nat} {w : Word}
    (h : ∀ k < 4, s.readByte pass (a + k) = (Word.bytes w).getD k 0) : s.readWord pass a = w := by
  have h0 := h 0 (by omega)
  rw [Nat.add_zero] at h0
  unfold State.readWord
  rw [h0, h 1 (by omega), h 2 (by omega), h 3 (by omega)]
  exact Word.ofBytes_bytes w

/-- A word of TREE below entry 511 reads what is stored. -/
theorem State.StoresTree.readWord {s : State} {nodes : List Node} (h : s.StoresTree nodes) (pass : Nat)
    {i : Nat} (hi : i < 1022) : s.readWord pass (treeBase + 4 * i) = (treeWords nodes).getD i 0 := by
  obtain ⟨hv, hbits⟩ := h
  refine State.readWord_eq fun k hk => ?_
  rw [State.readByte_table s pass _ ?_ ?_ hv, hbits _ ⟨by omega, by omega⟩,
    show treeBase + 4 * i + k - treeBase = 4 * i + k by omega, treeBytes_getD nodes i k hk]
  · rw [inTables_eq]; unfold treeBase; omega
  · rw [Bool.eq_false_iff, Ne, isFixed_eq]; unfold treeBase; omega

/-- Entry 511 of TREE reads 0 (R48). -/
theorem State.readWord_fixed (s : State) (pass : Nat) {i : Nat} (h1 : 1022 ≤ i) (h2 : i < 1024) :
    s.readWord pass (treeBase + 4 * i) = 0 := by
  refine State.readWord_eq fun k hk => ?_
  rw [s.readByte_fixed pass _ (by rw [isFixed_eq]; unfold treeBase; omega)]
  interval_cases k <;> rfl

/-- A node reads back, VALID. -/
theorem State.StoresTree.nodeAt {s : State} {nodes : List Node} (h : s.StoresTree nodes)
    (hfits : ∀ nd ∈ nodes, nd.Fits) (pass : Nat) {i : Nat} (hi : i < nodes.length) (hmax : i < 511) :
    nodes[i]? = some (s.nodeAt pass i) ∧ (s.nodeWord pass i).getLsbD 30 = true := by
  have hget := List.getElem?_eq_getElem hi
  obtain ⟨h0, h1⟩ := treeWords_getD nodes i
  rw [hget] at h0 h1
  have hw : s.nodeWord pass i = nodes[i].word := by
    rw [State.nodeWord, show treeBase + 8 * i = treeBase + 4 * (2 * i) by omega,
      h.readWord pass (by omega), h0]
    rfl
  have hwt : s.readWord pass (treeBase + 8 * i + 4) = BitVec.ofNat 32 nodes[i].weight := by
    rw [show treeBase + 8 * i + 4 = treeBase + 4 * (2 * i + 1) by omega, h.readWord pass (by omega), h1]
    rfl
  rw [State.nodeAt_eq, hw, hwt, nodeOfWords_word (hfits _ (List.getElem_mem hi)), hget]
  exact ⟨rfl, Node.word_valid _⟩

/-- Every entry beyond the nodes reads 0. -/
theorem State.StoresTree.unused {s : State} {nodes : List Node} (h : s.StoresTree nodes) (pass : Nat)
    {i : Nat} (hi : nodes.length ≤ i) (hmax : i < 512) :
    s.nodeWord pass i = 0 ∧ s.readWord pass (treeBase + 8 * i + 4) = 0 := by
  obtain ⟨h0, h1⟩ := treeWords_getD nodes i
  rw [List.getElem?_eq_none hi] at h0 h1
  rw [State.nodeWord, show treeBase + 8 * i = treeBase + 4 * (2 * i) by omega,
    show treeBase + 4 * (2 * i) + 4 = treeBase + 4 * (2 * i + 1) by omega]
  by_cases h511 : i < 511
  · rw [h.readWord pass (by omega), h.readWord pass (by omega), h0, h1]
    exact ⟨rfl, rfl⟩
  · exact ⟨s.readWord_fixed pass (by omega) (by omega), s.readWord_fixed pass (by omega) (by omega)⟩

/-! ### BuildTree's nodes fit -/

theorem leafSymbols_length_le (freq : List Nat) : (leafSymbols freq).length ≤ 256 :=
  (List.length_filter_le _ _).trans (by simp)

theorem buildTree_length_le (freq : List Nat) (hn : 0 < (leafSymbols freq).length) :
    (buildTree freq).length ≤ 511 := by
  have := leafSymbols_length_le freq
  rw [buildTree_length freq hn]
  omega

/-- Every node of a tree made from a table of 256 counts with a total below 2^32 fits. -/
theorem buildTree_fits (freq : List Nat) (hlen : freq.length = 256) (hsum : freq.sum < 2 ^ 32)
    (hn : 0 < (leafSymbols freq).length) : ∀ nd ∈ buildTree freq, nd.Fits := by
  obtain ⟨p, hw⟩ := buildTree_induct freq hn (weightsWithin_leaves freq hlen)
    fun _ _ _ _ _ h hw => hw.merge h
  obtain ⟨q, hb⟩ := building_buildTree freq hn
  have hmax := buildTree_length_le freq hn
  intro nd hnd
  have hwt : nd.weight < 2 ^ 32 := lt_of_le_of_lt (hw.le nd hnd) hsum
  obtain ⟨i, hi, rfl⟩ := List.getElem_of_mem hnd
  cases hcase : (buildTree freq)[i] with
  | leaf sym w => rw [hcase] at hwt; exact hwt
  | inner l r w =>
    rw [hcase] at hwt
    have hnode : (buildTree freq)[i]? = some (.inner l r w) := by
      rw [List.getElem?_eq_getElem hi, hcase]
    have hl := hb.working.child_lt l i ⟨l, r, w, hnode, .inl rfl⟩
    have hr := hb.working.child_lt r i ⟨l, r, w, hnode, .inr rfl⟩
    exact ⟨by omega, by omega, hwt⟩

/-! ### BUILD -/

/-- A command whose effect leaves IRQ_STATUS alone completes. -/
theorem completed_succeed {s t : State} (op : BitVec 8) (h : t.irq = s.irq) :
    Completed s (t.succeed op) op := by
  refine ⟨rfl, ?_⟩
  rw [State.succeed_irq, h]

/-- The symbols of FREQ are those with a count. -/
theorem mem_leafSymbols {freq : List Nat} {sym : Nat} :
    sym ∈ leafSymbols freq ↔ sym < 256 ∧ 0 < freq.getD sym 0 := by
  simp [leafSymbols]

theorem State.leafSymbols_pos {s : State} {sym : Nat} (hsym : sym < 256) (h : s.freqAt sym ≠ 0) :
    0 < (leafSymbols s.freqTable).length := by
  refine List.length_pos_of_mem (mem_leafSymbols.2 ⟨hsym, ?_⟩)
  rw [s.freqTable_getD sym hsym]
  exact Nat.pos_of_ne_zero fun h0 => h (BitVec.eq_of_toNat_eq h0)

/-- BUILD writes TREE whole, and clears the code table after it. -/
theorem State.buildEffect_storesTree (s : State) (hn : 0 < (leafSymbols s.freqTable).length) :
    s.buildEffect.StoresTree (buildTree s.freqTable) := by
  refine ⟨rfl, fun a ha => ?_⟩
  have hmax := buildTree_length_le _ hn
  have hcode : ¬ codeOffsets a := by
    unfold codeOffsets codeLenBase codeBitsBase
    unfold treeBase at ha
    omega
  show (((s.store.putTable treeBase (treeBytes (buildTree s.freqTable))).clearCodes).bits.get a) = _
  rw [(Storage.clearCodes_get _ a).2 hcode, Storage.putTable_bits, Memory.get_splice,
    if_pos (by rw [treeBytes_length _ (by omega)]; exact ha)]

/-- The tables that BUILD writes are all there are. -/
theorem inTables_iff (a : Nat) : inTables a = true ↔ codeOffsets a ∨ within treeBase 4096 a := by
  rw [inTables_eq]
  unfold codeOffsets within codeLenBase codeBitsBase treeBase
  omega

/-- A cleared code table reads 0. -/
theorem State.readByte_cleared {t : State} {st : Storage} (hs : t.store.bits = st.clearCodes.bits)
    (hv : t.tree.tv = true) (pass : Nat) {a : Nat} (ha : codeOffsets a) : t.readByte pass a = 0 := by
  by_cases hf : isFixed a = true
  · exact t.readByte_fixed pass a hf
  · rw [t.readByte_table pass a ((inTables_iff a).2 (.inl ha)) (Bool.eq_false_iff.2 hf) hv, hs]
    exact (Storage.clearCodes_get st a).1 ha

/-- Outside the tables BUILD leaves every byte. -/
theorem State.buildEffect_same (s : State) (hn : 0 < (leafSymbols s.freqTable).length) (op : BitVec 8) :
    SameBytesBut s (s.buildEffect.succeed op) (fun a => codeOffsets a ∨ within treeBase 4096 a) := by
  intro pass a ha
  have hT : inTables a = false := Bool.eq_false_iff.2 (mt (inTables_iff a).1 ha)
  have hmax := buildTree_length_le _ hn
  have hbits : (s.buildEffect.succeed op).store.bits.get a = s.store.bits.get a := by
    show ((s.store.putTable treeBase (treeBytes (buildTree s.freqTable))).clearCodes).bits.get a = _
    rw [(Storage.clearCodes_get _ a).2 fun h => ha (.inl h), Storage.putTable_bits, Memory.get_splice,
      if_neg (by rw [treeBytes_length _ (by omega)]; exact fun h => ha (.inr h))]
  rw [State.readByte_plain _ pass a hT, State.readByte_plain _ pass a hT, hbits]
  rfl

/-- Settles O10: the nodes fit their fields, so TREE reads them back. -/
theorem buildWritesTree : Obligations.BuildWritesTree := by
  rintro s hidle hsum ⟨sym, hsym, hcount⟩
  have hn := State.leafSymbols_pos hsym hcount
  have hlen := buildTree_length s.freqTable hn
  have hmax := buildTree_length_le s.freqTable hn
  have hcheck : s.buildCheck = none := by
    refine s.buildCheck_none.2 ⟨hidle, hsum, s.freqTable.getD sym 0, ?_, ?_⟩
    · rw [List.getD_eq_getElem _ _ (by rw [State.freqTable_length]; exact hsym)]
      exact List.getElem_mem _
    · rw [s.freqTable_getD sym hsym]
      exact fun h0 => hcount (BitVec.eq_of_toNat_eq h0)
  have hstore : (s.buildEffect.succeed 0x02).StoresTree (buildTree s.freqTable) :=
    s.buildEffect_storesTree hn
  have hfits := buildTree_fits s.freqTable s.freqTable_length hsum hn
  refine ⟨s.buildEffect.succeed 0x02, ?_, completed_succeed 0x02 rfl, rfl, ⟨?_, fun pass i hi => ?_,
    fun pass i h1 h2 => hstore.unused pass (by omega) h2⟩,
    fun pass a ha => State.readByte_cleared rfl rfl pass ha, s.buildEffect_same hn 0x02⟩
  · rw [exec_build, hcheck, State.run_none]
  · rw [State.succeed_tree]
    unfold State.buildEffect
    dsimp only
    rw [hlen]
    congr 2
  · exact hstore.nodeAt hfits pass (by omega) (by omega)

end Sys2Proof.Machine
end

section
/-! PROOF of O12, `CodesWritesPaths`. BuildTree's nodes stand for a tree with one leaf for each symbol, so the
walk of CODES visits each leaf once, within its 511 nodes; and the entries of the code table do not overlap
(10_state.md R46, R47, 40_huffman.md R90, R91). -/

namespace Sys2Proof.Machine

/-! ### Trees as data -/

/-- A code tree: the nodes of TREE without their indices and weights. -/
inductive CodeTree where
  | leaf (sym : Byte)
  | fork (l r : CodeTree)

/-- The tree that stands in a list of nodes at an index. -/
def CodeTree.StandsAt (nodes : List Node) : CodeTree → Nat → Prop
  | .leaf sym, i => ∃ w, nodes[i]? = some (.leaf sym w)
  | .fork l r, i => ∃ a b w, nodes[i]? = some (.inner a b w) ∧ l.StandsAt nodes a ∧ r.StandsAt nodes b

/-- The symbols of the leaves, left before right. -/
def CodeTree.symbols : CodeTree → List Byte
  | .leaf sym => [sym]
  | .fork l r => l.symbols ++ r.symbols

/-- The number of nodes. -/
def CodeTree.size : CodeTree → Nat
  | .leaf _ => 1
  | .fork l r => l.size + r.size + 1

/-- The symbols and paths of the leaves, left before right. -/
def CodeTree.codes : CodeTree → List (Byte × List Bool)
  | .leaf sym => [(sym, [])]
  | .fork l r =>
    l.codes.map (fun c => (c.1, false :: c.2)) ++ r.codes.map (fun c => (c.1, true :: c.2))

theorem CodeTree.symbols_length_pos (t : CodeTree) : 0 < t.symbols.length := by
  induction t with
  | leaf sym => exact Nat.one_pos
  | fork l r ihl ihr => simp [CodeTree.symbols]; omega

/-- n leaves make 2n - 1 nodes. -/
theorem CodeTree.size_eq (t : CodeTree) : t.size + 1 = 2 * t.symbols.length := by
  induction t with
  | leaf sym => rfl
  | fork l r ihl ihr => simp [CodeTree.symbols, CodeTree.size]; omega

theorem CodeTree.codes_map_fst (t : CodeTree) : t.codes.map Prod.fst = t.symbols := by
  induction t with
  | leaf sym => rfl
  | fork l r ihl ihr =>
    rw [CodeTree.codes, CodeTree.symbols, List.map_append, List.map_map, List.map_map, ← ihl, ← ihr]
    rfl

/-- A path is shorter than the number of leaves. -/
theorem CodeTree.codes_length_lt (t : CodeTree) : ∀ c ∈ t.codes, c.2.length < t.symbols.length := by
  induction t with
  | leaf sym => simp [CodeTree.codes, CodeTree.symbols]
  | fork l r ihl ihr =>
    intro c hc
    have hl := l.symbols_length_pos
    have hr := r.symbols_length_pos
    rw [CodeTree.symbols, List.length_append]
    rcases List.mem_append.1 hc with hc | hc
    · obtain ⟨d, hd, rfl⟩ := List.mem_map.1 hc
      have := ihl d hd
      simp only [List.length_cons]; omega
    · obtain ⟨d, hd, rfl⟩ := List.mem_map.1 hc
      have := ihr d hd
      simp only [List.length_cons]; omega

/-- The one path of a tree of one leaf is empty, and no other is. -/
theorem CodeTree.codes_fork_ne_nil (l r : CodeTree) : ∀ c ∈ (CodeTree.fork l r).codes, c.2 ≠ [] := by
  intro c hc
  rcases List.mem_append.1 hc with hc | hc
  all_goals
    obtain ⟨d, -, rfl⟩ := List.mem_map.1 hc
    exact List.cons_ne_nil _ _

/-- Each path leads from the root to its symbol's leaf. -/
theorem CodeTree.StandsAt.descend {nodes : List Node} {node : Nat → Node}
    (hnode : ∀ i nd, nodes[i]? = some nd → node i = nd) {t : CodeTree} {i : Nat}
    (ht : t.StandsAt nodes i) : ∀ c ∈ t.codes, descend node i c.2 = some c.1 := by
  induction t generalizing i with
  | leaf sym =>
    obtain ⟨w, hi⟩ := ht
    intro c hc
    rw [List.mem_singleton.1 hc, Machine.descend, hnode i _ hi]
  | fork l r ihl ihr =>
    obtain ⟨a, b, w, hi, hl, hr⟩ := ht
    intro c hc
    rcases List.mem_append.1 hc with hc | hc
    · obtain ⟨d, hd, rfl⟩ := List.mem_map.1 hc
      rw [Machine.descend, hnode i _ hi]
      exact ihl hl d hd
    · obtain ⟨d, hd, rfl⟩ := List.mem_map.1 hc
      rw [Machine.descend, hnode i _ hi]
      exact ihr hr d hd

/-- The walk visits a tree with one unit of fuel for each node, and answers its codes. -/
theorem CodeTree.StandsAt.walkCodes {nodes : List Node} {node : Nat → Node}
    (hnode : ∀ i nd, nodes[i]? = some nd → node i = nd) {t : CodeTree} {i : Nat}
    (ht : t.StandsAt nodes i) (fuel : Nat) (path : List Bool) (rest : List (Nat × List Bool)) :
    walkCodes node (t.size + fuel) ((i, path) :: rest) =
      t.codes.map (fun c => (c.1, path ++ c.2)) ++ walkCodes node fuel rest := by
  induction t generalizing i fuel path rest with
  | leaf sym =>
    obtain ⟨w, hi⟩ := ht
    rw [CodeTree.size, Nat.add_comm, Machine.walkCodes, hnode i _ hi]
    simp [CodeTree.codes]
  | fork l r ihl ihr =>
    obtain ⟨a, b, w, hi, hl, hr⟩ := ht
    rw [CodeTree.size, show l.size + r.size + 1 + fuel = l.size + (r.size + fuel) + 1 by omega,
      Machine.walkCodes, hnode i _ hi]
    dsimp only
    rw [ihl hl, ihr hr]
    simp [CodeTree.codes, Function.comp_def]

/-- A tree stands where it stood when nodes are added. -/
theorem CodeTree.StandsAt.append {nodes : List Node} {t : CodeTree} {i : Nat} (ht : t.StandsAt nodes i)
    (new : List Node) : t.StandsAt (nodes ++ new) i := by
  have keep {k : Nat} {nd : Node} (h : nodes[k]? = some nd) : (nodes ++ new)[k]? = some nd := by
    rw [List.getElem?_append_left (List.getElem?_eq_some_iff.1 h).1, h]
  induction t generalizing i with
  | leaf sym =>
    obtain ⟨w, hi⟩ := ht
    exact ⟨w, keep hi⟩
  | fork l r ihl ihr =>
    obtain ⟨a, b, w, hi, hl, hr⟩ := ht
    exact ⟨a, b, w, keep hi, ihl hl, ihr hr⟩

theorem CodeTree.StandsAt.lt_length {nodes : List Node} {t : CodeTree} {i : Nat}
    (ht : t.StandsAt nodes i) : i < nodes.length := by
  cases t with
  | leaf sym =>
    obtain ⟨w, hi⟩ := ht
    exact (List.getElem?_eq_some_iff.1 hi).1
  | fork l r =>
    obtain ⟨a, b, w, hi, -⟩ := ht
    exact (List.getElem?_eq_some_iff.1 hi).1

/-! ### The forest that the merges keep -/

/-- Each member of the working set is the root of a tree, and the trees have these symbols together. -/
def Forest (syms : List Byte) (made : List Node) (ws : List (Nat × Nat)) : Prop :=
  ∃ T : Nat → CodeTree, (∀ p ∈ ws, (T p.2).StandsAt made p.2) ∧
    (ws.flatMap fun p => (T p.2).symbols).Perm syms

/-- A merge joins two trees. -/
theorem Forest.merge {syms : List Byte} {made : List Node} {ws rest : List (Nat × Nat)} {x y : Nat × Nat}
    (hf : Forest syms made ws) (h : LeastPair ws x y rest) :
    Forest syms (made ++ [mergedNode x y]) ((x.1 + y.1, made.length) :: rest) := by
  obtain ⟨T, hT, hsyms⟩ := hf
  have hx := hT x ((h.mem_iff x).2 (.inl rfl))
  have hy := hT y ((h.mem_iff y).2 (.inr (.inl rfl)))
  have hr {p} (hp : p ∈ rest) := hT p ((h.mem_iff p).2 (.inr (.inr hp)))
  have hold {p} (hp : p ∈ rest) :
      Function.update T made.length (.fork (T x.2) (T y.2)) p.2 = T p.2 :=
    Function.update_of_ne (hr hp).lt_length.ne _ _
  refine ⟨Function.update T made.length (.fork (T x.2) (T y.2)), fun p hp => ?_, ?_⟩
  · rcases List.mem_cons.1 hp with rfl | hp
    · rw [Function.update_self]
      exact ⟨x.2, y.2, x.1 + y.1, by simp [mergedNode], hx.append _, hy.append _⟩
    · rw [hold hp]; exact (hr hp).append _
  · have hrest : (rest.flatMap fun p =>
        (Function.update T made.length (.fork (T x.2) (T y.2)) p.2).symbols) =
        rest.flatMap fun p => (T p.2).symbols :=
      List.flatMap_congr fun p hp => by rw [hold hp]
    rw [List.flatMap_cons, hrest, Function.update_self, CodeTree.symbols]
    refine .trans ?_ ((h.perm.flatMap_right _).symm.trans hsyms)
    rw [List.flatMap_cons, List.flatMap_cons, List.append_assoc]

/-- The symbols of a frequency table, as bytes. -/
def leafBytes (freq : List Nat) : List Byte := (leafSymbols freq).map (BitVec.ofNat 8)

/-- Before the first merge every leaf is a tree. -/
theorem forest_leaves (freq : List Nat) : Forest (leafBytes freq) (leafNodes freq) (leafKeys freq) := by
  have hlen : (leafBytes freq).length = (leafNodes freq).length := by simp [leafBytes]
  refine ⟨fun i => .leaf ((leafBytes freq).getD i 0), fun p hp => ?_, ?_⟩
  · have hlt := (workingSet_leaves freq).lt_length hp
    rw [leafNodes_length] at hlt
    refine ⟨freq.getD (leafSymbols freq)[p.2] 0, ?_⟩
    rw [leafNodes_getElem?, List.getElem?_eq_getElem hlt]
    simp [leafBytes, hlt]
  · have hmap : (leafKeys freq).flatMap (fun p => (CodeTree.leaf ((leafBytes freq).getD p.2 0)).symbols) =
        ((leafKeys freq).map Prod.snd).map fun i => (leafBytes freq).getD i 0 := by
      rw [List.map_map, List.map_eq_flatMap]; rfl
    rw [hmap, leafKeys, List.zipIdx_map_snd, List.length_map, ← hlen]
    refine .of_eq (List.ext_getElem (by simp) fun i h1 h2 => ?_)
    simp [h2]

/-- BuildTree's nodes are a tree with one leaf for each symbol, whose root is the last node. -/
theorem exists_codeTree_buildTree (freq : List Nat) (hn : 0 < (leafSymbols freq).length) :
    ∃ t : CodeTree, t.StandsAt (buildTree freq) ((buildTree freq).length - 1) ∧
      t.symbols.Perm (leafBytes freq) := by
  obtain ⟨p, hb, T, hT, hsyms⟩ :=
    buildTree_induct (P := fun made ws => Building freq made ws ∧ Forest (leafBytes freq) made ws) freq hn
      ⟨Building.leaves_only freq, forest_leaves freq⟩
      fun _ _ _ _ _ h hbf => ⟨hbf.1.merge h, hbf.2.merge h⟩
  refine ⟨T p.2, ?_, by simpa using hsyms⟩
  rw [← hb.root_eq]
  exact hT p (List.mem_singleton.2 rfl)

/-! ### The code table of a tree (R91) -/

/-- A table of codes for the symbols of a frequency table, on its tree: one code for each symbol, its path to
its leaf, or "0" for the only one. -/
structure CodesOf (freq : List Nat) (node : Nat → Node) (root : Nat) (table : List (Byte × List Bool)) :
    Prop where
  symbols : (table.map Prod.fst).Perm (leafBytes freq)
  length_pos : ∀ c ∈ table, 1 ≤ c.2.length
  length_lt : ∀ c ∈ table, c.2.length < 256
  path : 2 ≤ (leafSymbols freq).length → ∀ c ∈ table, descend node root c.2 = some c.1
  only : (leafSymbols freq).length = 1 → ∀ c ∈ table, c.2 = [false]

/-- CODES walks BuildTree's tree to its codes. -/
theorem codesOf_codeTable {freq : List Nat} (hn : 0 < (leafSymbols freq).length) {node : Nat → Node}
    (hnode : ∀ i, i < (buildTree freq).length → node i = nodeOf (buildTree freq) i) :
    CodesOf freq node ((buildTree freq).length - 1)
      (codeTable node ((buildTree freq).length - 1)) := by
  obtain ⟨t, ht, hsyms⟩ := exists_codeTree_buildTree freq hn
  have hmax := leafSymbols_length_le freq
  have hcount : t.symbols.length = (leafSymbols freq).length := by
    rw [hsyms.length_eq, leafBytes, List.length_map]
  have hnode' (i : Nat) (nd : Node) (h : (buildTree freq)[i]? = some nd) : node i = nd := by
    have hlt := (List.getElem?_eq_some_iff.1 h).1
    rw [getElem?_of_nodeOf hlt] at h
    rw [hnode i hlt, Option.some.inj h]
  unfold codeTable
  cases t with
  | leaf sym =>
    obtain ⟨w, hroot⟩ := ht
    rw [hnode' _ _ hroot]
    exact ⟨hsyms, by simp, by simp, fun h2 => absurd hcount (by simp [CodeTree.symbols]; omega), by simp⟩
  | fork l r =>
    have hl := l.symbols_length_pos
    have hr := r.symbols_length_pos
    have hsize := (CodeTree.fork l r).size_eq
    have hpath := ht.descend hnode'
    have hwalk := ht.walkCodes hnode' (511 - (CodeTree.fork l r).size) [] []
    have hnil (fuel : Nat) : walkCodes node fuel [] = [] := by cases fuel <;> rfl
    rw [hnil, List.append_nil, show (CodeTree.fork l r).size + (511 - (CodeTree.fork l r).size) = 511 by
      omega] at hwalk
    simp only [List.nil_append, Prod.mk.eta, List.map_id'] at hwalk
    obtain ⟨a, b, w, hroot, -⟩ := ht
    rw [hnode' _ _ hroot]
    dsimp only
    rw [hwalk]
    refine ⟨by rw [CodeTree.codes_map_fst]; exact hsyms, fun c hc => ?_, fun c hc => ?_, fun _ => hpath,
      fun h1 => ?_⟩
    · exact List.length_pos_iff.2 (CodeTree.codes_fork_ne_nil l r c hc)
    · have := CodeTree.codes_length_lt _ c hc
      omega
    · rw [CodeTree.symbols, List.length_append] at hcount
      omega

/-- Each symbol of a frequency table is one byte, once. -/
theorem leafBytes_nodup (freq : List Nat) : (leafBytes freq).Nodup := by
  refine List.Nodup.map_on (fun x hx y hy h => ?_) (List.nodup_range.filter _)
  have hx' := (mem_leafSymbols.1 hx).1
  have hy' := (mem_leafSymbols.1 hy).1
  have := congrArg BitVec.toNat h
  simp at this
  omega

theorem mem_leafBytes {freq : List Nat} {sym : Byte} :
    sym ∈ leafBytes freq ↔ 0 < freq.getD sym.toNat 0 := by
  have hlt := sym.isLt
  constructor
  · intro h
    obtain ⟨k, hk, rfl⟩ := List.mem_map.1 h
    obtain ⟨h1, h2⟩ := mem_leafSymbols.1 hk
    rw [BitVec.toNat_ofNat, Nat.mod_eq_of_lt h1]
    exact h2
  · exact fun h => List.mem_map.2 ⟨sym.toNat, mem_leafSymbols.2 ⟨hlt, h⟩, by simp⟩

end Sys2Proof.Machine
end

section
/-! PROOF of O12, continued: the entries of the code table, and CODES. -/

namespace Sys2Proof.Machine

/-! ### One entry of the code table (10_state.md R46, R47) -/

/-- The offsets of a symbol's entries of CODE_LEN and CODE_BITS. -/
def entryOffsets (sym : Byte) (a : Nat) : Prop :=
  a = codeLenBase + 4 * sym.toNat ∨ within (codeBitsBase + 32 * sym.toNat) 32 a

/-- The entries of a symbol hold this code, and 0 beyond it. -/
def EntryIs (m : Memory) (sym : Byte) (code : List Bool) : Prop :=
  m.get (codeLenBase + 4 * sym.toNat) = BitVec.ofNat 8 code.length ∧
    ∀ j, j < 256 → m.bitAt (codeBitsBase + 32 * sym.toNat) j = code.getD j false

theorem entryOffsets_code {sym : Byte} {a : Nat} (h : entryOffsets sym a) : codeOffsets a := by
  have := sym.isLt
  unfold entryOffsets at h
  unfold codeOffsets codeLenBase codeBitsBase at *
  omega

/-- Two symbols' entries do not overlap. -/
theorem entryOffsets_disjoint {x y : Byte} (hne : x ≠ y) {a : Nat} (hx : entryOffsets x a) :
    ¬ entryOffsets y a := by
  have hx' := x.isLt
  have hy' := y.isLt
  have : x.toNat ≠ y.toNat := fun h => hne (BitVec.eq_of_toNat_eq h)
  unfold entryOffsets codeLenBase codeBitsBase at *
  omega

/-- A symbol's entries are the bytes at their offsets. -/
theorem EntryIs.congr {m m' : Memory} {sym : Byte} {code : List Bool} (h : EntryIs m sym code)
    (hm : ∀ a, entryOffsets sym a → m'.get a = m.get a) : EntryIs m' sym code := by
  obtain ⟨hlen, hbits⟩ := h
  refine ⟨by rw [hm _ (.inl rfl)]; exact hlen, fun j hj => ?_⟩
  rw [← hbits j hj]
  unfold Memory.bitAt
  rw [hm _ (.inr ⟨by omega, by omega⟩)]

theorem entryIs_cleared (st : Storage) (sym : Byte) : EntryIs st.clearCodes.bits sym [] := by
  refine ⟨(Storage.clearCodes_get st _).1 (entryOffsets_code (.inl rfl)), fun j hj => ?_⟩
  unfold Memory.bitAt
  rw [(Storage.clearCodes_get st _).1 (entryOffsets_code (sym := sym) (.inr ⟨by omega, by omega⟩))]
  simp

/-! ### Writing the code table -/

/-- A write of bits into CODE_BITS is a write of bits, but for the marks. -/
theorem Storage.putTableBits_bits (st st' : Storage) (h : st.bits = st'.bits) (base k : Nat)
    (vs : List Bool) : (st.putTableBits base k vs).bits = (st'.putBits base k vs).bits := by
  induction vs generalizing st st' k with
  | nil => exact h
  | cons v vs ih =>
    refine ih _ _ ?_ _
    show st.bits.splice _ [setBits (st.bits.get _) _ _] = st'.bits.splice _ [setBits (st'.bits.get _) _ _]
    rw [h]

theorem Storage.putTableBits_written (st : Storage) (base k : Nat) (vs : List Bool) :
    (st.putTableBits base k vs).written = st.written := by
  induction vs generalizing st k with
  | nil => rfl
  | cons v vs ih => exact ih _ _

theorem Storage.putCode_bits (st : Storage) (c : Byte × List Bool) :
    (st.putCode c).bits =
      ((st.putTable (codeLenBase + 4 * c.1.toNat) [BitVec.ofNat 8 c.2.length]).putBits
        (codeBitsBase + 32 * c.1.toNat) 0 c.2).bits :=
  Storage.putTableBits_bits _ _ rfl _ _ _

/-- A code of at most 256 bits stays inside its symbol's entries. -/
theorem Storage.putCode_get_outside (st : Storage) (c : Byte × List Bool) (hc : c.2.length ≤ 256) {a : Nat}
    (h : ¬ entryOffsets c.1 a) : (st.putCode c).bits.get a = st.bits.get a := by
  obtain ⟨hlen, hbits⟩ := not_or.1 h
  rw [Storage.putCode_bits, (Storage.putBits_get_outside _ _ _ _ _ fun i hi he => hbits ?_).1,
    Storage.putTable_bits, Memory.get_splice, if_neg (by simp; omega)]
  exact ⟨by omega, by omega⟩

/-- A code written into cleared entries is what they hold then. -/
theorem Storage.putCode_entryIs (st : Storage) (c : Byte × List Bool) (h : EntryIs st.bits c.1 []) :
    EntryIs (st.putCode c).bits c.1 c.2 := by
  have hsym := c.1.isLt
  obtain ⟨-, hclear⟩ := h
  refine ⟨?_, fun j hj => ?_⟩
  · rw [Storage.putCode_bits, (Storage.putBits_get_outside _ _ _ _ _ fun i _ => ?_).1, Storage.putTable_bits,
      Memory.get_splice, if_pos (by simp)]
    · simp
    · unfold codeLenBase codeBitsBase
      omega
  · rw [Storage.putCode_bits, Storage.putBits_bits_bitAt]
    split
    · rfl
    · next hout =>
      rw [List.getD_eq_default _ _ (by omega)]
      refine .trans ?_ (hclear j hj)
      unfold Memory.bitAt
      rw [Storage.putTable_bits, Memory.get_splice, if_neg]
      unfold codeLenBase codeBitsBase
      simp
      omega

/-- A table of codes of different symbols, written into a cleared code table: every symbol of the table holds
its code, and nothing else changes. -/
theorem Storage.foldl_putCode (table : List (Byte × List Bool)) (st : Storage)
    (hnodup : (table.map Prod.fst).Nodup) (hlen : ∀ c ∈ table, c.2.length < 256)
    (hclear : ∀ c ∈ table, EntryIs st.bits c.1 []) :
    (∀ c ∈ table, EntryIs (table.foldl Storage.putCode st).bits c.1 c.2) ∧
      ∀ a, (∀ c ∈ table, ¬ entryOffsets c.1 a) →
        (table.foldl Storage.putCode st).bits.get a = st.bits.get a := by
  induction table generalizing st with
  | nil => exact ⟨fun c hc => absurd hc List.not_mem_nil, fun _ _ => rfl⟩
  | cons d table ih =>
    rw [List.map_cons, List.nodup_cons] at hnodup
    have hd := (hlen d List.mem_cons_self).le
    have hne {c} (hc : c ∈ table) : c.1 ≠ d.1 := fun h => hnodup.1 (h ▸ List.mem_map_of_mem hc)
    obtain ⟨hin, hout⟩ := ih (st.putCode d) hnodup.2 (fun c hc => hlen c (List.mem_cons_of_mem _ hc))
      fun c hc => (hclear c (List.mem_cons_of_mem _ hc)).congr
        fun a ha => st.putCode_get_outside d hd (entryOffsets_disjoint (hne hc) ha)
    refine ⟨fun c hc => ?_, fun a ha => ?_⟩
    · rcases List.mem_cons.1 hc with rfl | hc
      · refine (st.putCode_entryIs c (hclear c List.mem_cons_self)).congr fun a ha => hout a ?_
        exact fun e he => entryOffsets_disjoint (hne he).symm ha
      · exact hin c hc
    · rw [List.foldl_cons, hout a fun c hc => ha c (List.mem_cons_of_mem _ hc)]
      exact st.putCode_get_outside d hd (ha d List.mem_cons_self)

theorem Storage.foldl_putCode_written (table : List (Byte × List Bool)) (st : Storage) :
    (table.foldl Storage.putCode st).written = st.written := by
  induction table generalizing st with
  | nil => rfl
  | cons d table ih => exact (ih _).trans (Storage.putTableBits_written _ _ _ _)

/-! ### Reading the code table -/

/-- A code bit reads as what CODE_BITS holds. -/
theorem State.codeBitAt_table (s : State) (sym : Byte) {j : Nat} (hj : j < 256) (hv : s.tree.tv = true) :
    s.codeBitAt sym j = s.store.bits.bitAt (codeBitsBase + 32 * sym.toNat) j := by
  have := sym.isLt
  unfold State.codeBitAt State.readBit Memory.bitAt
  rw [State.readByte_table s 0 _ ?_ ?_ hv]
  · rw [inTables_eq]; unfold codeBitsBase; omega
  · rw [Bool.eq_false_iff, Ne, isFixed_eq]; unfold codeBitsBase; omega

/-- The code a machine with a tree reads for a symbol is the one its entries hold. -/
theorem EntryIs.read {s : State} {sym : Byte} {code : List Bool} (h : EntryIs s.store.bits sym code)
    (hv : s.tree.tv = true) (hlen : code.length < 256) :
    s.codeLenAt sym = code.length ∧ s.codeOf sym = code ∧
      ∀ j, code.length ≤ j → j < 256 → s.codeBitAt sym j = false := by
  obtain ⟨hl, hb⟩ := h
  have hlen' : s.codeLenAt sym = code.length := by
    rw [s.codeLenAt_table sym hv, hl, BitVec.toNat_ofNat, Nat.mod_eq_of_lt hlen]
  have hbit {j : Nat} (hj : j < 256) : s.codeBitAt sym j = code.getD j false := by
    rw [s.codeBitAt_table sym hj hv, hb j hj]
  refine ⟨hlen', List.ext_getElem (by rw [State.codeOf_length, hlen']) fun j h1 h2 => ?_, fun j h1 h2 => ?_⟩
  · simp only [State.codeOf, List.getElem_map, List.getElem_range]
    rw [hbit (by omega), List.getD_eq_getElem _ _ h2]
  · rw [hbit h2, List.getD_eq_default _ _ h1]

/-! ### CODES -/

/-- A machine that holds BuildTree's tree walks it to its codes. -/
theorem State.holdsTree.codesOf {s : State} {freq : List Nat} (h : s.holdsTree freq) :
    CodesOf freq (s.nodeAt 0) s.tree.root.toNat (codeTable (s.nodeAt 0) s.tree.root.toNat) := by
  obtain ⟨hn, -, hroot, -, hnodes⟩ := h
  rw [hroot]
  exact codesOf_codeTable hn (hnodes 0)

/-- CODES leaves in each symbol's entries its code, in those of every other symbol nothing, and every other
byte as it was. -/
theorem State.codesEffect_store {s : State} {freq : List Nat} (h : s.holdsTree freq) :
    (∀ c ∈ codeTable (s.nodeAt 0) s.tree.root.toNat, EntryIs s.codesEffect.store.bits c.1 c.2) ∧
      (∀ sym, sym ∉ leafBytes freq → EntryIs s.codesEffect.store.bits sym []) ∧
      (∀ a, ¬ codeOffsets a → s.codesEffect.store.bits.get a = s.store.bits.get a) ∧
      s.codesEffect.store.written = s.store.written := by
  have hcodes := h.codesOf
  obtain ⟨hin, hout⟩ := Storage.foldl_putCode _ s.store.clearCodes
    (hcodes.symbols.nodup_iff.2 (leafBytes_nodup freq)) hcodes.length_lt
    (fun c _ => entryIs_cleared s.store c.1)
  refine ⟨hin, fun sym hsym => ?_, fun a ha => ?_, Storage.foldl_putCode_written _ _⟩
  · refine (entryIs_cleared s.store sym).congr fun a ha => hout a fun c hc => ?_
    refine entryOffsets_disjoint (fun he => hsym ?_) ha
    rw [he]
    exact hcodes.symbols.mem_iff.1 (List.mem_map_of_mem hc)
  · exact (hout a fun c _ he => ha (entryOffsets_code he)).trans ((Storage.clearCodes_get _ a).2 ha)

/-- Settles O12: the codes are the paths of the tree's leaves, and their entries do not overlap. -/
theorem codesWritesPaths : Obligations.CodesWritesPaths := by
  intro s freq hv h
  have hcodes := h.codesOf
  obtain ⟨hin, hnone, hsame, hwritten⟩ := State.codesEffect_store h
  have hleaf {sym : Byte} (hsym : sym ∈ leafBytes freq) :
      ∃ c ∈ codeTable (s.nodeAt 0) s.tree.root.toNat, c.1 = sym :=
    List.mem_map.1 (hcodes.symbols.mem_iff.2 hsym)
  have hread {sym : Byte} {code : List Bool} (he : EntryIs s.codesEffect.store.bits sym code)
      (hl : code.length < 256) :=
    EntryIs.read (s := s.codesEffect.succeed 0x03) he hv hl
  refine ⟨s.codesEffect.succeed 0x03, ?_, completed_succeed 0x03 rfl, rfl, rfl, fun sym hsym => ?_,
    fun sym hsym => ?_, fun sym j hj1 hj2 => ?_, fun pass a ha => ?_⟩
  · rw [exec_codes, s.codesCheck_none.2 hv, State.run_none]
  · exact (hread (hnone sym fun hm => (mem_leafBytes.1 hm).ne' hsym) (by decide)).1
  · obtain ⟨c, hc, rfl⟩ := hleaf (mem_leafBytes.2 hsym)
    obtain ⟨hlen, hcode, -⟩ := hread (hin c hc) (hcodes.length_lt c hc)
    rw [hlen, hcode]
    exact ⟨hcodes.length_pos c hc, fun h2 => hcodes.path h2 c hc, fun h1 => hcodes.only h1 c hc⟩
  · by_cases hm : sym ∈ leafBytes freq
    · obtain ⟨c, hc, rfl⟩ := hleaf hm
      obtain ⟨hlen, -, hbeyond⟩ := hread (hin c hc) (hcodes.length_lt c hc)
      exact hbeyond j (by rw [← hlen]; exact hj1) hj2
    · exact (hread (hnone sym hm) (by decide)).2.2 j (Nat.zero_le _) hj2
  · exact State.readByte_congr s _ pass a rfl rfl (hsame a ha) (by rw [State.succeed_store, hwritten])

end Sys2Proof.Machine
end

section
/-! PROOF of O59, `StepKeepsTree`: whenever TV = 1 the machine holds a tree that BuildTree makes (10_state.md
R49). BUILD makes one; CODES writes inside the code table, because BuildTree's codes are shorter than 256 bits;
and every other turn writes outside TREE. -/

namespace Sys2Proof.Machine

/-! ### The invariant and the storage it speaks of -/

/-- Two states' TREE hold the same bytes. -/
def SameTree (s t : State) : Prop :=
  ∀ a, within treeBase 4096 a → t.store.bits.get a = s.store.bits.get a

theorem Memory.node_congr {m m' : Memory} {i : Nat} (hi : i < 511)
    (h : ∀ a, within treeBase 4096 a → m'.get a = m.get a) : m'.node i = m.node i := by
  have one (k : Nat) (hk : k < 8) : m'.get (treeBase + 8 * i + k) = m.get (treeBase + 8 * i + k) :=
    h _ ⟨by omega, by omega⟩
  have h0 := one 0 (by omega)
  rw [Nat.add_zero] at h0
  unfold Memory.node Memory.word
  rw [h0, one 1 (by omega), one 2 (by omega), one 3 (by omega), one 4 (by omega), one (4 + 1) (by omega),
    one (4 + 2) (by omega), one (4 + 3) (by omega)]

/-- A tree is held by TREE_STATUS and TREE. -/
theorem State.holdsTree.congr {s t : State} {freq : List Nat} (h : s.holdsTree freq)
    (hsv : s.tree.tv = true) (htv : t.tree.tv = true) (hroot : t.tree.root = s.tree.root)
    (hnleaf : t.tree.nleaf = s.tree.nleaf) (hbits : SameTree s t) : t.holdsTree freq := by
  obtain ⟨hn, hsum, hr, hl, hnodes⟩ := h
  have hmax := buildTree_length_le freq hn
  refine ⟨hn, hsum, by rw [hroot]; exact hr, by rw [hnleaf]; exact hl, fun pass i hi => ?_⟩
  rw [← hnodes pass i hi, s.nodeAt_table pass i hsv (by omega), t.nodeAt_table pass i htv (by omega)]
  exact Memory.node_congr (by omega) hbits

theorem State.TreeOk.congr {s t : State} (hs : s.TreeOk) (htree : t.tree = s.tree)
    (hbits : SameTree s t) : t.TreeOk := by
  intro htv
  have hsv : s.tree.tv = true := by rw [← htree]; exact htv
  obtain ⟨freq, h⟩ := hs hsv
  exact ⟨freq, h.congr hsv htv (by rw [htree]) (by rw [htree]) hbits⟩

theorem State.treeOk_performReset (s : State) : s.performReset.TreeOk := fun h => by cases h

/-! ### Writes outside TREE -/

/-- Bytes written before or after TREE. -/
theorem sameTree_put {s t : State} (lo : Nat) (bs : List Byte) (ht : t.store = s.store.put lo bs)
    (h : lo + bs.length ≤ 0x4000 ∨ 0x5000 ≤ lo) : SameTree s t := by
  intro a ha
  unfold treeBase at ha
  rw [ht, Storage.put_bits, Memory.get_splice, if_neg (by omega)]

/-- Bits written after TREE. -/
theorem sameTree_putBits {s t : State} (base k : Nat) (vs : List Bool)
    (ht : t.store = s.store.putBits base k vs) (h : 0x5000 ≤ base) : SameTree s t := by
  intro a ha
  unfold treeBase at ha
  rw [ht, (Storage.putBits_get_outside _ _ _ _ _ fun i _ => by omega).1]

theorem SameTree.trans {s t u : State} (h1 : SameTree s t) (h2 : SameTree t u) : SameTree s u :=
  fun a ha => (h2 a ha).trans (h1 a ha)

/-! ### The commands -/

/-- The symbols of FREQ, when BUILD's checks pass. -/
theorem State.leafSymbols_pos_of_buildCheck {s : State} (h : s.buildCheck = none) :
    0 < (leafSymbols s.freqTable).length := by
  obtain ⟨-, -, w, hw, hne⟩ := s.buildCheck_none.1 h
  obtain ⟨sym, hsym, rfl⟩ := List.mem_map.1 hw
  exact State.leafSymbols_pos (List.mem_range.1 hsym) fun h0 => hne (by rw [h0]; rfl)

/-- BUILD makes BuildTree's tree of FREQ. -/
theorem State.treeOk_buildEffect {s : State} (h : s.buildCheck = none) : s.buildEffect.TreeOk := by
  have hn := State.leafSymbols_pos_of_buildCheck h
  have hsum := (s.buildCheck_none.1 h).2.1
  have hmax := buildTree_length_le s.freqTable hn
  have hleaves := leafSymbols_length_le s.freqTable
  have hfits := buildTree_fits s.freqTable s.freqTable_length hsum hn
  refine fun _ => ⟨s.freqTable, hn, hsum, ?_, ?_, fun pass i hi => ?_⟩
  · exact (BitVec.toNat_ofNat _ _).trans (Nat.mod_eq_of_lt (by omega))
  · exact (BitVec.toNat_ofNat _ _).trans (Nat.mod_eq_of_lt (by omega))
  · have hnode := ((s.buildEffect_storesTree hn).nodeAt hfits pass hi (by omega)).1
    rw [getElem?_of_nodeOf hi] at hnode
    exact (Option.some.inj hnode).symm

/-- CODES leaves the tree as it is. -/
theorem State.TreeOk.codesEffect {s : State} (hs : s.TreeOk) (h : s.codesCheck = none) :
    s.codesEffect.TreeOk := by
  have hsv := s.codesCheck_none.1 h
  obtain ⟨freq, hf⟩ := hs hsv
  obtain ⟨-, -, hsame, -⟩ := State.codesEffect_store hf
  refine fun htv => ⟨freq, hf.congr hsv htv rfl rfl fun a ha => hsame a ?_⟩
  unfold treeBase at ha
  unfold codeOffsets codeLenBase codeBitsBase
  omega

/-- FREQ writes its own table. -/
theorem State.sameTree_freqEffect (s : State) : SameTree s s.freqEffect := by
  refine sameTree_put _ _ rfl (.inl ?_)
  have hlen := length_flatMap_bytes
    ((frequencyTable (s.message s.codec.msgLen.toNat)).map (BitVec.ofNat 32))
  rw [List.flatMap_map, List.length_map, frequencyTable_length] at hlen
  rw [hlen]
  decide

/-- ADDCK writes pad bits and a checksum into FBUF. -/
theorem State.sameTree_addckEffect (s : State) : SameTree s s.addckEffect :=
  SameTree.trans (t := s.padded) (sameTree_putBits _ _ _ rfl (by decide))
    (sameTree_putBits _ _ _ rfl (by decide))

theorem State.parseEffect_store (s : State) :
    s.parseEffect.store =
      s.store.put dmsgBase (s.frameParse s.fbufBit s.codec.fbufLen.toNat false).out := by
  unfold State.parseEffect
  dsimp only
  split <;> rfl

theorem State.TreeOk.exec {s t : State} {i : Instr} (hs : s.TreeOk) (h : exec i s = .next t) :
    t.TreeOk := by
  have run (op check) (f : State → State) (hf : check = none → (f s).TreeOk) :
      (s.run op check f).TreeOk :=
    s.run_induct State.TreeOk op check f (fun _ _ _ _ hu => hu) hs hf
  cases i <;> rw [← Host.Outcome.next.inj h]
  case sreset => exact s.treeOk_performReset
  case freq => exact run _ _ _ fun _ => hs.congr rfl s.sameTree_freqEffect
  case build => exact run _ _ _ State.treeOk_buildEffect
  case codes => exact run _ _ _ hs.codesEffect
  case encode => exact run _ _ _ fun _ => hs.congr rfl (sameTree_putBits _ _ _ rfl (by decide))
  case decode => exact run _ _ _ fun _ => hs.congr rfl (sameTree_put _ _ rfl (.inr (by decide)))
  case addck => exact run _ _ _ fun _ => hs.congr rfl s.sameTree_addckEffect
  case parse =>
    exact run _ _ _ fun _ => hs.congr (by rw [State.parseEffect_frame])
      (sameTree_put _ _ s.parseEffect_store (.inr (by decide)))
  all_goals exact run _ _ _ fun _ => hs

/-! ### The other turns -/

/-- A host write stores into FREQ, MSG or FBUF. -/
theorem State.TreeOk.store {s : State} (hs : s.TreeOk) {a : Nat} (v : Word) {r : Region}
    (hr : r = .freq ∨ r = .msg ∨ r = .fbuf) (hl : locate s.params a = some r) (ha : a % 4 = 0) :
    State.TreeOk { s with store := s.store.put a (Word.bytes v) } := by
  refine hs.congr rfl (sameTree_put a _ rfl ?_)
  have hlen : (Word.bytes v).length = 4 := rfl
  rw [hlen]
  rcases locate_eq_some _ _ _ hl with ⟨c, k, rfl, -⟩ | hreg
  · simp at hr
  · rcases hr with rfl | rfl | rfl <;> simp at hreg <;> omega

/-- The RX engine's tick writes at most a bit of RBUF. -/
theorem State.TreeOk.tickStep {s : State} (hs : s.TreeOk) (x : Bool) : (s.tickStep x).TreeOk := by
  rw [State.tickStep_eq]
  rcases s.rxTick_store (if s.cfg.loop then s.lineOut else x) with h | ⟨-, b, h⟩ <;> rw [h]
  · exact hs
  · exact hs.congr rfl (sameTree_putBits rbufBase s.rx.rbufLen.toNat [b] rfl (by decide))

/-- The parser's step writes RMSG. -/
theorem State.TreeOk.parseStep {s : State} (hs : s.TreeOk) : s.parseStep.TreeOk := by
  rcases s.parseStep_cases with h | ⟨bit, L, ovf, h⟩ <;> rw [h]
  · exact hs
  · exact hs.congr rfl (sameTree_put rmsgBase _ rfl (.inr (by decide)))

/-- Settles O59, turn by turn. -/
theorem stepKeepsTree : Obligations.StepKeepsTree := by
  intro s t hs h
  have hadvance : s.advance.TreeOk := hs.congr rfl fun _ _ => rfl
  refine step_induct State.TreeOk s t h hadvance (fun _ _ _ hu => hu) (fun _ _ hu => hu)
    (fun u _ => u.treeOk_performReset) ?_ ?_
    (fun u a v r hr hl ha hu => hu.store v (hr.imp_right (Or.imp_right And.left)) hl ha)
    (fun _ _ _ _ _ _ hu hx => hu.exec hx) ?_ (fun _ x hu => hu.tickStep x) (fun _ hu => hu.parseStep)
  · intro u v _ hu; unfold State.acceptCmd; split <;> exact hu
  · intro u c v hu; rw [Csr.write_frame]; exact hu
  · exact fun u op w hu => hu.congr (by simp) fun a _ => by rw [State.fail_store]

end Sys2Proof.Machine
end

section
/-! The law of writes: what the storage keeps under every write of the machine, and which regions of the address
map each command and each turn writes (20_memory.md R59, the destination lists of 40_huffman.md, 41_frame.md and
42_pulse.md). The proofs of O55, O54 and O53 below read off it. -/

namespace Sys2Proof.Machine

/-! ### Writes within a set of offsets -/

/-- `m'` is `m` after writes at offsets in `W` and nowhere else, the canonical form being kept. -/
structure Memory.WritesIn (W : Nat → Prop) (m m' : Memory) : Prop where
  wf : m.wf = true → m'.wf = true
  mem : ∀ c ∈ m', c ∈ m ∨ W c.1
  get : ∀ a, ¬ W a → m'.get a = m.get a

/-- Both memories of the storage are written at offsets in `W` and nowhere else. -/
structure Storage.WritesIn (W : Nat → Prop) (st st' : Storage) : Prop where
  bits : Memory.WritesIn W st.bits st'.bits
  written : Memory.WritesIn W st.written st'.written

theorem Memory.WritesIn.refl (W : Nat → Prop) (m : Memory) : Memory.WritesIn W m m :=
  ⟨id, fun _ => .inl, fun _ _ => rfl⟩

theorem Memory.WritesIn.trans {W : Nat → Prop} {m m' m'' : Memory} (h : Memory.WritesIn W m m')
    (h' : Memory.WritesIn W m' m'') : Memory.WritesIn W m m'' :=
  ⟨h'.wf ∘ h.wf, fun c hc => (h'.mem c hc).elim (h.mem c) .inr,
    fun a ha => (h'.get a ha).trans (h.get a ha)⟩

theorem Memory.writesIn_splice {W : Nat → Prop} (m : Memory) (lo : Nat) (bs : List Byte)
    (h : ∀ a, within lo bs.length a → W a) : Memory.WritesIn W m (m.splice lo bs) := by
  refine ⟨m.splice_wf lo bs, fun c hc => (m.mem_splice lo bs c hc).imp_right (h c.1), fun a ha => ?_⟩
  rw [Memory.get_splice, if_neg (mt (h a) ha)]

section
variable {W : Nat → Prop}

theorem Storage.WritesIn.refl (st : Storage) : Storage.WritesIn W st st :=
  ⟨.refl W _, .refl W _⟩

theorem Storage.WritesIn.trans {st st' st'' : Storage} (h : Storage.WritesIn W st st')
    (h' : Storage.WritesIn W st' st'') : Storage.WritesIn W st st'' :=
  ⟨h.bits.trans h'.bits, h.written.trans h'.written⟩

theorem Storage.writesIn_put (st : Storage) (lo : Nat) (bs : List Byte)
    (h : ∀ a, within lo bs.length a → W a) : Storage.WritesIn W st (st.put lo bs) :=
  ⟨st.bits.writesIn_splice lo bs h,
    st.written.writesIn_splice lo _ (by rw [List.length_replicate]; exact h)⟩

theorem Storage.writesIn_putTable (st : Storage) (lo : Nat) (bs : List Byte)
    (h : ∀ a, within lo bs.length a → W a) : Storage.WritesIn W st (st.putTable lo bs) :=
  ⟨st.bits.writesIn_splice lo bs h, .refl W _⟩

theorem Storage.writesIn_putBit (st : Storage) (base k : Nat) (v : Bool) (h : W (base + k / 8)) :
    Storage.WritesIn W st (st.putBit base k v) := by
  have one (b : Byte) : ∀ a, within (base + k / 8) [b].length a → W a := by
    intro a ha
    rw [List.length_singleton] at ha
    rwa [show a = base + k / 8 by omega]
  exact ⟨st.bits.writesIn_splice _ _ (one _), st.written.writesIn_splice _ _ (one _)⟩

theorem Storage.writesIn_putBits (st : Storage) (base k : Nat) (vs : List Bool)
    (h : ∀ i, i < vs.length → W (base + (k + i) / 8)) :
    Storage.WritesIn W st (st.putBits base k vs) := by
  induction vs generalizing st k with
  | nil => exact .refl st
  | cons v vs ih =>
    refine (st.writesIn_putBit base k v (h 0 (Nat.zero_lt_succ _))).trans (ih _ (k + 1) fun i hi => ?_)
    rw [show k + 1 + i = k + (i + 1) by omega]
    exact h (i + 1) (Nat.succ_lt_succ hi)

/-- A write of bits into CODE_BITS is one of `putBits` into the same offsets, without the marks. -/
theorem Storage.writesIn_putTableBits (st : Storage) (base k : Nat) (vs : List Bool)
    (h : ∀ i, i < vs.length → W (base + (k + i) / 8)) :
    Storage.WritesIn W st (st.putTableBits base k vs) := by
  refine ⟨?_, ?_⟩
  · rw [Storage.putTableBits_bits st st rfl]
    exact (st.writesIn_putBits base k vs h).bits
  · rw [Storage.putTableBits_written]
    exact .refl W _

/-- Clearing the code table writes CODE_LEN and CODE_BITS. -/
theorem Storage.writesIn_clearCodes (st : Storage) (h : ∀ a, codeOffsets a → W a) :
    Storage.WritesIn W st st.clearCodes := by
  refine (st.writesIn_putTable codeLenBase _ fun a ha => h a (.inl ?_)).trans
    (Storage.writesIn_putTable _ codeBitsBase _ fun a ha => h a (.inr ?_))
  all_goals rwa [List.length_replicate] at ha

/-- A symbol's code writes its entry of CODE_LEN and, from its entry of CODE_BITS on, a bit for each of the
path's. A path as long as the walk's bound of 511 bits stays within the tables. -/
theorem Storage.writesIn_putCode (st : Storage) (c : Byte × List Bool) (hc : c.2.length ≤ 511)
    (h : ∀ a, inTables a = true → W a) : Storage.WritesIn W st (st.putCode c) := by
  have hsym := c.1.isLt
  refine (st.writesIn_putTable _ _ fun a ha => h a ((inTables_eq a).2 ?_)).trans
    (Storage.writesIn_putTableBits _ _ _ _ fun i hi => h _ ((inTables_eq _).2 ?_))
  · unfold codeLenBase at ha; rw [List.length_singleton] at ha; omega
  · unfold codeBitsBase; omega

theorem Storage.writesIn_foldl_putCode (st : Storage) (table : List (Byte × List Bool))
    (hlen : ∀ c ∈ table, c.2.length ≤ 511) (h : ∀ a, inTables a = true → W a) :
    Storage.WritesIn W st (table.foldl Storage.putCode st) := by
  induction table generalizing st with
  | nil => exact .refl st
  | cons c table ih =>
    exact (st.writesIn_putCode c (hlen c List.mem_cons_self) h).trans
      (ih _ fun d hd => hlen d (List.mem_cons_of_mem _ hd))

end

/-! ### The regions of the storage -/

/-- The offsets of a region of the storage (20_memory.md R59); a register holds no storage. -/
def Region.window (p : Params) : Region → Nat → Prop
  | .csr _ _ => fun _ => False
  | .freq => within 0x01000 0x400
  | .codeLen => within 0x01400 0x400
  | .codeBits => within 0x02000 0x2000
  | .tree => within 0x04000 0x1000
  | .msg => within 0x10000 p.msgMax
  | .dmsg => within 0x20000 p.msgMax
  | .rmsg => within 0x30000 p.msgMax
  | .fbuf => within 0x40000 (p.bitsMax / 8)
  | .rbuf => within 0x50000 (p.bitsMax / 8)

/-- With legal capacities each window is its region's in the address map. -/
theorem locate_of_window {p : Params} (hp : p.legal = true) {r : Region} {a : Nat} (h : r.window p a) :
    locate p a = some r := by
  obtain ⟨-, -, hmsg, -, -, hbits⟩ := Params.legal_bounds hp
  unfold locate freqBase codeLenBase codeLenEnd codeBitsBase treeBase treeEnd msgBase dmsgBase rmsgBase
    fbufBase rbufBase
  cases r <;> dsimp only [Region.window] at h
  case freq | codeLen | codeBits | tree =>
    repeat rw [if_neg (by omega)]
    rw [if_pos (by omega)]
  case msg | dmsg | rmsg | fbuf | rbuf =>
    repeat rw [if_neg (by omega)]
    rw [if_pos (by omega), if_pos (by omega)]

/-- An offset that the address map gives to a region of the storage is in its window. -/
theorem window_of_locate {p : Params} {r : Region} {a : Nat} (h : locate p a = some r)
    (hr : ∀ c k, r ≠ .csr c k) : r.window p a := by
  rcases locate_eq_some p a r h with ⟨c, k, rfl, -⟩ | hreg
  · exact absurd rfl (hr c k)
  · cases r
    case csr c k => exact absurd rfl (hr c k)
    all_goals simp at hreg; dsimp only [Region.window]; omega

/-- FBUF is the one region in its part of the address map. -/
theorem fbuf_of_locate {p : Params} {r : Region} {a : Nat} (h : locate p a = some r)
    (ha : within 0x40000 0x10000 a) : r = .fbuf := by
  rcases locate_eq_some p a r h with ⟨_, _, -, hlt, -⟩ | hreg
  · omega
  · cases r
    case fbuf => rfl
    case csr => simp at hreg
    all_goals simp at hreg; omega

theorem Region.isStorage_of_window {p : Params} (hp : p.legal = true) {r : Region} {a : Nat}
    (h : r.window p a) : isStorage p a = true :=
  (isStorage_iff p a).2 ⟨r, locate_of_window hp h, by rintro c k rfl; exact h⟩

/-- An offset of one of these regions. -/
def regionOffsets (p : Params) (rs : List Region) (a : Nat) : Prop := ∃ r ∈ rs, r.window p a

theorem inTables_regionOffsets (p : Params) {a : Nat} (h : inTables a = true) :
    regionOffsets p [.codeLen, .codeBits, .tree] a := by
  rw [inTables_eq] at h
  by_cases h1 : a < 0x1800
  · exact ⟨.codeLen, by decide, by dsimp only [Region.window]; omega⟩
  by_cases h2 : a < 0x4000
  · exact ⟨.codeBits, by decide, by dsimp only [Region.window]; omega⟩
  · exact ⟨.tree, by decide, by dsimp only [Region.window]; omega⟩

/-- Bits below BITS_MAX of a buffer lie in its window. -/
theorem bit_window {p : Params} (hp : p.legal = true) {base k : Nat} (hk : k < p.bitsMax) :
    within base (p.bitsMax / 8) (base + k / 8) := by
  obtain ⟨-, -, -, hmod, -⟩ := Params.legal_bounds hp
  omega

/-! ### What the commands write -/

/-- The regions of the storage among a command's destinations (R94 to R98, R109, R111). CODES writes the code
table alone, but on a tree that no BUILD makes its paths may run past CODE_BITS into TREE (log entry 15). -/
def commandRegions : Instr → List Region
  | .freq => [.freq]
  | .build | .codes => [.codeLen, .codeBits, .tree]
  | .encode | .addck => [.fbuf]
  | .decode | .parse => [.dmsg]
  | .nop | .validate | .classify _ | .txStart | .txStop | .rxStart | .rxStop | .sreset => []

/-- The storage after a turn that writes these regions alone. -/
abbrev State.WritesTo (s : State) (rs : List Region) (st : Storage) : Prop :=
  Storage.WritesIn (regionOffsets s.params rs) s.store st

/-- A write within the window of a region is one to it. -/
theorem regionOffsets_singleton {p : Params} {r : Region} {a : Nat} (h : r.window p a) :
    regionOffsets p [r] a := ⟨r, List.mem_singleton.2 rfl, h⟩

theorem State.freqEffect_writes (s : State) : s.WritesTo [.freq] s.freqEffect.store := by
  refine s.store.writesIn_put _ _ fun a ha => regionOffsets_singleton ?_
  have hlen := length_flatMap_bytes
    ((frequencyTable (s.message s.codec.msgLen.toNat)).map (BitVec.ofNat 32))
  rw [List.flatMap_map, List.length_map, frequencyTable_length] at hlen
  rw [hlen] at ha
  exact ha

theorem codeOffsets_regionOffsets (p : Params) {a : Nat} (h : codeOffsets a) :
    regionOffsets p [.codeLen, .codeBits, .tree] a :=
  inTables_regionOffsets p ((inTables_iff a).2 (.inl h))

theorem State.buildEffect_writes {s : State} (h : s.buildCheck = none) :
    s.WritesTo [.codeLen, .codeBits, .tree] s.buildEffect.store := by
  have hmax := buildTree_length_le _ (State.leafSymbols_pos_of_buildCheck h)
  refine (s.store.writesIn_putTable treeBase _ fun a ha => ?_).trans
    (Storage.writesIn_clearCodes _ fun a => codeOffsets_regionOffsets s.params)
  rw [treeBytes_length _ (by omega)] at ha
  exact inTables_regionOffsets s.params ((inTables_iff a).2 (.inr ha))

theorem State.codesEffect_writes (s : State) :
    s.WritesTo [.codeLen, .codeBits, .tree] s.codesEffect.store :=
  (s.store.writesIn_clearCodes fun _ => codeOffsets_regionOffsets s.params).trans
    (Storage.writesIn_foldl_putCode _ _ (codeTable_length _ _) fun _ => inTables_regionOffsets s.params)

theorem State.encodeEffect_writes {s : State} (hp : s.params.legal = true) (h : s.encodeCheck = none) :
    s.WritesTo [.fbuf] s.encodeEffect.store := by
  obtain ⟨-, -, -, hfits⟩ := s.encodeCheck_none.1 h
  refine s.store.writesIn_putBits fbufBase 0 _ fun i hi => regionOffsets_singleton ?_
  rw [State.codes_length] at hi
  exact bit_window hp (by omega)

theorem State.deliverDmsg_writes (s : State) (out : List Byte) (trail : Nat)
    (hlen : out.length ≤ s.params.msgMax) : s.WritesTo [.dmsg] (s.deliverDmsg out trail).store := by
  refine s.store.writesIn_put dmsgBase out fun a ha => regionOffsets_singleton ?_
  unfold dmsgBase at ha
  dsimp only [Region.window]
  omega

theorem State.addckEffect_writes {s : State} (hp : s.params.legal = true) (h : s.addckCheck = none) :
    s.WritesTo [.fbuf] s.addckEffect.store := by
  obtain ⟨-, -, hfits⟩ := s.addckCheck_none.1 h
  refine (s.store.writesIn_putBits fbufBase _ _ fun i hi => ?_).trans
    (Storage.writesIn_putBits _ fbufBase _ _ fun i hi => ?_)
  · rw [List.length_replicate] at hi
    exact regionOffsets_singleton (bit_window hp (by omega))
  · rw [takeBits_length] at hi
    exact regionOffsets_singleton (bit_window hp (by omega))

theorem State.parseEffect_writes (s : State) : s.WritesTo [.dmsg] s.parseEffect.store := by
  rw [State.parseEffect_store]
  exact s.deliverDmsg_writes _ 0 (s.frameParse_out _ _ _).1

/-- Every command but SRESET writes its own regions, and keeps the capacities. -/
theorem exec_writes {i : Instr} {s t : State} (h : exec i s = .next t) (hi : i ≠ .sreset)
    (hp : s.params.legal = true) : t.params = s.params ∧ s.WritesTo (commandRegions i) t.store := by
  have run (op check) (f : State → State)
      (hf : check = none → (f s).params = s.params ∧ s.WritesTo (commandRegions i) (f s).store) :=
    s.run_induct (fun u => u.params = s.params ∧ s.WritesTo (commandRegions i) u.store) op check f
      (fun _ _ _ _ hu => hu) ⟨rfl, .refl _⟩ hf
  cases i <;> rw [← Host.Outcome.next.inj h]
  case sreset => exact absurd rfl hi
  case freq => exact run _ _ _ fun _ => ⟨rfl, s.freqEffect_writes⟩
  case build => exact run _ _ _ fun hc => ⟨rfl, State.buildEffect_writes hc⟩
  case codes => exact run _ _ _ fun _ => ⟨rfl, s.codesEffect_writes⟩
  case encode => exact run _ _ _ fun hc => ⟨rfl, State.encodeEffect_writes hp hc⟩
  case decode =>
    exact run _ _ _ fun hc => ⟨rfl, s.deliverDmsg_writes _ _ (s.decodeCheck_none.1 hc).2.2⟩
  case addck => exact run _ _ _ fun hc => ⟨rfl, State.addckEffect_writes hp hc⟩
  case parse =>
    exact run _ _ _ fun _ => ⟨by rw [State.parseEffect_frame], s.parseEffect_writes⟩
  all_goals exact run _ _ _ fun _ => ⟨rfl, .refl _⟩

/-! ### What the other turns write -/

/-- A word stored by the host stays in its region: legal capacities are whole words (R8, R9). -/
theorem State.hostStore_writes (s : State) (hp : s.params.legal = true) {a : Nat} (v : Word) {r : Region}
    (hr : r = .freq ∨ r = .msg ∨ r = .fbuf) (hl : locate s.params a = some r) (ha : a % 4 = 0) :
    s.WritesTo [r] (s.store.put a (Word.bytes v)) := by
  obtain ⟨hmsg, -, -, hbits, -⟩ := Params.legal_bounds hp
  have hw := window_of_locate hl (by rcases hr with rfl | rfl | rfl <;> simp)
  have hlen : (Word.bytes v).length = 4 := rfl
  refine s.store.writesIn_put a _ fun b hb => regionOffsets_singleton ?_
  rw [hlen] at hb
  rcases hr with rfl | rfl | rfl
  all_goals dsimp only [Region.window] at hw ⊢; omega

/-- The RX engine's tick writes at most a bit of RBUF. -/
theorem State.tickStep_writes (s : State) (hp : s.params.legal = true) (x : Bool) :
    s.WritesTo [.rbuf] (s.tickStep x).store := by
  rw [State.tickStep_eq]
  rcases s.rxTick_store (if s.cfg.loop then s.lineOut else x) with h | ⟨hlen, b, h⟩ <;> rw [h]
  · exact .refl _
  · exact s.store.writesIn_putBit _ _ b (regionOffsets_singleton (bit_window hp hlen))

/-- The parser's step writes RMSG. -/
theorem State.parseStep_writes (s : State) : s.WritesTo [.rmsg] s.parseStep.store := by
  rcases s.parseStep_cases with h | ⟨bit, L, ovf, h⟩ <;> rw [h]
  · exact .refl _
  · refine s.store.writesIn_put rmsgBase _ fun a ha => regionOffsets_singleton ?_
    have hlen := (s.frameParse_out bit L ovf).1
    unfold rmsgBase at ha
    dsimp only [Region.window]
    omega

theorem State.acceptCmd_frame (s : State) (v : Word) :
    s.acceptCmd v = { s with cmd := (s.acceptCmd v).cmd, irq := (s.acceptCmd v).irq } := by
  unfold State.acceptCmd; split <;> rfl

/-- THE LAW OF A TURN THAT DOES NOT RESET: a command completes, the host stores a word in FREQ, MSG or, with the
TX engine idle, FBUF, the engines tick, the parser steps, or the storage and TREE_STATUS are left alone. -/
theorem State.next_induct {s : State} (P : State → Prop) (hpend : s.cmd.pending ≠ some (encode .sreset))
    (hreset : turnResets s.turn = false)
    (hstill : ∀ u : State, u.tree = s.tree → u.store = s.store → P u)
    (hexec : ∀ i u, i ≠ .sreset → exec i s.advance = .next u → P u)
    (hstore : ∀ (u : State) (a : Nat) (v : Word) (r : Region),
      r = .freq ∨ r = .msg ∨ r = .fbuf ∧ s.tx.phase = .idle → locate s.params a = some r → a % 4 = 0 →
      u.tree = s.tree → u.store = s.store.put a (Word.bytes v) → P u)
    (htick : ∀ x, P (s.advance.tickStep x)) (hparse : P s.advance.parseStep) : P s.next := by
  have hact := s.act_turn
  cases hturn : s.turn <;> rw [hturn] at hact hreset
  case reset => cases hreset
  case hostRead addr strb =>
    rw [← Host.Outcome.next.inj hact]
    obtain ⟨b, sh, h | h⟩ := s.advance.busRead_frame addr strb
    all_goals rw [h]; exact hstill _ rfl rfl
  case hostWrite addr strb v =>
    rcases s.advance.busWrite_cases addr strb v with
      h1 | ⟨ha, hs, hv, _⟩ | ⟨_, _, _, h1⟩ | ⟨c, _, _, _, _, _, h1⟩ | ⟨r, hr, _, hl, ha, _, h1⟩
    case inr.inl => subst ha hs hv; exact absurd hreset (by decide)
    all_goals rw [← Host.Outcome.next.inj (h1.symm.trans hact)]
    · exact hstill _ rfl rfl
    · rw [State.acceptCmd_frame]; exact hstill _ rfl rfl
    · rw [Csr.write_frame]; exact hstill _ rfl rfl
    · exact hstore _ _ v r hr hl ha rfl rfl
  case complete =>
    rcases s.advance.completeStep_cases with ⟨_, h1⟩ | ⟨w, i, hw, hd, h1⟩ | ⟨w, e, _, _, h1⟩
    · rw [← Host.Outcome.next.inj (h1.symm.trans hact)]
      exact hstill _ rfl rfl
    · refine hexec i _ ?_ (h1.symm.trans hact)
      rintro rfl
      exact hpend (by rw [← eq_encode_of_decode hd]; exact hw)
    · rw [← Host.Outcome.next.inj (h1.symm.trans hact)]
      exact hstill _ (State.fail_tree _ _ _ _) (State.fail_store _ _ _ _)
  case tick x => rw [← Host.Outcome.next.inj hact]; exact htick x
  case parseFrame => rw [← Host.Outcome.next.inj hact]; exact hparse

end Sys2Proof.Machine
end

section
/-! PROOF of O55, `StepKeepsStorage`: every write is a splice inside the windows of the storage (20_memory.md
R59). -/

namespace Sys2Proof.Machine

/-- The invariant is about the storage and the capacities, and writes to regions of the storage keep it. -/
theorem State.StorageOk.writes {s t : State} (hs : s.StorageOk) {rs : List Region}
    (hp : t.params = s.params) (h : s.WritesTo rs t.store) : t.StorageOk := by
  obtain ⟨hlegal, hwf, hbits, hwritten⟩ := hs
  rw [Storage.wf_iff] at hwf
  have mapped {a : Nat} (ha : regionOffsets s.params rs a) : isStorage s.params a = true := by
    obtain ⟨r, -, hr⟩ := ha
    exact Region.isStorage_of_window hlegal hr
  unfold State.StorageOk
  rw [hp]
  exact ⟨hlegal, (Storage.wf_iff _).2 ⟨h.bits.wf hwf.1, h.written.wf hwf.2⟩,
    fun c hc => (h.bits.mem c hc).elim (hbits c) mapped,
    fun c hc => (h.written.mem c hc).elim (hwritten c) mapped⟩

theorem State.StorageOk.congr {s t : State} (hs : s.StorageOk) (hp : t.params = s.params)
    (hstore : t.store = s.store) : t.StorageOk :=
  hs.writes (rs := []) hp (by rw [hstore]; exact .refl _)

/-- Reset empties the storage and keeps the capacities. -/
theorem State.StorageOk.performReset {s : State} (hs : s.StorageOk) : s.performReset.StorageOk := by
  obtain ⟨hlegal, -⟩ := hs
  exact ⟨hlegal, rfl, (fun _ hc => by cases hc), fun _ hc => by cases hc⟩

theorem State.StorageOk.exec {s t : State} {i : Instr} (hs : s.StorageOk) (h : exec i s = .next t) :
    t.StorageOk := by
  by_cases hi : i = .sreset
  · subst hi
    rw [← Host.Outcome.next.inj h]
    exact hs.performReset
  · obtain ⟨hp, hw⟩ := exec_writes h hi hs.1
    exact hs.writes hp hw

/-- Settles O55, turn by turn. -/
theorem stepKeepsStorage : Obligations.StepKeepsStorage := by
  intro s t hs h
  refine step_induct State.StorageOk s t h hs (fun _ _ _ hu => hu) (fun _ _ hu => hu)
    (fun _ hu => hu.performReset) ?_ ?_ ?_ (fun _ _ _ _ _ _ hu hx => hu.exec hx) ?_ ?_ ?_
  · intro u v _ hu; rw [State.acceptCmd_frame]; exact hu
  · intro u c v hu; rw [Csr.write_frame]; exact hu
  · exact fun u a v r hr hl ha hu =>
      hu.writes rfl (u.hostStore_writes hu.1 v (hr.imp_right (Or.imp_right And.left)) hl ha)
  · exact fun u op w hu => hu.congr (by simp) (by simp)
  · exact fun u x hu => hu.writes (by rw [State.tickStep_eq]) (u.tickStep_writes hu.1 x)
  · exact fun u hu => hu.writes (by rw [State.parseStep_frame]) u.parseStep_writes

end Sys2Proof.Machine
end

section
/-! PROOF of O54, `FrameFixedWhileSending`: while the TX engine is not idle the host's writes to FBUF are refused
and ENCODE and ADDCK fail their BUSY check, and no other turn but a reset writes there (20_memory.md R70,
70_reset_and_hazards.md R159). -/

namespace Sys2Proof.Machine

/-- Two states' FBUF, up to the end of its window in the address map, hold the same bits and marks. -/
def SameFrame (s t : State) : Prop :=
  ∀ a, within fbufBase 0x10000 a →
    t.store.bits.get a = s.store.bits.get a ∧ t.store.written.get a = s.store.written.get a

theorem State.sameFrame_of_writes {s t : State} (hp : s.params.legal = true) {rs : List Region}
    (h : s.WritesTo rs t.store) (hrs : .fbuf ∉ rs) : SameFrame s t := by
  intro a ha
  have hout : ¬ regionOffsets s.params rs a := by
    rintro ⟨r, hr, hw⟩
    obtain rfl := fbuf_of_locate (locate_of_window hp hw) ha
    exact hrs hr
  exact ⟨h.bits.get a hout, h.written.get a hout⟩

/-- The commands that write FBUF are refused while it is being sent. -/
theorem exec_sameFrame {i : Instr} {s t : State} (h : exec i s = .next t) (hi : i ≠ .sreset)
    (hp : s.params.legal = true) (hbusy : s.tx.phase ≠ .idle) : SameFrame s t := by
  have kept (hstore : t.store = s.store) : SameFrame s t := fun a _ => by rw [hstore]; exact ⟨rfl, rfl⟩
  have hw := (exec_writes h hi hp).2
  cases i
  case encode =>
    refine kept ?_
    rw [← Host.Outcome.next.inj h]
    exact State.run_keeps State.store s _ _ _ (fun _ _ _ => rfl)
      fun hc => absurd (s.encodeCheck_none.1 hc).1 hbusy
  case addck =>
    refine kept ?_
    rw [← Host.Outcome.next.inj h]
    exact State.run_keeps State.store s _ _ _ (fun _ _ _ => rfl)
      fun hc => absurd (s.addckCheck_none.1 hc).1 hbusy
  all_goals exact State.sameFrame_of_writes hp hw (by simp [commandRegions])

/-- Settles O54, turn by turn. -/
theorem frameFixedWhileSending : Obligations.FrameFixedWhileSending := by
  intro s t hregs hp hbusy hreset h
  obtain rfl := State.next_eq h
  refine State.next_induct (SameFrame s) hregs.1 hreset (fun u _ hst a _ => by rw [hst]; exact ⟨rfl, rfl⟩)
    (fun i u hi hx => exec_sameFrame (s := s.advance) hx hi hp hbusy) ?_
    (fun x => State.sameFrame_of_writes hp (s.advance.tickStep_writes hp x) (by decide))
    (State.sameFrame_of_writes hp s.advance.parseStep_writes (by decide))
  intro u a v r hr hl ha _ hst
  have hr' : r = .freq ∨ r = .msg := by tauto
  refine State.sameFrame_of_writes (rs := [r]) hp ?_ (by rcases hr' with rfl | rfl <;> decide)
  rw [hst]
  exact s.hostStore_writes hp v (hr.imp_right (Or.imp_right And.left)) hl ha

end Sys2Proof.Machine
end

section
/-! PROOF of O53, `TreeFixedWhileReceiving`: while the RX engine is not idle BUILD fails its BUSY check, CODES
writes the code table alone, and no other turn but a reset writes TREE or TREE_STATUS (40_huffman.md R95,
70_reset_and_hazards.md R159). The capacities need not be legal here: TREE lies below every buffer. -/

namespace Sys2Proof.Machine

/-- Two states' trees are the same: TV, ROOT, NLEAF and the node store. -/
def SameNodes (s t : State) : Prop :=
  t.tree.tv = s.tree.tv ∧ t.tree.root = s.tree.root ∧ t.tree.nleaf = s.tree.nleaf ∧ SameTree s t

theorem SameNodes.of_tree_eq {s t : State} (htree : t.tree = s.tree) (h : SameTree s t) :
    SameNodes s t := by
  unfold SameNodes
  rw [htree]
  exact ⟨rfl, rfl, rfl, h⟩

/-- A completion keeps what the command's effect keeps. -/
theorem State.sameNodes_run {s : State} (op : BitVec 8) (check : Option (CmdError × Word))
    (f : State → State) (hf : check = none → SameNodes s (f s)) : SameNodes s (s.run op check f) :=
  s.run_induct (SameNodes s) op check f (fun _ _ _ _ hu => hu) (.of_tree_eq rfl fun _ _ => rfl) hf

/-- CODES sets CV and writes the code table: a tree that BUILD made has no longer paths. -/
theorem State.sameNodes_codesEffect {s : State} (hs : s.TreeOk) (h : s.codesCheck = none) :
    SameNodes s s.codesEffect := by
  obtain ⟨freq, hf⟩ := hs (s.codesCheck_none.1 h)
  obtain ⟨-, -, hsame, -⟩ := State.codesEffect_store hf
  refine ⟨rfl, rfl, rfl, fun a ha => hsame a ?_⟩
  unfold treeBase at ha
  unfold codeOffsets codeLenBase codeBitsBase
  omega

theorem exec_sameNodes {i : Instr} {s t : State} (h : exec i s = .next t) (hi : i ≠ .sreset)
    (hs : s.TreeOk) (hbusy : s.rx.phase ≠ .idle) : SameNodes s t := by
  cases i <;> rw [← Host.Outcome.next.inj h]
  case sreset => exact absurd rfl hi
  all_goals refine State.sameNodes_run _ _ _ fun hc => ?_
  case build => exact absurd (s.buildCheck_none.1 hc).1 hbusy
  case codes => exact State.sameNodes_codesEffect hs hc
  case freq => exact .of_tree_eq rfl s.sameTree_freqEffect
  case encode => exact .of_tree_eq rfl (sameTree_putBits _ _ _ rfl (by decide))
  case decode => exact .of_tree_eq rfl (sameTree_put _ _ rfl (.inr (by decide)))
  case addck => exact .of_tree_eq rfl s.sameTree_addckEffect
  case parse =>
    exact .of_tree_eq (by rw [State.parseEffect_frame])
      (sameTree_put _ _ s.parseEffect_store (.inr (by decide)))
  all_goals exact .of_tree_eq rfl fun _ _ => rfl

/-- A word stored by the host is in FREQ, MSG or FBUF. -/
theorem sameTree_hostStore {s t : State} {a : Nat} {v : Word} {r : Region}
    (hr : r = .freq ∨ r = .msg ∨ r = .fbuf) (hl : locate s.params a = some r) (ha : a % 4 = 0)
    (ht : t.store = s.store.put a (Word.bytes v)) : SameTree s t := by
  have hw := window_of_locate hl (by rcases hr with rfl | rfl | rfl <;> simp)
  have hlen : (Word.bytes v).length = 4 := rfl
  refine sameTree_put a _ ht ?_
  rw [hlen]
  rcases hr with rfl | rfl | rfl
  all_goals dsimp only [Region.window] at hw; omega

/-- Settles O53, turn by turn. -/
theorem treeFixedWhileReceiving : Obligations.TreeFixedWhileReceiving := by
  intro s t hregs htree hbusy hreset h
  obtain rfl := State.next_eq h
  refine State.next_induct (SameNodes s) hregs.1 hreset
    (fun u hu hst => .of_tree_eq hu fun a _ => by rw [hst])
    (fun i u hi hx =>
      exec_sameNodes (s := s.advance) hx hi (htree.congr rfl fun _ _ => rfl) hbusy)
    (fun u a v r hr hl ha hu hst =>
      .of_tree_eq hu (sameTree_hostStore (hr.imp_right (Or.imp_right And.left)) hl ha hst))
    (fun x => ?_) ?_
  · rw [State.tickStep_eq]
    rcases s.advance.rxTick_store (if s.advance.cfg.loop then s.advance.lineOut else x) with
      hst | ⟨-, b, hst⟩
    · exact .of_tree_eq rfl fun a _ => by rw [hst]; rfl
    · exact .of_tree_eq rfl (sameTree_putBits rbufBase s.rx.rbufLen.toNat [b] hst (by decide))
  · rcases s.advance.parseStep_cases with hst | ⟨bit, L, ovf, hst⟩ <;> rw [hst]
    · exact .of_tree_eq rfl fun _ _ => rfl
    · exact .of_tree_eq rfl (sameTree_put rmsgBase _ rfl (.inr (by decide)))

end Sys2Proof.Machine
end

section
/-! PROOF of O25, `BytesAreGroups`: a group takes a byte's bits from the most significant on, as the packing of
bit buffers does (20_memory.md R62, 41_frame.md R102). -/

namespace Sys2Proof.Machine

/-- A byte is the sum of its bits, the most significant first. -/
theorem toNat_eq_sum_bits (b : Byte) :
    ((List.range 8).map fun j => if b.getLsbD (7 - j) then 2 ^ (7 - j) else 0).sum = b.toNat := by
  have hrev : (List.range 8).map (7 - ·) = (List.range 8).reverse := by decide
  have hsum : ((List.range 8).map fun j => if b.getLsbD (7 - j) then 2 ^ (7 - j) else 0).sum =
      ((List.range 8).map fun i => if b.getLsbD i then 2 ^ i else 0).sum := by
    rw [show (fun j => if b.getLsbD (7 - j) then 2 ^ (7 - j) else 0) =
        (fun i => if b.getLsbD i then 2 ^ i else 0) ∘ (7 - ·) from rfl,
      ← List.map_map, hrev, List.map_reverse, List.sum_reverse]
  rw [hsum]
  refine Nat.eq_of_testBit_eq fun j => Bool.eq_iff_iff.2 ?_
  rw [(testBit_sum_two_pow (fun i => b.getLsbD i = true) 8 j).2, BitVec.testBit_toNat]
  exact and_iff_right_of_imp BitVec.lt_of_getLsbD

/-- Settles O25: a frame of whole bytes holds the whole group, so each bit of it counts. -/
theorem bytesAreGroups : Obligations.BytesAreGroups := by
  intro s pass base n g hn hg
  rw [← toNat_eq_sum_bits, groupValue]
  congr 1
  refine List.map_congr_left fun j hj => ?_
  have hj8 := List.mem_range.1 hj
  have hin : 8 * g + j < n := by omega
  have hbyte : (8 * g + j) / 8 = g := by omega
  have hbit : (8 * g + j) % 8 = j := by omega
  simp only [hin, true_and, State.readBit, hbyte, hbit]

end Sys2Proof.Machine
end

section
/-! PROOFS of O45, `RefusedAccessChangesNothing`, O46, `BusyWritesRefused`, and O47, `WindowWriteReadsBack`: which
writes the bus refuses, what a refusal does, and what a write to a window of the storage does (20_memory.md R59 to
R61, R67, R69, R70). -/

namespace Sys2Proof.Machine

/-! ### Refusals (R60) -/

/-- A refusal sets pslverr and BUS_ERR, and changes nothing else (R60). -/
theorem State.refuse_eq (s : State) (w : Word) :
    (s.refuse w).bus.pslverr = true ∧
      s.refuse w =
        { s with bus := (s.refuse w).bus, irq := { s.irq with status := s.irq.status ||| 0x80 } } :=
  ⟨rfl, rfl⟩

/-- A write that reaches no region is refused (R60 (1) to (3)). -/
theorem State.busWrite_unreached (s : State) {addr : BitVec 20} {strb : BitVec 4} (v : Word)
    (h : reach s.params addr strb = none) :
    s.busWrite addr strb v = .next (s.refuse s.bus.prdata) := by
  unfold State.busWrite; rw [h]

/-- A write to a region that refuses it, whatever its strobes and alignment (R60 (4) to (6)). -/
theorem State.busWrite_refused (s : State) (addr : BitVec 20) (strb : BitVec 4) (v : Word)
    (h : ∀ r, reach s.params addr strb = some r → s.refusesWrite r = true) :
    s.busWrite addr strb v = .next (s.refuse s.bus.prdata) := by
  cases hr : reach s.params addr strb with
  | none => exact s.busWrite_unreached v hr
  | some r =>
    unfold State.busWrite
    rw [hr]
    dsimp only
    rw [if_pos (h r hr)]

/-- The regions a write is refused to, one clause of R60 each. -/
theorem State.refusesWrite_iff (s : State) (r : Region) :
    s.refusesWrite r = true ↔
      r.writable = false ∨ (s.cmdBusy = true ∧ r.writableBusy = false) ∨
        (r = .fbuf ∧ s.tx.phase ≠ .idle) := by
  simp [State.refusesWrite, or_assoc]

/-- A region at an offset that is no writable register's and in no writable window is read-only. -/
theorem writable_false_of_locate {p : Params} {a : Nat} {r : Region} (h : locate p a = some r)
    (h0 : a ≠ 0) (hreg : a ∉ writableRegisters) (hwin : ¬ writableWindows p a) : r.writable = false := by
  rw [writableWindows_iff, h] at hwin
  rcases locate_eq_some p a r h with ⟨c, k, rfl, -, hm⟩ | hstore
  · have hro : k = .ro := (csrTable_ro (a, c, k) hm).2 ⟨h0, hreg⟩
    rw [hro]; rfl
  · cases r
    case csr => simp at hstore
    case freq | msg | fbuf => simp at hwin
    all_goals rfl

/-- Settles O45. -/
theorem refusedAccessChangesNothing : Obligations.RefusedAccessChangesNothing := by
  intro s addr strb v
  dsimp only
  have hwrite (h : ∀ r, locate s.params addr.toNat = some r → s.refusesWrite r = true) :=
    s.busWrite_refused addr strb v fun r hr => h r ((reach_eq_some _ _ _ _).1 hr).2.2
  refine ⟨fun h => ?_, fun r hl hr => ⟨_, hwrite fun r' hl' => ?_, s.refuse_eq _⟩,
    fun h => ⟨_, hwrite fun r hl => (s.refusesWrite_iff r).2 ?_, s.refuse_eq _⟩⟩
  · have hnone : reach s.params addr strb = none := by
      by_contra hne
      obtain ⟨r, hr⟩ := Option.ne_none_iff_exists'.1 hne
      obtain ⟨ha, hs, hl⟩ := (reach_eq_some _ _ _ _).1 hr
      rw [hl] at h
      simp [ha, hs] at h
    rw [s.busRead_refused addr strb hnone]
    exact ⟨s.refuse_eq _, rfl, _, s.busWrite_unreached v hnone, s.refuse_eq _⟩
  · obtain rfl : r = r' := Option.some.inj (hl.symm.trans hl')
    exact (s.refusesWrite_iff r).2 (hr.imp_right .inr)
  · rcases h with ⟨h0, hreg, hwin⟩ | ⟨hwin, hbusy⟩
    · exact .inl (writable_false_of_locate hl (fun ha => h0 (BitVec.eq_of_toNat_eq ha)) hreg hwin)
    · exact .inr (.inr ⟨fbuf_of_locate hl hwin, hbusy⟩)

/-! ### A pending command (R69) -/

/-- The registers that may be written while a command is pending are at CMD's, IRQ_STATUS's and IRQ_EN's
offsets. -/
theorem csrTable_busy_offset : ∀ e ∈ csrTable, Region.writableBusy (.csr e.2.1 e.2.2) = true →
    e.1 = 0x000 ∨ e.1 = 0x044 ∨ e.1 = 0x048 := by decide +kernel

theorem locate_busy_offset {p : Params} {a : Nat} {r : Region} (h : locate p a = some r)
    (hr : r.writableBusy = true) : a = 0x000 ∨ a = 0x044 ∨ a = 0x048 := by
  rcases locate_eq_some p a r h with ⟨c, k, rfl, -, hm⟩ | hstore
  · exact csrTable_busy_offset _ hm hr
  · cases r
    case csr => simp at hstore
    all_goals cases hr

/-- A write to CMD of another word than SRESET's is taken, pending command or not (30_encoding.md R84). -/
theorem State.busWrite_cmd (s : State) {v : Word} (hv : v ≠ 0x0000001F) :
    s.busWrite 0x00000 0b1111 v =
      .next (State.acceptCmd { s with bus := { s.bus with pslverr := false } } v) := by
  have hreach : reach s.params 0x00000 0b1111 = some (.csr .cmd .wo) :=
    (reach_eq_some _ _ _ _).2 ⟨rfl, rfl, locate_zero _⟩
  have hok : s.refusesWrite (.csr .cmd .wo) = false := by
    simp [State.refusesWrite, Region.writable, Region.writableBusy]
  unfold State.busWrite
  rw [hreach]
  simp only [hok]
  exact if_neg hv

/-- A write to CMD is never refused. -/
theorem State.busWrite_cmd_accepted (s : State) (v : Word) :
    ∃ t, s.busWrite 0x00000 0b1111 v = .next t ∧ t.bus.pslverr = false := by
  by_cases hv : v = 0x0000001F
  · subst hv
    exact ⟨_, s.busWrite_sreset, rfl⟩
  · exact ⟨_, s.busWrite_cmd hv, by rw [State.acceptCmd_frame]⟩

/-- Settles O46. -/
theorem busyWritesRefused : Obligations.BusyWritesRefused := by
  intro s addr v hbusy
  refine ⟨fun h0 h44 h48 => ⟨_, s.busWrite_refused addr _ v fun r hr => ?_, s.refuse_eq _⟩, fun h => ?_⟩
  · refine (s.refusesWrite_iff r).2 (.inr (.inl ⟨hbusy, Bool.eq_false_iff.2 fun hw => ?_⟩))
    rcases locate_busy_offset ((reach_eq_some _ _ _ _).1 hr).2.2 hw with ha | ha | ha
    · exact h0 (BitVec.eq_of_toNat_eq ha)
    · exact h44 (BitVec.eq_of_toNat_eq ha)
    · exact h48 (BitVec.eq_of_toNat_eq ha)
  · rcases h with rfl | h
    · exact s.busWrite_cmd_accepted v
    · have hw : addr.toNat ∈ writableRegisters := by rcases h with rfl | rfl <;> decide
      obtain ⟨t, ht, hok, -⟩ := s.busWrite_writable addr v hw (.inr h)
      exact ⟨t, ht, hok⟩

/-! ### The windows of the storage (R59, R67) -/

/-- A write that a region of the storage does not refuse stores the word's bytes. -/
theorem State.busWrite_storage (s : State) {addr : BitVec 20} (v : Word) {r : Region}
    (ha : addr.toNat % 4 = 0) (hl : locate s.params addr.toNat = some r) (hcsr : ∀ c k, r ≠ .csr c k)
    (hok : s.refusesWrite r = false) :
    s.busWrite addr 0b1111 v =
      .next
        { s with
          bus := { s.bus with pslverr := false }
          store := s.store.put addr.toNat (Word.bytes v) } := by
  unfold State.busWrite
  rw [(reach_eq_some _ _ _ _).2 ⟨ha, rfl, hl⟩]
  dsimp only
  rw [hok, if_neg Bool.false_ne_true]
  cases r
  case csr c k => exact absurd rfl (hcsr c k)
  all_goals rfl

/-- With no command pending a window refuses no write, FBUF while the TX engine is idle. -/
theorem State.window_accepts (s : State) {a : Nat} (hw : writableWindows s.params a)
    (htx : 0x40000 ≤ a → s.tx.phase = .idle) (hp : s.cmd.pending = none) :
    ∃ r, locate s.params a = some r ∧ (∀ c k, r ≠ .csr c k) ∧ s.refusesWrite r = false := by
  have hidle : s.cmdBusy = false := by unfold State.cmdBusy; rw [hp]; rfl
  rcases (writableWindows_iff _ _).1 hw with hl | hl | hl
  · exact ⟨_, hl, by simp, by simp [State.refusesWrite, hidle, Region.writable]⟩
  · exact ⟨_, hl, by simp, by simp [State.refusesWrite, hidle, Region.writable]⟩
  · have hfbuf := window_of_locate hl (by simp)
    dsimp only [Region.window] at hfbuf
    exact ⟨_, hl, by simp, by simp [State.refusesWrite, hidle, Region.writable, htx hfbuf.1]⟩

/-- The bytes of a word, by their number. -/
theorem Word.bytes_getD (v : Word) {k : Nat} (hk : k < 4) :
    (Word.bytes v).getD k 0 = v.extractLsb' (8 * k) 8 := by
  interval_cases k <;> rfl

/-- Settles O47. -/
theorem windowWriteReadsBack : Obligations.WindowWriteReadsBack := by
  intro s addr v ha hw htx hp
  have hlen : (Word.bytes v).length = 4 := rfl
  have hT (k : Nat) (hk : k < 4) : inTables (addr.toNat + k) = false := by
    rw [Bool.eq_false_iff, Ne, inTables_eq]
    unfold writableWindows at hw
    omega
  obtain ⟨r, hl, hcsr, hok⟩ := s.window_accepts hw htx hp
  refine ⟨_, s.busWrite_storage v ha hl hcsr hok, rfl, rfl, fun pass k hk => ?_, fun pass => ?_,
    fun pass a hout => ?_⟩
  · rw [State.readByte_put_inside s _ pass addr.toNat _ _ rfl (hT k hk) (by omega) (by omega),
      Nat.add_sub_cancel_left, Word.bytes_getD v hk]
  · exact State.readWord_put s _ pass addr.toNat 0 [v] (by simp) (by simp) (by simpa using hT)
  · exact State.readByte_put_outside s _ pass addr.toNat a _ rfl rfl rfl hout

end Sys2Proof.Machine
end

section
/-! PROOF of O49, `PendingReadsSettleElsewhere`: the destinations of a pending command by offset and bit
(20_memory.md R71), the registers' from their table and the storage's region by region. -/

namespace Sys2Proof.Machine

/-! ### The destinations by number -/

theorem decode_encode (i : Instr) : decode (encode i) = .ok i := by
  cases i
  case classify p => revert p; decide
  all_goals decide

/-- The register bits among a command's destinations, by offset and bit (R95 to R98, R109 to R111, R127). -/
def registerBits : Instr → Nat → Nat → Prop
  | .build => fun a b => a = 0x038 ∧ (b < 2 ∨ (8 ≤ b ∧ b ≤ 16) ∨ (20 ≤ b ∧ b ≤ 28))
  | .codes => fun a b => a = 0x038 ∧ b = 1
  | .encode => fun a _ => a = 0x014
  | .decode => fun a _ => a = 0x018 ∨ a = 0x01C
  | .addck => fun a b => a = 0x014 ∨ (a = 0x020 ∧ b < 3) ∨ a = 0x024
  | .validate => fun a b => (a = 0x028 ∧ b < 4) ∨ a = 0x02C ∨ a = 0x030 ∨ a = 0x034
  | .parse => fun a b =>
    (a = 0x028 ∧ b < 4) ∨ a = 0x02C ∨ a = 0x030 ∨ a = 0x034 ∨ a = 0x018 ∨ a = 0x01C
  | .classify _ => fun a b => a = 0x040 ∧ b < 3
  | .nop | .freq | .txStart | .txStop | .rxStart | .rxStop | .sreset => fun _ _ => False

/-- The storage bits among a command's destinations, by offset and bit (R94 to R98, R109, R111). -/
def State.storageBits (s : State) (i : Instr) (a b : Nat) : Prop :=
  (i = .freq ∧ within 0x01000 0x400 a) ∨
    ((i = .build ∨ i = .codes) ∧ (within 0x01400 0x400 a ∧ b < 8 ∨ within 0x02000 0x2000 a)) ∨
    (i = .build ∧ within 0x04000 0xFF8 a) ∨
    ((i = .decode ∨ i = .parse) ∧ within 0x20000 0x10000 a) ∨
    fbufWordBits (s.fbufDestination i).1 (s.fbufDestination i).2 a b

/-- The register destinations, by name, are those by number. -/
theorem csrDestinations_getLsbD (i : Instr) : ∀ e ∈ csrTable, ∀ b < 32,
    ((((csrDestinations i).lookup e.2.1).getD 0).getLsbD b = true ↔ registerBits i e.1 b) := by
  cases i <;> dsimp only [registerBits, csrDestinations]
  all_goals decide +kernel

/-- The register destinations lie in the register region. -/
theorem registerBits_lt {i : Instr} {a b : Nat} (h : registerBits i a b) : a < 0x1000 := by
  cases i <;> dsimp only [registerBits] at h <;> omega

theorem maskIf_getLsbD (c : Bool) (m : Word) (b : Nat) :
    (maskIf c m).getLsbD b = true ↔ c = true ∧ m.getLsbD b = true := by
  cases c <;> simp [maskIf]

theorem allOnes_getLsbD {b : Nat} (hb : b < 32) : (BitVec.allOnes 32).getLsbD b = true := by
  rw [BitVec.getLsbD_allOnes]; exact decide_eq_true hb

/-- The bits of CODE_LEN that can change (10_state.md R46). -/
theorem byteMask_getLsbD {b : Nat} (hb : b < 32) : (0xFF : Word).getLsbD b = true ↔ b < 8 := by
  revert b; decide

/-- The destinations in the storage, region by region, are those by number. -/
theorem State.destination_getLsbD (s : State) (i : Instr) {r : Region} {a b : Nat}
    (hl : locate s.params a = some r) (hcsr : ∀ c k, r ≠ .csr c k) (hb : b < 32) :
    (s.destination i r a).getLsbD b = true ↔ s.storageBits i a b := by
  rcases locate_eq_some _ _ _ hl with ⟨c, k, rfl, -⟩ | hreg
  · exact absurd rfl (hcsr c k)
  · unfold State.storageBits fbufWordBits State.destination
    cases r
    case csr c k => exact absurd rfl (hcsr c k)
    all_goals
      simp only [reduceCtorEq, false_and, or_false, false_or, true_and] at hreg
      simp only [maskIf_getLsbD, Bool.or_eq_true, beq_iff_eq]
    case freq => rw [allOnes_getLsbD hb]; grind
    case codeLen => rw [byteMask_getLsbD hb]; grind
    case codeBits => rw [allOnes_getLsbD hb]; grind
    case tree => rw [treeMask_getLsbD a b hb]; grind
    case dmsg => rw [allOnes_getLsbD hb]; grind
    case fbuf => rw [bufferMask_getLsbD _ _ _ _ _ hb]; unfold fbufBase; grind
    all_goals
      rw [show (0 : Word).getLsbD b = false from BitVec.getLsbD_zero]
      grind

/-! ### The free bits of a read -/

/-- While a command is pending the free bits are its destinations, in the registers and in the storage. -/
theorem State.readsFree_pending (s : State) (i : Instr) (hp : s.cmd.pending = some (encode i))
    (free : Nat → Nat → Prop) (hfree : ∀ a b, free a b ↔ registerBits i a b ∨ s.storageBits i a b) :
    s.ReadsFree free := by
  refine s.readsFree_of free fun addr r b hl hb => ?_
  rw [s.unsettled_of_pending _ i hp (decode_encode i), hfree]
  by_cases hcsr : ∃ c k, r = .csr c k
  · obtain ⟨c, k, rfl⟩ := hcsr
    rcases locate_eq_some _ _ _ hl with ⟨c', k', hr, hlt, hm⟩ | hreg
    · obtain ⟨rfl, rfl⟩ := Region.csr.inj hr
      have hstorage : ¬ s.storageBits i addr.toNat b := by
        unfold State.storageBits fbufWordBits
        omega
      rw [or_iff_left hstorage]
      exact csrDestinations_getLsbD i _ hm b hb
    · simp at hreg
  · push Not at hcsr
    have hregister : ¬ registerBits i addr.toNat b := by
      intro h
      have hlt := registerBits_lt h
      rcases locate_eq_some _ _ _ hl with ⟨c, k, hr, -⟩ | hreg
      · exact hcsr c k hr
      · omega
    rw [or_iff_right hregister]
    exact s.destination_getLsbD i hl hcsr hb

/-- With nothing unsettled every bit reads what is stored. -/
theorem State.readsFree_settled (s : State) (h : ∀ r a, s.unsettled r a = 0) :
    s.ReadsFree fun _ _ => False :=
  s.readsFree_of _ fun addr r b _ _ => by rw [h]; exact iff_of_false (by simp) id

/-- An empty range of frame bits has none in any word. -/
theorem not_fbufWordBits_empty (a b : Nat) : ¬ fbufWordBits 0 0 a b := by
  rintro ⟨-, -, h⟩
  exact Nat.not_lt_zero _ h

/-- Settles O49: each command's destinations are those that `registerBits` and `State.storageBits` list. -/
theorem pendingReadsSettleElsewhere : Obligations.PendingReadsSettleElsewhere := by
  intro s
  dsimp only
  refine ⟨fun hp => s.readsFree_settled fun r a => ?_, fun w e hp hd => s.readsFree_settled fun r a => ?_,
    fun i hi hp => s.readsFree_pending i hp _ fun a b => ?_, ?_, ?_, ?_, ?_, ?_, ?_, ?_, ?_, fun p => ?_⟩
  · unfold State.unsettled; rw [hp]
  · unfold State.unsettled; rw [hp]; dsimp only; rw [hd]
  · simp only [List.mem_cons, List.not_mem_nil, or_false] at hi
    rcases hi with rfl | rfl | rfl | rfl | rfl
    all_goals
      simp [registerBits, State.storageBits, State.fbufDestination, not_fbufWordBits_empty]
  all_goals
    intro hp
    refine s.readsFree_pending _ hp _ fun a b => ?_
    simp [registerBits, State.storageBits, State.fbufDestination, not_fbufWordBits_empty, or_assoc, or_comm,
      or_left_comm]

end Sys2Proof.Machine
end

section
/-! PROOFS of O1, `DecodeIffEncode`, O2, `IllegalWordsAreRefused`, O3, `SampleWordsDecode`, O4,
`StepRunsDecodedCommand`, and O6, `CmdWriteIssuesCommand`: which words are commands, and how a word written to CMD
comes to be run (30_encoding.md R78, R80, R81, R84, R85). -/

namespace Sys2Proof.Machine

/-! ### Words and commands (R78, R80) -/

/-- Settles O1: a word that decodes has its command's fields, and so is its word. -/
theorem decodeIffEncode : Obligations.DecodeIffEncode := fun _ i =>
  ⟨eq_encode_of_decode, fun h => h ▸ decode_encode i⟩

/-- Settles O3, by evaluation of the decoder at each of the words. -/
theorem sampleWordsDecode : Obligations.SampleWordsDecode := by
  unfold Obligations.SampleWordsDecode
  decide

/-! ### Illegal words (R81) -/

/-- The assigned opcodes are those that select a command. -/
theorem commandOf_eq_none_iff (c : Cmd32) : commandOf c.op c.p = none ↔ c.opAssigned = false := by
  simp [commandOf, ite_eq_iff, Cmd32.opAssigned, assignedOps]

/-- The decoder refuses exactly the words that fail a check of R81. -/
theorem exists_decode_eq_error_iff (w : Word) :
    (∃ e, decode w = .error e) ↔
      (Cmd32.ofWord w).opAssigned = false ∨ (Cmd32.ofWord w).reservedZero = false ∨
        (Cmd32.ofWord w).phaseAllowed = false := by
  rw [← commandOf_eq_none_iff]
  unfold decode
  dsimp only
  cases commandOf (Cmd32.ofWord w).op (Cmd32.ofWord w).p with
  | none => simp
  | some i =>
    cases (Cmd32.ofWord w).reservedZero with
    | false => simp
    | true => cases (Cmd32.ofWord w).phaseAllowed <;> simp

/-- The unassigned opcodes are the gaps in the table of R80. -/
theorem opAssigned_eq_false_iff (c : Cmd32) :
    c.opAssigned = false ↔
      (0x0A ≤ c.op.toNat ∧ c.op.toNat ≤ 0x0F) ∨ (0x14 ≤ c.op.toNat ∧ c.op.toNat ≤ 0x1E) ∨
        0x20 ≤ c.op.toNat := by
  have hgaps : ∀ op : BitVec 8,
      assignedOps.contains op = false ↔
        (0x0A ≤ op.toNat ∧ op.toNat ≤ 0x0F) ∨ (0x14 ≤ op.toNat ∧ op.toNat ≤ 0x1E) ∨
          0x20 ≤ op.toNat := by decide
  exact hgaps c.op

theorem ofWord_op_toNat (w : Word) : (Cmd32.ofWord w).op.toNat = w.toNat % 256 := by
  simp [Cmd32.ofWord, BitVec.extractLsb'_toNat]

/-- A reserved field that is not zero has a bit of the word that is 1. -/
theorem reservedZero_eq_false_iff (w : Word) :
    (Cmd32.ofWord w).reservedZero = false ↔ ∃ b, 9 ≤ b ∧ b ≤ 31 ∧ w.getLsbD b = true := by
  have hbit (k : Nat) (hk : k < 23) : (Cmd32.ofWord w).reserved.getLsbD k = w.getLsbD (9 + k) := by
    simp [Cmd32.ofWord, hk]
  rw [Cmd32.reservedZero, beq_eq_false_iff_ne]
  constructor
  · intro hne
    by_contra hnone
    push Not at hnone
    refine hne (BitVec.eq_of_getLsbD_eq fun k hk => ?_)
    refine (hbit k hk).trans (Eq.trans ?_ BitVec.getLsbD_zero.symm)
    exact Bool.eq_false_iff.2 (hnone (9 + k) (by omega) (by omega))
  · rintro ⟨b, hlo, hhi, hb⟩ hzero
    have hfield := hbit (b - 9) (by omega)
    rw [Nat.add_sub_cancel' hlo, hb, hzero] at hfield
    exact Bool.false_ne_true (BitVec.getLsbD_zero.symm.trans hfield)

/-- Bit 8 is 1 in a word that is not of CLASSIFY's opcode. -/
theorem phaseAllowed_eq_false_iff (w : Word) :
    (Cmd32.ofWord w).phaseAllowed = false ↔ w.getLsbD 8 = true ∧ w.toNat % 256 ≠ 0x09 := by
  have hp : (Cmd32.ofWord w).p ≠ 0 ↔ w.getLsbD 8 = true := by
    have hone : ∀ p : BitVec 1, p ≠ 0 ↔ p.getLsbD 0 = true := by decide
    rw [hone]
    simp [Cmd32.ofWord]
  have hop : (Cmd32.ofWord w).op ≠ 0x09 ↔ w.toNat % 256 ≠ 0x09 := by
    rw [← ofWord_op_toNat]
    exact BitVec.toNat_inj.symm.not
  rw [Cmd32.phaseAllowed, Bool.or_eq_false_iff, beq_eq_false_iff_ne, beq_eq_false_iff_ne, hp, hop]

/-! ### Completion (R85, R137) -/

/-- The recording of an error is all that a failing command does (60_exceptions.md R137). -/
theorem State.failed_fail (s : State) (op : BitVec 8) (code : CmdError) (info : Word) :
    Failed s (s.fail op code info) op code info := by
  have hframe : s.fail op code info =
      { s with cmd := (s.fail op code info).cmd, irq := (s.fail op code info).irq } := by
    unfold State.fail; dsimp only; split <;> rfl
  rw [State.fail_cmd, State.fail_irq] at hframe
  exact hframe

/-- The completion of a legal word is its command's meaning. -/
theorem State.completeStep_of_ok {s : State} {w : Word} {i : Instr} (hp : s.cmd.pending = some w)
    (hd : decode w = .ok i) : s.completeStep = exec i s := by
  simp only [State.completeStep, hp, hd]

/-- The completion of an illegal word is the error ILLEGAL, with the word. -/
theorem State.completeStep_of_error {s : State} {w : Word} {e : Illegal} (hp : s.cmd.pending = some w)
    (hd : decode w = .error e) :
    s.completeStep = .next (s.fail (w.extractLsb' 0 8) .illegal w) := by
  simp only [State.completeStep, hp, hd]

/-- A completion turn is the command engine's step. -/
theorem step_of_complete {s : State} (ht : s.turn = .complete) : step s = s.advance.completeStep := by
  unfold step; rw [ht]; rfl

/-- Settles O2: the three checks of R81, each by number, and the error that completes an illegal word. -/
theorem illegalWordsAreRefused : Obligations.IllegalWordsAreRefused := by
  intro w
  constructor
  · rw [exists_decode_eq_error_iff, opAssigned_eq_false_iff, ofWord_op_toNat, reservedZero_eq_false_iff,
      phaseAllowed_eq_false_iff]
  · intro s e ht hp hd
    refine ⟨_, ?_, s.advance.failed_fail _ _ _⟩
    rw [step_of_complete ht, State.completeStep_of_error (s := s.advance) hp hd]

/-! ### Acceptance (R84) -/

/-- A command becomes pending when none is. -/
theorem State.acceptCmd_of_none {s : State} (w : Word) (h : s.cmd.pending = none) :
    s.acceptCmd w = { s with cmd := { s.cmd with pending := some w } } := by
  unfold State.acceptCmd; rw [h]

/-- A command is dropped with CMD_OVR while another is pending. -/
theorem State.acceptCmd_of_ne_none {s : State} (w : Word) (h : s.cmd.pending ≠ none) :
    s.acceptCmd w = s.setIrq irqCmdOvr := by
  obtain ⟨v, hv⟩ := Option.ne_none_iff_exists'.1 h
  unfold State.acceptCmd; rw [hv]

/-- Settles O6: SRESET's word resets, and any other is accepted by whether a command is pending. -/
theorem cmdWriteIssuesCommand : Obligations.CmdWriteIssuesCommand := by
  intro s w
  by_cases hw : w = 0x0000001F
  · subst hw
    exact ⟨_, s.busWrite_sreset, rfl, fun _ => rfl, fun h => absurd rfl h, fun h => absurd rfl h⟩
  · have hwrite := s.busWrite_cmd hw
    by_cases hp : s.cmd.pending = none
    · exact ⟨_, hwrite.trans (congrArg _ (State.acceptCmd_of_none w hp)),
        rfl, fun h => absurd h hw, fun _ _ => rfl, fun _ h => absurd hp h⟩
    · exact ⟨_, hwrite.trans (congrArg _ (State.acceptCmd_of_ne_none w hp)),
        rfl, fun h => absurd h hw, fun _ h => absurd h hp, fun _ _ => rfl⟩

/-! ### The step (R14) -/

/-- The agenda's first turn is the one taken. -/
theorem State.upcoming_of_agenda {s : State} {turn : Input} {rest : List Input}
    (h : s.agenda = turn :: rest) : s.upcoming = turn :: rest := by
  unfold State.upcoming; rw [h]

/-- Settles O4: the completion, SRESET's write and the agenda, each by its own rule. -/
theorem stepRunsDecodedCommand : Obligations.StepRunsDecodedCommand := by
  refine ⟨fun s w i ht hp hd => ?_, fun s ht => ?_, fun s turn rest h => ?_⟩
  · rw [step_of_complete ht, State.completeStep_of_ok (s := s.advance) hp hd]
  · unfold step
    rw [ht]
    exact s.advance.busWrite_sreset
  · have hup := State.upcoming_of_agenda h
    unfold State.turn State.advance
    rw [hup]
    exact ⟨rfl, rfl⟩

end Sys2Proof.Machine
end

section
/-! PROOFS of O15, `DecodeEmitsLeaves`, O18, `CodesArePrefixFree`, and O17, `TreeRoundTrip`. A code is a path to a
leaf, a path ends at its leaf, and the decoder starts again at the root there (40_huffman.md R90 to R93, R99). -/

namespace Sys2Proof.Machine

/-! ### Paths (R91) -/

theorem descend_nil_of_inner {node : Nat → Node} {i l r w : Nat} (hi : node i = .inner l r w) :
    descend node i [] = none := by
  rw [descend, hi]

theorem descend_cons_of_inner {node : Nat → Node} {i l r w : Nat} (hi : node i = .inner l r w) (b : Bool)
    (path : List Bool) : descend node i (b :: path) = descend node (if b then r else l) path := by
  rw [descend, hi]

theorem descend_cons_of_leaf {node : Nat → Node} {i : Nat} {sym : Byte} {w : Nat}
    (hi : node i = .leaf sym w) (b : Bool) (path : List Bool) : descend node i (b :: path) = none := by
  rw [descend, hi]

/-- A path that reaches a leaf from a leaf is empty. -/
theorem descend_eq_some_of_leaf {node : Nat → Node} {i : Nat} {sym x : Byte} {w : Nat} {path : List Bool}
    (hi : node i = .leaf sym w) (h : descend node i path = some x) : path = [] ∧ x = sym := by
  cases path with
  | nil =>
    rw [descend, hi] at h
    exact ⟨rfl, (Option.some.inj h).symm⟩
  | cons b path => rw [descend_cons_of_leaf hi] at h; cases h

/-- A path of one bit or more starts at an internal node. -/
theorem exists_inner_of_descend {node : Nat → Node} {i : Nat} {x : Byte} {path : List Bool}
    (h : descend node i path = some x) (hne : path ≠ []) : ∃ l r w, node i = .inner l r w := by
  cases hi : node i with
  | leaf sym w => exact absurd (descend_eq_some_of_leaf hi h).1 hne
  | inner l r w => exact ⟨l, r, w, rfl⟩

/-- A path that goes on beyond a leaf reaches none. -/
theorem descend_append_eq_none {node : Nat → Node} {i : Nat} {x : Byte} {p q : List Bool}
    (hp : descend node i p = some x) (hq : q ≠ []) : descend node i (p ++ q) = none := by
  induction p generalizing i with
  | nil =>
    obtain ⟨b, q, rfl⟩ := List.exists_cons_of_ne_nil hq
    cases hi : node i with
    | leaf sym w => exact descend_cons_of_leaf hi b q
    | inner l r w => rw [descend_nil_of_inner hi] at hp; cases hp
  | cons b p ih =>
    obtain ⟨l, r, w, hi⟩ := exists_inner_of_descend hp (List.cons_ne_nil b p)
    rw [descend_cons_of_inner hi] at hp
    rw [List.cons_append, descend_cons_of_inner hi]
    exact ih hp

/-- Two paths to leaves, one of which starts with the other, lead to one leaf. -/
theorem descend_symbol_eq_of_prefix {node : Nat → Node} {i : Nat} {x y : Byte} {p q : List Bool}
    (hp : descend node i p = some x) (hq : descend node i q = some y) (h : p <+: q) : x = y := by
  obtain ⟨rest, rfl⟩ := h
  by_cases hrest : rest = []
  · rw [hrest, List.append_nil, hp] at hq
    exact Option.some.inj hq
  · rw [descend_append_eq_none hp hrest] at hq
    cases hq

/-! ### The decoder (R93) -/

/-- A bit that leads to a leaf emits its symbol and starts again at the root. -/
theorem decodeFrom_cons_leaf {node : Nat → Node} {root cur t : Nat} {b : Bool} {bs : List Bool}
    {rl rr rw' l r w v : Nat} {sym : Byte} (hroot : node root = .inner rl rr rw')
    (hcur : node cur = .inner l r w) (hnext : node (if b then r else l) = .leaf sym v) :
    decodeFrom node root cur t (b :: bs) =
      (sym :: (decodeFrom node root root 0 bs).1, (decodeFrom node root root 0 bs).2) := by
  rw [decodeFrom, hroot]
  dsimp only
  rw [hcur]
  dsimp only
  rw [hnext]

/-- A bit that leads to an internal node goes on there. -/
theorem decodeFrom_cons_inner {node : Nat → Node} {root cur t : Nat} {b : Bool} {bs : List Bool}
    {rl rr rw' l r w nl nr nw : Nat} (hroot : node root = .inner rl rr rw')
    (hcur : node cur = .inner l r w) (hnext : node (if b then r else l) = .inner nl nr nw) :
    decodeFrom node root cur t (b :: bs) = decodeFrom node root (if b then r else l) (t + 1) bs := by
  rw [decodeFrom, hroot]
  dsimp only
  rw [hcur]
  dsimp only
  rw [hnext]

/-- The rest of a path to a leaf emits the leaf's symbol. -/
theorem decodeFrom_path {node : Nat → Node} {root cur t rl rr rw' l r w : Nat} {path rest : List Bool}
    {sym : Byte} (hroot : node root = .inner rl rr rw') (hcur : node cur = .inner l r w)
    (hpath : descend node cur path = some sym) :
    decodeFrom node root cur t (path ++ rest) =
      (sym :: (decodeFrom node root root 0 rest).1, (decodeFrom node root root 0 rest).2) := by
  induction path generalizing cur t l r w with
  | nil => rw [descend_nil_of_inner hcur] at hpath; cases hpath
  | cons b path ih =>
    rw [descend_cons_of_inner hcur] at hpath
    rw [List.cons_append]
    cases hnext : node (if b then r else l) with
    | leaf x v =>
      obtain ⟨rfl, rfl⟩ := descend_eq_some_of_leaf hnext hpath
      exact decodeFrom_cons_leaf hroot hcur hnext
    | inner nl nr nw =>
      rw [decodeFrom_cons_inner hroot hcur hnext]
      exact ih hnext hpath

/-- Bits that reach no leaf are dropped and counted. -/
theorem decodeFrom_no_leaf {node : Nat → Node} {root cur t rl rr rw' l r w : Nat} {bits : List Bool}
    (hroot : node root = .inner rl rr rw') (hcur : node cur = .inner l r w)
    (hnone : ∀ path, path <+: bits → descend node cur path = none) :
    decodeFrom node root cur t bits = ([], t + bits.length) := by
  induction bits generalizing cur t l r w with
  | nil => rfl
  | cons b bits ih =>
    have hnone' (path : List Bool) (h : path <+: bits) :
        descend node (if b then r else l) path = none := by
      rw [← descend_cons_of_inner hcur]
      exact hnone _ (List.cons_prefix_cons.2 ⟨rfl, h⟩)
    cases hnext : node (if b then r else l) with
    | leaf x v =>
      have := hnone' [] List.nil_prefix
      rw [descend, hnext] at this
      cases this
    | inner nl nr nw =>
      rw [decodeFrom_cons_inner hroot hcur hnext, ih hnext hnone', List.length_cons]
      congr 1
      omega

/-- A tree of one leaf emits its symbol for every bit (R90). -/
theorem decodeFrom_of_leaf_root {node : Nat → Node} {root : Nat} {sym : Byte} {w : Nat}
    (hroot : node root = .leaf sym w) (cur t : Nat) (bits : List Bool) :
    decodeFrom node root cur t bits = (List.replicate bits.length sym, t) := by
  induction bits with
  | nil => rfl
  | cons b bits ih =>
    rw [decodeFrom, hroot]
    dsimp only
    rw [ih]
    rfl

/-- Settles O15, by the three laws of the decoder above. -/
theorem decodeEmitsLeaves : Obligations.DecodeEmitsLeaves := by
  refine fun node root => ⟨fun l r w hroot => ⟨fun path sym rest hpath => ?_, fun bits hnone => ?_⟩,
    fun sym w bits hroot => ?_⟩
  · exact decodeFrom_path hroot hroot hpath
  · rw [decodeFrom_no_leaf hroot hroot hnone, Nat.zero_add]
  · exact decodeFrom_of_leaf_root hroot root 0 bits

/-! ### The code table's codes (R91, R92) -/

@[simp] theorem leafBytes_length (freq : List Nat) :
    (leafBytes freq).length = (leafSymbols freq).length := by
  simp [leafBytes]

theorem CodesOf.mem_leafBytes {freq : List Nat} {node : Nat → Node} {root : Nat}
    {table : List (Byte × List Bool)} (h : CodesOf freq node root table) {c : Byte × List Bool}
    (hc : c ∈ table) : c.1 ∈ leafBytes freq :=
  h.symbols.mem_iff.1 (List.mem_map_of_mem hc)

/-- The one symbol of a table of one leaf. -/
theorem eq_of_mem_leafBytes_one {freq : List Nat} (h1 : (leafSymbols freq).length = 1) {x y : Byte}
    (hx : x ∈ leafBytes freq) (hy : y ∈ leafBytes freq) : x = y := by
  obtain ⟨z, hz⟩ := List.length_eq_one_iff.1 ((leafBytes_length freq).trans h1)
  rw [hz, List.mem_singleton] at hx hy
  rw [hx, hy]

/-- Settles O18: the codes are paths to leaves, so none goes on beyond another's. -/
theorem codesArePrefixFree : Obligations.CodesArePrefixFree := by
  intro freq hn
  have h := codesOf_codeTable hn (node := nodeOf (buildTree freq)) fun _ _ => rfl
  refine ⟨h.symbols.nodup_iff.2 (leafBytes_nodup freq),
    fun sym => h.symbols.mem_iff.trans mem_leafBytes,
    fun c hc => ⟨h.length_pos c hc, Nat.le_of_lt_succ (h.length_lt c hc)⟩,
    fun c hc d hd hne hprefix => hne ?_⟩
  rcases Nat.lt_or_ge (leafSymbols freq).length 2 with h1 | h2
  · exact eq_of_mem_leafBytes_one (by omega) (h.mem_leafBytes hc) (h.mem_leafBytes hd)
  · exact descend_symbol_eq_of_prefix (h.path h2 c hc) (h.path h2 d hd) hprefix

/-- A symbol of a code table has its first code there. -/
theorem mem_codeIn {table : List (Byte × List Bool)} {sym : Byte} (h : sym ∈ table.map Prod.fst) :
    (sym, codeIn table sym) ∈ table := by
  induction table with
  | nil => cases h
  | cons c table ih =>
    obtain ⟨x, code⟩ := c
    unfold codeIn
    rw [List.lookup_cons]
    by_cases hx : sym = x
    · subst hx
      simp
    · rw [beq_eq_false_iff_ne.2 hx]
      rw [List.map_cons, List.mem_cons] at h
      exact List.mem_cons_of_mem _ (ih (h.resolve_left hx))

/-! ### Encoding and decoding a message (R99) -/

/-- The tree of a table with one symbol is its leaf. -/
theorem nodeOf_buildTree_one {freq : List Nat} (h1 : (leafSymbols freq).length = 1) {sym : Byte}
    (hsym : sym ∈ leafBytes freq) :
    ∃ w, nodeOf (buildTree freq) ((buildTree freq).length - 1) = .leaf sym w := by
  obtain ⟨-, hleaves, -⟩ := buildTreeMergesLeast freq (by omega)
  obtain ⟨k, hk, hnode⟩ := hleaves 0 (by omega)
  have hmem : BitVec.ofNat 8 k ∈ leafBytes freq := List.mem_map_of_mem (List.mem_of_getElem? hk)
  refine ⟨freq.getD k 0, ?_⟩
  rw [buildTree_length freq (by omega), h1, eq_of_mem_leafBytes_one h1 hsym hmem, nodeOf,
    List.getD_eq_getElem?_getD, hnode]
  rfl

/-- A symbol's code on a tree: the path to its leaf, or any one bit, as "0" is, where the root is that leaf. -/
def SpellsSymbol (node : Nat → Node) (root : Nat) (sym : Byte) (code : List Bool) : Prop :=
  (code ≠ [] ∧ descend node root code = some sym) ∨ (code.length = 1 ∧ ∃ w, node root = .leaf sym w)

/-- A message's codes one after the other decode to the message, with no bit left over. -/
theorem decodeFrom_flatMap {node : Nat → Node} {root : Nat} {code : Byte → List Bool} {msg : List Byte}
    (h : ∀ sym ∈ msg, SpellsSymbol node root sym (code sym)) :
    decodeFrom node root root 0 (msg.flatMap code) = (msg, 0) := by
  induction msg with
  | nil => rfl
  | cons sym msg ih =>
    have ih := ih fun x hx => h x (List.mem_cons_of_mem _ hx)
    rw [List.flatMap_cons]
    rcases h sym List.mem_cons_self with ⟨hne, hpath⟩ | ⟨hone, w, hroot⟩
    · obtain ⟨l, r, w, hroot⟩ := exists_inner_of_descend hpath hne
      rw [decodeFrom_path hroot hroot hpath, ih]
    · rw [decodeFrom_of_leaf_root hroot, Prod.mk.injEq] at ih
      rw [decodeFrom_of_leaf_root hroot, List.length_append, hone, Nat.add_comm, List.replicate_succ, ih.1]

/-- The codes of BuildTree's tree spell their symbols on it. -/
theorem CodesOf.spellsSymbol {freq : List Nat} {table : List (Byte × List Bool)}
    (h : CodesOf freq (nodeOf (buildTree freq)) ((buildTree freq).length - 1) table)
    {c : Byte × List Bool} (hc : c ∈ table) :
    SpellsSymbol (nodeOf (buildTree freq)) ((buildTree freq).length - 1) c.1 c.2 := by
  have hsym := h.mem_leafBytes hc
  have hn := List.length_pos_of_mem hsym
  rw [leafBytes_length] at hn
  rcases Nat.lt_or_ge (leafSymbols freq).length 2 with h1 | h2
  · exact .inr ⟨by rw [h.only (by omega) c hc]; rfl, nodeOf_buildTree_one (by omega) hsym⟩
  · exact .inl ⟨List.length_pos_iff.1 (h.length_pos c hc), h.path h2 c hc⟩

/-- A count of the table is the number of times its symbol occurs (R88). -/
theorem frequencyTable_getD (msg : List Byte) {k : Nat} (hk : k < 256) :
    (frequencyTable msg).getD k 0 = msg.count (BitVec.ofNat 8 k) := by
  simp [frequencyTable, hk]

/-- The symbols of a message's table are the message's. -/
theorem mem_leafBytes_frequencyTable {msg : List Byte} {sym : Byte} :
    sym ∈ leafBytes (frequencyTable msg) ↔ sym ∈ msg := by
  rw [mem_leafBytes, frequencyTable_getD msg sym.isLt, BitVec.ofNat_toNat, BitVec.setWidth_eq,
    List.count_pos_iff]

theorem leafSymbols_frequencyTable_pos {msg : List Byte} (h : msg ≠ []) :
    0 < (leafSymbols (frequencyTable msg)).length := by
  rw [← leafBytes_length]
  obtain ⟨sym, hsym⟩ := List.exists_mem_of_ne_nil msg h
  exact List.length_pos_of_mem (mem_leafBytes_frequencyTable.2 hsym)

/-- Settles O17: every symbol of the message has a code on the tree of the message's own table. -/
theorem treeRoundTrip : Obligations.TreeRoundTrip := by
  intro msg hmsg
  have hn := leafSymbols_frequencyTable_pos hmsg
  have h := codesOf_codeTable hn (node := nodeOf (buildTree (frequencyTable msg))) fun _ _ => rfl
  exact decodeFrom_flatMap fun sym hsym =>
    h.spellsSymbol (mem_codeIn (h.symbols.mem_iff.2 (mem_leafBytes_frequencyTable.2 hsym)))

end Sys2Proof.Machine
end

section
/-! PROOF of O19, `HigherFrequencyShorterCode`, by an exchange argument over the merges (40_huffman.md R89, R100):
the merges take nodes in the order of their keys, so a node with a greater key has a parent with a greater or the
same key, and, level by level up to the root, it lies no deeper. -/

namespace Sys2Proof.Machine

/-! ### The order of keys (R89) -/

theorem keyLe.trans {nodes : List Node} {x y z : Nat} (h1 : keyLe nodes x y) (h2 : keyLe nodes y z) :
    keyLe nodes x z := by
  unfold keyLe at *; omega

theorem keyLe.antisymm {nodes : List Node} {x y : Nat} (h1 : keyLe nodes x y) (h2 : keyLe nodes y x) :
    x = y := by
  unfold keyLe at *; omega

theorem keyLe.weight_le {nodes : List Node} {x y : Nat} (h : keyLe nodes x y) :
    (nodeOf nodes x).weight ≤ (nodeOf nodes y).weight := by
  unfold keyLe at h; omega

theorem keyLe_of_weight_le {nodes : List Node} {x y : Nat}
    (h : (nodeOf nodes x).weight ≤ (nodeOf nodes y).weight) (hxy : x ≤ y) : keyLe nodes x y := by
  unfold keyLe; omega

theorem keyLe_refl (nodes : List Node) (x : Nat) : keyLe nodes x x := keyLe_of_weight_le le_rfl le_rfl

/-! ### A merged node and its children -/

/-- A node that joined two others has them as children, and weighs what they weigh together. -/
theorem MergedAt.exists_children {nodes : List Node} {i : Nat} (h : MergedAt nodes i) :
    ∃ l r, (∀ j, isChildOf nodes j i ↔ j = l ∨ j = r) ∧
      (nodeOf nodes i).weight = (nodeOf nodes l).weight + (nodeOf nodes r).weight ∧
      parentlessBefore nodes i l ∧ parentlessBefore nodes i r ∧
      ∀ j, j < i → parentlessBefore nodes i j → keyLe nodes l j ∧ (j ≠ l → keyLe nodes r j) := by
  obtain ⟨l, r, hnode, -, -, -, hl, hr, hleast⟩ := h
  refine ⟨l, r, fun j => ⟨?_, fun hj => ⟨l, r, _, hnode, hj⟩⟩, ?_, hl, hr, hleast⟩
  · rintro ⟨l', r', w, hnode', hj⟩
    rw [hnode] at hnode'
    cases hnode'
    exact hj
  · rw [nodeOf, List.getD_eq_getElem?_getD, hnode]
    rfl

section
variable {freq : List Nat} {made : List Node} {ws : List (Nat × Nat)}

/-- Only merged nodes have children. -/
theorem Building.leaves_le_of_isChildOf (hb : Building freq made ws) {j i : Nat}
    (h : isChildOf made j i) : (leafSymbols freq).length ≤ i := by
  by_contra hlt
  obtain ⟨new, rfl⟩ := hb.leaves
  exact not_isChildOf_leafNodes freq j i
    ((isChildOf_append_of_lt _ _ (by rw [leafNodes_length]; omega)).1 h)

theorem Building.mergedAt_of_isChildOf (hb : Building freq made ws) {j i : Nat}
    (h : isChildOf made j i) : MergedAt made i :=
  hb.merged i (hb.leaves_le_of_isChildOf h) (isChildOf_lt_length h)

/-- A node has no parent before its parent. -/
theorem Building.parentlessBefore_parent (hb : Building freq made ws) {j i : Nat}
    (h : isChildOf made j i) : parentlessBefore made i j := by
  obtain ⟨l, r, hchild, -, hl, hr, -⟩ := (hb.mergedAt_of_isChildOf h).exists_children
  rcases (hchild j).1 h with rfl | rfl
  · exact hl
  · exact hr

/-- A child's key is below its parent's. -/
theorem Building.keyLe_parent (hb : Building freq made ws) {j i : Nat} (h : isChildOf made j i) :
    keyLe made j i := by
  refine keyLe_of_weight_le ?_ (hb.working.child_lt j i h).le
  obtain ⟨l, r, hchild, hweight, -⟩ := (hb.mergedAt_of_isChildOf h).exists_children
  rcases (hchild j).1 h with rfl | rfl <;> omega

/-- The children that a merge takes come before every node that it leaves. -/
theorem Building.keyLe_of_left (hb : Building freq made ws) {c i j : Nat} (hc : isChildOf made c i)
    (hj : j < i) (hpar : parentlessBefore made i j) (hnot : ¬ isChildOf made j i) : keyLe made c j := by
  obtain ⟨l, r, hchild, -, -, -, hleast⟩ := (hb.mergedAt_of_isChildOf hc).exists_children
  obtain ⟨hl, hr⟩ := hleast j hj hpar
  rcases (hchild c).1 hc with rfl | rfl
  · exact hl
  · exact hr fun he => hnot ((hchild j).2 (.inl he))

/-! ### The merges take the nodes in the order of their keys -/

/-- The children of an earlier merge come before those of a later one. -/
theorem Building.keyLe_of_parents_lt (hb : Building freq made ws) {c i d k : Nat} (hik : i < k)
    (hc : isChildOf made c i) (hd : isChildOf made d k) : keyLe made c d := by
  induction d using Nat.strong_induction_on generalizing k with
  | _ d ih =>
    have hpar := hb.parentlessBefore_parent hd
    rcases Nat.lt_trichotomy d i with hdi | rfl | hid
    · exact hb.keyLe_of_left hc hdi (fun m hm => hpar m (by omega)) (hpar i hik)
    · exact hb.keyLe_parent hc
    · -- a node made after the earlier merge: its own children come later too, and before it
      have hdk := hb.working.child_lt d k hd
      have hlen := isChildOf_lt_length hd
      have hleaves := hb.leaves_le_of_isChildOf hc
      obtain ⟨l, r, hchild, -⟩ := (hb.merged d (by omega) (by omega)).exists_children
      have hl : isChildOf made l d := (hchild l).2 (.inl rfl)
      exact (ih l (hb.working.child_lt l d hl) hid hl).trans (hb.keyLe_parent hl)

/-- Of two nodes, the one with the lesser key is merged no later. -/
theorem Building.parents_le_of_keyLe (hb : Building freq made ws) {u i v k : Nat}
    (hu : isChildOf made u i) (hv : isChildOf made v k) (h : keyLe made u v) : i ≤ k := by
  by_contra hlt
  have hki : k < i := Nat.lt_of_not_le hlt
  obtain rfl := h.antisymm (hb.keyLe_of_parents_lt hki hv hu)
  exact hb.parentlessBefore_parent hu k hki hv

/-- Parents are in the order of their children. -/
theorem Building.keyLe_parents (hb : Building freq made ws) {u i v k : Nat}
    (hu : isChildOf made u i) (hv : isChildOf made v k) (h : keyLe made u v) : keyLe made i k := by
  rcases (hb.parents_le_of_keyLe hu hv h).eq_or_lt with rfl | hik
  · exact keyLe_refl made i
  · obtain ⟨l, r, hchild, hweight, -⟩ := (hb.mergedAt_of_isChildOf hu).exists_children
    obtain ⟨l', r', hchild', hweight', -⟩ := (hb.mergedAt_of_isChildOf hv).exists_children
    have hl := hb.keyLe_of_parents_lt hik ((hchild l).2 (.inl rfl)) ((hchild' l').2 (.inl rfl))
    have hr := hb.keyLe_of_parents_lt hik ((hchild r).2 (.inr rfl)) ((hchild' r').2 (.inr rfl))
    have := hl.weight_le
    have := hr.weight_le
    exact keyLe_of_weight_le (by omega) hik.le

/-! ### Depths -/

/-- Node `j` lies `d` levels below the root. -/
inductive AtDepth (nodes : List Node) (root : Nat) : Nat → Nat → Prop
  | root : AtDepth nodes root root 0
  | child {i j d : Nat} : AtDepth nodes root i d → isChildOf nodes j i → AtDepth nodes root j (d + 1)

theorem Building.keyLe_root (hb : Building freq made ws) {root j d : Nat} (h : AtDepth made root j d) :
    keyLe made j root := by
  induction h with
  | root => exact keyLe_refl made root
  | child _ hchild ih => exact (hb.keyLe_parent hchild).trans ih

theorem Building.lt_root (hb : Building freq made ws) {root j d : Nat} (h : AtDepth made root j (d + 1)) :
    j < root := by
  generalize hd : d + 1 = e at h
  induction h generalizing d with
  | root => cases hd
  | @child i j e hi hchild ih =>
    have hlt := hb.working.child_lt j i hchild
    cases hi with
    | root => exact hlt
    | child hi' hchild' => exact hlt.trans (ih rfl)

/-- A node with a greater key lies no deeper. -/
theorem Building.depth_le_of_keyLe (hb : Building freq made ws) {root u v p q : Nat}
    (hu : AtDepth made root u p) (hv : AtDepth made root v q) (h : keyLe made u v) : q ≤ p := by
  induction hv generalizing u p with
  | root => exact Nat.zero_le p
  | @child k v q hk hchild ih =>
    cases hu with
    | root =>
      have hlt := hb.lt_root (.child hk hchild)
      exact absurd (h.antisymm (hb.keyLe_root (.child hk hchild))) hlt.ne'
    | child hi hchild' => exact Nat.succ_le_succ (ih hi (hb.keyLe_parents hchild' hchild h))

/-! ### Codes and depths -/

/-- A path to a symbol is as long as a leaf of the symbol is deep. -/
theorem Building.exists_leaf_of_descend (hb : Building freq made ws) {root i d : Nat} {path : List Bool}
    {sym : Byte} (hi : AtDepth made root i d) (hlt : i < made.length)
    (h : descend (nodeOf made) i path = some sym) :
    ∃ j w, made[j]? = some (.leaf sym w) ∧ AtDepth made root j (d + path.length) := by
  have hget := getElem?_of_nodeOf hlt
  induction path generalizing i d with
  | nil =>
    cases hnode : nodeOf made i with
    | leaf x w =>
      obtain ⟨-, rfl⟩ := descend_eq_some_of_leaf hnode h
      exact ⟨i, w, by rw [hget, hnode], hi⟩
    | inner l r w => rw [descend_nil_of_inner hnode] at h; cases h
  | cons b path ih =>
    obtain ⟨l, r, w, hnode⟩ := exists_inner_of_descend h (List.cons_ne_nil b path)
    rw [descend_cons_of_inner hnode] at h
    rw [hnode] at hget
    have hchild : isChildOf made (if b then r else l) i :=
      ⟨l, r, w, hget, by cases b <;> simp⟩
    have hlt' : (if b then r else l) < made.length := (hb.working.child_lt _ _ hchild).trans hlt
    obtain ⟨j, v, hj, hdepth⟩ := ih (.child hi hchild) hlt' h (getElem?_of_nodeOf hlt')
    exact ⟨j, v, hj, by rwa [List.length_cons, Nat.add_comm path.length, ← Nat.add_assoc]⟩

/-- A leaf weighs its symbol's frequency. -/
theorem Building.leaf_weight (hb : Building freq made ws) {j : Nat} {sym : Byte} {w : Nat}
    (hj : made[j]? = some (.leaf sym w)) : w = freq.getD sym.toNat 0 := by
  have hlen := (List.getElem?_eq_some_iff.1 hj).1
  by_cases hlt : j < (leafSymbols freq).length
  · obtain ⟨new, rfl⟩ := hb.leaves
    rw [List.getElem?_append_left (by rwa [leafNodes_length]), leafNodes_getElem?] at hj
    obtain ⟨k, hk, heq⟩ := Option.map_eq_some_iff.1 hj
    have hk256 := (mem_leafSymbols.1 (List.mem_of_getElem? hk)).1
    cases heq
    rw [BitVec.toNat_ofNat, Nat.mod_eq_of_lt hk256]
  · obtain ⟨l, r, hnode, -⟩ := hb.merged j (by omega) hlen
    rw [hnode] at hj
    cases hj

end

/-- Settles O19: the two leaves' keys are in the order of their frequencies, and their depths in the other. -/
theorem higherFrequencyShorterCode : Obligations.HigherFrequencyShorterCode := by
  intro freq codes a b hb hab
  have hmem {sym : Byte} (h : 0 < freq.getD sym.toNat 0) : sym ∈ leafBytes freq := mem_leafBytes.2 h
  have hn : 0 < (leafSymbols freq).length := by
    rw [← leafBytes_length]
    exact List.length_pos_of_mem (hmem hb)
  have hcodes := codesOf_codeTable hn (node := nodeOf (buildTree freq)) fun _ _ => rfl
  have hcode {sym : Byte} (h : 0 < freq.getD sym.toNat 0) : (sym, codeIn codes sym) ∈ codes :=
    mem_codeIn (hcodes.symbols.mem_iff.2 (hmem h))
  have ha := hb.trans hab
  rcases Nat.lt_or_ge (leafSymbols freq).length 2 with h1 | h2
  · rw [eq_of_mem_leafBytes_one (by omega) (hmem ha) (hmem hb)]
  · obtain ⟨p, hbuild⟩ := building_buildTree freq hn
    have hlen := buildTree_length freq hn
    have hleaf {sym : Byte} (h : 0 < freq.getD sym.toNat 0) :=
      hbuild.exists_leaf_of_descend .root (by omega) (hcodes.path h2 _ (hcode h))
    obtain ⟨i, wa, hi, hdepthA⟩ := hleaf ha
    obtain ⟨j, wb, hj, hdepthB⟩ := hleaf hb
    have hkey : keyLe (buildTree freq) j i := by
      left
      rw [nodeOf, nodeOf, List.getD_eq_getElem?_getD, List.getD_eq_getElem?_getD, hi, hj]
      show wb < wa
      rw [hbuild.leaf_weight hi, hbuild.leaf_weight hj]
      exact hab
    have hle := hbuild.depth_le_of_keyLe hdepthB hdepthA hkey
    rwa [Nat.zero_add, Nat.zero_add] at hle

end Sys2Proof.Machine
end

section
/-! PROOFS of O9, `FreqCountsSymbols`, O13, `EncodeConcatenatesCodes`, O14, `DecodeDeliversMessage`, and O16,
`HuffmanCommandsFail`: what FREQ, ENCODE and DECODE write, and which check each command fails (40_huffman.md R94 to
R98, 60_exceptions.md R135 to R137). -/

namespace Sys2Proof.Machine

/-! ### FREQ (R94) -/

@[simp] theorem State.message_length (s : State) (n : Nat) : (s.message n).length = n := by
  simp [State.message]

/-- FREQ writes its counts as 256 words. -/
theorem State.freqEffect_store (s : State) :
    s.freqEffect.store =
      s.store.put freqBase
        (((frequencyTable (s.message s.codec.msgLen.toNat)).map (BitVec.ofNat 32)).flatMap Word.bytes) := by
  rw [List.flatMap_map]; rfl

/-- A word of a list of counts is its count. -/
theorem getD_map_ofNat (counts : List Nat) (i : Nat) :
    (counts.map (BitVec.ofNat 32)).getD i 0 = BitVec.ofNat 32 (counts.getD i 0) :=
  List.getD_map counts 0 (BitVec.ofNat 32)

/-- A count of a message that MSG_LEN counts fits a word. -/
theorem State.count_message_lt (s : State) (sym : Byte) :
    (s.message s.codec.msgLen.toNat).count sym < 2 ^ 32 := by
  have hcount := List.count_le_length (a := sym) (l := s.message s.codec.msgLen.toNat)
  rw [State.message_length] at hcount
  exact hcount.trans_lt s.codec.msgLen.isLt

/-- Settles O9: the counts read back as words, and FREQ's 1024 bytes are all that is written. -/
theorem freqCountsSymbols : Obligations.FreqCountsSymbols := by
  intro s hlen
  have hstore : (s.freqEffect.succeed 0x01).store = _ := s.freqEffect_store
  refine ⟨s.freqEffect.succeed 0x01, ?_, completed_succeed 0x01 rfl, rfl, fun pass sym hsym => ?_,
    fun pass a ha => ?_⟩
  · rw [exec_freq, s.msgRange_none.2 hlen, State.run_none]
  · rw [State.readWord_put s _ pass freqBase sym _ hstore (by simp [frequencyTable_length, hsym])
        fun k hk => inTables_of_lt _ (by unfold freqBase codeLenBase; omega),
      getD_map_ofNat, frequencyTable_getD _ hsym, BitVec.toNat_ofNat]
    exact Nat.mod_eq_of_lt (s.count_message_lt _)
  · refine State.readByte_put_outside s _ pass freqBase a _ hstore rfl rfl ?_
    rw [length_flatMap_bytes, List.length_map, frequencyTable_length]
    exact ha

/-! ### ENCODE (R97) -/

theorem State.mem_message {s : State} {n : Nat} {sym : Byte} :
    sym ∈ s.message n ↔ ∃ i, i < n ∧ s.msgAt i = sym := by
  simp [State.message]

theorem State.absent_eq_false {s : State} {sym : Byte} :
    s.absent sym = false ↔ s.tree.cv = true ∧ s.codeLenAt sym ≠ 0 := by
  simp [State.absent]

/-- ENCODE's STALE check passes when every symbol of the message has a code. -/
theorem State.message_present {s : State} {n : Nat}
    (h : ∀ i, i < n → s.tree.cv = true ∧ s.codeLenAt (s.msgAt i) ≠ 0) :
    ∀ sym ∈ s.message n, s.absent sym = false := by
  intro sym hsym
  obtain ⟨i, hi, rfl⟩ := State.mem_message.1 hsym
  exact State.absent_eq_false.2 (h i hi)

/-- Settles O13: FBUF holds the bits written, and the bytes that hold them are all that change. -/
theorem encodeConcatenatesCodes : Obligations.EncodeConcatenatesCodes := by
  intro s hidle hlen hpresent hfits
  have hcodes := s.codes_length (s.message s.codec.msgLen.toNat)
  refine ⟨s.encodeEffect.succeed 0x04, ?_, completed_succeed 0x04 rfl, rfl, rfl, fun pass k => ?_,
    fun pass a ha => ?_⟩
  · rw [exec_encode, s.encodeCheck_none.2 ⟨hidle, hlen, State.message_present hpresent, hfits⟩,
      State.run_none]
  · have hread := State.readBit_putBits s (s.encodeEffect.succeed 0x04) pass fbufBase 0 k
      ((s.message s.codec.msgLen.toNat).flatMap s.codeOf) rfl rfl (by decide)
    simpa [State.fbufBit, hcodes] using hread
  · refine State.readByte_putBits_outside s _ pass fbufBase 0 a _ rfl rfl rfl fun i hi he => ha ?_
    rw [hcodes] at hi
    exact ⟨i, Nat.zero_le i, hi, by rw [he, Nat.zero_add]⟩

/-! ### DECODE (R98) -/

/-- Settles O14: DMSG holds the bytes written, and they are all that change. -/
theorem decodeDeliversMessage : Obligations.DecodeDeliversMessage := by
  intro s hlen htv hfits
  refine ⟨s.decodeEffect.succeed 0x05, ?_, completed_succeed 0x05 rfl, rfl, rfl, fun pass i hi => ?_,
    fun pass a ha => State.readByte_put_outside s _ pass dmsgBase a _ rfl rfl rfl ha⟩
  · rw [exec_decode, s.decodeCheck_none.2 ⟨hlen, htv, hfits⟩, State.run_none]
  · rw [State.readByte_put_inside s _ pass dmsgBase (dmsgBase + i) s.decodeFbuf.1 rfl
        (inTables_of_ge _ (by unfold treeEnd dmsgBase; omega)) (by omega) (by omega),
      Nat.add_sub_cancel_left, List.getD_eq_getElem _ _ hi, List.getElem?_eq_getElem hi]

/-! ### The checks (60_exceptions.md R135, R136) -/

/-- A command whose checks report an error records it and changes nothing else. -/
theorem exec_failed {s : State} {i : Instr} {op : BitVec 8} {check : Option (CmdError × Word)}
    {effect : State → State} {code : CmdError} {info : Word}
    (hexec : exec i s = .next (s.run op check effect)) (hcheck : check = some (code, info)) :
    ∃ t, exec i s = .next t ∧ Failed s t op code info := by
  subst hcheck
  exact ⟨_, hexec, s.failed_fail op code info⟩

theorem orElse_of_none {α : Type} {x : Option α} (h : x = none) (f : Unit → Option α) :
    x.orElse f = f () := by
  rw [h]; rfl

theorem orElse_of_some {α : Type} {x : Option α} {a : α} (h : x = some a) (f : Unit → Option α) :
    x.orElse f = some a := by
  rw [h]; rfl

section
variable {s : State}

theorem State.txBusy_some (h : s.tx.phase ≠ .idle) : s.txBusy = some (.busy, 0x080) := if_pos h

theorem State.rxBusy_some (h : s.rx.phase ≠ .idle) : s.rxBusy = some (.busy, 0x0C0) := if_pos h

theorem State.msgRange_some (h : s.params.msgMax < s.codec.msgLen.toNat) :
    s.msgRange = some (.range, 0x010) := if_pos h

theorem State.fbufRange_some (h : s.params.bitsMax < s.codec.fbufLen.toNat) :
    s.fbufRange = some (.range, 0x014) := if_pos h

/-- BUILD with an idle RX engine and a total that does not fit a word. -/
theorem State.buildCheck_range (hidle : s.rx.phase = .idle) (h : 2 ^ 32 ≤ s.freqTable.sum) :
    s.buildCheck = some (.range, 0x1000) := by
  unfold State.buildCheck
  rw [orElse_of_none (s.rxBusy_none.2 hidle), if_pos (by omega)]

/-- BUILD with an idle RX engine and an empty table. -/
theorem State.buildCheck_empty (hidle : s.rx.phase = .idle) (h : ∀ sym, sym < 256 → s.freqAt sym = 0) :
    s.buildCheck = some (.empty, 0) := by
  have hzero : ∀ c ∈ s.freqTable, c = 0 := by
    intro c hc
    obtain ⟨sym, hsym, rfl⟩ := List.mem_map.1 hc
    rw [h sym (List.mem_range.1 hsym)]
    rfl
  have hsum : s.freqTable.sum = 0 := List.sum_eq_zero hzero
  unfold State.buildCheck
  rw [orElse_of_none (s.rxBusy_none.2 hidle), if_neg (by omega), if_pos]
  simpa using hzero

theorem State.codesCheck_empty (h : s.tree.tv = false) : s.codesCheck = some (.empty, 0) := by
  unfold State.codesCheck
  rw [h]
  rfl

/-- ENCODE's checks after BUSY and RANGE have passed: STALE and OVERFLOW. -/
theorem State.encodeCheck_eq (hidle : s.tx.phase = .idle)
    (hlen : s.codec.msgLen.toNat ≤ s.params.msgMax) {found : Option Nat}
    (hfound : (s.message s.codec.msgLen.toNat).findIdx? s.absent = found) :
    s.encodeCheck =
      found.elim
        (if s.params.bitsMax < s.encodedLen (s.message s.codec.msgLen.toNat) then
          some (.overflow, BitVec.ofNat 32 (s.encodedLen (s.message s.codec.msgLen.toNat)))
        else none)
        fun i => some (.stale, BitVec.ofNat 32 i) := by
  unfold State.encodeCheck
  rw [orElse_of_none (s.txBusy_none.2 hidle), orElse_of_none (s.msgRange_none.2 hlen)]
  dsimp only
  rw [hfound]
  cases found <;> rfl

/-- The STALE check reports the least index of a symbol without a code. -/
theorem State.findIdx?_absent {n i : Nat} (hi : i < n)
    (habsent : s.tree.cv = false ∨ s.codeLenAt (s.msgAt i) = 0)
    (hbefore : ∀ j, j < i → s.tree.cv = true ∧ s.codeLenAt (s.msgAt j) ≠ 0) :
    (s.message n).findIdx? s.absent = some i := by
  rw [List.findIdx?_eq_some_iff_getElem]
  refine ⟨by rwa [State.message_length], ?_, fun j hj => ?_⟩
  · simpa [State.message, State.absent] using habsent
  · simpa [State.message, State.absent] using hbefore j hj

theorem State.encodeCheck_stale (hidle : s.tx.phase = .idle)
    (hlen : s.codec.msgLen.toNat ≤ s.params.msgMax) {i : Nat} (hi : i < s.codec.msgLen.toNat)
    (habsent : s.tree.cv = false ∨ s.codeLenAt (s.msgAt i) = 0)
    (hbefore : ∀ j, j < i → s.tree.cv = true ∧ s.codeLenAt (s.msgAt j) ≠ 0) :
    s.encodeCheck = some (.stale, BitVec.ofNat 32 i) :=
  State.encodeCheck_eq hidle hlen (State.findIdx?_absent hi habsent hbefore)

theorem State.encodeCheck_overflow (hidle : s.tx.phase = .idle)
    (hlen : s.codec.msgLen.toNat ≤ s.params.msgMax)
    (hpresent : ∀ i, i < s.codec.msgLen.toNat → s.tree.cv = true ∧ s.codeLenAt (s.msgAt i) ≠ 0)
    (h : s.params.bitsMax < s.encodedLen (s.message s.codec.msgLen.toNat)) :
    s.encodeCheck =
      some (.overflow, BitVec.ofNat 32 (s.encodedLen (s.message s.codec.msgLen.toNat))) :=
  (State.encodeCheck_eq hidle hlen
    (List.findIdx?_eq_none_iff.2 (State.message_present hpresent))).trans (if_pos h)

theorem State.decodeCheck_notree (hlen : s.codec.fbufLen.toNat ≤ s.params.bitsMax)
    (h : s.tree.tv = false) : s.decodeCheck = some (.notree, 0) := by
  unfold State.decodeCheck
  rw [orElse_of_none (s.fbufRange_none.2 hlen), h]
  rfl

theorem State.decodeCheck_overflow (hlen : s.codec.fbufLen.toNat ≤ s.params.bitsMax)
    (htv : s.tree.tv = true) (h : s.params.msgMax < s.decodeFbuf.1.length) :
    s.decodeCheck = some (.overflow, BitVec.ofNat 32 s.decodeFbuf.1.length) := by
  unfold State.decodeCheck
  rw [orElse_of_none (s.fbufRange_none.2 hlen), htv, if_neg (by decide), if_pos h]

end

/-- Settles O16: each clause's check is the first that reports an error. -/
theorem huffmanCommandsFail : Obligations.HuffmanCommandsFail := by
  intro s
  refine ⟨fun h => ?_, fun h => ?_, fun hidle h => ?_, fun hidle h => ?_, fun h => ?_, fun h => ?_,
    fun hidle h => ?_, fun hidle hlen i hi habsent hbefore => ?_, fun hidle hlen hpresent h => ?_,
    fun h => ?_, fun hlen h => ?_, fun hlen htv h => ?_⟩
  · exact exec_failed (exec_freq s) (State.msgRange_some h)
  · exact exec_failed (exec_build s) (orElse_of_some (State.rxBusy_some h) _)
  · exact exec_failed (exec_build s) (State.buildCheck_range hidle h)
  · exact exec_failed (exec_build s) (State.buildCheck_empty hidle h)
  · exact exec_failed (exec_codes s) (State.codesCheck_empty h)
  · exact exec_failed (exec_encode s) (orElse_of_some (State.txBusy_some h) _)
  · exact exec_failed (exec_encode s)
      ((orElse_of_none (s.txBusy_none.2 hidle) _).trans (orElse_of_some (State.msgRange_some h) _))
  · exact exec_failed (exec_encode s) (State.encodeCheck_stale hidle hlen hi habsent hbefore)
  · exact exec_failed (exec_encode s) (State.encodeCheck_overflow hidle hlen hpresent h)
  · exact exec_failed (exec_decode s) (orElse_of_some (State.fbufRange_some h) _)
  · exact exec_failed (exec_decode s) (State.decodeCheck_notree hlen h)
  · exact exec_failed (exec_decode s) (State.decodeCheck_overflow hlen htv h)

end Sys2Proof.Machine
end

section
/-! PROOF of O20, `CommandRoundTrip`, stage by stage: FREQ, BUILD and CODES leave MSG as it is and put the
message's table, its tree and its codes into the tables, ENCODE's frame decodes to the message by O17's law of
decoding, and DECODE delivers it (40_huffman.md R99). Nothing of this is unwritten, so the draws do not matter. -/

namespace Sys2Proof.Machine

/-! ### A command that completes with OK (60_exceptions.md R136) -/

/-- What a check reports is an error. -/
def ReportsError (check : Option (CmdError × Word)) : Prop := ∀ e, check = some e → e.1 ≠ .ok

theorem reportsError_none : ReportsError none := fun _ h => by cases h

theorem reportsError_some {code : CmdError} (h : code ≠ .ok) (info : Word) :
    ReportsError (some (code, info)) := by
  rintro e he
  cases he
  exact h

theorem reportsError_ite {p : Prop} [Decidable p] {x y : Option (CmdError × Word)} (hx : ReportsError x)
    (hy : ReportsError y) : ReportsError (if p then x else y) := by
  split
  · exact hx
  · exact hy

theorem reportsError_orElse {x : Option (CmdError × Word)} {f : Unit → Option (CmdError × Word)}
    (hx : ReportsError x) (hf : ReportsError (f ())) : ReportsError (x.orElse f) := by
  cases x with
  | none => exact hf
  | some e => exact hx

/-- A command that completes with OK has passed its checks and had its effect. -/
theorem State.run_ok {s t : State} {op : BitVec 8} {check : Option (CmdError × Word)} {f : State → State}
    (hcheck : ReportsError check)
    (h : (.next (s.run op check f) : Host.Outcome State Fault Refusal) = .next t)
    (hok : t.cmd.err = .ok) : check = none ∧ t = (f s).succeed op := by
  obtain rfl := Host.Outcome.next.inj h
  rcases s.run_cases op check f with ⟨hnone, hrun⟩ | ⟨e, he, hrun⟩
  · exact ⟨hnone, hrun⟩
  · rw [hrun, State.fail_cmd] at hok
    exact absurd hok (hcheck e he)

theorem State.buildCheck_reportsError (s : State) : ReportsError s.buildCheck :=
  reportsError_orElse (reportsError_ite (reportsError_some (by decide) _) reportsError_none)
    (reportsError_ite (reportsError_some (by decide) _)
      (reportsError_ite (reportsError_some (by decide) _) reportsError_none))

theorem State.encodeCheck_reportsError (s : State) : ReportsError s.encodeCheck := by
  refine reportsError_orElse (reportsError_ite (reportsError_some (by decide) _) reportsError_none)
    (reportsError_orElse (reportsError_ite (reportsError_some (by decide) _) reportsError_none) ?_)
  dsimp only
  split
  · exact reportsError_some (by decide) _
  · exact reportsError_ite (reportsError_some (by decide) _) reportsError_none

/-! ### The message in MSG (10_state.md R27, R50) -/

/-- MSG holds a written message that fits, and MSG_LEN is its length. -/
structure State.HoldsMsg (s : State) (msg : List Byte) : Prop where
  legal : s.params.legal = true
  fits : msg.length ≤ s.params.msgMax
  len : s.codec.msgLen.toNat = msg.length
  byte : ∀ i (hi : i < msg.length), s.store.bits.get (msgBase + i) = msg[i]
  written : ∀ i, i < msg.length → s.store.written.get (msgBase + i) = 0xFF

/-- MSG lies outside the tables. -/
theorem inTables_msg (i : Nat) : inTables (msgBase + i) = false :=
  inTables_of_ge _ (by unfold treeEnd msgBase; omega)

theorem State.holdsMsg_of_written {s : State} (hp : s.params.legal = true)
    (hlen : s.codec.msgLen.toNat ≤ s.params.msgMax) (hw : MsgWritten s s.codec.msgLen.toNat) :
    s.HoldsMsg (s.message s.codec.msgLen.toNat) := by
  refine ⟨hp, by rwa [State.message_length], (s.message_length _).symm, fun i hi => ?_, fun i hi => ?_⟩
  · rw [State.message_length] at hi
    simp only [State.message, List.getElem_map, List.getElem_range, State.msgAt]
    exact (s.readByte_written 0 _ (inTables_msg i) (hw i hi)).symm
  · rw [State.message_length] at hi
    exact hw i hi

section
variable {s t : State} {msg : List Byte}

/-- A symbol of the message, on every pass. -/
theorem State.HoldsMsg.readByte (h : s.HoldsMsg msg) (pass : Nat) {i : Nat} (hi : i < msg.length) :
    s.readByte pass (msgBase + i) = msg[i] := by
  rw [s.readByte_written pass _ (inTables_msg i) (h.written i hi), h.byte i hi]

theorem State.HoldsMsg.message (h : s.HoldsMsg msg) : s.message s.codec.msgLen.toNat = msg := by
  rw [h.len]
  refine List.ext_getElem (s.message_length _) fun i _ hi => ?_
  simp only [State.message, List.getElem_map, List.getElem_range, State.msgAt]
  exact h.readByte 0 hi

theorem State.HoldsMsg.withDraws (h : s.HoldsMsg msg) (d : Nat) :
    State.HoldsMsg { s with draws := d } msg :=
  ⟨h.legal, h.fits, h.len, h.byte, h.written⟩

/-- A command that writes no byte of MSG, and not MSG_LEN, leaves the message. -/
theorem State.HoldsMsg.of_exec (h : s.HoldsMsg msg) {i : Instr} (hexec : exec i s = .next t)
    (hi : i ≠ .sreset) (hmsg : .msg ∉ commandRegions i) (hlen : t.codec.msgLen = s.codec.msgLen) :
    t.HoldsMsg msg := by
  obtain ⟨hp, hw⟩ := exec_writes hexec hi h.legal
  have hout {k : Nat} (hk : k < msg.length) :
      ¬ regionOffsets s.params (commandRegions i) (msgBase + k) := by
    have hmax := h.fits
    rintro ⟨r, hr, hwin⟩
    have hin : Region.msg.window s.params (msgBase + k) := by
      unfold msgBase
      dsimp only [Region.window]
      omega
    have heq := (locate_of_window h.legal hin).symm.trans (locate_of_window h.legal hwin)
    exact hmsg (Option.some.inj heq ▸ hr)
  refine ⟨by rw [hp]; exact h.legal, by rw [hp]; exact h.fits, by rw [hlen]; exact h.len,
    fun k hk => ?_, fun k hk => ?_⟩
  · rw [hw.bits.get _ (hout hk), h.byte k hk]
  · rw [hw.written.get _ (hout hk), h.written k hk]

/-! ### FREQ and BUILD -/

/-- FREQ puts the message's table where BUILD reads it, whatever it draws. -/
theorem State.HoldsMsg.freq (h : s.HoldsMsg msg) (hexec : exec .freq s = .next t) (d : Nat) :
    State.HoldsMsg { t with draws := d } msg ∧
      State.freqTable { t with draws := d } = frequencyTable msg := by
  have hcheck := s.msgRange_none.2 (h.len.trans_le h.fits)
  have ht : t = s.freqEffect.succeed 0x01 := by
    rw [exec_freq, hcheck] at hexec
    exact (Host.Outcome.next.inj hexec).symm
  refine ⟨(h.of_exec hexec (by decide) (by decide) (by rw [ht]; rfl)).withDraws d, ?_⟩
  refine State.freqTable_put s _ _ (frequencyTable_length msg) (fun c hc => ?_)
    (by rw [← h.message, ht]; rfl)
  obtain ⟨sym, -, rfl⟩ := List.mem_map.1 hc
  rw [← h.message]
  exact s.count_message_lt _

/-- A BUILD that completes with OK leaves BuildTree's tree of FREQ. -/
theorem State.holdsTree_of_build (hexec : exec .build s = .next t) (hok : t.cmd.err = .ok) :
    t.tree.tv = true ∧ t.holdsTree s.freqTable := by
  obtain ⟨hcheck, -⟩ := State.run_ok s.buildCheck_reportsError hexec hok
  have hn := State.leafSymbols_pos_of_buildCheck hcheck
  have hlen := buildTree_length s.freqTable hn
  have hmax := leafSymbols_length_le s.freqTable
  obtain ⟨hidle, hsum, w, hw, hne⟩ := s.buildCheck_none.1 hcheck
  obtain ⟨sym, hsym, rfl⟩ := List.mem_map.1 hw
  obtain ⟨u, hu, -, -, ⟨htree, hnodes, -⟩, -⟩ := buildWritesTree s hidle hsum
    ⟨sym, List.mem_range.1 hsym, fun h0 => hne (by rw [h0]; rfl)⟩
  obtain rfl := Host.Outcome.next.inj (hexec.symm.trans hu)
  refine ⟨by rw [htree], hn, hsum, ?_, ?_, fun pass i hi => ?_⟩
  · rw [htree, hlen]
    exact (BitVec.toNat_ofNat _ _).trans (Nat.mod_eq_of_lt (by omega))
  · rw [htree]
    exact (BitVec.toNat_ofNat _ _).trans (Nat.mod_eq_of_lt (by omega))
  · have hnode := (hnodes pass i (by omega)).1
    rw [getElem?_of_nodeOf hi] at hnode
    exact (Option.some.inj hnode).symm

/-- BUILD leaves the message. -/
theorem State.HoldsMsg.build (h : s.HoldsMsg msg) (hexec : exec .build s = .next t)
    (hok : t.cmd.err = .ok) : t.HoldsMsg msg := by
  obtain ⟨-, rfl⟩ := State.run_ok s.buildCheck_reportsError hexec hok
  exact h.of_exec hexec (by decide) (by decide) rfl

end

/-! ### CODES -/

/-- A walk from a node of BuildTree's tree stays on its nodes. -/
theorem descend_buildTree {freq : List Nat} (hn : 0 < (leafSymbols freq).length) {node : Nat → Node}
    (hnode : ∀ i, i < (buildTree freq).length → node i = nodeOf (buildTree freq) i) {i : Nat}
    (hi : i < (buildTree freq).length) (path : List Bool) :
    descend node i path = descend (nodeOf (buildTree freq)) i path := by
  obtain ⟨p, hb⟩ := building_buildTree freq hn
  induction path generalizing i with
  | nil => rw [descend, descend, hnode i hi]
  | cons b path ih =>
    have hget := getElem?_of_nodeOf hi
    cases hcase : nodeOf (buildTree freq) i with
    | leaf sym w => rw [descend_cons_of_leaf hcase, descend_cons_of_leaf ((hnode i hi).trans hcase)]
    | inner l r w =>
      rw [descend_cons_of_inner hcase, descend_cons_of_inner ((hnode i hi).trans hcase)]
      rw [hcase] at hget
      have hchild : isChildOf (buildTree freq) (if b then r else l) i :=
        ⟨l, r, w, hget, by cases b <;> simp⟩
      exact ih ((hb.working.child_lt _ _ hchild).trans hi)

/-- A code spells its symbol on the machine's tree as it does on BuildTree's. -/
theorem State.holdsTree.spellsSymbol_iff {s : State} {freq : List Nat} (h : s.holdsTree freq) (pass : Nat)
    {sym : Byte} {code : List Bool} :
    SpellsSymbol (s.nodeAt pass) s.tree.root.toNat sym code ↔
      SpellsSymbol (nodeOf (buildTree freq)) ((buildTree freq).length - 1) sym code := by
  obtain ⟨hn, -, hroot, -, hnodes⟩ := h
  have hlt : (buildTree freq).length - 1 < (buildTree freq).length := by
    rw [buildTree_length freq hn]
    omega
  unfold SpellsSymbol
  rw [hroot, descend_buildTree hn (hnodes pass) hlt, hnodes pass _ hlt]

/-- The machine holds BuildTree's tree of a table, and a code for each symbol of it. -/
structure State.HoldsCodes (s : State) (freq : List Nat) : Prop where
  tv : s.tree.tv = true
  tree : s.holdsTree freq
  code : ∀ sym ∈ leafBytes freq,
    SpellsSymbol (nodeOf (buildTree freq)) ((buildTree freq).length - 1) sym (s.codeOf sym)

/-- What the tables hold, and so a tree, does not depend on the draws. -/
theorem State.holdsTree.withDraws {s : State} {freq : List Nat} (h : s.holdsTree freq)
    (hv : s.tree.tv = true) (d : Nat) : State.holdsTree { s with draws := d } freq :=
  h.congr hv hv rfl rfl fun _ _ => rfl

theorem State.codeOf_withDraws {s : State} (hv : s.tree.tv = true) (d : Nat) (sym : Byte) :
    State.codeOf { s with draws := d } sym = s.codeOf sym := by
  have hlen : State.codeLenAt { s with draws := d } sym = s.codeLenAt sym := by
    rw [s.codeLenAt_table sym hv, State.codeLenAt_table { s with draws := d } sym hv]
  unfold State.codeOf
  rw [hlen]
  refine List.map_congr_left fun j hj => ?_
  have hj : j < 256 := (List.mem_range.1 hj).trans (BitVec.isLt _)
  rw [s.codeBitAt_table sym hj hv, State.codeBitAt_table { s with draws := d } sym hj hv]

/-- CODES on a machine with a tree has its effect. -/
theorem State.eq_of_exec_codes {s t : State} (hv : s.tree.tv = true) (hexec : exec .codes s = .next t) :
    t = s.codesEffect.succeed 0x03 := by
  rw [exec_codes, s.codesCheck_none.2 hv, State.run_none] at hexec
  exact (Host.Outcome.next.inj hexec).symm

/-- CODES leaves the tree. -/
theorem State.holdsTree.codesEffect {s : State} {freq : List Nat} (h : s.holdsTree freq)
    (hv : s.tree.tv = true) : s.codesEffect.holdsTree freq := by
  obtain ⟨-, -, hsame, -⟩ := State.codesEffect_store h
  refine h.congr hv hv rfl rfl fun a ha => hsame a ?_
  unfold codeOffsets codeLenBase codeBitsBase
  unfold treeBase at ha
  omega

/-- CODES on a machine with a tree leaves a code for each of its symbols. -/
theorem State.holdsTree.codes {s t : State} {freq : List Nat} (h : s.holdsTree freq)
    (hv : s.tree.tv = true) (hexec : exec .codes s = .next t) : t.HoldsCodes freq := by
  obtain ⟨u, hu, -, -, htree, -, hsym, -⟩ := codesWritesPaths s freq hv h
  obtain rfl := Host.Outcome.next.inj (hexec.symm.trans hu)
  refine ⟨by rw [htree]; exact hv, ?_, fun sym hmem => ?_⟩
  · rw [State.eq_of_exec_codes hv hexec]
    exact h.codesEffect hv
  · obtain ⟨hpos, hpath, hone⟩ := hsym sym (mem_leafBytes.1 hmem)
    rw [← State.codeOf_length] at hpos
    have hn := List.length_pos_of_mem hmem
    rw [leafBytes_length] at hn
    rcases Nat.lt_or_ge (leafSymbols freq).length 2 with h1 | h2
    · have h1 : (leafSymbols freq).length = 1 := by omega
      exact .inr ⟨by rw [hone h1]; rfl, nodeOf_buildTree_one h1 hmem⟩
    · exact (h.spellsSymbol_iff 0).1 (.inl ⟨List.length_pos_iff.1 hpos, hpath h2⟩)

theorem State.HoldsCodes.withDraws {s : State} {freq : List Nat} (h : s.HoldsCodes freq) (d : Nat) :
    State.HoldsCodes { s with draws := d } freq :=
  ⟨h.tv, h.tree.withDraws h.tv d, fun sym hsym => by rw [State.codeOf_withDraws h.tv]; exact h.code sym hsym⟩

/-- CODES leaves the message. -/
theorem State.HoldsMsg.codes {s t : State} {msg : List Byte} (h : s.HoldsMsg msg)
    (hv : s.tree.tv = true) (hexec : exec .codes s = .next t) : t.HoldsMsg msg :=
  h.of_exec hexec (by decide) (by decide) (by rw [State.eq_of_exec_codes hv hexec]; rfl)

/-! ### ENCODE and DECODE -/

/-- An ENCODE that completes with OK leaves a frame that decodes to the message, whatever is drawn. -/
theorem State.HoldsCodes.encode {s t : State} {msg : List Byte} (hc : s.HoldsCodes (frequencyTable msg))
    (h : s.HoldsMsg msg) (hexec : exec .encode s = .next t) (hok : t.cmd.err = .ok) (d : Nat) :
    t.tree = s.tree ∧ t.params = s.params ∧ t.codec.fbufLen.toNat ≤ s.params.bitsMax ∧
      State.decodeFbuf { t with draws := d } = (msg, 0) := by
  obtain ⟨hcheck, ht⟩ := State.run_ok s.encodeCheck_reportsError hexec hok
  obtain ⟨-, -, -, hfits⟩ := s.encodeCheck_none.1 hcheck
  obtain ⟨-, -, -, -, -, hmax⟩ := Params.legal_bounds h.legal
  rw [h.message] at hfits
  have hcodes := s.codes_length msg
  have hlen : t.codec.fbufLen.toNat = (msg.flatMap s.codeOf).length := by
    rw [ht, hcodes]
    show (BitVec.ofNat 32 (s.encodedLen (s.message s.codec.msgLen.toNat))).toNat = _
    rw [h.message, BitVec.toNat_ofNat, Nat.mod_eq_of_lt (by omega)]
  have hstore : t.store = s.store.putBits fbufBase 0 (msg.flatMap s.codeOf) := by
    rw [ht, ← h.message]
    rfl
  have htree : t.tree = s.tree := by rw [ht]; rfl
  have hframe : takeBits (State.fbufBit { t with draws := d } 0) t.codec.fbufLen.toNat =
      msg.flatMap s.codeOf := by
    refine List.ext_getElem (by rw [takeBits_length, hlen]) fun k _ hk => ?_
    simp only [takeBits, List.getElem_map, List.getElem_range, State.fbufBit]
    rw [State.readBit_putBits { s with draws := d } { t with draws := d } 0 fbufBase 0 k
      (msg.flatMap s.codeOf) hstore rfl (by decide), if_pos (by omega), Nat.sub_zero,
      List.getD_eq_getElem _ _ hk]
  have hholds : State.holdsTree { t with draws := d } (frequencyTable msg) := by
    refine hc.tree.congr hc.tv (by rw [htree]; exact hc.tv) (by rw [htree]) (by rw [htree]) ?_
    exact sameTree_putBits fbufBase 0 _ hstore (by decide)
  refine ⟨htree, by rw [ht]; rfl, by omega, ?_⟩
  unfold State.decodeFbuf State.decodeBits
  rw [hframe]
  exact decodeFrom_flatMap fun sym hsym =>
    (hholds.spellsSymbol_iff 0).2 (hc.code sym (mem_leafBytes_frequencyTable.2 hsym))

/-- DECODE of a frame that decodes to a message that fits delivers it. -/
theorem State.decode_delivers {s t : State} {msg : List Byte} (hlen : s.codec.fbufLen.toNat ≤ s.params.bitsMax)
    (hv : s.tree.tv = true) (hmsg : s.decodeFbuf = (msg, 0)) (hfits : msg.length ≤ s.params.msgMax)
    (hexec : exec .decode s = .next t) :
    t.codec.dmsgLen = BitVec.ofNat 32 msg.length ∧ t.codec.decTrail = 0 ∧
      ∀ pass i (hi : i < msg.length), t.readByte pass (dmsgBase + i) = msg[i] := by
  obtain ⟨u, hu, -, -, hcodec, hbyte, -⟩ := decodeDeliversMessage s hlen hv (by rw [hmsg]; exact hfits)
  obtain rfl := Host.Outcome.next.inj (hexec.symm.trans hu)
  rw [hmsg] at hcodec hbyte
  refine ⟨by rw [hcodec], by rw [hcodec]; rfl, fun pass i hi => ?_⟩
  have := hbyte pass i hi
  rw [List.getElem?_eq_getElem hi] at this
  exact Option.some.inj this

/-- Settles O20: the five commands' stages, one after the other. -/
theorem commandRoundTrip : Obligations.CommandRoundTrip := by
  intro s t1 t2 t3 t4 t5 d1 d2 d3 d4 hlegal _ hlen hwritten h1 _ h2 hok2 h3 _ h4 hok4 h5 _
  have hmsg := State.holdsMsg_of_written hlegal hlen hwritten
  have hlenMsg := s.message_length s.codec.msgLen.toNat
  generalize s.message s.codec.msgLen.toNat = msg at hmsg hlenMsg
  obtain ⟨hmsg1, htable⟩ := hmsg.freq h1 d1
  obtain ⟨hv2, htree2⟩ := State.holdsTree_of_build h2 hok2
  rw [htable] at htree2
  have htree2' := htree2.withDraws hv2 d2
  have hmsg2 := (hmsg1.build h2 hok2).withDraws d2
  have hcodes := (htree2'.codes hv2 h3).withDraws d3
  have hmsg3 := (hmsg2.codes hv2 h3).withDraws d3
  obtain ⟨htree4, hparams4, hframe, hdecode⟩ := hcodes.encode hmsg3 h4 hok4 d4
  obtain ⟨hdmsg, htrail, hbyte⟩ := State.decode_delivers (s := { t4 with draws := d4 })
    (by rw [hparams4]; exact hframe) (by rw [htree4]; exact hcodes.tv) hdecode
    (by rw [hparams4]; exact hmsg3.fits) h5
  refine ⟨by rw [hdmsg, hlenMsg, BitVec.ofNat_toNat, BitVec.setWidth_eq], htrail, fun pass i hi => ?_⟩
  have hi : i < msg.length := hi.trans_eq hlenMsg.symm
  rw [hbyte pass i hi, hmsg.readByte pass hi]

end Sys2Proof.Machine
end

section
/-! PROOFS of O24, `ChecksumIsLastWord`, O26, `FidelityIsRoundedRatio`, and O28, `FlippedBitLowersFidelity`: the
checksum bit by bit, the fidelity and the validity decision as arithmetic, and what one flipped bit does to a sum of
bits, each with its power of two (41_frame.md R102 to R106, R113). -/

namespace Sys2Proof.Machine

/-! ### The checksum (R104) -/

/-- The checksum's bits are the last 32 of the frame. -/
theorem checksum32_getLsbD (bit : Nat → Bool) (L : Nat) {k : Nat} (hk : k < 32) :
    (checksum32 bit L).getLsbD k = bit (L - 32 + k) := by
  have hbit := (testBit_sum_two_pow (fun k => bit (L - 32 + k) = true) 32 k).2
  rw [checksum32, BitVec.getLsbD_ofNat, Bool.eq_iff_iff, Bool.and_eq_true, decide_eq_true_eq, hbit]
  tauto

/-- Settles O24: each power of two stands for its bit. -/
theorem checksumIsLastWord : Obligations.ChecksumIsLastWord :=
  fun bit L _ _ hk => checksum32_getLsbD bit L hk

/-! ### The fidelity and the decision (R105, R106) -/

theorem max_toNat_eq_zero (x y : Word) : max x.toNat y.toNat = 0 ↔ x = 0 ∧ y = 0 := by
  simp [BitVec.toNat_eq]

/-- The fidelity as a number: it is at most 1.0, so no bit of the quotient is lost. -/
theorem fidQ16_toNat (sum ck : Nat) :
    (fidQ16 sum ck).toNat = if max sum ck = 0 then 65536 else min sum ck * 65536 / max sum ck := by
  have hle : min sum ck * 65536 / max sum ck ≤ 65536 := by
    rw [Nat.mul_comm]
    exact Nat.div_le_of_le_mul (by rw [Nat.mul_comm]; exact Nat.mul_le_mul_right _ min_le_max)
  unfold fidQ16
  split
  · rfl
  · rw [BitVec.toNat_ofNat, Nat.mod_eq_of_lt (by omega)]

/-- The fidelity is 1.0 exactly when the sums agree: a lesser one divides to less. -/
theorem fidQ16_eq_one_iff (sum ck : Nat) : (fidQ16 sum ck).toNat = 65536 ↔ sum = ck := by
  rw [fidQ16_toNat]
  split
  · next h => exact iff_of_true rfl (by omega)
  · next h =>
    refine ⟨fun hone => ?_, ?_⟩
    · by_contra hne
      have hlt : min sum ck * 65536 / max sum ck < 65536 :=
        Nat.div_lt_of_lt_mul (Nat.mul_lt_mul_of_pos_right (by omega) (by decide))
      omega
    · rintro rfl
      rw [min_self, max_self] at *
      exact Nat.mul_div_cancel_left _ (Nat.pos_of_ne_zero h)

/-- Settles O26, from the fidelity as a number. -/
theorem fidelityIsRoundedRatio : Obligations.FidelityIsRoundedRatio := by
  intro sum ck
  refine ⟨?_, fidQ16_le _ _, (fidQ16_eq_one_iff _ _).trans BitVec.toNat_eq.symm⟩
  simp only [fidQ16_toNat, max_toNat_eq_zero]

/-- The decision compares the exact ratio, which is 1 / 1 when both sums are 0, with the threshold. -/
theorem accepted_iff (acc : AccRegs) (sum ck : Word) :
    accepted acc sum.toNat ck.toNat = true ↔
      if sum = 0 ∧ ck = 0 then acc.num.toNat < acc.den.toNat
      else acc.num.toNat * max sum.toNat ck.toNat < min sum.toNat ck.toNat * acc.den.toNat := by
  unfold accepted fidRatio
  simp only [max_toNat_eq_zero, decide_eq_true_eq]
  split <;> simp

/-! ### Validate (R106) -/

theorem validate_short (acc : AccRegs) (bit : Nat → Bool) {L : Nat} (h : L < 40) :
    validate acc bit L = { result := .short, sum := 0, ck := 0, fid := 0 } := if_pos h

section
variable (acc : AccRegs) (bit : Nat → Bool) {L : Nat} (h : 40 ≤ L)
include h

theorem validate_frame :
    validate acc bit L =
      { result :=
          if accepted acc (byteGroupSum bit (L - 32)).toNat (checksum32 bit L).toNat then .good
          else .corrupt
        sum := byteGroupSum bit (L - 32)
        ck := checksum32 bit L
        fid := fidQ16 (byteGroupSum bit (L - 32)).toNat (checksum32 bit L).toNat } :=
  if_neg (Nat.not_lt.2 h)

theorem validate_good_iff :
    (validate acc bit L).result = .good ↔
      if (validate acc bit L).sum = 0 ∧ (validate acc bit L).ck = 0 then
        acc.num.toNat < acc.den.toNat
      else
        acc.num.toNat * max (validate acc bit L).sum.toNat (validate acc bit L).ck.toNat <
          min (validate acc bit L).sum.toNat (validate acc bit L).ck.toNat * acc.den.toNat := by
  rw [validate_frame acc bit h, ← accepted_iff]
  dsimp only
  split
  · next ha => exact iff_of_true rfl ha
  · next ha => exact iff_of_false FrameResult.noConfusion ha

theorem validate_good_or_corrupt :
    (validate acc bit L).result = .good ∨ (validate acc bit L).result = .corrupt := by
  rw [validate_frame acc bit h]
  dsimp only
  split
  · exact .inl rfl
  · exact .inr rfl

/-- A frame at or below the threshold is CORRUPT. -/
theorem validate_corrupt
    (hpos : 0 < max (validate acc bit L).sum.toNat (validate acc bit L).ck.toNat)
    (hle : min (validate acc bit L).sum.toNat (validate acc bit L).ck.toNat * acc.den.toNat ≤
      acc.num.toNat * max (validate acc bit L).sum.toNat (validate acc bit L).ck.toNat) :
    (validate acc bit L).result = .corrupt := by
  refine (validate_good_or_corrupt acc bit h).resolve_left fun hgood => ?_
  rw [validate_good_iff acc bit h, if_neg (mt (max_toNat_eq_zero _ _).2 hpos.ne')] at hgood
  exact absurd hgood (Nat.not_lt.2 hle)

end

/-! ### Sums in which one term changes -/

/-- The two numbers are `d` apart. -/
def DiffersBy (d a b : Nat) : Prop := a = b + d ∨ b = a + d

theorem DiffersBy.ne {d a b : Nat} (h : DiffersBy d a b) (hd : 0 < d) : a ≠ b := by
  rcases h with h | h <;> omega

/-- Two sums that differ in one term are as far apart as that term's two values. -/
theorem DiffersBy.sum_range {n i d : Nat} (hi : i < n) {f g : Nat → Nat} (h : DiffersBy d (f i) (g i))
    (hsame : ∀ j, j ≠ i → f j = g j) :
    DiffersBy d ((List.range n).map f).sum ((List.range n).map g).sum := by
  have hmem : i ∈ List.range n := List.mem_range.2 hi
  have hrest : (((List.range n).erase i).map f).sum = (((List.range n).erase i).map g).sum := by
    congr 1
    exact List.map_congr_left fun j hj => hsame j (List.nodup_range.mem_erase_iff.1 hj).1
  have hf := List.sum_map_erase f hmem
  have hg := List.sum_map_erase g hmem
  rcases h with h | h
  · left; omega
  · right; omega

/-- A bit counts its weight or nothing, so a flipped one is its weight apart. -/
theorem differsBy_flip (b : Bool) (d : Nat) :
    DiffersBy d (if (!b) = true then d else 0) (if b = true then d else 0) := by
  cases b
  · left; simp
  · right; simp

/-! ### One flipped bit (R113) -/

/-- A frame's bits with bit `k` flipped. -/
def flipBit (bit : Nat → Bool) (k : Nat) : Nat → Bool := fun j => if j = k then !bit j else bit j

theorem flipBit_same (bit : Nat → Bool) (k : Nat) : flipBit bit k k = !bit k := if_pos rfl

theorem flipBit_of_ne (bit : Nat → Bool) {j k : Nat} (h : j ≠ k) : flipBit bit k j = bit j := if_neg h

/-- A group depends on its own bits. -/
theorem groupValue_flipBit_of_ne (bit : Nat → Bool) (n : Nat) {g k : Nat} (h : g ≠ k / 8) :
    groupValue (flipBit bit k) n g = groupValue bit n g := by
  unfold groupValue
  congr 1
  refine List.map_congr_left fun j hj => ?_
  have hj := List.mem_range.1 hj
  rw [flipBit_of_ne bit (show 8 * g + j ≠ k by omega)]

/-- The flipped bit's group changes by the bit's weight in it (R102). -/
theorem groupValue_flipBit (bit : Nat → Bool) {n k : Nat} (hk : k < n) :
    DiffersBy (2 ^ (7 - k % 8)) (groupValue (flipBit bit k) n (k / 8)) (groupValue bit n (k / 8)) := by
  refine DiffersBy.sum_range (i := k % 8) (by omega) ?_ fun j hj => ?_
  · rw [show 8 * (k / 8) + k % 8 = k by omega, flipBit_same]
    simp only [hk, true_and]
    exact differsBy_flip _ _
  · rw [flipBit_of_ne bit (show 8 * (k / 8) + j ≠ k by omega)]

theorem groupValue_le (bit : Nat → Bool) (n g : Nat) : groupValue bit n g ≤ 255 := by
  have hle : groupValue bit n g ≤ ((List.range 8).map fun j => 2 ^ (7 - j)).sum := by
    refine List.sum_le_sum fun j _ => ?_
    split
    · exact le_rfl
    · exact Nat.zero_le _
  exact hle

/-- The byte-group sum of a payload that BITS_MAX allows fits its word (R9, R103). -/
theorem byteGroupSum_toNat (bit : Nat → Bool) {n : Nat} (hn : n ≤ 524288) :
    (byteGroupSum bit n).toNat = ((List.range (ceil8 n / 8)).map (groupValue bit n)).sum := by
  have hsum : ((List.range (ceil8 n / 8)).map (groupValue bit n)).sum ≤ ceil8 n / 8 * 255 := by
    have hle := List.sum_le_card_nsmul ((List.range (ceil8 n / 8)).map (groupValue bit n)) 255
      (by simpa using fun g _ => groupValue_le bit n g)
    simpa using hle
  rw [byteGroupSum, BitVec.toNat_ofNat, Nat.mod_eq_of_lt]
  unfold ceil8 at *
  omega

/-- A flipped payload bit changes the sum by its weight in its group. -/
theorem byteGroupSum_flipBit (bit : Nat → Bool) {n k : Nat} (hn : n ≤ 524288) (hk : k < n) :
    DiffersBy (2 ^ (7 - k % 8)) (byteGroupSum (flipBit bit k) n).toNat (byteGroupSum bit n).toNat := by
  rw [byteGroupSum_toNat _ hn, byteGroupSum_toNat _ hn]
  exact DiffersBy.sum_range (by unfold ceil8; omega) (groupValue_flipBit bit hk)
    fun _ => groupValue_flipBit_of_ne bit n

/-- A flipped payload bit leaves the checksum. -/
theorem checksum32_flipBit_of_lt (bit : Nat → Bool) {L k : Nat} (hk : k < L - 32) :
    checksum32 (flipBit bit k) L = checksum32 bit L := by
  refine BitVec.eq_of_getLsbD_eq fun i hi => ?_
  rw [checksum32_getLsbD _ L hi, checksum32_getLsbD _ L hi, flipBit_of_ne bit (by omega)]

theorem checksum32_toNat (bit : Nat → Bool) (L : Nat) :
    (checksum32 bit L).toNat =
      ((List.range 32).map fun k => if bit (L - 32 + k) then 2 ^ k else 0).sum := by
  rw [checksum32, BitVec.toNat_ofNat, Nat.mod_eq_of_lt]
  exact (testBit_sum_two_pow (fun k => bit (L - 32 + k) = true) 32 0).1

/-- A flipped checksum bit changes the checksum by its weight (R104). -/
theorem checksum32_flipBit (bit : Nat → Bool) {L k : Nat} (hL : 32 ≤ L) (hlo : L - 32 ≤ k) (hk : k < L) :
    DiffersBy (2 ^ (k - (L - 32))) (checksum32 (flipBit bit k) L).toNat (checksum32 bit L).toNat := by
  rw [checksum32_toNat, checksum32_toNat]
  refine DiffersBy.sum_range (i := k - (L - 32)) (by omega) ?_ fun j hj => ?_
  · rw [show L - 32 + (k - (L - 32)) = k by omega, flipBit_same]
    exact differsBy_flip _ _
  · rw [flipBit_of_ne bit (show L - 32 + j ≠ k by omega)]

section
variable (acc : AccRegs) {bit : Nat → Bool} {L k : Nat} (hL : 40 ≤ L)
  (hclean : byteGroupSum bit (L - 32) = checksum32 bit L)
include hL hclean

/-- A flipped payload bit of a clean frame leaves the checksum and moves the sum away from it. -/
theorem validate_flipBit_payload (hmax : L ≤ 524288) (hk : k < L - 32) :
    (validate acc (flipBit bit k) L).ck = byteGroupSum bit (L - 32) ∧
      DiffersBy (2 ^ (7 - k % 8)) (validate acc (flipBit bit k) L).sum.toNat
        (byteGroupSum bit (L - 32)).toNat := by
  rw [validate_frame acc _ hL]
  exact ⟨(checksum32_flipBit_of_lt bit hk).trans hclean.symm, byteGroupSum_flipBit bit (by omega) hk⟩

/-- A flipped checksum bit of a clean frame leaves the sum and moves the checksum away from it. -/
theorem validate_flipBit_checksum (hlo : L - 32 ≤ k) (hk : k < L) :
    (validate acc (flipBit bit k) L).sum = byteGroupSum bit (L - 32) ∧
      DiffersBy (2 ^ (k - (L - 32))) (validate acc (flipBit bit k) L).ck.toNat
        (byteGroupSum bit (L - 32)).toNat := by
  rw [validate_frame acc _ hL]
  refine ⟨byteGroupSum_congr _ _ _ fun j hj => flipBit_of_ne bit (by omega), ?_⟩
  rw [hclean]
  exact checksum32_flipBit bit (by omega) hlo hk

/-- Either way the sums no longer agree. -/
theorem validate_flipBit_ne (hmax : L ≤ 524288) (hk : k < L) :
    (validate acc (flipBit bit k) L).sum.toNat ≠ (validate acc (flipBit bit k) L).ck.toNat := by
  rcases Nat.lt_or_ge k (L - 32) with hlt | hge
  · obtain ⟨hck, hsum⟩ := validate_flipBit_payload acc hL hclean hmax hlt
    rw [hck]
    exact hsum.ne (Nat.two_pow_pos _)
  · obtain ⟨hsum, hck⟩ := validate_flipBit_checksum acc hL hclean hge hk
    rw [hsum]
    exact (hck.ne (Nat.two_pow_pos _)).symm

end

/-- Settles O28: the flipped bit's weight keeps the sums apart, and sums that differ are not both 0. -/
theorem flippedBitLowersFidelity : Obligations.FlippedBitLowersFidelity := by
  refine ⟨fun acc bit L hL => validate_corrupt acc bit hL, fun acc bit L k hL hmax hk hclean => ?_⟩
  have hne := validate_flipBit_ne acc hL hclean hmax hk
  refine ⟨validate_flipBit_payload acc hL hclean hmax,
    fun hlo => validate_flipBit_checksum acc hL hclean hlo hk, ?_, ?_⟩
  · have hle := validate_fid_le acc (flipBit bit k) L
    refine lt_of_le_of_ne hle fun hone => hne ?_
    rw [validate_frame acc _ hL] at hone ⊢
    exact (fidQ16_eq_one_iff _ _).1 hone
  · have hgood := validate_good_iff acc (flipBit bit k) hL
    rwa [if_neg fun ⟨hsum, hck⟩ => hne (by rw [hsum, hck])] at hgood

end Sys2Proof.Machine
end

section
/-! PROOFS of O21, `AddckAppendsChecksum`, and O27, `CleanFrameValidates`: ADDCK writes a pad and a checksum after the
payload (41_frame.md R107, R109), so the frame's sum and its checksum are the payload's sum, whatever is drawn (R112). -/

namespace Sys2Proof.Machine

/-! ### The frame layout (R107) -/

/-- The bits of a frame: `len` payload bits, zeros up to whole bytes, and a checksum after them. -/
structure FrameLayout (payload : Nat → Bool) (len : Nat) (ck : Word) (frame : Nat → Bool) : Prop where
  payload : ∀ k < len, frame k = payload k
  pad : ∀ k, len ≤ k → k < ceil8 len → frame k = false
  checksum : ∀ k < 32, frame (ceil8 len + k) = ck.getLsbD k

theorem le_ceil8 (n : Nat) : n ≤ ceil8 n := by unfold ceil8; omega

theorem ceil8_ceil8 (n : Nat) : ceil8 (ceil8 n) = ceil8 n := by unfold ceil8; omega

section
variable {payload frame : Nat → Bool} {len : Nat} {ck : Word}

/-- Pad bits count as the bits that a last group misses (R102). -/
theorem byteGroupSum_padded (hpayload : ∀ k < len, frame k = payload k)
    (hpad : ∀ k, len ≤ k → k < ceil8 len → frame k = false) :
    byteGroupSum frame (ceil8 len) = byteGroupSum payload len := by
  have hlen := le_ceil8 len
  unfold byteGroupSum groupValue
  rw [ceil8_ceil8]
  congr 2
  refine List.map_congr_left fun g _ => congrArg List.sum (List.map_congr_left fun j _ => ?_)
  rcases Nat.lt_or_ge (8 * g + j) len with hin | hout
  · simp only [hpayload _ hin, hin, hin.trans_le hlen]
  · rw [if_neg fun h => ?_, if_neg fun h => Nat.not_lt.2 hout h.1]
    rw [hpad _ hout h.1] at h
    exact Bool.false_ne_true h.2

theorem FrameLayout.sum_eq (h : FrameLayout payload len ck frame) :
    byteGroupSum frame (ceil8 len) = byteGroupSum payload len :=
  byteGroupSum_padded h.payload h.pad

theorem FrameLayout.checksum_eq (h : FrameLayout payload len ck frame) :
    checksum32 frame (ceil8 len + 32) = ck :=
  BitVec.eq_of_getLsbD_eq fun i hi => by
    rw [checksum32_getLsbD _ _ hi, Nat.add_sub_cancel, h.checksum i hi]

/-- A frame of a payload of 1 bit or more that carries its own sum is GOOD with fidelity 1.0, at any threshold
below 1 (R112). -/
theorem FrameLayout.validate_good (h : FrameLayout payload len (byteGroupSum payload len) frame)
    (hpos : 1 ≤ len) {acc : AccRegs} (hacc : acc.num.toNat < acc.den.toNat) :
    validate acc frame (ceil8 len + 32) =
      { result := .good, sum := byteGroupSum payload len, ck := byteGroupSum payload len
        fid := 0x00010000 } := by
  have hframe := validate_frame acc frame (show 40 ≤ ceil8 len + 32 by unfold ceil8; omega)
  rw [Nat.add_sub_cancel, h.sum_eq, h.checksum_eq] at hframe
  have hgood : accepted acc (byteGroupSum payload len).toNat (byteGroupSum payload len).toNat = true := by
    rw [accepted_iff, max_self, min_self, Nat.mul_comm acc.num.toNat]
    split
    · exact hacc
    · next hne =>
      have hsum : 0 < (byteGroupSum payload len).toNat := by
        rw [← max_self (byteGroupSum payload len).toNat]
        exact Nat.pos_of_ne_zero (mt (max_toNat_eq_zero _ _).1 hne)
      exact Nat.mul_lt_mul_of_pos_left hacc hsum
  have hfid := BitVec.eq_of_toNat_eq (y := (0x00010000 : Word))
    ((fidQ16_eq_one_iff (byteGroupSum payload len).toNat _).2 rfl)
  rw [hframe, if_pos hgood, hfid]

end

/-! ### ADDCK (R109) -/

/-- FBUF with the pad and a checksum written after its first `len` bits. -/
def Storage.putFrameTail (st : Storage) (len : Nat) (ck : Word) : Storage :=
  (st.putBits fbufBase len (List.replicate (ceil8 len - len) false)).putBits fbufBase (ceil8 len)
    (takeBits (fun k => ck.getLsbD k) 32)

/-- The tail lies in the bytes of its bits. -/
theorem Storage.writesIn_putFrameTail (st : Storage) (len : Nat) (ck : Word) :
    Storage.WritesIn (fbufBytes len (ceil8 len + 32)) st (st.putFrameTail len ck) := by
  have hlen := le_ceil8 len
  refine (st.writesIn_putBits fbufBase len _ fun i hi => ⟨len + i, by omega, ?_, rfl⟩).trans
    (Storage.writesIn_putBits _ fbufBase _ _ fun i hi => ⟨ceil8 len + i, by omega, ?_, rfl⟩)
  · rw [List.length_replicate] at hi
    omega
  · rw [takeBits_length] at hi
    omega

section
variable {s t : State} {len : Nat} {ck : Word}

/-- Writes within a set of offsets leave every other byte. -/
theorem State.sameBytes_of_writesIn {W : Nat → Prop} (h : Storage.WritesIn W s.store t.store)
    (hd : t.draws = s.draws) (hv : t.tree.tv = s.tree.tv) : SameBytesBut s t W :=
  fun pass a ha => State.readByte_congr s t pass a hd hv (h.bits.get a ha) (h.written.get a ha)

/-- A written frame tail reads back, and every other bit reads as before. -/
theorem State.fbufBit_putFrameTail (hs : t.store = s.store.putFrameTail len ck) (hd : t.draws = s.draws)
    (pass k : Nat) :
    t.fbufBit pass k =
      if k < len then s.fbufBit pass k
      else if k < ceil8 len then false
      else if k < ceil8 len + 32 then ck.getLsbD (k - ceil8 len)
      else s.fbufBit pass k := by
  have hlen := le_ceil8 len
  have hpad := State.readBit_putBits s { s with store := s.store.putBits fbufBase len _ } pass fbufBase len k
    (List.replicate (ceil8 len - len) false) rfl rfl (by decide)
  have htail := State.readBit_putBits { s with store := s.store.putBits fbufBase len _ } t pass fbufBase
    (ceil8 len) k (takeBits (fun k => ck.getLsbD k) 32) hs hd (by decide)
  rw [List.length_replicate] at hpad
  rw [takeBits_length, hpad] at htail
  unfold State.fbufBit
  rw [htail]
  rcases Nat.lt_or_ge k len with h1 | h1
  · rw [if_neg (by omega), if_neg (by omega), if_pos h1]
  rcases Nat.lt_or_ge k (ceil8 len) with h2 | h2
  · rw [if_neg (by omega), if_pos (by omega), if_neg (by omega), if_pos h2]
    simp
  rw [if_neg (show ¬ k < len by omega), if_neg (show ¬ k < ceil8 len by omega)]
  rcases Nat.lt_or_ge k (ceil8 len + 32) with h3 | h3
  · rw [if_pos ⟨h2, h3⟩, if_pos h3, takeBits_getD _ _ _ (by omega)]
  · rw [if_neg (by omega), if_neg (by omega), if_neg (by omega)]

/-- The bytes that hold no bit of a written frame tail read as before. -/
theorem State.sameBytes_putFrameTail (hs : t.store = s.store.putFrameTail len ck) (hd : t.draws = s.draws)
    (hv : t.tree.tv = s.tree.tv) : SameBytesBut s t (fbufBytes len (ceil8 len + 32)) := by
  refine State.sameBytes_of_writesIn ?_ hd hv
  rw [hs]
  exact s.store.writesIn_putFrameTail len ck

/-- A payload that has been written is framed whatever is drawn. -/
theorem FbufWritten.frameLayout (hw : FbufWritten s len) (hs : t.store = s.store.putFrameTail len ck)
    (pass d : Nat) :
    FrameLayout (s.fbufBit pass) len ck (State.fbufBit { t with draws := d } pass) := by
  have hlen := le_ceil8 len
  have hbit := State.fbufBit_putFrameTail (s := { s with draws := d }) (t := { t with draws := d }) hs rfl pass
  refine ⟨fun k hk => ?_, fun k h1 h2 => ?_, fun k hk => ?_⟩
  · rw [hbit, if_pos hk]
    exact (State.readBit_written { s with draws := d } pass fbufBase k (by decide) (hw k hk)).trans
      (s.readBit_written pass fbufBase k (by decide) (hw k hk)).symm
  · rw [hbit, if_neg (by omega), if_pos h2]
  · rw [hbit, if_neg (by omega), if_neg (by omega), if_pos (by omega), Nat.add_sub_cancel_left]

end

/-- ADDCK's sum, of the padded payload, is the payload's. -/
theorem State.padded_byteGroupSum (s : State) :
    byteGroupSum (s.padded.fbufBit 0) (ceil8 s.codec.fbufLen.toNat) =
      byteGroupSum (s.fbufBit 0) s.codec.fbufLen.toNat := by
  have hlen := le_ceil8 s.codec.fbufLen.toNat
  have hpad (k : Nat) := State.readBit_putBits s s.padded 0 fbufBase s.codec.fbufLen.toNat k
    (List.replicate (ceil8 s.codec.fbufLen.toNat - s.codec.fbufLen.toNat) false) rfl rfl (by decide)
  rw [List.length_replicate] at hpad
  refine byteGroupSum_padded (fun k hk => ?_) fun k h1 h2 => ?_
  · exact (hpad k).trans (if_neg (by omega))
  · exact (hpad k).trans ((if_pos (by omega)).trans (by simp))

theorem State.addckEffect_eq (s : State) :
    s.addckEffect =
      { s with
        codec :=
          { s.codec with
            fbufLen := BitVec.ofNat 32 (ceil8 s.codec.fbufLen.toNat + 32)
            padLen := BitVec.ofNat 3 (ceil8 s.codec.fbufLen.toNat - s.codec.fbufLen.toNat)
            cksum := byteGroupSum (s.fbufBit 0) s.codec.fbufLen.toNat }
        store :=
          s.store.putFrameTail s.codec.fbufLen.toNat
            (byteGroupSum (s.fbufBit 0) s.codec.fbufLen.toNat) } := by
  rw [← s.padded_byteGroupSum]
  rfl

/-- Settles O21: the effect writes the frame tail and nothing else of FBUF. -/
theorem addckAppendsChecksum : Obligations.AddckAppendsChecksum := by
  intro s hidle hlen hfits
  have hexec : exec .addck s = .next (s.addckEffect.succeed 0x06) := by
    rw [exec_addck, s.addckCheck_none.2 ⟨hidle, hlen, hfits⟩, State.run_none]
  have hstore : (s.addckEffect.succeed 0x06).store = s.store.putFrameTail s.codec.fbufLen.toNat
      (byteGroupSum (s.fbufBit 0) s.codec.fbufLen.toNat) := by
    rw [State.succeed_store, s.addckEffect_eq]
  refine ⟨_, hexec, completed_succeed 0x06 rfl, rfl, ?_, ?_, ?_⟩
  · rw [State.succeed_codec, s.addckEffect_eq]
  · exact State.fbufBit_putFrameTail hstore rfl
  · exact State.sameBytes_putFrameTail hstore rfl rfl

/-! ### A clean frame (R112) -/

theorem State.addckCheck_reportsError (s : State) : ReportsError s.addckCheck :=
  reportsError_orElse (reportsError_ite (reportsError_some (by decide) _) reportsError_none)
    (reportsError_orElse (reportsError_ite (reportsError_some (by decide) _) reportsError_none)
      (reportsError_ite (reportsError_some (by decide) _) reportsError_none))

/-- An ADDCK that completes with OK has framed its payload, in a frame that FBUF holds. -/
theorem State.addck_ok {s t : State} (hp : s.params.legal = true) (hexec : exec .addck s = .next t)
    (hok : t.cmd.err = .ok) :
    t = s.addckEffect.succeed 0x06 ∧
      t.codec.fbufLen.toNat = ceil8 s.codec.fbufLen.toNat + 32 ∧
      t.codec.fbufLen.toNat ≤ s.params.bitsMax := by
  obtain ⟨hcheck, ht⟩ := State.run_ok s.addckCheck_reportsError hexec hok
  obtain ⟨-, -, hfits⟩ := s.addckCheck_none.1 hcheck
  obtain ⟨-, -, -, -, -, hmax⟩ := Params.legal_bounds hp
  have hlen : t.codec.fbufLen.toNat = ceil8 s.codec.fbufLen.toNat + 32 := by
    rw [ht, State.succeed_codec, s.addckEffect_eq]
    exact Nat.mod_eq_of_lt (by omega)
  exact ⟨ht, hlen, by omega⟩

/-- VALIDATE of a frame that fits publishes its verdict. -/
theorem State.exec_validate_of_fits (s : State) (hlen : s.codec.fbufLen.toNat ≤ s.params.bitsMax) :
    exec .validate s = .next (s.validateEffect.succeed 0x07) := by
  rw [exec_validate, s.fbufRange_none.2 hlen, State.run_none]

theorem State.validateEffect_val (s : State) {v : Verdict}
    (h : validate s.acc (s.fbufBit 0) s.codec.fbufLen.toNat = v) :
    s.validateEffect.val = { result := v.result, sum := v.sum, ck := v.ck, fid := v.fid } := by
  rw [State.validateEffect, h, State.putVerdict_val]

/-- Settles O27: the frame that ADDCK leaves carries its own sum; an empty payload's is 32 bits long. -/
theorem cleanFrameValidates : Obligations.CleanFrameValidates := by
  intro s t d hp hw hacc hexec hok
  obtain ⟨ht, hlen, hfits⟩ := State.addck_ok hp hexec hok
  have heff := s.addckEffect_eq
  have hstore : t.store = s.store.putFrameTail s.codec.fbufLen.toNat
      (byteGroupSum (s.fbufBit 0) s.codec.fbufLen.toNat) := by
    rw [ht, State.succeed_store, heff]
  have hcksum : t.codec.cksum = byteGroupSum (s.fbufBit 0) s.codec.fbufLen.toNat := by
    rw [ht, State.succeed_codec, heff]
  have hparams : t.params = s.params := by rw [ht, State.succeed_params, heff]
  have haccEq : t.acc = s.acc := by rw [ht, State.succeed_acc, heff]
  refine ⟨_, State.exec_validate_of_fits { t with draws := d } (by rw [hparams]; exact hfits), rfl,
    fun hpos => ?_, fun hzero => ?_⟩
  · have hgood := (hw.frameLayout hstore 0 d).validate_good hpos hacc
    rw [← hlen, ← haccEq, ← hcksum] at hgood
    exact State.validateEffect_val { t with draws := d } hgood
  · have hshort : t.codec.fbufLen.toNat < 40 := by
      rw [hlen, hzero]
      decide
    exact State.validateEffect_val { t with draws := d } (validate_short _ _ hshort)

end Sys2Proof.Machine
end

section
/-! PROOFS of O22, `ValidateReportsVerdict`, O23, `ParseDeliversGoodFrames`, O29, `ShortFrameNeverDecoded`, O34,
`LinkCommandsFail`, and O39, `ParseStepPublishes`: FrameParse result by result, its publication by PARSE and by the RX
frame parser, and the checks of the frame and pulse commands (41_frame.md R108 to R114, 42_pulse.md R117, R123,
R128, 60_exceptions.md R135 to R137). -/

namespace Sys2Proof.Machine

/-! ### VALIDATE (R110) -/

/-- Settles O22: the verdict, short and whole. -/
theorem validateReportsVerdict : Obligations.ValidateReportsVerdict := by
  intro s hlen
  refine ⟨_, s.exec_validate_of_fits hlen, completed_succeed 0x07 rfl, rfl, fun hshort => ?_,
    fun hframe => ?_⟩
  · exact s.validateEffect_val (validate_short _ _ hshort)
  · have hverdict := validate_frame s.acc (s.fbufBit 0) hframe
    have hgood := validate_good_iff s.acc (s.fbufBit 0) hframe
    have hresult := validate_good_or_corrupt s.acc (s.fbufBit 0) hframe
    rw [State.succeed_val, s.validateEffect_val hverdict]
    rw [hverdict] at hgood hresult
    exact ⟨rfl, rfl, rfl, hresult, hgood⟩

/-! ### FrameParse, result by result (R108) -/

/-- A result that delivers no message. -/
def Parsed.silent (v : Verdict) : Parsed := { verdict := v, out := [], trail := 0 }

section
variable (s : State) (bit : Nat → Nat → Bool) (L : Nat)

theorem State.frameParse_ovf :
    s.frameParse bit L true = .silent { result := .rxovf, sum := 0, ck := 0, fid := 0 } := rfl

variable {s bit L}

theorem State.frameParse_bad (h : (validate s.acc (bit 0) L).result ≠ .good) :
    s.frameParse bit L false = .silent (validate s.acc (bit 0) L) := by
  unfold State.frameParse
  dsimp only
  rw [if_neg Bool.false_ne_true, if_pos h]
  rfl

/-- A SHORT frame is not decoded (R114). -/
theorem State.frameParse_short (h : L < 40) :
    s.frameParse bit L false = .silent { result := .short, sum := 0, ck := 0, fid := 0 } := by
  have hshort := validate_short s.acc (bit 0) h
  rw [State.frameParse_bad (by rw [hshort]; exact FrameResult.noConfusion), hshort]

section
variable (hgood : (validate s.acc (bit 0) L).result = .good)
include hgood

theorem State.frameParse_notree (h : s.tree.tv = false) :
    s.frameParse bit L false = .silent { validate s.acc (bit 0) L with result := .notree } := by
  unfold State.frameParse
  dsimp only
  rw [if_neg Bool.false_ne_true, if_neg (not_not.2 hgood), h]
  rfl

theorem State.frameParse_decoded (h : s.tree.tv = true) :
    s.frameParse bit L false =
      let r := s.decodeBits 1 (takeBits (bit 1) (L - 32 - s.cfg.pad.toNat))
      if s.params.msgMax < r.1.length then .silent { validate s.acc (bit 0) L with result := .decovf }
      else { verdict := validate s.acc (bit 0) L, out := r.1, trail := r.2 } := by
  unfold State.frameParse
  dsimp only
  rw [if_neg Bool.false_ne_true, if_neg (not_not.2 hgood), h]
  rfl

end
end

/-- NOTREE is FrameParse's own result. -/
theorem validate_result_ne_notree (acc : AccRegs) (bit : Nat → Bool) (L : Nat) :
    (validate acc bit L).result ≠ .notree := by
  rcases validate_result acc bit L with h | h | h <;> rw [h] <;> exact FrameResult.noConfusion

/-! ### Messages delivered -/

/-- A message written outside the tables reads back, symbol by symbol. -/
theorem State.readByte_put_getElem? {s t : State} {lo : Nat} {bs : List Byte}
    (hs : t.store = s.store.put lo bs) (hlo : treeEnd ≤ lo) (pass i : Nat) (hi : i < bs.length) :
    some (t.readByte pass (lo + i)) = bs[i]? := by
  rw [State.readByte_put_inside s t pass lo (lo + i) bs hs (inTables_of_ge _ (by omega)) (by omega)
      (by omega), Nat.add_sub_cancel_left, List.getD_eq_getElem _ _ hi, List.getElem?_eq_getElem hi]

theorem State.sameBytes_put {s t : State} {lo : Nat} {bs : List Byte} (hs : t.store = s.store.put lo bs)
    (hd : t.draws = s.draws) (hv : t.tree.tv = s.tree.tv) : SameBytesBut s t (within lo bs.length) :=
  fun pass a ha => State.readByte_put_outside s t pass lo a bs hs hd hv ha

/-- No message is no byte. -/
theorem State.sameBytes_put_nil {s t : State} {lo : Nat} (hs : t.store = s.store.put lo [])
    (hd : t.draws = s.draws) (hv : t.tree.tv = s.tree.tv) : SameBytesBut s t (fun _ => False) :=
  fun pass a _ => State.readByte_put_outside s t pass lo a [] hs hd hv fun h => Nat.not_lt.2 h.1 h.2

/-! ### PARSE (R111) -/

/-- What PARSE leaves when FrameParse answers `p`. -/
structure State.Parses (s t : State) (p : Parsed) : Prop where
  cmd : t.cmd = { pending := none, err := .ok, lastOp := 0x08, errInfo := 0 }
  frame : t = { s with cmd := t.cmd, irq := t.irq, codec := t.codec, val := t.val, store := t.store }
  val : t.val =
    { result := p.verdict.result, sum := p.verdict.sum, ck := p.verdict.ck, fid := p.verdict.fid }
  codec : t.codec =
    { s.codec with dmsgLen := BitVec.ofNat 32 p.out.length, decTrail := BitVec.ofNat 32 p.trail }
  store : t.store = s.store.put dmsgBase p.out
  irq : t.irq =
    { s.irq with status := s.irq.status ||| if p.verdict.result = .notree then 0x41 else 0x01 }

/-- PARSE of a frame that fits delivers FrameParse's message, and FAULT tells NOTREE. -/
theorem State.exec_parse_of_fits (s : State) (hlen : s.codec.fbufLen.toNat ≤ s.params.bitsMax) :
    ∃ t, exec .parse s = .next t ∧ s.Parses t (s.frameParse s.fbufBit s.codec.fbufLen.toNat false) := by
  refine ⟨s.parseEffect.succeed 0x08, ?_, ?_⟩
  · rw [exec_parse, s.fbufRange_none.2 hlen, State.run_none]
  · unfold State.parseEffect
    generalize s.frameParse s.fbufBit s.codec.fbufLen.toNat false = p
    dsimp only
    split
    · next h =>
      refine ⟨rfl, rfl, rfl, rfl, rfl, ?_⟩
      rw [if_pos h, State.succeed_irq, State.setIrq_irq, State.deliverDmsg_irq, State.putVerdict_irq]
      dsimp only
      rw [BitVec.or_assoc]
      rfl
    · next h => exact ⟨rfl, rfl, rfl, rfl, rfl, by rw [if_neg h]; rfl⟩

section
variable {s t : State} {p : Parsed}

/-- Every result but NOTREE is a plain completion. -/
theorem State.Parses.completed (h : s.Parses t p) (hp : p.verdict.result ≠ .notree) :
    Completed s t 0x08 :=
  ⟨h.cmd, by rw [h.irq, if_neg hp]⟩

theorem State.Parses.draws (h : s.Parses t p) : t.draws = s.draws := by rw [h.frame]

theorem State.Parses.tree (h : s.Parses t p) : t.tree = s.tree := by rw [h.frame]

/-- A silent result delivers no message. -/
theorem State.Parses.silent {v : Verdict} (h : s.Parses t (.silent v)) :
    t.codec = { s.codec with dmsgLen := 0, decTrail := 0 } ∧ SameBytesBut s t (fun _ => False) :=
  ⟨h.codec, State.sameBytes_put_nil h.store h.draws (congrArg TreeRegs.tv h.tree)⟩

end

/-- Settles O23: FrameParse's four results, one after the other. -/
theorem parseDeliversGoodFrames : Obligations.ParseDeliversGoodFrames := by
  intro s hlen
  obtain ⟨t, hexec, ht⟩ := s.exec_parse_of_fits hlen
  refine ⟨t, hexec, ht.cmd, ht.frame, ?_⟩
  dsimp only
  have hne := validate_result_ne_notree s.acc (s.fbufBit 0) s.codec.fbufLen.toNat
  by_cases hgood : (validate s.acc (s.fbufBit 0) s.codec.fbufLen.toNat).result = .good
  case neg =>
    rw [State.frameParse_bad hgood] at ht
    rw [ht.val]
    exact ⟨rfl, rfl, rfl, fun _ => ⟨rfl, ht.completed hne, ht.silent⟩, fun h => absurd h hgood,
      fun h => absurd h hgood, fun h => absurd h hgood⟩
  case pos =>
    cases htv : s.tree.tv
    case false =>
      rw [State.frameParse_notree hgood htv] at ht
      rw [ht.val]
      exact ⟨rfl, rfl, rfl, fun h => absurd hgood h, fun _ _ => ⟨rfl, ht.silent, ht.irq⟩,
        fun _ h => (Bool.false_ne_true h).elim, fun _ h => (Bool.false_ne_true h).elim⟩
    case true =>
      rw [State.frameParse_decoded hgood htv] at ht
      generalize s.decodeBits 1
        (takeBits (s.fbufBit 1) (s.codec.fbufLen.toNat - 32 - s.cfg.pad.toNat)) = r at ht ⊢
      dsimp only at ht
      split at ht
      · next hover =>
        rw [ht.val]
        exact ⟨rfl, rfl, rfl, fun h => absurd hgood h, fun _ h => (Bool.false_ne_true h.symm).elim,
          fun _ _ _ => ⟨rfl, ht.completed FrameResult.noConfusion, ht.silent⟩,
          fun _ _ h => absurd hover (Nat.not_lt.2 h)⟩
      · next hfits =>
        rw [ht.val]
        exact ⟨rfl, rfl, rfl, fun h => absurd hgood h, fun _ h => (Bool.false_ne_true h.symm).elim,
          fun _ _ h => absurd h hfits, fun _ _ _ => ⟨hgood, ht.completed hne, ht.codec,
            State.readByte_put_getElem? ht.store (by decide),
            State.sameBytes_put ht.store ht.draws (congrArg TreeRegs.tv ht.tree)⟩⟩

/-! ### The RX frame parser (R128) -/

/-- The interrupt bits of a publication: RX_OVR beside RX_FRAME if that was still set, and FAULT for NOTREE. -/
theorem State.rxReport_eq (s : State) (r : FrameResult) :
    s.rxReport r =
      { s with
        irq :=
          { s.irq with
            status := s.irq.status ||| 0x10 ||| (if s.irq.status.getLsbD 4 then 0x20 else 0) |||
              (if r = .notree then 0x40 else 0) } } := by
  have hbit : s.irq.status.getLsbD 4 = s.irq.status.getLsbD irqRxFrame := rfl
  have hswap : s.irq.status ||| 0x10 ||| 0x20 = s.irq.status ||| 0x20 ||| 0x10 := by
    rw [BitVec.or_assoc, BitVec.or_assoc]
    rfl
  have hzero (x : BitVec 8) : x ||| 0 = x := BitVec.or_zero
  unfold State.rxReport
  dsimp only
  rw [hbit]
  split <;> split
  · rw [hswap]; rfl
  · rw [hzero]; rfl
  · rw [hzero, hswap]; rfl
  · rw [hzero, hzero]; rfl

/-- Re-arming changes the RX engine's registers, by CFG and RX_DELAY alone. -/
theorem State.rxRearm_eq (s : State) :
    s.rxRearm =
      { s with
        rx :=
          if s.cfg.rxCont then
            if s.rxDelay = 0 then { s.rx with phase := .await, det := .needLow, parsePending := none }
            else { s.rx with phase := .delay, dcnt := s.rxDelay, parsePending := none }
          else { s.rx with phase := .idle, det := .needLow, parsePending := none } } := by
  unfold State.rxRearm
  dsimp only
  split
  · split <;> rfl
  · rfl

/-- The parser's step publishes FrameParse of the waiting frame, reports it and re-arms. -/
theorem State.FrameWaits.parseStep_eq {s : State} {snap : Snapshot} (h : s.FrameWaits snap) {p : Parsed}
    (hp : s.frameParse s.rbufBit snap.len.toNat snap.ovf = p) :
    s.parseStep =
      { s with
        irq := (s.rxReport p.verdict.result).irq, rx := s.rxRearm.rx, rxOut := (s.rxPublish p).rxOut
        store := s.store.put rmsgBase p.out } := by
  obtain ⟨hphase, hpend⟩ := h
  unfold State.parseStep
  rw [hphase, hpend, ← hp]
  dsimp only
  rw [State.rxReport_eq, State.rxReport_eq, State.rxRearm_eq, State.rxRearm_eq]
  rfl

/-- Settles O39: the publication, the report and the re-arming, one after the other. -/
theorem parseStepPublishes : Obligations.ParseStepPublishes := by
  intro s snap hphase hpend
  have hstep := State.FrameWaits.parseStep_eq ⟨hphase, hpend⟩ rfl
  have hout := s.frameParse_out s.rbufBit snap.len.toNat snap.ovf
  have hovf : snap.ovf = true → (s.frameParse s.rbufBit snap.len.toNat snap.ovf).verdict =
      { result := .rxovf, sum := 0, ck := 0, fid := 0 } := fun h => by rw [h, State.frameParse_ovf]; rfl
  generalize s.frameParse s.rbufBit snap.len.toNat snap.ovf = p at hstep hout hovf ⊢
  dsimp only
  rw [hstep, State.rxReport_eq, State.rxRearm_eq]
  refine ⟨rfl, rfl, ?_, ?_, hovf, hout.2, rfl, fun hcont hdelay => ?_, fun hcont hdelay => ?_,
    fun honce => ?_⟩
  · exact State.readByte_put_getElem? rfl (by decide)
  · exact State.sameBytes_put rfl rfl rfl
  · exact (if_pos hcont).trans (if_pos hdelay)
  · exact (if_pos hcont).trans (if_neg hdelay)
  · exact if_neg (by rw [honce]; exact Bool.false_ne_true)

/-! ### Short frames (R114) -/

/-- Settles O29: FrameParse of a short frame is silent, in PARSE and in the RX engine. -/
theorem shortFrameNeverDecoded : Obligations.ShortFrameNeverDecoded := by
  refine ⟨fun acc bit L h => validate_short acc bit h, fun s hp hlen => ?_,
    fun s snap hphase hpend hlen hovf => ?_⟩
  · obtain ⟨-, -, -, -, hbits, -⟩ := Params.legal_bounds hp
    obtain ⟨t, hexec, ht⟩ := s.exec_parse_of_fits (by omega)
    rw [State.frameParse_short hlen] at ht
    obtain ⟨hcodec, hsame⟩ := ht.silent
    exact ⟨t, hexec, by rw [ht.cmd], by rw [ht.val, Parsed.silent], by rw [hcodec], hsame⟩
  · have hparse := s.frameParse_short (bit := s.rbufBit) hlen
    rw [← hovf] at hparse
    rw [State.FrameWaits.parseStep_eq ⟨hphase, hpend⟩ hparse]
    exact ⟨rfl, rfl, State.sameBytes_put_nil rfl rfl rfl⟩

/-! ### The checks of the frame and pulse commands (60_exceptions.md R135, R136) -/

/-- ADDCK after BUSY and RANGE have passed, with no room for the pad and the checksum. -/
theorem State.addckCheck_overflow {s : State} (hidle : s.tx.phase = .idle)
    (hlen : s.codec.fbufLen.toNat ≤ s.params.bitsMax)
    (h : s.params.bitsMax < ceil8 s.codec.fbufLen.toNat + 32) :
    s.addckCheck = some (.overflow, BitVec.ofNat 32 (ceil8 s.codec.fbufLen.toNat + 32)) := by
  unfold State.addckCheck
  rw [orElse_of_none (s.txBusy_none.2 hidle), orElse_of_none (s.fbufRange_none.2 hlen)]
  exact if_pos h

/-- Settles O34: each clause's check is the first that reports an error. -/
theorem linkCommandsFail : Obligations.LinkCommandsFail := by
  intro s
  refine ⟨fun h => ⟨?_, ?_⟩, fun hidle h => ⟨?_, ?_⟩, fun hidle hlen h => ?_, fun h => ⟨?_, ?_⟩,
    fun h => ?_⟩
  · exact exec_failed (exec_addck s) (orElse_of_some (State.txBusy_some h) _)
  · exact exec_failed (exec_txStart s) (orElse_of_some (State.txBusy_some h) _)
  · exact exec_failed (exec_addck s)
      ((orElse_of_none (s.txBusy_none.2 hidle) _).trans (orElse_of_some (State.fbufRange_some h) _))
  · exact exec_failed (exec_txStart s)
      ((orElse_of_none (s.txBusy_none.2 hidle) _).trans (State.fbufRange_some h))
  · exact exec_failed (exec_addck s) (State.addckCheck_overflow hidle hlen h)
  · exact exec_failed (exec_validate s) (State.fbufRange_some h)
  · exact exec_failed (exec_parse s) (State.fbufRange_some h)
  · exact exec_failed (exec_rxStart s) (State.rxBusy_some h)

end Sys2Proof.Machine
end

section
/-! PROOFS of O30, `ClassifyFollowsBands`, O31, `TxStartArmsEngine`, O32, `RxStartAwaitsPulse`, and O33,
`StopCommandsIdleEngines`: a pulse command whose checks pass completes with its effect, which reaches one group of
registers (42_pulse.md R117, R122, R123, R126, R127, R129). -/

namespace Sys2Proof.Machine

/-! ### The classifier (R126) -/

/-- The bands compare unsigned numbers. -/
theorem classifyRecv_toNat (b : Bands) (d : Word) :
    classifyRecv b d =
      if b.termMin.toNat ≤ d.toNat then .term
      else if b.shortMin.toNat ≤ d.toNat ∧ d.toNat ≤ b.shortMax.toNat then .bit0
      else if b.longMin.toNat ≤ d.toNat ∧ d.toNat ≤ b.longMax.toNat then .bit1
      else .noise := by
  simp only [classifyRecv, BitVec.le_def]

theorem classifyAwait_toNat (b : Bands) (d : Word) :
    classifyAwait b d =
      if b.initMin.toNat ≤ d.toNat ∧ d.toNat ≤ b.initMax.toNat then .init else .noise := by
  simp only [classifyAwait, BitVec.le_def]

/-! ### The commands -/

/-- A command whose check passes completes with its effect. -/
theorem exec_completes {s : State} {i : Instr} {op : BitVec 8} {check : Option (CmdError × Word)}
    {f : State → State} (hi : exec i s = .next (s.run op check f)) (hcheck : check = none)
    (hirq : (f s).irq = s.irq) :
    exec i s = .next ((f s).succeed op) ∧ Completed s ((f s).succeed op) op :=
  ⟨by rw [hi, hcheck, State.run_none], completed_succeed op hirq⟩

/-- Settles O30: each phase looks at its own bands. -/
theorem classifyFollowsBands : Obligations.ClassifyFollowsBands := by
  intro p s
  obtain ⟨hexec, hdone⟩ := exec_completes (exec_classify s p) rfl rfl
  refine ⟨_, hexec, hdone, rfl, rfl, fun hp => ?_, fun hp => ?_⟩
  · rw [← classifyRecv_toNat]
    exact if_pos hp
  · rw [← classifyAwait_toNat]
    exact if_neg (by rw [hp]; decide)

/-- Settles O31: neither BUSY nor RANGE applies. -/
theorem txStartArmsEngine : Obligations.TxStartArmsEngine := by
  intro s hidle hlen
  obtain ⟨hexec, hdone⟩ := exec_completes (exec_txStart s) (s.txStartCheck_none.2 ⟨hidle, hlen⟩) rfl
  exact ⟨_, hexec, hdone, rfl, rfl, rfl⟩

/-- Settles O32: BUSY does not apply. -/
theorem rxStartAwaitsPulse : Obligations.RxStartAwaitsPulse := by
  intro s hidle
  obtain ⟨hexec, hdone⟩ := exec_completes (exec_rxStart s) (s.rxBusy_none.2 hidle) rfl
  exact ⟨_, hexec, hdone, rfl, rfl⟩

/-- Settles O33: neither command has a check. -/
theorem stopCommandsIdleEngines : Obligations.StopCommandsIdleEngines := by
  intro s
  obtain ⟨htx, htxdone⟩ := exec_completes (exec_txStop s) rfl rfl
  obtain ⟨hrx, hrxdone⟩ := exec_completes (exec_rxStop s) rfl rfl
  exact ⟨⟨_, htx, htxdone, rfl, rfl, rfl⟩, _, hrx, hrxdone, rfl, rfl⟩

end Sys2Proof.Machine
end

section
/-! PROOFS of O35, `TxTickRunsPhases`, and O36, `FrameLastsItsTicks`: the TX engine's tick at and before a phase's
end, then the phases of a frame, tick by tick (42_pulse.md R119, R120). -/

namespace Sys2Proof.Machine

/-! ### One tick (R119, R120) -/

/-- The TX engine in a phase, at a bit index, with ticks left. -/
def State.txAt (s : State) (ph : TxPhase) (i rem : Word) : State :=
  { s with tx := { s.tx with phase := ph, bitIdx := i, rem := rem } }

/-- The ticks that a bit is high (R119). -/
def TxTiming.bit (tm : TxTiming) (b : Bool) : Word := if b then tm.bit1 else tm.bit0

/-- The ticks that frame bit `i` is high. -/
def State.bitTicks (s : State) (i : Nat) : Word := s.txTiming.bit (s.fbufBit 0 i)

/-- The state after the last tick of TERM. -/
def State.txReported (s : State) : State :=
  { s with
    irq := { s.irq with status := s.irq.status ||| 0x08 }
    tx :=
      { s.tx with
        phase := if s.cfg.txRepeat then .delay else .idle
        count := s.tx.count + 1
        rem := if s.cfg.txRepeat then s.txTiming.delay else 0 } }

theorem State.txAt_eq_self {s : State} {ph : TxPhase} {i rem : Word} (hph : s.tx.phase = ph)
    (hi : s.tx.bitIdx = i) (hrem : s.tx.rem = rem) : s.txAt ph i rem = s := by
  subst hph hi hrem
  rfl

section
variable {s : State}

theorem State.txTick_idle (h : s.tx.phase = .idle) : s.txTick = s := if_pos h

/-- Before the end of a phase only the ticks left change. -/
theorem State.txTick_wait (hbusy : s.tx.phase ≠ .idle) (hrem : s.tx.rem ≠ 1) :
    s.txTick = s.txAt s.tx.phase s.tx.bitIdx (s.tx.rem - 1) := by
  have hmore : s.tx.rem - 1 ≠ 0 := by bv_omega
  exact (if_neg hbusy).trans (if_neg hmore)

/-- At the end of a phase the next one is entered. -/
theorem State.txTick_end {ph : TxPhase} (hrem : s.tx.rem = 1) (hph : s.tx.phase = ph) (hbusy : ph ≠ .idle) :
    s.txTick = (s.txAt ph s.tx.bitIdx 0).txNext := by
  subst hph
  have hzero : s.tx.rem - 1 = 0 := by rw [hrem]; rfl
  refine (if_neg hbusy).trans ((if_pos hzero).trans ?_)
  rw [hzero]
  rfl

theorem State.txTick_pre (hrem : s.tx.rem = 1) (hph : s.tx.phase = .pre) :
    s.txTick = s.txAt .init s.tx.bitIdx s.txTiming.init := State.txTick_end hrem hph (by decide)

theorem State.txTick_init (hrem : s.tx.rem = 1) (hph : s.tx.phase = .init) :
    s.txTick = s.txAt .gapi s.tx.bitIdx s.txTiming.gap := State.txTick_end hrem hph (by decide)

theorem State.txTick_gapi_empty (hrem : s.tx.rem = 1) (hph : s.tx.phase = .gapi) (hlen : s.tx.len = 0) :
    s.txTick = s.txAt .term s.tx.bitIdx s.txTiming.term :=
  (State.txTick_end hrem hph (by decide)).trans (if_pos hlen)

theorem State.txTick_gapi (hrem : s.tx.rem = 1) (hph : s.tx.phase = .gapi) (hlen : s.tx.len ≠ 0) :
    s.txTick = s.txAt .bith 0 (s.bitTicks 0) :=
  (State.txTick_end hrem hph (by decide)).trans (if_neg hlen)

theorem State.txTick_bith (hrem : s.tx.rem = 1) (hph : s.tx.phase = .bith) :
    s.txTick = s.txAt .bitl s.tx.bitIdx s.txTiming.gap := State.txTick_end hrem hph (by decide)

theorem State.txTick_bitl (hrem : s.tx.rem = 1) (hph : s.tx.phase = .bitl)
    (hmore : s.tx.bitIdx.toNat + 1 < s.tx.len.toNat) :
    s.txTick = s.txAt .bith (s.tx.bitIdx + 1) (s.bitTicks (s.tx.bitIdx.toNat + 1)) := by
  have hnext : (s.tx.bitIdx + 1).toNat = s.tx.bitIdx.toNat + 1 := by bv_omega
  rw [← hnext]
  exact (State.txTick_end hrem hph (by decide)).trans (if_pos hmore)

theorem State.txTick_bitl_last (hrem : s.tx.rem = 1) (hph : s.tx.phase = .bitl)
    (hlast : s.tx.len.toNat ≤ s.tx.bitIdx.toNat + 1) : s.txTick = s.txAt .term 0 s.txTiming.term :=
  (State.txTick_end hrem hph (by decide)).trans (if_neg (Nat.not_lt.2 hlast))

theorem State.txTick_term (hrem : s.tx.rem = 1) (hph : s.tx.phase = .term) : s.txTick = s.txReported := by
  rw [State.txTick_end hrem hph (by decide)]
  show State.txFrameDone _ = _
  unfold State.txFrameDone State.txReported
  dsimp only
  cases hrep : s.cfg.txRepeat
  · exact if_neg (by rw [show (s.txAt .term s.tx.bitIdx 0).cfg = s.cfg from rfl, hrep]; decide)
  · exact if_pos hrep

theorem State.txTick_delay (hrem : s.tx.rem = 1) (hph : s.tx.phase = .delay) :
    s.txTick = s.txAt .pre s.tx.bitIdx s.txTiming.pre := State.txTick_end hrem hph (by decide)

end

/-- Settles O35, phase by phase. -/
theorem txTickRunsPhases : Obligations.TxTickRunsPhases := by
  intro s
  refine ⟨State.txTick_idle, State.txTick_wait, fun hrem => ⟨?_, ?_, ?_, ?_, ?_, ?_, ?_, ?_, ?_⟩⟩
  · exact State.txTick_pre hrem
  · exact State.txTick_init hrem
  · exact State.txTick_gapi_empty hrem
  · exact State.txTick_gapi hrem
  · exact State.txTick_bith hrem
  · exact State.txTick_bitl hrem
  · exact State.txTick_bitl_last hrem
  · exact State.txTick_term hrem
  · exact State.txTick_delay hrem

/-! ### Runs of the TX engine -/

/-- The TX engine, ticking from `s`, is in the phases listed, one for each tick, and ends in `t`. -/
inductive State.Sends : State → List TxPhase → State → Prop
  | done (s : State) : State.Sends s [] s
  | tick {s t : State} {phs : List TxPhase} : State.Sends s.txTick phs t →
      State.Sends s (s.tx.phase :: phs) t

section
variable {s t u : State} {phs phs' : List TxPhase}

theorem State.Sends.trans (h : s.Sends phs t) (h' : t.Sends phs' u) : s.Sends (phs ++ phs') u := by
  induction h with
  | done s => exact h'
  | tick _ ih => exact .tick (ih h')

theorem State.Sends.iterate (h : s.Sends phs t) : State.txTick^[phs.length] s = t := by
  induction h with
  | done s => rfl
  | tick _ ih => exact ih

/-- The phase at every tick of a run is one of those listed. -/
theorem State.Sends.phase_mem (h : s.Sends phs t) {k : Nat} (hk : k < phs.length) :
    (State.txTick^[k] s).tx.phase ∈ phs := by
  induction h generalizing k with
  | done s => exact absurd hk (Nat.not_lt_zero k)
  | tick _ ih =>
    cases k with
    | zero => exact List.mem_cons_self
    | succ k => exact List.mem_cons_of_mem _ (ih (Nat.lt_of_succ_lt_succ hk))

end

/-- A phase lasts the ticks it was entered with. -/
theorem State.sends_phase (s : State) {ph : TxPhase} (hbusy : ph ≠ .idle) (i : Word) {w : Word} (hw : w ≠ 0) :
    (s.txAt ph i w).Sends (List.replicate w.toNat ph) (s.txAt ph i 1).txTick := by
  obtain ⟨n, hn⟩ : ∃ n, w.toNat = n + 1 := Nat.exists_eq_succ_of_ne_zero (by bv_omega)
  rw [hn]
  clear hw
  induction n generalizing w with
  | zero =>
    obtain rfl : w = 1 := BitVec.eq_of_toNat_eq hn
    exact .tick (.done _)
  | succ n ih =>
    have hrem : (s.txAt ph i w).txTick = s.txAt ph i (w - 1) :=
      State.txTick_wait hbusy (show w ≠ 1 by bv_omega)
    refine .tick ?_
    rw [hrem]
    exact ih (by bv_omega)

/-! ### A frame -/

/-- The phases of a frame bit (R119). -/
def bitPhases (tm : TxTiming) (b : Bool) : List TxPhase :=
  List.replicate (tm.bit b).toNat .bith ++ List.replicate tm.gap.toNat .bitl

/-- The phases of a frame (R119). -/
def framePhases (tm : TxTiming) (bits : List Bool) : List TxPhase :=
  List.replicate tm.pre.toNat .pre ++ (List.replicate tm.init.toNat .init ++
    (List.replicate tm.gap.toNat .gapi ++ (bits.flatMap (bitPhases tm) ++ List.replicate tm.term.toNat .term)))

theorem length_flatMap_bitPhases (tm : TxTiming) (bits : List Bool) :
    (bits.flatMap (bitPhases tm)).length =
      bits.count false * (tm.bit0.toNat + tm.gap.toNat) + bits.count true * (tm.bit1.toNat + tm.gap.toNat) := by
  induction bits with
  | nil => simp
  | cons b bits ih =>
    rw [List.flatMap_cons, List.length_append, ih]
    cases b <;> simp [bitPhases, TxTiming.bit] <;> ring

theorem length_framePhases (tm : TxTiming) (bits : List Bool) :
    (framePhases tm bits).length =
      tm.pre.toNat + tm.init.toNat + tm.gap.toNat + bits.count false * (tm.bit0.toNat + tm.gap.toNat) +
        bits.count true * (tm.bit1.toNat + tm.gap.toNat) + tm.term.toNat := by
  simp only [framePhases, List.length_append, List.length_replicate, length_flatMap_bitPhases]
  omega

theorem ne_idle_of_mem_framePhases {tm : TxTiming} {bits : List Bool} {ph : TxPhase}
    (h : ph ∈ framePhases tm bits) : ph ≠ .idle := by
  rintro rfl
  simp [framePhases, bitPhases, List.mem_replicate] at h

theorem takeBits_succ (bit : Nat → Bool) (n : Nat) : takeBits bit (n + 1) = takeBits bit n ++ [bit n] := by
  simp [takeBits, List.range_succ]

/-- Where the engine goes when bit `i` is next: to that bit, or to TERM after the last. -/
def State.txFromBit (s : State) (i : Nat) : State :=
  if i < s.tx.len.toNat then s.txAt .bith (BitVec.ofNat 32 i) (s.bitTicks i) else s.txAt .term 0 s.txTiming.term

section
variable {s : State}

/-- GAPI ends at the first bit, or at TERM when there is none. -/
theorem State.txTick_gapi_end : (s.txAt .gapi 0 1).txTick = s.txFromBit 0 := by
  by_cases hlen : s.tx.len = 0
  · exact (State.txTick_gapi_empty (s := s.txAt .gapi 0 1) rfl rfl hlen).trans
      (if_neg (by rw [hlen]; decide)).symm
  · exact (State.txTick_gapi (s := s.txAt .gapi 0 1) rfl rfl hlen).trans
      (if_pos (show 0 < s.tx.len.toNat by bv_omega)).symm

/-- The low time of a bit ends at the next bit, or at TERM when there is none. -/
theorem State.txTick_bitl_end {i : Nat} (hi : i < s.tx.len.toNat) :
    (s.txAt .bitl (BitVec.ofNat 32 i) 1).txTick = s.txFromBit (i + 1) := by
  have hmod : (BitVec.ofNat 32 i).toNat = i := by
    rw [BitVec.toNat_ofNat]; exact Nat.mod_eq_of_lt (hi.trans s.tx.len.isLt)
  have hidx : (s.txAt .bitl (BitVec.ofNat 32 i) 1).tx.bitIdx.toNat = i := hmod
  by_cases hmore : i + 1 < s.tx.len.toNat
  · rw [State.txTick_bitl rfl rfl (by rw [hidx]; exact hmore), hidx]
    refine Eq.trans ?_ (if_pos hmore).symm
    rw [BitVec.ofNat_add]
    rfl
  · rw [State.txTick_bitl_last rfl rfl (by rw [hidx]; exact Nat.not_lt.1 hmore)]
    exact (if_neg hmore).symm

theorem State.TxOk.bit_ne_zero (hs : s.TxOk) (b : Bool) : s.txTiming.bit b ≠ 0 := by
  obtain ⟨-, -, -, -, -, -, -, hbit0, hbit1, -⟩ := hs
  cases b
  · exact hbit0
  · exact hbit1

/-- One bit of the frame. -/
theorem State.TxOk.sends_bit (hs : s.TxOk) {i : Nat} (hi : i < s.tx.len.toNat) :
    (s.txFromBit i).Sends (bitPhases s.txTiming (s.fbufBit 0 i)) (s.txFromBit (i + 1)) := by
  obtain ⟨-, -, -, -, -, -, hgap, -⟩ := id hs
  rw [State.txFromBit, if_pos hi]
  refine (s.sends_phase (by decide) _ (hs.bit_ne_zero _)).trans ?_
  rw [State.txTick_bith rfl rfl, ← State.txTick_bitl_end hi]
  exact s.sends_phase (by decide) _ hgap

/-- The first `n` bits of the frame. -/
theorem State.TxOk.sends_bits (hs : s.TxOk) {n : Nat} (hn : n ≤ s.tx.len.toNat) :
    (s.txFromBit 0).Sends ((takeBits (s.fbufBit 0) n).flatMap (bitPhases s.txTiming)) (s.txFromBit n) := by
  induction n with
  | zero => exact .done _
  | succ n ih =>
    rw [takeBits_succ, List.flatMap_append, List.flatMap_singleton]
    exact (ih (by omega)).trans (hs.sends_bit hn)

/-- A whole frame, from PRE to the end of TERM. -/
theorem State.TxOk.sends_frame (hs : s.TxOk) (hph : s.tx.phase = .pre) (hrem : s.tx.rem = s.txTiming.pre) :
    s.Sends (framePhases s.txTiming (takeBits (s.fbufBit 0) s.tx.len.toNat)) (s.txAt .term 0 1).txReported := by
  obtain ⟨-, -, hzero, -, hpre, hinit, hgap, -, -, hterm, -⟩ := id hs
  have hidx : s.tx.bitIdx = 0 := hzero (by rw [hph]; decide) (by rw [hph]; decide)
  have hstart := s.sends_phase (ph := .pre) (by decide) 0 hpre
  rw [State.txAt_eq_self hph hidx hrem, State.txTick_pre rfl rfl] at hstart
  have hinits := s.sends_phase (ph := .init) (by decide) 0 hinit
  rw [State.txTick_init rfl rfl] at hinits
  have hgaps := s.sends_phase (ph := .gapi) (by decide) 0 hgap
  rw [State.txTick_gapi_end] at hgaps
  have hbits := hs.sends_bits le_rfl
  rw [show s.txFromBit s.tx.len.toNat = s.txAt .term 0 s.txTiming.term from if_neg (lt_irrefl _)] at hbits
  have hterms := s.sends_phase (ph := .term) (by decide) 0 hterm
  rw [State.txTick_term rfl rfl] at hterms
  exact hstart.trans (hinits.trans (hgaps.trans (hbits.trans hterms)))

end

/-- Settles O36: the phases of the frame, counted. -/
theorem frameLastsItsTicks : Obligations.FrameLastsItsTicks := by
  intro s hs honce hph hrem _ len bits ticks
  have hframe := hs.sends_frame hph hrem
  have hticks : (framePhases s.txTiming bits).length = ticks := length_framePhases _ _
  refine ⟨fun k hk => ?_, ?_⟩
  · exact ne_idle_of_mem_framePhases (hframe.phase_mem (hk.trans_eq hticks.symm))
  · rw [← hticks, hframe.iterate]
    unfold State.txReported
    rw [show (s.txAt .term 0 1).cfg = s.cfg from rfl, honce]
    rfl

end Sys2Proof.Machine
end

section
/-! PROOFS of O37, `RxTickMeasuresPulses`, O38, `PulseDrivesReceiver`, O41, `DelayIgnoresLine`, and O42,
`TickSamplesLine`: the RX engine's tick by its state and its detector's, what a pulse does, and the whole tick
(42_pulse.md R116, R124 to R126, R130). -/

namespace Sys2Proof.Machine

/-! ### A tick while the engine listens (R125) -/

/-- The engine in AWAIT or RECV, where it measures pulses. -/
def State.Listens (s : State) : Prop := s.rx.phase = .await ∨ s.rx.phase = .recv

/-- The level of a tick, recorded. -/
def State.rxSampled (s : State) (x : Bool) : State := { s with rx := { s.rx with level := x } }

/-- The falling edge of a run, sampled. -/
def State.rxFall (s : State) : State := { s with rx := { s.rx with level := false, det := .low, hcnt := 0 } }

/-- In HIGH after `d` high samples, at least one; the count stops at 2^32 - 1. -/
def State.rxHigh (s : State) (d : Nat) : State :=
  { s with rx := { s.rx with level := true, det := .high, hcnt := BitVec.ofNat 32 (min d (2 ^ 32 - 1)) } }

section
variable {s : State}

theorem State.Listens.rxTick_needLow_true (h : s.Listens) (hdet : s.rx.det = .needLow) :
    s.rxTick true = s.rxSampled true :=
  (s.rxTick_detect true h).trans ((s.rxSampled true).rxDetect_needLow true hdet)

theorem State.Listens.rxTick_needLow_false (h : s.Listens) (hdet : s.rx.det = .needLow) :
    s.rxTick false = { s with rx := { s.rx with level := false, det := .low } } :=
  (s.rxTick_detect false h).trans ((s.rxSampled false).rxDetect_needLow false hdet)

theorem State.Listens.rxTick_low_true (h : s.Listens) (hdet : s.rx.det = .low) :
    s.rxTick true = s.rxHigh 1 :=
  (s.rxTick_detect true h).trans ((s.rxSampled true).rxDetect_low true hdet)

theorem State.Listens.rxTick_low_false (h : s.Listens) (hdet : s.rx.det = .low) :
    s.rxTick false = s.rxSampled false :=
  (s.rxTick_detect false h).trans ((s.rxSampled false).rxDetect_low false hdet)

theorem State.Listens.rxTick_high_true (h : s.Listens) (hdet : s.rx.det = .high) :
    s.rxTick true =
      { s with
        rx :=
          { s.rx with
            level := true, hcnt := BitVec.ofNat 32 (min (s.rx.hcnt.toNat + 1) (2 ^ 32 - 1)) } } :=
  (s.rxTick_detect true h).trans ((s.rxSampled true).rxDetect_high_true hdet)

theorem State.Listens.rxTick_high_false (h : s.Listens) (hdet : s.rx.det = .high) :
    s.rxTick false = s.rxFall.rxPulse s.rx.hcnt :=
  (s.rxTick_detect false h).trans ((s.rxSampled false).rxDetect_high_false hdet)

/-- One more high sample. -/
theorem State.Listens.rxTick_rxHigh (h : s.Listens) (d : Nat) : (s.rxHigh d).rxTick true = s.rxHigh (d + 1) := by
  have hcount : min ((s.rxHigh d).rx.hcnt.toNat + 1) (2 ^ 32 - 1) = min (d + 1) (2 ^ 32 - 1) := by
    show min ((BitVec.ofNat 32 (min d (2 ^ 32 - 1))).toNat + 1) _ = _
    rw [BitVec.toNat_ofNat]
    omega
  rw [State.Listens.rxTick_high_true (s := s.rxHigh d) h rfl, hcount]
  rfl

/-- A run of high samples after a low one. -/
theorem State.Listens.rxTick_run (h : s.Listens) (hdet : s.rx.det = .low) (n : Nat) :
    (fun u : State => u.rxTick true)^[n + 1] s = s.rxHigh (n + 1) := by
  induction n with
  | zero => exact h.rxTick_low_true hdet
  | succ n ih => rw [Function.iterate_succ_apply', ih, h.rxTick_rxHigh]

/-- The run's falling edge is a pulse of its length. -/
theorem State.Listens.rxTick_rxHigh_false (h : s.Listens) (d : Nat) :
    (s.rxHigh d).rxTick false = s.rxFall.rxPulse (BitVec.ofNat 32 (min d (2 ^ 32 - 1))) :=
  State.Listens.rxTick_high_false (s := s.rxHigh d) h rfl

/-- In NEEDLOW a run in progress is not measured. -/
theorem State.Listens.rxTick_needLow_run (h : s.Listens) (hdet : s.rx.det = .needLow) (n : Nat) :
    (fun u : State => u.rxTick true)^[n + 1] s = s.rxSampled true := by
  induction n with
  | zero => exact h.rxTick_needLow_true hdet
  | succ n ih =>
    rw [Function.iterate_succ_apply', ih]
    exact State.Listens.rxTick_needLow_true (s := s.rxSampled true) h hdet

/-! ### A tick in DELAY (R130) -/

theorem State.rxTick_delay (x : Bool) (h : s.rx.phase = .delay) (hmore : s.rx.dcnt ≠ 1) :
    s.rxTick x = { s with rx := { s.rx with level := x, dcnt := s.rx.dcnt - 1 } } := by
  have hne : s.rx.dcnt - 1 ≠ 0 := by bv_omega
  unfold State.rxTick
  rw [h]
  exact if_neg hne

theorem State.rxTick_delay_end (x : Bool) (h : s.rx.phase = .delay) (hlast : s.rx.dcnt = 1) :
    s.rxTick x =
      { s with rx := { s.rx with level := x, dcnt := 0, phase := .await, det := .needLow } } := by
  have hzero : s.rx.dcnt - 1 = 0 := by rw [hlast]; rfl
  unfold State.rxTick State.rxDelayTick
  rw [h]
  dsimp only
  rw [hzero]
  exact if_pos rfl

/-- The delay before its last tick. -/
theorem State.foldl_rxTick_delay (h : s.rx.phase = .delay) (samples : List Bool)
    (hlen : samples.length < s.rx.dcnt.toNat) :
    samples.foldl State.rxTick s =
      { s with
        rx :=
          { s.rx with
            level := samples.getLastD s.rx.level, dcnt := s.rx.dcnt - BitVec.ofNat 32 samples.length } } := by
  induction samples using List.reverseRecOn with
  | nil => simp
  | append_singleton samples x ih =>
    rw [List.length_append, List.length_singleton] at hlen ⊢
    have hmore : s.rx.dcnt - BitVec.ofNat 32 samples.length ≠ 1 := by bv_omega
    rw [List.foldl_append, ih (by omega), List.foldl_cons, List.foldl_nil, State.rxTick_delay x ?_ ?_]
    · simp [BitVec.ofNat_add, BitVec.sub_sub]
    · exact h
    · exact hmore

end

/-- Settles O37, by the engine's state and the detector's. -/
theorem rxTickMeasuresPulses : Obligations.RxTickMeasuresPulses := by
  intro s sampled high
  refine ⟨fun h x => s.rxTick_still x h, fun h x => ⟨fun hmore => ?_, fun hlast => ?_⟩,
    fun h => ⟨fun hdet => ?_, fun hdet => ?_, fun hdet => ?_⟩⟩
  · exact State.rxTick_delay x h fun hone => by rw [hone] at hmore; exact absurd hmore (by decide)
  · exact State.rxTick_delay_end x h hlast
  · have hlisten : s.Listens := h
    refine ⟨hlisten.rxTick_needLow_true hdet, hlisten.rxTick_needLow_false hdet, fun d hd => ?_⟩
    obtain ⟨n, rfl⟩ := Nat.exists_eq_add_of_le' hd
    have hrun : high (n + 1) s = sampled true := hlisten.rxTick_needLow_run hdet n
    refine ⟨hrun, ?_⟩
    rw [hrun]
    exact State.Listens.rxTick_needLow_false (s := sampled true) h hdet
  · have hlisten : s.Listens := h
    refine ⟨hlisten.rxTick_low_false hdet, hlisten.rxTick_low_true hdet, fun d hd => ?_⟩
    obtain ⟨n, rfl⟩ := Nat.exists_eq_add_of_le' hd
    have hrun : high (n + 1) s = s.rxHigh (n + 1) := hlisten.rxTick_run hdet n
    refine ⟨hrun, ?_⟩
    rw [hrun]
    exact hlisten.rxTick_rxHigh_false (n + 1)
  · have hlisten : s.Listens := h
    exact ⟨hlisten.rxTick_high_true hdet, hlisten.rxTick_high_false hdet⟩

/-- Settles O41: the ticks before the last one, and the last one. -/
theorem delayIgnoresLine : Obligations.DelayIgnoresLine := by
  intro s samples h _ _ hne
  obtain ⟨before, x, rfl⟩ := (List.eq_nil_or_concat' samples).resolve_left hne
  refine ⟨fun hlen => ?_, fun hlen => ?_⟩
  · rw [State.foldl_rxTick_delay h _ hlen]
    simp
  · rw [List.length_append, List.length_singleton] at hlen
    have hlast : s.rx.dcnt - BitVec.ofNat 32 before.length = 1 := by bv_omega
    rw [List.foldl_append, State.foldl_rxTick_delay h before (by omega), List.foldl_cons, List.foldl_nil,
      State.rxTick_delay_end x ?_ ?_]
    · simp
    · exact h
    · exact hlast

/-! ### What a pulse does (R125, R126) -/

section
variable {s : State} {d : Word}

theorem State.rxPulse_init (hph : s.rx.phase = .await) (hd : classifyAwait s.bands d = .init) :
    s.rxPulse d = { s with rx := { s.rx with phase := .recv, rbufLen := 0, ovf := false } } :=
  (if_pos hph).trans (if_pos hd)

/-- The class of a data bit. -/
def bitClass (b : Bool) : PulseClass := if b then .bit1 else .bit0

theorem State.rxPulse_bit (hph : s.rx.phase = .recv) {b : Bool} (hd : classifyRecv s.bands d = bitClass b) :
    s.rxPulse d = s.rxAppend b := by
  have hne : s.rx.phase ≠ .await := by rw [hph]; decide
  unfold State.rxPulse
  rw [if_neg hne, hd]
  cases b <;> rfl

theorem State.rxPulse_term (hph : s.rx.phase = .recv) (hd : classifyRecv s.bands d = .term) :
    s.rxPulse d =
      { s with
        rx :=
          { s.rx with
            phase := .parse, parsePending := some { len := s.rx.rbufLen, ovf := s.rx.ovf } } } := by
  have hne : s.rx.phase ≠ .await := by rw [hph]; decide
  unfold State.rxPulse
  rw [if_neg hne, hd]

theorem State.rxPulse_noise (hph : s.rx.phase = .recv) (hd : classifyRecv s.bands d = .noise) :
    s.rxPulse d = s := by
  have hne : s.rx.phase ≠ .await := by rw [hph]; decide
  unfold State.rxPulse
  rw [if_neg hne, hd]

/-- A bit with room in RBUF goes to its end. -/
theorem State.rxAppend_room (hroom : s.rx.rbufLen.toNat < s.params.bitsMax) (b : Bool) :
    s.rxAppend b =
      { s with
        store := s.store.putBits rbufBase s.rx.rbufLen.toNat [b]
        rx := { s.rx with rbufLen := s.rx.rbufLen + 1 } } := if_pos hroom

theorem State.rxAppend_full (hfull : s.params.bitsMax ≤ s.rx.rbufLen.toNat) (b : Bool) :
    s.rxAppend b = { s with rx := { s.rx with ovf := true } } := if_neg (Nat.not_lt.2 hfull)

theorem State.rbufBit_rxAppend (hroom : s.rx.rbufLen.toNat < s.params.bitsMax) (b : Bool) (pass k : Nat) :
    (s.rxAppend b).rbufBit pass k = if k = s.rx.rbufLen.toNat then b else s.rbufBit pass k := by
  refine (State.readBit_putBits s (s.rxAppend b) pass rbufBase s.rx.rbufLen.toNat k [b] ?_ ?_ (by decide)).trans ?_
  · rw [State.rxAppend_room hroom]
  · rw [State.rxAppend_room hroom]
  by_cases hk : k = s.rx.rbufLen.toNat
  · simp [hk]
  · rw [if_neg hk, if_neg (by rw [List.length_singleton]; omega)]
    rfl

theorem State.sameBytes_rxAppend (hroom : s.rx.rbufLen.toNat < s.params.bitsMax) (b : Bool) :
    SameBytesBut s (s.rxAppend b) (fun a => a = rbufBase + s.rx.rbufLen.toNat / 8) := by
  rw [State.rxAppend_room hroom]
  exact State.sameBytes_of_writesIn (s.store.writesIn_putBit rbufBase s.rx.rbufLen.toNat b rfl) rfl rfl

/-- A pulse leaves the detector and the level as the tick left them. -/
theorem State.rxPulse_detector (s : State) (d : Word) :
    (s.rxPulse d).rx.det = s.rx.det ∧ (s.rxPulse d).rx.level = s.rx.level := by
  have happend (b : Bool) : (s.rxAppend b).rx.det = s.rx.det ∧ (s.rxAppend b).rx.level = s.rx.level := by
    unfold State.rxAppend; split <;> exact ⟨rfl, rfl⟩
  unfold State.rxPulse
  split
  · split <;> exact ⟨rfl, rfl⟩
  · split
    · exact happend false
    · exact happend true
    all_goals exact ⟨rfl, rfl⟩

end

/-- Settles O38, class by class. -/
theorem pulseDrivesReceiver : Obligations.PulseDrivesReceiver := by
  intro s d append
  have happend (b : Bool) (h : s.rxPulse d = s.rxAppend b) : append b := by
    refine ⟨fun hroom => ?_, fun hfull => ?_⟩ <;> rw [h]
    · exact ⟨by rw [State.rxAppend_room hroom], State.rbufBit_rxAppend hroom b, State.sameBytes_rxAppend hroom b⟩
    · exact State.rxAppend_full hfull b
  refine ⟨fun hph => ⟨fun hd => ?_, fun hd => ?_⟩,
    fun hph => ⟨fun hd => ?_, fun hd => ?_, fun hd => ?_, fun hd => ?_⟩⟩
  · exact State.rxPulse_init hph hd
  · exact (if_pos hph).trans (if_neg hd)
  · exact happend false (State.rxPulse_bit hph hd)
  · exact happend true (State.rxPulse_bit hph hd)
  · exact State.rxPulse_noise hph hd
  · exact State.rxPulse_term hph hd

/-! ### The whole tick (R116, R124) -/

/-- Every tick records the level it samples. -/
theorem State.rxTick_level (s : State) (x : Bool) : (s.rxTick x).rx.level = x := by
  have listening (h : s.rx.phase = .await ∨ s.rx.phase = .recv) : (s.rxTick x).rx.level = x := by
    have hlisten : s.Listens := h
    cases hdet : s.rx.det <;> cases x
    case needLow.false => rw [hlisten.rxTick_needLow_false hdet]
    case needLow.true => rw [hlisten.rxTick_needLow_true hdet]; rfl
    case low.false => rw [hlisten.rxTick_low_false hdet]; rfl
    case low.true => rw [hlisten.rxTick_low_true hdet]; rfl
    case high.false => rw [hlisten.rxTick_high_false hdet]; exact (s.rxFall.rxPulse_detector _).2
    case high.true => rw [hlisten.rxTick_high_true hdet]
  cases hph : s.rx.phase with
  | idle => rw [s.rxTick_still x (.inl hph)]
  | parse => rw [s.rxTick_still x (.inr hph)]
  | await => exact listening (.inl hph)
  | recv => exact listening (.inr hph)
  | delay =>
    by_cases hlast : s.rx.dcnt = 1
    · rw [State.rxTick_delay_end x hph hlast]
    · rw [State.rxTick_delay x hph hlast]

/-- The level sampled is the line's, or in loopback the TX engine's own. -/
theorem State.tickStep_level (s : State) (x : Bool) :
    (s.tickStep x).rx.level = if s.cfg.loop then s.lineOut else x := by
  rw [State.tickStep_eq]
  exact s.rxTick_level _

/-- Settles O42: the two engines' ticks side by side, and which level the RX engine samples. -/
theorem tickSamplesLine : Obligations.TickSamplesLine := by
  intro s x moved
  have htick (y : Bool) : s.tickStep y = moved (if s.cfg.loop then s.lineOut else y) := s.tickStep_eq y
  have hlevel := s.tickStep_level x
  refine ⟨fun hline => ?_, fun hloop => ?_⟩
  · rw [hline] at htick hlevel
    exact ⟨htick x, hlevel⟩
  · rw [hloop] at htick hlevel
    exact ⟨htick x, hlevel, (htick x).trans (htick !x).symm⟩

end Sys2Proof.Machine
end

section
/-! PROOF of O40, `LoopbackDeliversFrame` (42_pulse.md R131). In loopback the two engines run side by side: the TX
engine as it does alone, and the RX engine on the levels of the TX engine's phases. Over the levels of a frame, the RX
engine measures one pulse for the initiation, one for each bit and one for the termination. -/

namespace Sys2Proof.Machine

/-! ### The two engines apart -/

/-- `s` with the TX engine's registers, TIME and IRQ_STATUS as given: what a tick changes beside the RX engine. -/
def State.withTx (s : State) (c : ClockRegs) (q : IrqRegs) (r : TxRegs) : State :=
  { s with clock := c, irq := q, tx := r }

theorem State.tickStep_eq_withTx (s : State) (x : Bool) :
    s.tickStep x =
      (s.rxTick (if s.cfg.loop then s.lineOut else x)).withTx { s.clock with time := s.clock.time + 1 }
        s.txTick.irq s.txTick.tx := by
  rw [State.tickStep_eq, s.rxTick_frame]
  rfl

section
variable {s : State} (c : ClockRegs) (q : IrqRegs) (r : TxRegs)

theorem State.rxPulse_withTx (s : State) (d : Word) : (s.withTx c q r).rxPulse d = (s.rxPulse d).withTx c q r := by
  have happend (b : Bool) : (s.withTx c q r).rxAppend b = (s.rxAppend b).withTx c q r := by
    by_cases hroom : s.rx.rbufLen.toNat < s.params.bitsMax
    · rw [State.rxAppend_room hroom, State.rxAppend_room (s := s.withTx c q r) hroom]; rfl
    · have hfull := Nat.not_lt.1 hroom
      rw [State.rxAppend_full hfull, State.rxAppend_full (s := s.withTx c q r) hfull]; rfl
  have hrx : (s.withTx c q r).rx = s.rx := rfl
  have hbands : (s.withTx c q r).bands = s.bands := rfl
  unfold State.rxPulse
  rw [hrx, hbands]
  by_cases hph : s.rx.phase = .await
  · rw [if_pos hph, if_pos hph]
    split <;> rfl
  · rw [if_neg hph, if_neg hph]
    cases classifyRecv s.bands d
    case bit0 => exact happend false
    case bit1 => exact happend true
    all_goals rfl

/-- The RX engine's tick neither reads nor changes TIME, IRQ_STATUS and the TX engine's registers. -/
theorem State.rxTick_withTx (s : State) (x : Bool) : (s.withTx c q r).rxTick x = (s.rxTick x).withTx c q r := by
  have listening (h : s.Listens) : (s.withTx c q r).rxTick x = (s.rxTick x).withTx c q r := by
    have h' : (s.withTx c q r).Listens := h
    cases hdet : s.rx.det <;> cases x
    case needLow.false => rw [h.rxTick_needLow_false hdet, h'.rxTick_needLow_false hdet]; rfl
    case needLow.true => rw [h.rxTick_needLow_true hdet, h'.rxTick_needLow_true hdet]; rfl
    case low.false => rw [h.rxTick_low_false hdet, h'.rxTick_low_false hdet]; rfl
    case low.true => rw [h.rxTick_low_true hdet, h'.rxTick_low_true hdet]; rfl
    case high.false =>
      rw [h.rxTick_high_false hdet, h'.rxTick_high_false hdet]
      exact State.rxPulse_withTx c q r s.rxFall s.rx.hcnt
    case high.true => rw [h.rxTick_high_true hdet, h'.rxTick_high_true hdet]; rfl
  cases hph : s.rx.phase with
  | idle => rw [s.rxTick_still x (.inl hph), (s.withTx c q r).rxTick_still x (.inl hph)]; rfl
  | parse => rw [s.rxTick_still x (.inr hph), (s.withTx c q r).rxTick_still x (.inr hph)]; rfl
  | await => exact listening (.inl hph)
  | recv => exact listening (.inr hph)
  | delay =>
    by_cases hlast : s.rx.dcnt = 1
    · rw [State.rxTick_delay_end x hph hlast, State.rxTick_delay_end (s := s.withTx c q r) x hph hlast]; rfl
    · rw [State.rxTick_delay x hph hlast, State.rxTick_delay (s := s.withTx c q r) x hph hlast]; rfl

theorem State.foldl_rxTick_withTx (s : State) (levels : List Bool) :
    levels.foldl State.rxTick (s.withTx c q r) = (levels.foldl State.rxTick s).withTx c q r := by
  induction levels generalizing s with
  | nil => rfl
  | cons x levels ih => rw [List.foldl_cons, State.rxTick_withTx, ih, List.foldl_cons]

end

/-- `u`'s TX engine is as `s`'s: its registers, and the frame it sends. -/
structure State.SendsAs (u s : State) : Prop where
  tx : u.tx = s.tx
  timing : u.txTiming = s.txTiming
  cfg : u.cfg = s.cfg
  fbuf : ∀ k < s.tx.len.toNat, u.fbufBit 0 k = s.fbufBit 0 k

theorem State.SendsAs.refl (s : State) : s.SendsAs s := ⟨rfl, rfl, rfl, fun _ _ => rfl⟩

section
variable {s t u : State}

theorem State.SendsAs.bitTicks (h : u.SendsAs s) {i : Nat} (hi : i < s.tx.len.toNat) :
    u.bitTicks i = s.bitTicks i := by
  unfold State.bitTicks
  rw [h.timing, h.fbuf i hi]

theorem State.SendsAs.txAt (h : u.SendsAs s) (ph : TxPhase) (i w : Word) :
    (u.txAt ph i w).tx = (s.txAt ph i w).tx := by
  unfold State.txAt
  rw [h.tx]

/-- What the TX engine does depends on its registers and on its frame alone. -/
theorem State.SendsAs.txTick_tx (h : u.SendsAs s) : u.txTick.tx = s.txTick.tx := by
  obtain ⟨htx, htiming, hcfg, -⟩ := id h
  by_cases hbusy : s.tx.phase = .idle
  · rw [State.txTick_idle hbusy, State.txTick_idle (by rw [htx]; exact hbusy), htx]
  rcases ne_or_eq s.tx.rem 1 with hrem | hrem
  · rw [State.txTick_wait hbusy hrem, State.txTick_wait (by rw [htx]; exact hbusy) (by rw [htx]; exact hrem),
      htx]
    exact h.txAt _ _ _
  have hrem' : u.tx.rem = 1 := by rw [htx]; exact hrem
  have hphase {ph : TxPhase} (h : s.tx.phase = ph) : u.tx.phase = ph := by rw [htx]; exact h
  cases hph : s.tx.phase
  case idle => exact absurd hph hbusy
  case pre =>
    rw [State.txTick_pre hrem hph, State.txTick_pre hrem' (hphase hph), htx, htiming]
    exact h.txAt _ _ _
  case init =>
    rw [State.txTick_init hrem hph, State.txTick_init hrem' (hphase hph), htx, htiming]
    exact h.txAt _ _ _
  case gapi =>
    by_cases hlen : s.tx.len = 0
    · have hlen' : u.tx.len = 0 := by rw [htx]; exact hlen
      rw [State.txTick_gapi_empty hrem hph hlen, State.txTick_gapi_empty hrem' (hphase hph) hlen', htx, htiming]
      exact h.txAt _ _ _
    · have hlen' : u.tx.len ≠ 0 := by rw [htx]; exact hlen
      rw [State.txTick_gapi hrem hph hlen, State.txTick_gapi hrem' (hphase hph) hlen', h.bitTicks (by bv_omega)]
      exact h.txAt _ _ _
  case bith =>
    rw [State.txTick_bith hrem hph, State.txTick_bith hrem' (hphase hph), htx, htiming]
    exact h.txAt _ _ _
  case bitl =>
    by_cases hmore : s.tx.bitIdx.toNat + 1 < s.tx.len.toNat
    · have hmore' : u.tx.bitIdx.toNat + 1 < u.tx.len.toNat := by rw [htx]; exact hmore
      rw [State.txTick_bitl hrem hph hmore, State.txTick_bitl hrem' (hphase hph) hmore', htx, h.bitTicks hmore]
      exact h.txAt _ _ _
    · have hlast := Nat.not_lt.1 hmore
      have hlast' : u.tx.len.toNat ≤ u.tx.bitIdx.toNat + 1 := by rw [htx]; exact hlast
      rw [State.txTick_bitl_last hrem hph hlast, State.txTick_bitl_last hrem' (hphase hph) hlast', htiming]
      exact h.txAt _ _ _
  case term =>
    rw [State.txTick_term hrem hph, State.txTick_term hrem' (hphase hph)]
    unfold State.txReported
    rw [htx, htiming, hcfg]
  case delay =>
    rw [State.txTick_delay hrem hph, State.txTick_delay hrem' (hphase hph), htx, htiming]
    exact h.txAt _ _ _

/-- TX_LEN stays. -/
theorem State.txTick_len (s : State) : s.txTick.tx.len = s.tx.len := by
  unfold State.txTick
  split
  · rfl
  · dsimp only
    split
    · unfold State.txNext State.txFrameDone
      dsimp only
      split <;> (try split) <;> rfl
    · rfl

/-- FBUF reads what the storage holds. -/
theorem State.fbufBit_of_store (hd : t.draws = s.draws) (hv : t.tree.tv = s.tree.tv) (hs : t.store = s.store)
    (pass k : Nat) : t.fbufBit pass k = s.fbufBit pass k := by
  unfold State.fbufBit State.readBit
  rw [State.readByte_of_store s t pass _ hd hv hs]

theorem State.fbufBit_txTick (s : State) (pass k : Nat) : s.txTick.fbufBit pass k = s.fbufBit pass k :=
  State.fbufBit_of_store (by rw [s.txTick_frame]) (by rw [s.txTick_frame]) (by rw [s.txTick_frame]) pass k

/-- The RX engine writes past FBUF. -/
theorem State.fbufBit_rxTick (s : State) (x : Bool) (pass : Nat) {k : Nat} (hk : k < 524288) :
    (s.rxTick x).fbufBit pass k = s.fbufBit pass k := by
  have hd : (s.rxTick x).draws = s.draws := by rw [s.rxTick_frame]
  have hv : (s.rxTick x).tree.tv = s.tree.tv := by rw [s.rxTick_frame]
  rcases s.rxTick_store x with h | ⟨-, v, h⟩
  · exact State.fbufBit_of_store hd hv h pass k
  · unfold State.fbufBit State.readBit
    rw [State.readByte_putBits_outside s _ pass rbufBase s.rx.rbufLen.toNat _ [v] h hd hv]
    intro i _
    unfold fbufBase rbufBase
    omega

theorem State.fbufBit_tickStep (s : State) (x : Bool) (pass : Nat) {k : Nat} (hk : k < 524288) :
    (s.tickStep x).fbufBit pass k = s.fbufBit pass k := by
  rw [State.tickStep_eq_withTx]
  exact s.fbufBit_rxTick _ pass hk

/-- A tick keeps the TX engine as it is alone. -/
theorem State.SendsAs.tickStep (h : u.SendsAs s) (hfits : s.tx.len.toNat ≤ 524288) (x : Bool) :
    (u.tickStep x).SendsAs s.txTick := by
  obtain ⟨-, htiming, hcfg, hfbuf⟩ := id h
  refine ⟨?_, ?_, ?_, fun k hk => ?_⟩
  · rw [State.tickStep_eq]; exact h.txTick_tx
  · rw [State.tickStep_eq, s.txTick_frame]; exact htiming
  · rw [State.tickStep_eq, s.txTick_frame]; exact hcfg
  · rw [s.txTick_len] at hk
    rw [u.fbufBit_tickStep x 0 (hk.trans_le hfits), s.fbufBit_txTick]
    exact hfbuf k hk

/-- In loopback, over a run of the TX engine, the RX engine takes the levels of its phases, whatever line_in
does. -/
theorem State.Sends.loopback {phs : List TxPhase} (h : s.Sends phs t) (hu : u.SendsAs s)
    (hloop : s.cfg.loop = true) (hfits : s.tx.len.toNat ≤ 524288) {lineIn : List Bool} (hlen : lineIn.length = phs.length) :
    ∃ c q, lineIn.foldl State.tickStep u =
      ((phs.map TxPhase.level).foldl State.rxTick u).withTx c q t.tx := by
  induction h generalizing u lineIn with
  | done s =>
    obtain rfl := List.eq_nil_of_length_eq_zero hlen
    exact ⟨u.clock, u.irq, by rw [← hu.tx]; rfl⟩
  | @tick s t phs _ ih =>
    obtain ⟨x, lineIn, rfl⟩ := List.exists_cons_of_length_eq_add_one hlen
    obtain ⟨c, q, hrest⟩ := ih (hu.tickStep hfits x) (by rw [s.txTick_frame]; exact hloop)
      (by rw [s.txTick_len]; exact hfits) (Nat.succ.inj hlen)
    have hsample : (if u.cfg.loop then u.lineOut else x) = s.tx.phase.level := by
      rw [hu.cfg, hloop, State.lineOut, hu.tx]
      rfl
    refine ⟨c, q, hrest.trans ?_⟩
    rw [State.tickStep_eq_withTx, hsample, State.foldl_rxTick_withTx, List.map_cons, List.foldl_cons]
    rfl

end

/-! ### Pulses on the line (R125) -/

/-- A pulse of `d` ticks with `g` low ticks after it. -/
def pulseLevels (d g : Word) : List Bool := List.replicate d.toNat true ++ List.replicate g.toNat false

theorem foldl_rxTick_replicate (s : State) (x : Bool) (n : Nat) :
    (List.replicate n x).foldl State.rxTick s = (fun u : State => u.rxTick x)^[n] s := by
  induction n generalizing s with
  | zero => rfl
  | succ n ih => rw [List.replicate_succ, List.foldl_cons, ih, Function.iterate_succ_apply]

/-- The engine after low samples: the detector in LOW. -/
def State.rxLow (s : State) : State := { s with rx := { s.rx with level := false, det := .low } }

section
variable {s : State} {d g : Word}

/-- Low samples after a low one change nothing. -/
theorem State.Listens.foldl_low (h : s.Listens) (hdet : s.rx.det = .low) (hlevel : s.rx.level = false) (n : Nat) :
    (List.replicate n false).foldl State.rxTick s = s := by
  have hfixed : s.rxTick false = s := by
    rw [h.rxTick_low_false hdet, ← hlevel]
    rfl
  rw [foldl_rxTick_replicate]
  exact Function.iterate_fixed hfixed n

/-- The first low samples bring the detector to LOW. -/
theorem State.Listens.foldl_start (h : s.Listens) (hdet : s.rx.det = .low ∨ s.rx.det = .needLow) (hg : g ≠ 0) :
    (List.replicate g.toNat false).foldl State.rxTick s = s.rxLow := by
  obtain ⟨n, hn⟩ : ∃ n, g.toNat = n + 1 := Nat.exists_eq_succ_of_ne_zero (by bv_omega)
  have hfirst : s.rxTick false = s.rxLow := by
    rcases hdet with hdet | hdet
    · rw [h.rxTick_low_false hdet, State.rxLow, ← hdet]; rfl
    · exact h.rxTick_needLow_false hdet
  rw [hn, List.replicate_succ, List.foldl_cons, hfirst]
  exact State.Listens.foldl_low (s := s.rxLow) h rfl rfl n

/-- A run of high samples and the low one after it are a pulse. -/
theorem State.Listens.foldl_pulse_one (h : s.Listens) (hdet : s.rx.det = .low) (hd : d ≠ 0) :
    (pulseLevels d 1).foldl State.rxTick s = s.rxFall.rxPulse d := by
  obtain ⟨n, hn⟩ : ∃ n, d.toNat = n + 1 := Nat.exists_eq_succ_of_ne_zero (by bv_omega)
  have hmin : BitVec.ofNat 32 (min (n + 1) (2 ^ 32 - 1)) = d := by
    have hlt := d.isLt
    rw [Nat.min_eq_left (by omega), ← hn]
    exact BitVec.eq_of_toNat_eq ((BitVec.toNat_ofNat _ _).trans (Nat.mod_eq_of_lt hlt))
  rw [pulseLevels, List.foldl_append, foldl_rxTick_replicate s, hn, h.rxTick_run hdet]
  exact (h.rxTick_rxHigh_false (n + 1)).trans (by rw [hmin])

/-- More low samples change nothing while the engine still listens. -/
theorem State.Listens.foldl_pulse (h : s.Listens) (hdet : s.rx.det = .low) (hd : d ≠ 0) (hg : g ≠ 0)
    (hnext : (s.rxFall.rxPulse d).Listens) :
    (pulseLevels d g).foldl State.rxTick s = s.rxFall.rxPulse d := by
  obtain ⟨n, hn⟩ : ∃ n, g.toNat = n + 1 := Nat.exists_eq_succ_of_ne_zero (by bv_omega)
  have hsplit : pulseLevels d g = pulseLevels d 1 ++ List.replicate n false := by
    rw [pulseLevels, pulseLevels, hn, List.append_assoc]
    rfl
  obtain ⟨hdetNext, hlevelNext⟩ := s.rxFall.rxPulse_detector d
  rw [hsplit, List.foldl_append, h.foldl_pulse_one hdet hd]
  exact hnext.foldl_low hdetNext hlevelNext n

end

/-! ### A frame on the line (R131) -/

/-- The levels of a frame, up to the falling edge of its termination pulse. -/
def frameLevels (tm : TxTiming) (bits : List Bool) : List Bool :=
  List.replicate tm.pre.toNat false ++ (pulseLevels tm.init tm.gap ++
    (bits.flatMap (fun b => pulseLevels (tm.bit b) tm.gap) ++ pulseLevels tm.term 1))

/-- They are the levels of the frame's phases, and of the phase after TERM. -/
theorem map_level_framePhases (tm : TxTiming) (bits : List Bool) {ph : TxPhase} (hph : ph.level = false) :
    (framePhases tm bits ++ [ph]).map TxPhase.level = frameLevels tm bits := by
  have hlevel : TxPhase.pre.level = false ∧ TxPhase.init.level = true ∧ TxPhase.gapi.level = false ∧
      TxPhase.bith.level = true ∧ TxPhase.bitl.level = false ∧ TxPhase.term.level = true := by decide
  simp [framePhases, frameLevels, bitPhases, pulseLevels, List.map_flatMap, hph, hlevel]

/-- The TX durations lie in the bands of their classes. -/
structure TimingInBands (tm : TxTiming) (b : Bands) : Prop where
  init : classifyAwait b tm.init = .init
  bit : ∀ v, classifyRecv b (tm.bit v) = bitClass v
  term : classifyRecv b tm.term = .term

/-- RBUF holds the first `n` bits of a frame whose end the engine awaits; but for the RX engine and RBUF, `u` is
`s`. -/
structure State.Received (s u : State) (bit : Nat → Bool) (n : Nat) : Prop where
  frame : u = { s with rx := u.rx, store := u.store }
  phase : u.rx.phase = .recv
  det : u.rx.det = .low
  ovf : u.rx.ovf = false
  len : u.rx.rbufLen.toNat = n
  bits : ∀ pass k, k < n → u.rbufBit pass k = bit k

/-- The state after the falling edge of a termination pulse. -/
def State.rxHanded (s : State) : State :=
  { s.rxFall with
    rx :=
      { s.rxFall.rx with
        phase := .parse, parsePending := some { len := s.rx.rbufLen, ovf := s.rx.ovf } } }

section
variable {s u : State} {bit : Nat → Bool} {n : Nat} {d g : Word}

/-- An initiation pulse starts a frame. -/
theorem State.received_init (hph : s.rx.phase = .await) (hdet : s.rx.det = .low) (hd : d ≠ 0) (hg : g ≠ 0)
    (hclass : classifyAwait s.bands d = .init) :
    s.Received ((pulseLevels d g).foldl State.rxTick s) bit 0 := by
  have hpulse := State.rxPulse_init (s := s.rxFall) hph hclass
  have hlisten : s.Listens := .inl hph
  rw [hlisten.foldl_pulse hdet hd hg (by rw [hpulse]; exact .inr rfl), hpulse]
  exact ⟨rfl, rfl, rfl, rfl, rfl, fun _ k hk => absurd hk (Nat.not_lt_zero k)⟩

/-- The low samples before a frame are no part of it. -/
theorem State.Received.of_rxLow (h : s.rxLow.Received u bit n) : s.Received u bit n :=
  ⟨h.frame, h.phase, h.det, h.ovf, h.len, h.bits⟩

/-- A bit's pulse puts the bit into RBUF. -/
theorem State.Received.next (hp : s.params.legal = true) (h : s.Received u bit n)
    (hroom : n < s.params.bitsMax) (hd : d ≠ 0) (hg : g ≠ 0) (hclass : classifyRecv s.bands d = bitClass (bit n)) :
    s.Received ((pulseLevels d g).foldl State.rxTick u) bit (n + 1) := by
  obtain ⟨hframe, hph, hdet, hovf, hlen, hbits⟩ := h
  have hlisten : u.Listens := .inr hph
  have hroom' : u.rxFall.rx.rbufLen.toNat < u.rxFall.params.bitsMax := by
    rw [show u.rxFall.params = s.params by rw [State.rxFall, hframe]]
    exact hlen.trans_lt hroom
  have hclass' : classifyRecv u.rxFall.bands d = bitClass (bit n) := by
    rw [show u.rxFall.bands = s.bands by rw [State.rxFall, hframe], hclass]
  have hpulse : u.rxFall.rxPulse d = u.rxFall.rxAppend (bit n) :=
    State.rxPulse_bit (s := u.rxFall) hph hclass'
  have happend := State.rxAppend_room hroom' (bit n)
  rw [hlisten.foldl_pulse hdet hd hg (by rw [hpulse, happend]; exact .inr hph), hpulse]
  refine ⟨?_, ?_, ?_, ?_, ?_, fun pass k hk => ?_⟩
  · rw [happend, State.rxFall, hframe]
  · rw [happend]; exact hph
  · rw [happend]; rfl
  · rw [happend]; exact hovf
  · rw [happend, ← hlen]
    obtain ⟨-, -, -, -, -, hmax⟩ := Params.legal_bounds hp
    show (u.rx.rbufLen + 1).toNat = _
    bv_omega
  · rw [State.rbufBit_rxAppend hroom', show u.rxFall.rx.rbufLen.toNat = n from hlen]
    split
    · next heq => rw [heq]
    · next hne => exact hbits pass k (by omega)

/-- The bits of a frame, one after another. -/
theorem State.Received.bits_all (hp : s.params.legal = true) {tm : TxTiming} (hgap : tm.gap ≠ 0)
    (hbit : ∀ v, tm.bit v ≠ 0) (hbands : TimingInBands tm s.bands)
    (h : s.Received u bit 0) (hn : n ≤ s.params.bitsMax) :
    s.Received (((takeBits bit n).flatMap fun b => pulseLevels (tm.bit b) tm.gap).foldl State.rxTick u) bit
      n := by
  induction n with
  | zero => exact h
  | succ n ih =>
    rw [takeBits_succ, List.flatMap_append, List.flatMap_singleton, List.foldl_append]
    exact (ih (by omega)).next hp (by omega) (hbit _) hgap (hbands.bit _)

/-- A termination pulse hands the frame to the parser. -/
theorem State.Received.handed (h : s.Received u bit n) (hd : d ≠ 0) (hclass : classifyRecv s.bands d = .term) :
    (pulseLevels d 1).foldl State.rxTick u = u.rxHanded := by
  have hlisten : u.Listens := .inr h.phase
  have hclass' : classifyRecv u.rxFall.bands d = .term := by
    rw [show u.rxFall.bands = s.bands by rw [State.rxFall, h.frame], hclass]
  rw [hlisten.foldl_pulse_one h.det hd]
  exact State.rxPulse_term (s := u.rxFall) h.phase hclass'

end

/-- A frame on the line is received whole, by an engine that awaits one. -/
theorem State.TxOk.receives_frame {s : State} (hs : s.TxOk) (hp : s.params.legal = true)
    (hbands : TimingInBands s.txTiming s.bands) (hph : s.rx.phase = .await)
    (hdet : s.rx.det = .low ∨ s.rx.det = .needLow) (bit : Nat → Bool) :
    ∃ u, s.Received u bit s.tx.len.toNat ∧
      (frameLevels s.txTiming (takeBits bit s.tx.len.toNat)).foldl State.rxTick s = u.rxHanded := by
  obtain ⟨-, -, -, hlen, hpre, hinit, hgap, -, -, hterm, -⟩ := id hs
  have hlisten : s.Listens := .inl hph
  unfold frameLevels
  rw [List.foldl_append, List.foldl_append, List.foldl_append, hlisten.foldl_start hdet hpre]
  have hempty := State.received_init (s := s.rxLow) (bit := bit) hph rfl hinit hgap hbands.init
  have hwhole := hempty.of_rxLow.bits_all hp hgap hs.bit_ne_zero hbands hlen
  exact ⟨_, hwhole, hwhole.handed hterm hbands.term⟩

/-! ### Loopback (R131) -/

theorem State.txStartCheck_reportsError (s : State) : ReportsError s.txStartCheck :=
  reportsError_orElse (reportsError_ite (reportsError_some (by decide) _) reportsError_none)
    (reportsError_ite (reportsError_some (by decide) _) reportsError_none)

/-- A TX_START that succeeds leaves the engine at the start of a frame. -/
theorem State.txStart_ok {s t : State} (hexec : exec .txStart s = .next t) (hok : t.cmd.err = .ok) :
    t.tx.phase = .pre ∧ t.tx.rem = t.txTiming.pre ∧ t.params = s.params := by
  obtain ⟨-, rfl⟩ := State.run_ok s.txStartCheck_reportsError ((exec_txStart s).symm.trans hexec) hok
  exact ⟨rfl, rfl, rfl⟩

/-- Bands that hold the TX durations, in the order of R126. -/
theorem timingInBands_of_le {tm : TxTiming} {b : Bands} (hinit : b.initMin ≤ tm.init ∧ tm.init ≤ b.initMax)
    (hbit0 : b.shortMin ≤ tm.bit0 ∧ tm.bit0 ≤ b.shortMax ∧ tm.bit0 < b.termMin)
    (hbit1 : b.longMin ≤ tm.bit1 ∧ tm.bit1 ≤ b.longMax ∧ tm.bit1 < b.termMin ∧
      ¬ (b.shortMin ≤ tm.bit1 ∧ tm.bit1 ≤ b.shortMax))
    (hterm : b.termMin ≤ tm.term) : TimingInBands tm b := by
  obtain ⟨hmin0, hmax0, hterm0⟩ := hbit0
  obtain ⟨hmin1, hmax1, hterm1, hshort1⟩ := hbit1
  refine ⟨if_pos hinit, fun v => ?_, if_pos hterm⟩
  cases v
  · exact (if_neg (BitVec.not_le.2 hterm0)).trans (if_pos ⟨hmin0, hmax0⟩)
  · exact (if_neg (BitVec.not_le.2 hterm1)).trans ((if_neg hshort1).trans (if_pos ⟨hmin1, hmax1⟩))

/-- Over a frame's ticks and one more in loopback, the RX engine receives the frame and hands it to the parser. -/
theorem State.TxOk.loopback_frame {s : State} (hs : s.TxOk) (hp : s.params.legal = true)
    (hpre : s.tx.phase = .pre) (hrem : s.tx.rem = s.txTiming.pre) (hloop : s.cfg.loop = true)
    (hbands : TimingInBands s.txTiming s.bands) (hph : s.rx.phase = .await)
    (hdet : s.rx.det = .low ∨ s.rx.det = .needLow) {lineIn : List Bool}
    (hticks : lineIn.length = (framePhases s.txTiming (takeBits (s.fbufBit 0) s.tx.len.toNat)).length + 1) :
    ∃ u c q r, s.Received u (s.fbufBit 0) s.tx.len.toNat ∧
      lineIn.foldl State.tickStep s = u.rxHanded.withTx c q r := by
  obtain ⟨-, -, -, hlen, -⟩ := id hs
  obtain ⟨-, -, -, -, -, hmax⟩ := Params.legal_bounds hp
  have hlast : (s.txAt .term 0 1).txReported.tx.phase.level = false := by
    show TxPhase.level (if s.cfg.txRepeat then .delay else .idle) = false
    split <;> rfl
  have hrun := (hs.sends_frame hpre hrem).trans (.tick (.done _))
  obtain ⟨c, q, htick⟩ := hrun.loopback (.refl s) hloop (hlen.trans hmax)
    (lineIn := lineIn) (by rw [hticks, List.length_append]; rfl)
  obtain ⟨u, hu, hreceive⟩ := hs.receives_frame hp hbands hph hdet (s.fbufBit 0)
  rw [map_level_framePhases _ _ hlast, hreceive] at htick
  exact ⟨u, c, q, _, hu, htick⟩

/-- Settles O40: the frame is received bit by bit and handed to the parser, whose step publishes FrameParse. -/
theorem loopbackDeliversFrame : Obligations.LoopbackDeliversFrame := by
  intro s0 s lineIn hs0 hp0 hexec hok hloop hph hdet hinit hbit0 hbit1 hterm hwritten len bits ticks hticks t
  obtain ⟨hpre, hrem, hparams⟩ := State.txStart_ok hexec hok
  have hs : s.TxOk := hs0.exec hexec
  have hp : s.params.legal = true := by rw [hparams]; exact hp0
  obtain ⟨u, c, q, r, ⟨hframe, -, -, hovf, hlen, hbits⟩, ht⟩ := hs.loopback_frame hp hpre hrem hloop
    (timingInBands_of_le hinit hbit0 hbit1 hterm) hph hdet (by rw [hticks, length_framePhases])
  have htrx : t.rx = { u.rx with
      level := false, det := .low, hcnt := 0, phase := .parse
      parsePending := some { len := u.rx.rbufLen, ovf := u.rx.ovf } } := by rw [show t = _ from ht]; rfl
  have hcount : u.rx.rbufLen = s.tx.len := BitVec.eq_of_toNat_eq hlen
  rw [hcount, hovf] at htrx
  have htphase : t.rx.phase = .parse := by rw [htrx]
  have htpending : t.rx.parsePending = some { len := s.tx.len, ovf := false } := by rw [htrx]
  obtain ⟨-, hout, hmsg, -⟩ := parseStepPublishes t _ htphase htpending
  have htout : t.rxOut = s.rxOut := by
    rw [show t = _ from ht]
    show u.rxOut = s.rxOut
    rw [hframe]
  refine ⟨htphase, by rw [htrx], by rw [htrx]; exact hcount, by rw [htrx]; exact hovf, htpending,
    fun pass k hk => ?_, ?_, hmsg⟩
  · have hread : s.fbufBit pass k = s.fbufBit 0 k :=
      (s.readBit_written pass fbufBase k (by decide) (hwritten k hk)).trans
        (s.readBit_written 0 fbufBase k (by decide) (hwritten k hk)).symm
    rw [hread, ← hbits pass k hk, show t = _ from ht]
    rfl
  · rw [← htout]
    exact hout

end Sys2Proof.Machine
end

section
/-! PROOFS of O7, `NopOnlyCompletes`, and O8, `SresetResets`: NOP is a completion and nothing else (43_control.md
R133), and SRESET is the reset of 70_reset_and_hazards.md R151 (R134), which leaves no bit of storage written. -/

namespace Sys2Proof.Machine

/-! ### Storage after a reset (R151) -/

/-- A byte of which no bit has a value is a draw. -/
theorem State.readByte_of_mask_eq_zero {s : State} {a : Nat} (pass : Nat) (hfixed : isFixed a = false)
    (hmask : s.mask a = 0) : s.readByte pass a = Config.freeByte s.draws pass a := by
  have hfull : ~~~(0 : Byte) = BitVec.allOnes 8 := by decide
  rw [State.readByte, hfixed, hmask, hfull, BitVec.and_allOnes]
  simp

/-- After a reset TV = 0 and nothing has been written, so no bit has a value, in the tables or outside them. -/
theorem State.mask_performReset (s : State) (a : Nat) : s.performReset.mask a = 0 := by
  rw [s.performReset_eq, State.mask]
  split
  · rfl
  · exact Memory.get_nil a

theorem State.readByte_performReset (s : State) (pass : Nat) {a : Nat} (hfixed : isFixed a = false) :
    s.performReset.readByte pass a = Config.freeByte s.draws pass a :=
  State.readByte_of_mask_eq_zero pass hfixed (s.mask_performReset a)

/-! ### The output lines after a reset (R151) -/

/-- No interrupt is enabled and TX is idle, whose level is 0. -/
theorem State.lines_performReset (s : State) :
    s.performReset.lineOut = false ∧ s.performReset.irqLine = false := by
  have hreset : State.reset.tx.phase.level = false ∧
      (State.reset.irq.status &&& State.reset.irq.enable != 0) = false := by decide
  exact hreset

/-! ### The commands -/

/-- Settles O7: NOP has no check, and its effect is the identity. -/
theorem nopOnlyCompletes : Obligations.NopOnlyCompletes := by
  intro s
  obtain ⟨hexec, hdone⟩ := exec_completes (exec_nop s) rfl rfl
  exact ⟨_, hexec, hdone, rfl⟩

/-- Settles O8: the registers by the reset state, storage by its mask, and the two lines. -/
theorem sresetResets : Obligations.SresetResets := by
  intro s
  exact ⟨s.performReset, exec_sreset s, rfl, rfl, rfl, rfl, rfl, rfl, rfl, rfl, rfl, rfl, rfl, rfl, rfl, rfl, rfl,
    rfl, rfl, rfl, rfl, fun pass _ hfixed => s.readByte_performReset pass hfixed, s.lines_performReset⟩

end Sys2Proof.Machine
end

section
/-! PROOFS of O50, `IrqLineFollowsRegisters`, and O51, `IrqBitsAreSticky`: what drives irq, and what clears a bit
of IRQ_STATUS (60_exceptions.md R142, R143). -/

namespace Sys2Proof.Machine

/-! ### The line (R143) -/

/-- irq is 1 exactly when a pending source is enabled. -/
theorem State.irqLine_eq_true_iff (s : State) :
    s.irqLine = true ↔
      ∃ b, b < 8 ∧ s.irq.status.getLsbD b = true ∧ s.irq.enable.getLsbD b = true := by
  rw [State.irqLine, bne_iff_ne, Ne, BitVec.eq_of_getLsbD_eq_iff]
  simp

/-- A write to IRQ_STATUS clears the bits written as 1, and no other (R34). -/
theorem Csr.getLsbD_write_irqStatus (s : State) (v : Word) (b : Nat) :
    (Csr.irqStatus.write s v).irq.status.getLsbD b = (s.irq.status.getLsbD b && !v.getLsbD b) := by
  by_cases hb : b < 8
  · simp [Csr.write, hb]
  · simp [Csr.write, BitVec.getLsbD_of_ge _ b (Nat.not_lt.1 hb)]

/-- Settles O50: no bit is left that a write of 1 to every enabled pending bit has not cleared. -/
theorem irqLineFollowsRegisters : Obligations.IrqLineFollowsRegisters := by
  refine ⟨State.irqLine_eq_true_iff, fun s v => rfl, fun s v hv => ?_, State.reset.lines_performReset.2⟩
  rw [← Bool.not_eq_true, State.irqLine_eq_true_iff]
  rintro ⟨b, hb, hstatus, henable⟩
  rw [Csr.getLsbD_write_irqStatus, Bool.and_eq_true, Bool.not_eq_true'] at hstatus
  obtain ⟨hpending, hclear⟩ := hstatus
  exact absurd (hv b hb hpending henable) (by rw [hclear]; exact Bool.false_ne_true)

/-! ### What sets bits and clears none (R142) -/

/-- Every bit of IRQ_STATUS that is 1 in `s` is 1 in `t`. -/
def State.IrqKept (s t : State) : Prop :=
  ∀ b, s.irq.status.getLsbD b = true → t.irq.status.getLsbD b = true

section
variable {s t u : State}

theorem State.IrqKept.of_eq (h : t.irq = s.irq) : s.IrqKept t := fun b hb => by rw [h]; exact hb

theorem State.IrqKept.of_or {m : BitVec 8} (h : t.irq.status = s.irq.status ||| m) : s.IrqKept t :=
  fun b hb => by rw [h, BitVec.getLsbD_or, hb, Bool.true_or]

theorem State.IrqKept.trans (h : s.IrqKept t) (h' : t.IrqKept u) : s.IrqKept u := fun b hb => h' b (h b hb)

end

section
variable (s : State)

theorem State.irqKept_setIrq (bit : Nat) : s.IrqKept (s.setIrq bit) := .of_or rfl

theorem State.irqKept_fail (op : BitVec 8) (code : CmdError) (info : Word) :
    s.IrqKept (s.fail op code info) := .of_or (by rw [State.fail_irq])

/-- A completion only adds its own bits to those its effect sets. -/
theorem State.irqKept_run (op : BitVec 8) (check : Option (CmdError × Word)) {f : State → State}
    (hf : s.IrqKept (f s)) : s.IrqKept (s.run op check f) := by
  rcases s.run_cases op check f with ⟨-, h⟩ | ⟨e, -, h⟩ <;> rw [h]
  · exact hf.trans (.of_or rfl)
  · exact s.irqKept_fail op e.1 e.2

/-- PARSE's effect sets FAULT at most (41_frame.md R111). -/
theorem State.irqKept_parseEffect : s.IrqKept s.parseEffect := by
  unfold State.parseEffect
  dsimp only
  split
  · exact State.IrqKept.trans (.of_eq rfl) (State.irqKept_setIrq _ irqFault)
  · exact .of_eq rfl

/-- A tick sets TX_FRAME at most (42_pulse.md R120). -/
theorem State.irqKept_tickStep (x : Bool) : s.IrqKept (s.tickStep x) := by
  have hirq : (s.tickStep x).irq = s.txTick.irq := by rw [State.tickStep_eq]
  rcases s.txTick_irq with h | ⟨-, h⟩ <;> rw [h] at hirq
  · exact .of_eq hirq
  · exact .of_or (m := 0x08) (by rw [hirq])

/-- A publication sets RX_FRAME, RX_OVR and FAULT at most (42_pulse.md R128). -/
theorem State.irqKept_rxReport (result : FrameResult) : s.IrqKept (s.rxReport result) := by
  rw [State.rxReport_eq]
  refine .of_or (m := 0x10 ||| (if s.irq.status.getLsbD 4 then 0x20 else 0) |||
    (if result = .notree then 0x40 else 0)) ?_
  simp only [BitVec.or_assoc]

theorem State.irqKept_parseStep : s.IrqKept s.parseStep := by
  unfold State.parseStep
  split
  · next snap _ _ =>
    generalize s.frameParse s.rbufBit snap.len.toNat snap.ovf = p
    have hpublish : s.IrqKept (s.rxPublish p) := .of_eq (s.rxPublish_irq p)
    have hreport := (s.rxPublish p).irqKept_rxReport p.verdict.result
    have hrearm : ((s.rxPublish p).rxReport p.verdict.result).IrqKept
        ((s.rxPublish p).rxReport p.verdict.result).rxRearm := .of_eq (by rw [State.rxRearm_eq])
    exact (hpublish.trans hreport).trans hrearm
  · exact .of_eq rfl

/-- A read sets BUS_ERR at most (20_memory.md R60). -/
theorem State.irqKept_busRead (addr : BitVec 20) (strb : BitVec 4) : s.IrqKept (s.busRead addr strb) := by
  obtain ⟨b, sh, h | h⟩ := s.busRead_frame addr strb <;> rw [h]
  · exact .of_eq rfl
  · exact .of_or rfl

/-- A command that reaches CMD sets CMD_OVR at most (30_encoding.md R84). -/
theorem State.irqKept_acceptCmd (v : Word) : s.IrqKept (s.acceptCmd v) := by
  by_cases hp : s.cmd.pending = none
  · rw [State.acceptCmd_of_none v hp]; exact .of_eq rfl
  · rw [State.acceptCmd_of_ne_none v hp]; exact s.irqKept_setIrq irqCmdOvr

/-- No register write but IRQ_STATUS's reaches its bits. -/
theorem Csr.irqKept_write (v : Word) {c : Csr} (hc : c ≠ .irqStatus) : s.IrqKept (c.write s v) := by
  cases c
  case irqStatus => exact absurd rfl hc
  case irqEn => exact fun _ hb => hb
  all_goals exact .of_eq rfl

end

/-! ### One step -/

/-- No command but SRESET clears a bit. -/
theorem exec_irqKept {i : Instr} {s t : State} (h : exec i s = .next t) (hi : i ≠ .sreset) : s.IrqKept t := by
  cases i <;> rw [← Host.Outcome.next.inj h]
  case sreset => exact absurd rfl hi
  case parse => exact s.irqKept_run _ _ s.irqKept_parseEffect
  all_goals exact s.irqKept_run _ _ (.of_eq rfl)

/-- A completion clears no bit: SRESET is never pending (43_control.md R134). -/
theorem State.completeStep_irqKept {s t : State} (h : s.completeStep = .next t)
    (hs : s.cmd.pending ≠ some (encode .sreset)) : s.IrqKept t := by
  rcases s.completeStep_cases with ⟨-, h1⟩ | ⟨w, i, hp, hd, h1⟩ | ⟨w, e, -, -, h1⟩
  · exact .of_eq (by rw [Host.Outcome.next.inj (h1.symm.trans h)])
  · rw [hp, eq_encode_of_decode hd] at hs
    exact exec_irqKept (h1.symm.trans h) (fun hi => hs (by rw [hi]))
  · rw [← Host.Outcome.next.inj (h1.symm.trans h)]
    exact s.irqKept_fail _ _ _

/-- A write clears no bit, unless it is SRESET's or a write of 1 to the bit. -/
theorem State.busWrite_irq {s t : State} {addr : BitVec 20} {strb : BitVec 4} {v : Word} {b : Nat}
    (h : s.busWrite addr strb v = .next t) (hr : turnResets (.hostWrite addr strb v) = false)
    (hb : s.irq.status.getLsbD b = true) :
    t.irq.status.getLsbD b = true ∨ (addr = 0x00044 ∧ strb = 0b1111 ∧ v.getLsbD b = true) := by
  rcases s.busWrite_cases addr strb v with
    h1 | ⟨ha, hs, hv, -⟩ | ⟨-, -, -, h1⟩ | ⟨c, k, hs, hm, -, -, h1⟩ | ⟨-, -, -, -, -, -, h1⟩
  case inr.inl => subst ha hs hv; exact absurd hr (by decide)
  all_goals obtain rfl := Host.Outcome.next.inj (h1.symm.trans h)
  · exact .inl (s.irqKept_setIrq irqBusErr b hb)
  · exact .inl (State.irqKept_acceptCmd _ v b hb)
  · by_cases hc : c = .irqStatus
    · subst hc
      have ha : addr = 0x00044 := BitVec.eq_of_toNat_eq
        (csrTable_offset_unique _ hm (0x044, .irqStatus, .w1c) (by decide) rfl)
      rw [Csr.getLsbD_write_irqStatus]
      cases hv : v.getLsbD b
      · exact .inl (by rw [hb]; rfl)
      · exact .inr ⟨ha, hs, rfl⟩
    · exact .inl (Csr.irqKept_write _ v hc b hb)
  · exact .inl hb

/-- Settles O51, turn by turn. -/
theorem irqBitsAreSticky : Obligations.IrqBitsAreSticky := by
  intro s t b hregs h hb
  obtain ⟨hpend, -⟩ := hregs
  have hact : s.advance.act s.turn = .next t := h
  have hb' : s.advance.irq.status.getLsbD b = true := hb
  cases hturn : s.turn <;> rw [hturn] at hact
  case hostRead addr strb =>
    rw [← Host.Outcome.next.inj hact]
    exact .inl (s.advance.irqKept_busRead addr strb b hb')
  case hostWrite addr strb v =>
    cases hr : turnResets (.hostWrite addr strb v)
    · rcases State.busWrite_irq hact hr hb' with hkept | ⟨rfl, rfl, hv⟩
      · exact .inl hkept
      · exact .inr (.inr ⟨v, rfl, hv⟩)
    · exact .inr (.inl rfl)
  case complete => exact .inl (State.completeStep_irqKept hact hpend b hb')
  case tick x =>
    rw [← Host.Outcome.next.inj hact]
    exact .inl (s.advance.irqKept_tickStep x b hb')
  case parseFrame =>
    rw [← Host.Outcome.next.inj hact]
    exact .inl (s.advance.irqKept_parseStep b hb')
  case reset => exact .inr (.inl rfl)

end Sys2Proof.Machine
end

section
/-! PROOF of O60, `ResetMeetsInvariants`: the state after reset meets the five invariants that every step keeps
(70_reset_and_hazards.md R151). -/

namespace Sys2Proof.Machine

/-- The reset state is what a reset makes of it, so what holds after every reset holds of it. -/
theorem State.performReset_reset : State.reset.performReset = State.reset := rfl

/-- MSG_MAX = 4096 and BITS_MAX = 65536 are capacities that R9 allows. -/
theorem State.legal_reset : State.reset.params.legal = true := by decide

/-- The storage after reset lists nothing. -/
theorem State.storageOk_reset : State.reset.StorageOk :=
  ⟨State.legal_reset, rfl, List.forall_mem_nil _, List.forall_mem_nil _⟩

/-- The RX engine after reset is idle in NEEDLOW: no run, no delay, no frame and no bit in RBUF. -/
theorem State.rxOk_reset : State.reset.RxOk := by
  have hparse : State.reset.rx.phase = .parse ↔ State.reset.rx.parsePending.isSome = true := by decide
  have hhigh : State.reset.rx.det = .high ↔ State.reset.rx.hcnt ≠ 0 := by decide
  have hdelay : State.reset.rx.phase = .delay ↔ State.reset.rx.dcnt ≠ 0 := by decide
  have hlow : State.reset.rx.phase = .parse ∨ State.reset.rx.phase = .delay →
      State.reset.rx.det = .low := by decide
  exact ⟨State.legal_reset, hparse, (fun _ hsnap => by cases hsnap), hhigh, hdelay, Nat.zero_le _,
    (fun hovf => by cases hovf), fun _ => rfl, hlow⟩

/-- Settles O60: TX, the registers and the tree by what any reset makes of them; the storage and RX, whose
invariants need legal capacities, which a reset only keeps, from the reset values themselves. -/
theorem resetMeetsInvariants : Obligations.ResetMeetsInvariants := by
  have htx : State.reset.TxOk := State.performReset_reset ▸ State.reset.txOk_performReset
  have hregs : State.reset.RegsOk := State.performReset_reset ▸ State.reset.regsOk_performReset
  have htree : State.reset.TreeOk := State.performReset_reset ▸ State.reset.treeOk_performReset
  exact ⟨State.storageOk_reset, htx, State.rxOk_reset, hregs, htree⟩

end Sys2Proof.Machine
end
